-- ==== Sys2Proof/Word.lean ====
section
/-! DEFINITION. The widths the spec names (10_state.md R21 to R24, 20_memory.md R60) and the shape of a memory space. -/

namespace Sys2Proof

/-- The element of SRC, T8 and OUT (20_memory.md R60). -/
abbrev Byte := BitVec 8

/-- A cell of RBUF (signed 16-bit), a word of PLANE or CURVE (unsigned 16-bit) (20_memory.md R60). -/
abbrev Half := BitVec 16

/-- A memory space of 20_memory.md R60: (element index, element) pairs. A `Store Byte` is a list of `Host.Cell`. -/
abbrev Store (α : Type) := List (Nat × α)

/-- An entry of a code table: the record of a code length and a raw 8-bit value (10_state.md R30). -/
structure HuffEntry where
  len : BitVec 4
  val : Byte
deriving DecidableEq, Repr

end Sys2Proof
end

