-- ==== Sys2Proof/Config.lean ====
section
/-! DEFINITION. The parameters the spec leaves to an implementation (00_scope.md R6 to R8), the spec's candidates for
them (93_implementation_defined.md G1 to G3), and the free values. -/

namespace Sys2Proof

/-- LUT_ENTRIES (00_scope.md R6): the entries of LAST_SCALE_LUT. -/
def lutEntries : Nat :=
  256

/-- The arguments of DEMOSAIC (45_demosaic.md R213): the samples of T8 (row-major), W, H and CFA_TILE. -/
structure DemosaicArgs where
  t8 : List Byte
  w : Nat
  h : Nat
  tile : BitVec 8
deriving DecidableEq, Repr

/-- The parameters of 00_scope.md R7, R38: fixed for a machine, written by nothing. -/
structure Config where
  /-- HUFF_SPEC: the flat list of (L, V) pairs (R7, 41_huffman.md R141). -/
  huffSpec : List (Nat × Int)
  /-- LAST_SCALE_LUT: its 256 entries, 0 to 255 in order, none where it defines no value (R6, R7, 10_state.md R32). -/
  lastScaleLut : List (Option Nat)
  /-- TONE_BREAKPOINTS: six pairs (x, y) (44_tonecurve.md R200). -/
  toneBreakpoints : List (Nat × Nat)
  /-- DEMOSAIC (45_demosaic.md R213, 93_implementation_defined.md U16), as the pairs (arguments, W * H bytes) at which it
  is not the identity, its default (R215). W_MAX and H_MAX bound its arguments, so every function is such a list
  (notes/assumptions/4.md). -/
  demosaic : List (DemosaicArgs × List Byte)
  /-- PREV_M_INIT (R7, 92_eei_decisions.md D17). -/
  prevMInit : BitVec 6
  /-- BUF_INIT (R7, D18). -/
  bufInit : Half
  /-- PLANE_INIT (R7, D31). -/
  planeInit : Half
  /-- DECAY_BIAS (R6, 93_implementation_defined.md U9). -/
  decayBias : Int
  /-- RESID_SHIFT, 0..7 (R7, U10). -/
  residShift : Nat
  /-- CARRY_SHIFT, 0 or 1 (R7, U12). -/
  carryShift : Nat
  /-- SENTINEL_SHIFT, 0..9 (R7, U11). -/
  sentinelShift : Nat
  /-- W_MAX (R7, D5). -/
  wMax : Nat
  /-- H_MAX (R7, D5). -/
  hMax : Nat
deriving DecidableEq, Repr

/-- Free value (notes/assumptions/13.md): FAULT_INFO after `OutOfMemory` and `InvalidGeometry`, unspecified by
60_exceptions.md R232 and R233. -/
opaque Config.freeFaultInfo : Nat → BitVec 36

/-- Free value (notes/assumptions/14.md): an entry of LAST_SCALE_LUT that the configuration does not define
(93_implementation_defined.md U13). -/
opaque Config.freeScale : Nat → Nat

/-- Free value (notes/assumptions/33.md): what the 24-bit register `val` holds of a product that does not fit it
(10_state.md R24). -/
opaque Config.freeVal : Nat → BitVec 24

/-- Free value (notes/assumptions/14.md): EMIT's quotient at M = 0, which 43_rowpredictor.md R182 gives no value. -/
opaque Config.freeQuotient : Int → Int

/-- Free value (notes/assumptions/14.md): a CURVE word that no segment of the breakpoints covers. -/
opaque Config.freeCurve : Nat → Half

/-- Table 0 (control tree 0) of HUFF_SPEC_REF (30_encoding.md R102). -/
def huffRef0 : List (Nat × Int) :=
  [(1, 1), (2, 3), (3, 4), (4, 2), (5, 7), (6, 5), (7, 6), (7, 8)]

/-- Table 1 (control tree 1) of HUFF_SPEC_REF (30_encoding.md R102). -/
def huffRef1 : List (Nat × Int) :=
  [(1, 0), (2, 1), (3, 3), (4, 4), (5, 2), (6, 7), (7, 6), (8, 5), (8, 8)]

/-- Table 2 (control tree 2) of HUFF_SPEC_REF (30_encoding.md R102). -/
def huffRef2 : List (Nat × Int) :=
  [(2, 1), (2, 3), (3, 0), (3, 2), (3, 4), (4, 6), (5, 5), (6, 7), (6, 8)]

/-- Table 3 (control tree 3) of HUFF_SPEC_REF (30_encoding.md R102). -/
def huffRef3 : List (Nat × Int) :=
  [(2, 0), (2, 1), (2, 3), (3, 2), (4, 4), (5, 6), (6, 7), (7, 5), (7, 8)]

/-- Table 4 (control tree 4) of HUFF_SPEC_REF (30_encoding.md R102). -/
def huffRef4 : List (Nat × Int) :=
  [(2, 1), (2, 4), (3, 0), (3, 2), (3, 3), (4, 7), (5, 5), (6, 6), (6, 8)]

/-- Table 5 (control tree 5) of HUFF_SPEC_REF (30_encoding.md R102). -/
def huffRef5 : List (Nat × Int) :=
  [(2, 3), (3, 1), (3, 2), (3, 4), (3, 5), (3, 6), (4, 7), (5, 0), (5, 8)]

/-- Table 6 (control tree 6) of HUFF_SPEC_REF (30_encoding.md R102). -/
def huffRef6 : List (Nat × Int) :=
  [(2, 3), (2, 6), (3, 0), (3, 1), (4, 4), (4, 5), (4, 7), (5, 2), (5, 8)]

/-- Table 7 (control tree 7) of HUFF_SPEC_REF (30_encoding.md R102). -/
def huffRef7 : List (Nat × Int) :=
  [(2, 4), (2, 7), (3, 3), (3, 6), (4, 1), (4, 2), (4, 5), (5, 0), (5, 8)]

/-- Table 8 (control tree 8) of HUFF_SPEC_REF (30_encoding.md R102). -/
def huffRef8 : List (Nat × Int) :=
  [(2, 6), (3, 1), (3, 3), (3, 5), (3, 7), (3, 8), (4, 0), (5, 2), (5, 4)]

/-- Table 9 (repeat count) of HUFF_SPEC_REF (30_encoding.md R102). -/
def huffRef9 : List (Nat × Int) :=
  [(2, 0), (2, 1), (3, 2), (3, 3), (4, 4), (4, 5), (5, 6), (5, 7), (4, 8)]

/-- Table 10 (step) of HUFF_SPEC_REF (30_encoding.md R102). -/
def huffRef10 : List (Nat × Int) :=
  [(1, 0), (2, 2), (2, -2)]

/-- Table 11 (residual, tree 1) of HUFF_SPEC_REF (30_encoding.md R102). -/
def huffRef11 : List (Nat × Int) :=
  [(1, -3), (1, 3)]

/-- Table 12 (residual, tree 2) of HUFF_SPEC_REF (30_encoding.md R102). -/
def huffRef12 : List (Nat × Int) :=
  [(2, -17), (2, -5), (2, 5), (2, 17)]

/-- Table 13 (residual, tree 3) of HUFF_SPEC_REF (30_encoding.md R102). -/
def huffRef13 : List (Nat × Int) :=
  [(2, -7), (2, 2), (2, 9), (2, 18)]

/-- Table 14 (residual, tree 4) of HUFF_SPEC_REF (30_encoding.md R102). -/
def huffRef14 : List (Nat × Int) :=
  [(2, -18), (2, -9), (2, -2), (2, 7)]

/-- Table 15 (residual, tree 5) of HUFF_SPEC_REF (30_encoding.md R102). -/
def huffRef15 : List (Nat × Int) :=
  [(2, -28), (2, 28), (3, -49), (3, -9), (3, 9), (4, 49), (5, -79), (5, 79)]

/-- Table 16 (residual, tree 6) of HUFF_SPEC_REF (30_encoding.md R102). -/
def huffRef16 : List (Nat × Int) :=
  [(2, -1), (2, 13), (2, 26), (3, 39), (4, -16), (5, 55), (6, -37), (6, 76)]

/-- Table 17 (residual, tree 7) of HUFF_SPEC_REF (30_encoding.md R102). -/
def huffRef17 : List (Nat × Int) :=
  [(2, -26), (2, -13), (2, 1), (3, -39), (4, 16), (5, -55), (6, -76), (6, 37)]

/-- HUFF_SPEC_REF: the 18 rows of 30_encoding.md R102 in order. From general knowledge, not from the source
(93_implementation_defined.md G1; notes/assumptions/1.md). -/
def huffSpecRef : List (Nat × Int) :=
  huffRef0 ++ huffRef1 ++ huffRef2 ++ huffRef3 ++ huffRef4 ++ huffRef5 ++ huffRef6 ++ huffRef7 ++ huffRef8 ++
    huffRef9 ++ huffRef10 ++ huffRef11 ++ huffRef12 ++ huffRef13 ++ huffRef14 ++ huffRef15 ++ huffRef16 ++ huffRef17

/-- LAST_SCALE_LUT_REF (42_scaletracker.md R161; 93_implementation_defined.md G2): defined for m in 1..255. -/
def lastScaleLutRef : List (Option Nat) :=
  none :: (List.range (lutEntries - 1)).map fun i => some ((16777216 / (i + 1) + 2047) >>> 12)

/-- TONE_BREAKPOINTS_REF (44_tonecurve.md R200; 93_implementation_defined.md G3). -/
def toneBreakpointsRef : List (Nat × Nat) :=
  [(0, 0), (1280, 1344), (2320, 3616), (3328, 8000), (4095, 16383), (65535, 16383)]

/-- The configuration of `State.reset`: the spec's defaults (00_scope.md R7), its candidates G1 to G3
(notes/assumptions/1.md, 3.md), and the least W_MAX and H_MAX it admits (notes/assumptions/2.md). -/
def Config.reference : Config where
  huffSpec := huffSpecRef
  lastScaleLut := lastScaleLutRef
  toneBreakpoints := toneBreakpointsRef
  demosaic := []
  prevMInit := 16
  bufInit := 2048
  planeInit := 2048
  decayBias := -1
  residShift := 0
  carryShift := 0
  sentinelShift := 0
  wMax := 320
  hMax := 240

end Sys2Proof
end

