-- ==== Sys2Proof/Syntax.lean ====
section
/-! DEFINITION. The instructions of the stream: one constructor per row of spec/opcode_table.json, in its order. -/

namespace Sys2Proof

/-- The rows of spec/opcode_table.json (30_encoding.md R103). `grp<Kind>C<c>` is the control code of that group kind in
context `c` (R93); `tok…` is a token of one table (R91); a negative value is written with `M` (R103). Residual tokens
are `tokRes<t>_<value>`. -/
inductive Instr where
  /-- BANDHDR, format H: `M[5:0] P1[5:0] P2[5:0]` (30_encoding.md R92, 42_scaletracker.md R160). -/
  | bandhdr (m p1 p2 : BitVec 6)
  | grpPred1C0
  | grpPred2C0
  | grpPred3C0
  | grpPred4C0
  | grpPred5C0
  | grpPred6C0
  | grpPred7C0
  | grpLitC0
  | grpRunC1
  | grpPred1C1
  | grpPred2C1
  | grpPred3C1
  | grpPred4C1
  | grpPred5C1
  | grpPred6C1
  | grpPred7C1
  | grpLitC1
  | grpRunC2
  | grpPred1C2
  | grpPred2C2
  | grpPred3C2
  | grpPred4C2
  | grpPred5C2
  | grpPred6C2
  | grpPred7C2
  | grpLitC2
  | grpRunC3
  | grpPred1C3
  | grpPred2C3
  | grpPred3C3
  | grpPred4C3
  | grpPred5C3
  | grpPred6C3
  | grpPred7C3
  | grpLitC3
  | grpRunC4
  | grpPred1C4
  | grpPred2C4
  | grpPred3C4
  | grpPred4C4
  | grpPred5C4
  | grpPred6C4
  | grpPred7C4
  | grpLitC4
  | grpRunC5
  | grpPred1C5
  | grpPred2C5
  | grpPred3C5
  | grpPred4C5
  | grpPred5C5
  | grpPred6C5
  | grpPred7C5
  | grpLitC5
  | grpRunC6
  | grpPred1C6
  | grpPred2C6
  | grpPred3C6
  | grpPred4C6
  | grpPred5C6
  | grpPred6C6
  | grpPred7C6
  | grpLitC6
  | grpRunC7
  | grpPred1C7
  | grpPred2C7
  | grpPred3C7
  | grpPred4C7
  | grpPred5C7
  | grpPred6C7
  | grpPred7C7
  | grpLitC7
  | grpRunC8
  | grpPred1C8
  | grpPred2C8
  | grpPred3C8
  | grpPred4C8
  | grpPred5C8
  | grpPred6C8
  | grpPred7C8
  | grpLitC8
  | tokNreps1
  | tokNreps2
  | tokNreps3
  | tokNreps4
  | tokNreps5
  | tokNreps6
  | tokNreps7
  | tokNreps8
  | tokNreps9
  | tokStepM2
  | tokStep0
  | tokStep2
  | tokRes1_M3
  | tokRes1_3
  | tokRes2_M17
  | tokRes2_M5
  | tokRes2_5
  | tokRes2_17
  | tokRes3_M7
  | tokRes3_2
  | tokRes3_9
  | tokRes3_18
  | tokRes4_M18
  | tokRes4_M9
  | tokRes4_M2
  | tokRes4_7
  | tokRes5_M79
  | tokRes5_M49
  | tokRes5_M28
  | tokRes5_M9
  | tokRes5_9
  | tokRes5_28
  | tokRes5_49
  | tokRes5_79
  | tokRes6_M37
  | tokRes6_M16
  | tokRes6_M1
  | tokRes6_13
  | tokRes6_26
  | tokRes6_39
  | tokRes6_55
  | tokRes6_76
  | tokRes7_M76
  | tokRes7_M55
  | tokRes7_M39
  | tokRes7_M26
  | tokRes7_M13
  | tokRes7_1
  | tokRes7_16
  | tokRes7_37
  /-- TOK.LIT, `vvvvv` (R94, R95). -/
  | tokLit (v : BitVec 5)
deriving DecidableEq, Repr

/-- Where in the grammar of 30_encoding.md R90 an instruction stands: a band header (format H, no code word), or a
code word of the table with this flat index (R100). -/
inductive Slot where
  | header
  | code (t : Nat)
deriving DecidableEq, Repr

end Sys2Proof
end

