-- ==== Sys2Proof/Decode.lean ====
section
/-! DEFINITION. The code tables as BUILD lays them out (41_huffman.md R140 to R142), the decoder of the stream's
instructions, and the encoder. A word of the stream is a list of bits, first stream bit first (00_scope.md R10). -/

namespace Sys2Proof

/-! ## Bits -/

/-- The `n` low bits of `w`, the most significant first: the first stream bit is bit `n - 1` (20_memory.md R61). -/
def wordBits : Nat → Nat → List Bool
  | 0, _ => []
  | n + 1, w => w.testBit n :: wordBits n w

/-- The number that a bit string spells, first bit most significant (00_scope.md R10). -/
def bitsValue (bits : List Bool) : Nat :=
  bits.foldl (fun v b => 2 * v + b.toNat) 0

/-! ## BUILD and BUILD_LIT -/

/-- The slot of BUILD's flat array (41_huffman.md R141): the pairs laid out in list order, `256 >> L` slots each. -/
def entryAt : List (Nat × Int) → Nat → Option HuffEntry
  | [], _ => none
  | (l, v) :: rest, s =>
    if s < 256 >>> l then some ⟨BitVec.ofNat 4 l, BitVec.ofInt 8 v⟩ else entryAt rest (s - 256 >>> l)

/-- BUILD_LIT's entry for index `c` (41_huffman.md R142). -/
def litEntry (c : Nat) : HuffEntry :=
  ⟨5, (BitVec.ofNat 8 c &&& 0xF8) ||| 0x04⟩

/-- `HUFF[t][c]` as BUILD and BUILD_LIT leave it (41_huffman.md R140 to R142); none where there is no such entry. -/
def builtEntry (spec : List (Nat × Int)) (t c : Nat) : Option HuffEntry :=
  if t < 18 then entryAt spec (256 * t + c) else if t = 18 then some (litEntry c) else none

/-! ## The rows -/

/-- The 8-bit value of a literal token with field `v`: `(v << 3) | 4` (30_encoding.md R95). -/
def literalByte (v : BitVec 5) : Byte :=
  (v.setWidth 8 <<< 3) ||| 4

/-- The rows of spec/opcode_table.json that are code words of table `t`, each under the raw value its entry holds. -/
def codeBook : Nat → List (Byte × Instr)
  | 0 => [(1, .grpPred1C0), (2, .grpPred2C0), (3, .grpPred3C0), (4, .grpPred4C0), (5, .grpPred5C0), (6, .grpPred6C0), (7, .grpPred7C0), (8, .grpLitC0)]
  | 1 => [(0, .grpRunC1), (1, .grpPred1C1), (2, .grpPred2C1), (3, .grpPred3C1), (4, .grpPred4C1), (5, .grpPred5C1), (6, .grpPred6C1), (7, .grpPred7C1), (8, .grpLitC1)]
  | 2 => [(0, .grpRunC2), (1, .grpPred1C2), (2, .grpPred2C2), (3, .grpPred3C2), (4, .grpPred4C2), (5, .grpPred5C2), (6, .grpPred6C2), (7, .grpPred7C2), (8, .grpLitC2)]
  | 3 => [(0, .grpRunC3), (1, .grpPred1C3), (2, .grpPred2C3), (3, .grpPred3C3), (4, .grpPred4C3), (5, .grpPred5C3), (6, .grpPred6C3), (7, .grpPred7C3), (8, .grpLitC3)]
  | 4 => [(0, .grpRunC4), (1, .grpPred1C4), (2, .grpPred2C4), (3, .grpPred3C4), (4, .grpPred4C4), (5, .grpPred5C4), (6, .grpPred6C4), (7, .grpPred7C4), (8, .grpLitC4)]
  | 5 => [(0, .grpRunC5), (1, .grpPred1C5), (2, .grpPred2C5), (3, .grpPred3C5), (4, .grpPred4C5), (5, .grpPred5C5), (6, .grpPred6C5), (7, .grpPred7C5), (8, .grpLitC5)]
  | 6 => [(0, .grpRunC6), (1, .grpPred1C6), (2, .grpPred2C6), (3, .grpPred3C6), (4, .grpPred4C6), (5, .grpPred5C6), (6, .grpPred6C6), (7, .grpPred7C6), (8, .grpLitC6)]
  | 7 => [(0, .grpRunC7), (1, .grpPred1C7), (2, .grpPred2C7), (3, .grpPred3C7), (4, .grpPred4C7), (5, .grpPred5C7), (6, .grpPred6C7), (7, .grpPred7C7), (8, .grpLitC7)]
  | 8 => [(0, .grpRunC8), (1, .grpPred1C8), (2, .grpPred2C8), (3, .grpPred3C8), (4, .grpPred4C8), (5, .grpPred5C8), (6, .grpPred6C8), (7, .grpPred7C8), (8, .grpLitC8)]
  | 9 => [(0, .tokNreps1), (1, .tokNreps2), (2, .tokNreps3), (3, .tokNreps4), (4, .tokNreps5), (5, .tokNreps6), (6, .tokNreps7), (7, .tokNreps8), (8, .tokNreps9)]
  | 10 => [(254, .tokStepM2), (0, .tokStep0), (2, .tokStep2)]
  | 11 => [(253, .tokRes1_M3), (3, .tokRes1_3)]
  | 12 => [(239, .tokRes2_M17), (251, .tokRes2_M5), (5, .tokRes2_5), (17, .tokRes2_17)]
  | 13 => [(249, .tokRes3_M7), (2, .tokRes3_2), (9, .tokRes3_9), (18, .tokRes3_18)]
  | 14 => [(238, .tokRes4_M18), (247, .tokRes4_M9), (254, .tokRes4_M2), (7, .tokRes4_7)]
  | 15 => [(177, .tokRes5_M79), (207, .tokRes5_M49), (228, .tokRes5_M28), (247, .tokRes5_M9), (9, .tokRes5_9), (28, .tokRes5_28), (49, .tokRes5_49), (79, .tokRes5_79)]
  | 16 => [(219, .tokRes6_M37), (240, .tokRes6_M16), (255, .tokRes6_M1), (13, .tokRes6_13), (26, .tokRes6_26), (39, .tokRes6_39), (55, .tokRes6_55), (76, .tokRes6_76)]
  | 17 => [(180, .tokRes7_M76), (201, .tokRes7_M55), (217, .tokRes7_M39), (230, .tokRes7_M26), (243, .tokRes7_M13), (1, .tokRes7_1), (16, .tokRes7_16), (37, .tokRes7_37)]
  | _ => []

/-- The row that stands for value `v` of table `t`, where the table of opcodes has one (30_encoding.md R103). -/
def rowOf (t : Nat) (v : Byte) : Option Instr :=
  if t = 18 then
    if v &&& 7 = 4 then some (.tokLit ((v >>> 3).setWidth 5)) else none
  else ((codeBook t).find? fun r => r.1 == v).map (·.2)

/-- Where an instruction stands (30_encoding.md R90, R100). -/
def Instr.slot : Instr → Slot
  | .bandhdr _ _ _ => .header
  | .grpPred1C0 => .code 0
  | .grpPred2C0 => .code 0
  | .grpPred3C0 => .code 0
  | .grpPred4C0 => .code 0
  | .grpPred5C0 => .code 0
  | .grpPred6C0 => .code 0
  | .grpPred7C0 => .code 0
  | .grpLitC0 => .code 0
  | .grpRunC1 => .code 1
  | .grpPred1C1 => .code 1
  | .grpPred2C1 => .code 1
  | .grpPred3C1 => .code 1
  | .grpPred4C1 => .code 1
  | .grpPred5C1 => .code 1
  | .grpPred6C1 => .code 1
  | .grpPred7C1 => .code 1
  | .grpLitC1 => .code 1
  | .grpRunC2 => .code 2
  | .grpPred1C2 => .code 2
  | .grpPred2C2 => .code 2
  | .grpPred3C2 => .code 2
  | .grpPred4C2 => .code 2
  | .grpPred5C2 => .code 2
  | .grpPred6C2 => .code 2
  | .grpPred7C2 => .code 2
  | .grpLitC2 => .code 2
  | .grpRunC3 => .code 3
  | .grpPred1C3 => .code 3
  | .grpPred2C3 => .code 3
  | .grpPred3C3 => .code 3
  | .grpPred4C3 => .code 3
  | .grpPred5C3 => .code 3
  | .grpPred6C3 => .code 3
  | .grpPred7C3 => .code 3
  | .grpLitC3 => .code 3
  | .grpRunC4 => .code 4
  | .grpPred1C4 => .code 4
  | .grpPred2C4 => .code 4
  | .grpPred3C4 => .code 4
  | .grpPred4C4 => .code 4
  | .grpPred5C4 => .code 4
  | .grpPred6C4 => .code 4
  | .grpPred7C4 => .code 4
  | .grpLitC4 => .code 4
  | .grpRunC5 => .code 5
  | .grpPred1C5 => .code 5
  | .grpPred2C5 => .code 5
  | .grpPred3C5 => .code 5
  | .grpPred4C5 => .code 5
  | .grpPred5C5 => .code 5
  | .grpPred6C5 => .code 5
  | .grpPred7C5 => .code 5
  | .grpLitC5 => .code 5
  | .grpRunC6 => .code 6
  | .grpPred1C6 => .code 6
  | .grpPred2C6 => .code 6
  | .grpPred3C6 => .code 6
  | .grpPred4C6 => .code 6
  | .grpPred5C6 => .code 6
  | .grpPred6C6 => .code 6
  | .grpPred7C6 => .code 6
  | .grpLitC6 => .code 6
  | .grpRunC7 => .code 7
  | .grpPred1C7 => .code 7
  | .grpPred2C7 => .code 7
  | .grpPred3C7 => .code 7
  | .grpPred4C7 => .code 7
  | .grpPred5C7 => .code 7
  | .grpPred6C7 => .code 7
  | .grpPred7C7 => .code 7
  | .grpLitC7 => .code 7
  | .grpRunC8 => .code 8
  | .grpPred1C8 => .code 8
  | .grpPred2C8 => .code 8
  | .grpPred3C8 => .code 8
  | .grpPred4C8 => .code 8
  | .grpPred5C8 => .code 8
  | .grpPred6C8 => .code 8
  | .grpPred7C8 => .code 8
  | .grpLitC8 => .code 8
  | .tokNreps1 => .code 9
  | .tokNreps2 => .code 9
  | .tokNreps3 => .code 9
  | .tokNreps4 => .code 9
  | .tokNreps5 => .code 9
  | .tokNreps6 => .code 9
  | .tokNreps7 => .code 9
  | .tokNreps8 => .code 9
  | .tokNreps9 => .code 9
  | .tokStepM2 => .code 10
  | .tokStep0 => .code 10
  | .tokStep2 => .code 10
  | .tokRes1_M3 => .code 11
  | .tokRes1_3 => .code 11
  | .tokRes2_M17 => .code 12
  | .tokRes2_M5 => .code 12
  | .tokRes2_5 => .code 12
  | .tokRes2_17 => .code 12
  | .tokRes3_M7 => .code 13
  | .tokRes3_2 => .code 13
  | .tokRes3_9 => .code 13
  | .tokRes3_18 => .code 13
  | .tokRes4_M18 => .code 14
  | .tokRes4_M9 => .code 14
  | .tokRes4_M2 => .code 14
  | .tokRes4_7 => .code 14
  | .tokRes5_M79 => .code 15
  | .tokRes5_M49 => .code 15
  | .tokRes5_M28 => .code 15
  | .tokRes5_M9 => .code 15
  | .tokRes5_9 => .code 15
  | .tokRes5_28 => .code 15
  | .tokRes5_49 => .code 15
  | .tokRes5_79 => .code 15
  | .tokRes6_M37 => .code 16
  | .tokRes6_M16 => .code 16
  | .tokRes6_M1 => .code 16
  | .tokRes6_13 => .code 16
  | .tokRes6_26 => .code 16
  | .tokRes6_39 => .code 16
  | .tokRes6_55 => .code 16
  | .tokRes6_76 => .code 16
  | .tokRes7_M76 => .code 17
  | .tokRes7_M55 => .code 17
  | .tokRes7_M39 => .code 17
  | .tokRes7_M26 => .code 17
  | .tokRes7_M13 => .code 17
  | .tokRes7_1 => .code 17
  | .tokRes7_16 => .code 17
  | .tokRes7_37 => .code 17
  | .tokLit _ => .code 18

/-- The raw 8-bit value that the entry of an instruction's code word holds (30_encoding.md R98, R102); 0 for BANDHDR,
which is no code word. -/
def Instr.codeByte : Instr → Byte
  | .bandhdr _ _ _ => 0
  | .grpPred1C0 => 1
  | .grpPred2C0 => 2
  | .grpPred3C0 => 3
  | .grpPred4C0 => 4
  | .grpPred5C0 => 5
  | .grpPred6C0 => 6
  | .grpPred7C0 => 7
  | .grpLitC0 => 8
  | .grpRunC1 => 0
  | .grpPred1C1 => 1
  | .grpPred2C1 => 2
  | .grpPred3C1 => 3
  | .grpPred4C1 => 4
  | .grpPred5C1 => 5
  | .grpPred6C1 => 6
  | .grpPred7C1 => 7
  | .grpLitC1 => 8
  | .grpRunC2 => 0
  | .grpPred1C2 => 1
  | .grpPred2C2 => 2
  | .grpPred3C2 => 3
  | .grpPred4C2 => 4
  | .grpPred5C2 => 5
  | .grpPred6C2 => 6
  | .grpPred7C2 => 7
  | .grpLitC2 => 8
  | .grpRunC3 => 0
  | .grpPred1C3 => 1
  | .grpPred2C3 => 2
  | .grpPred3C3 => 3
  | .grpPred4C3 => 4
  | .grpPred5C3 => 5
  | .grpPred6C3 => 6
  | .grpPred7C3 => 7
  | .grpLitC3 => 8
  | .grpRunC4 => 0
  | .grpPred1C4 => 1
  | .grpPred2C4 => 2
  | .grpPred3C4 => 3
  | .grpPred4C4 => 4
  | .grpPred5C4 => 5
  | .grpPred6C4 => 6
  | .grpPred7C4 => 7
  | .grpLitC4 => 8
  | .grpRunC5 => 0
  | .grpPred1C5 => 1
  | .grpPred2C5 => 2
  | .grpPred3C5 => 3
  | .grpPred4C5 => 4
  | .grpPred5C5 => 5
  | .grpPred6C5 => 6
  | .grpPred7C5 => 7
  | .grpLitC5 => 8
  | .grpRunC6 => 0
  | .grpPred1C6 => 1
  | .grpPred2C6 => 2
  | .grpPred3C6 => 3
  | .grpPred4C6 => 4
  | .grpPred5C6 => 5
  | .grpPred6C6 => 6
  | .grpPred7C6 => 7
  | .grpLitC6 => 8
  | .grpRunC7 => 0
  | .grpPred1C7 => 1
  | .grpPred2C7 => 2
  | .grpPred3C7 => 3
  | .grpPred4C7 => 4
  | .grpPred5C7 => 5
  | .grpPred6C7 => 6
  | .grpPred7C7 => 7
  | .grpLitC7 => 8
  | .grpRunC8 => 0
  | .grpPred1C8 => 1
  | .grpPred2C8 => 2
  | .grpPred3C8 => 3
  | .grpPred4C8 => 4
  | .grpPred5C8 => 5
  | .grpPred6C8 => 6
  | .grpPred7C8 => 7
  | .grpLitC8 => 8
  | .tokNreps1 => 0
  | .tokNreps2 => 1
  | .tokNreps3 => 2
  | .tokNreps4 => 3
  | .tokNreps5 => 4
  | .tokNreps6 => 5
  | .tokNreps7 => 6
  | .tokNreps8 => 7
  | .tokNreps9 => 8
  | .tokStepM2 => 254
  | .tokStep0 => 0
  | .tokStep2 => 2
  | .tokRes1_M3 => 253
  | .tokRes1_3 => 3
  | .tokRes2_M17 => 239
  | .tokRes2_M5 => 251
  | .tokRes2_5 => 5
  | .tokRes2_17 => 17
  | .tokRes3_M7 => 249
  | .tokRes3_2 => 2
  | .tokRes3_9 => 9
  | .tokRes3_18 => 18
  | .tokRes4_M18 => 238
  | .tokRes4_M9 => 247
  | .tokRes4_M2 => 254
  | .tokRes4_7 => 7
  | .tokRes5_M79 => 177
  | .tokRes5_M49 => 207
  | .tokRes5_M28 => 228
  | .tokRes5_M9 => 247
  | .tokRes5_9 => 9
  | .tokRes5_28 => 28
  | .tokRes5_49 => 49
  | .tokRes5_79 => 79
  | .tokRes6_M37 => 219
  | .tokRes6_M16 => 240
  | .tokRes6_M1 => 255
  | .tokRes6_13 => 13
  | .tokRes6_26 => 26
  | .tokRes6_39 => 39
  | .tokRes6_55 => 55
  | .tokRes6_76 => 76
  | .tokRes7_M76 => 180
  | .tokRes7_M55 => 201
  | .tokRes7_M39 => 217
  | .tokRes7_M26 => 230
  | .tokRes7_M13 => 243
  | .tokRes7_1 => 1
  | .tokRes7_16 => 16
  | .tokRes7_37 => 37
  | .tokLit v => literalByte v

/-! ## The decoder -/

/-- Why a bit string is no instruction. There is no illegal code word (30_encoding.md R104): the bits end too early,
or the table is no code (a configuration that breaks 00_scope.md R8), or there is no such table, or the table of
opcodes has no row for the value (an admitted HUFF_SPEC other than HUFF_SPEC_REF). -/
inductive DecodeError where
  | endOfBits
  | incompleteTable (t : Nat)
  | noSuchTable (t : Nat)
  | noRow (t : Nat) (v : Byte)
deriving DecidableEq, Repr

/-- An `n`-bit field, MSB first (20_memory.md R61): its value and the bits after it. -/
def takeField : Nat → Nat → List Bool → Except DecodeError (Nat × List Bool)
  | 0, v, bits => .ok (v, bits)
  | _ + 1, _, [] => .error .endOfBits
  | n + 1, v, b :: bits => takeField n (2 * v + b.toNat) bits

/-- DECODE's loop (41_huffman.md R143) on a bit string: `k` is the number of the next bit, `p` the prefix read so far,
`n` the bits that may still be read. -/
def takeCode (spec : List (Nat × Int)) (t : Nat) :
    (n k p : Nat) → List Bool → Except DecodeError (Byte × List Bool)
  | 0, _, _, _ => .error (.incompleteTable t)
  | _ + 1, _, _, [] => .error .endOfBits
  | n + 1, k, p, b :: bits =>
    let p' := 2 * p + b.toNat
    match builtEntry spec t (p' <<< (8 - k)) with
    | none => .error (if t ≤ 18 then .incompleteTable t else .noSuchTable t)
    | some e => if e.len.toNat = k then .ok (e.val, bits) else takeCode spec t n (k + 1) p' bits

/-- DECODE(t) (41_huffman.md R143) on a bit string: the raw value and the bits after the code word. -/
def decodeCode (spec : List (Nat × Int)) (t : Nat) (bits : List Bool) : Except DecodeError (Byte × List Bool) :=
  takeCode spec t 8 1 0 bits

/-- The three fields of format H (30_encoding.md R92) and the bits after them. -/
def decodeHeader (bits : List Bool) : Except DecodeError (Instr × List Bool) :=
  match takeField 6 0 bits with
  | .error e => .error e
  | .ok (m, bits) =>
    match takeField 6 0 bits with
    | .error e => .error e
    | .ok (p1, bits) =>
      match takeField 6 0 bits with
      | .error e => .error e
      | .ok (p2, bits) => .ok (.bandhdr (BitVec.ofNat 6 m) (BitVec.ofNat 6 p1) (BitVec.ofNat 6 p2), bits)

/-- The instruction at the front of a bit string that stands at slot `sl`, and the bits after it. -/
def decode (spec : List (Nat × Int)) (sl : Slot) (bits : List Bool) : Except DecodeError (Instr × List Bool) :=
  match sl with
  | .header => decodeHeader bits
  | .code t =>
    match decodeCode spec t bits with
    | .error e => .error e
    | .ok (v, rest) =>
      match rowOf t v with
      | some i => .ok (i, rest)
      | none => .error (.noRow t v)

/-! ## The encoder -/

/-- The bits of an instruction in stream order: the "encoding" column of spec/opcode_table.json (30_encoding.md R92,
R94, R102). -/
def encode : Instr → List Bool
  | .bandhdr m p1 p2 => wordBits 6 m.toNat ++ wordBits 6 p1.toNat ++ wordBits 6 p2.toNat
  | .grpPred1C0 => wordBits 1 0b0
  | .grpPred2C0 => wordBits 4 0b1110
  | .grpPred3C0 => wordBits 2 0b10
  | .grpPred4C0 => wordBits 3 0b110
  | .grpPred5C0 => wordBits 6 0b111110
  | .grpPred6C0 => wordBits 7 0b1111110
  | .grpPred7C0 => wordBits 5 0b11110
  | .grpLitC0 => wordBits 7 0b1111111
  | .grpRunC1 => wordBits 1 0b0
  | .grpPred1C1 => wordBits 2 0b10
  | .grpPred2C1 => wordBits 5 0b11110
  | .grpPred3C1 => wordBits 3 0b110
  | .grpPred4C1 => wordBits 4 0b1110
  | .grpPred5C1 => wordBits 8 0b11111110
  | .grpPred6C1 => wordBits 7 0b1111110
  | .grpPred7C1 => wordBits 6 0b111110
  | .grpLitC1 => wordBits 8 0b11111111
  | .grpRunC2 => wordBits 3 0b100
  | .grpPred1C2 => wordBits 2 0b00
  | .grpPred2C2 => wordBits 3 0b101
  | .grpPred3C2 => wordBits 2 0b01
  | .grpPred4C2 => wordBits 3 0b110
  | .grpPred5C2 => wordBits 5 0b11110
  | .grpPred6C2 => wordBits 4 0b1110
  | .grpPred7C2 => wordBits 6 0b111110
  | .grpLitC2 => wordBits 6 0b111111
  | .grpRunC3 => wordBits 2 0b00
  | .grpPred1C3 => wordBits 2 0b01
  | .grpPred2C3 => wordBits 3 0b110
  | .grpPred3C3 => wordBits 2 0b10
  | .grpPred4C3 => wordBits 4 0b1110
  | .grpPred5C3 => wordBits 7 0b1111110
  | .grpPred6C3 => wordBits 5 0b11110
  | .grpPred7C3 => wordBits 6 0b111110
  | .grpLitC3 => wordBits 7 0b1111111
  | .grpRunC4 => wordBits 3 0b100
  | .grpPred1C4 => wordBits 2 0b00
  | .grpPred2C4 => wordBits 3 0b101
  | .grpPred3C4 => wordBits 3 0b110
  | .grpPred4C4 => wordBits 2 0b01
  | .grpPred5C4 => wordBits 5 0b11110
  | .grpPred6C4 => wordBits 6 0b111110
  | .grpPred7C4 => wordBits 4 0b1110
  | .grpLitC4 => wordBits 6 0b111111
  | .grpRunC5 => wordBits 5 0b11110
  | .grpPred1C5 => wordBits 3 0b010
  | .grpPred2C5 => wordBits 3 0b011
  | .grpPred3C5 => wordBits 2 0b00
  | .grpPred4C5 => wordBits 3 0b100
  | .grpPred5C5 => wordBits 3 0b101
  | .grpPred6C5 => wordBits 3 0b110
  | .grpPred7C5 => wordBits 4 0b1110
  | .grpLitC5 => wordBits 5 0b11111
  | .grpRunC6 => wordBits 3 0b100
  | .grpPred1C6 => wordBits 3 0b101
  | .grpPred2C6 => wordBits 5 0b11110
  | .grpPred3C6 => wordBits 2 0b00
  | .grpPred4C6 => wordBits 4 0b1100
  | .grpPred5C6 => wordBits 4 0b1101
  | .grpPred6C6 => wordBits 2 0b01
  | .grpPred7C6 => wordBits 4 0b1110
  | .grpLitC6 => wordBits 5 0b11111
  | .grpRunC7 => wordBits 5 0b11110
  | .grpPred1C7 => wordBits 4 0b1100
  | .grpPred2C7 => wordBits 4 0b1101
  | .grpPred3C7 => wordBits 3 0b100
  | .grpPred4C7 => wordBits 2 0b00
  | .grpPred5C7 => wordBits 4 0b1110
  | .grpPred6C7 => wordBits 3 0b101
  | .grpPred7C7 => wordBits 2 0b01
  | .grpLitC7 => wordBits 5 0b11111
  | .grpRunC8 => wordBits 4 0b1110
  | .grpPred1C8 => wordBits 3 0b010
  | .grpPred2C8 => wordBits 5 0b11110
  | .grpPred3C8 => wordBits 3 0b011
  | .grpPred4C8 => wordBits 5 0b11111
  | .grpPred5C8 => wordBits 3 0b100
  | .grpPred6C8 => wordBits 2 0b00
  | .grpPred7C8 => wordBits 3 0b101
  | .grpLitC8 => wordBits 3 0b110
  | .tokNreps1 => wordBits 2 0b00
  | .tokNreps2 => wordBits 2 0b01
  | .tokNreps3 => wordBits 3 0b100
  | .tokNreps4 => wordBits 3 0b101
  | .tokNreps5 => wordBits 4 0b1100
  | .tokNreps6 => wordBits 4 0b1101
  | .tokNreps7 => wordBits 5 0b11100
  | .tokNreps8 => wordBits 5 0b11101
  | .tokNreps9 => wordBits 4 0b1111
  | .tokStepM2 => wordBits 2 0b11
  | .tokStep0 => wordBits 1 0b0
  | .tokStep2 => wordBits 2 0b10
  | .tokRes1_M3 => wordBits 1 0b0
  | .tokRes1_3 => wordBits 1 0b1
  | .tokRes2_M17 => wordBits 2 0b00
  | .tokRes2_M5 => wordBits 2 0b01
  | .tokRes2_5 => wordBits 2 0b10
  | .tokRes2_17 => wordBits 2 0b11
  | .tokRes3_M7 => wordBits 2 0b00
  | .tokRes3_2 => wordBits 2 0b01
  | .tokRes3_9 => wordBits 2 0b10
  | .tokRes3_18 => wordBits 2 0b11
  | .tokRes4_M18 => wordBits 2 0b00
  | .tokRes4_M9 => wordBits 2 0b01
  | .tokRes4_M2 => wordBits 2 0b10
  | .tokRes4_7 => wordBits 2 0b11
  | .tokRes5_M79 => wordBits 5 0b11110
  | .tokRes5_M49 => wordBits 3 0b100
  | .tokRes5_M28 => wordBits 2 0b00
  | .tokRes5_M9 => wordBits 3 0b101
  | .tokRes5_9 => wordBits 3 0b110
  | .tokRes5_28 => wordBits 2 0b01
  | .tokRes5_49 => wordBits 4 0b1110
  | .tokRes5_79 => wordBits 5 0b11111
  | .tokRes6_M37 => wordBits 6 0b111110
  | .tokRes6_M16 => wordBits 4 0b1110
  | .tokRes6_M1 => wordBits 2 0b00
  | .tokRes6_13 => wordBits 2 0b01
  | .tokRes6_26 => wordBits 2 0b10
  | .tokRes6_39 => wordBits 3 0b110
  | .tokRes6_55 => wordBits 5 0b11110
  | .tokRes6_76 => wordBits 6 0b111111
  | .tokRes7_M76 => wordBits 6 0b111110
  | .tokRes7_M55 => wordBits 5 0b11110
  | .tokRes7_M39 => wordBits 3 0b110
  | .tokRes7_M26 => wordBits 2 0b00
  | .tokRes7_M13 => wordBits 2 0b01
  | .tokRes7_1 => wordBits 2 0b10
  | .tokRes7_16 => wordBits 4 0b1110
  | .tokRes7_37 => wordBits 6 0b111111
  | .tokLit v => wordBits 5 v.toNat

/-! ## The opcode table's numbers

A row's bits are one number whose bit `width - 1` is the first stream bit (BANDHDR: "Bit 17 is the first stream bit").
The number and its rounded length do not name the table it is read through, so `placeOf` takes the first slot, in the
order of the table's rows, at which the number is exactly one instruction (DESIGN CHOICE, notes/assumptions/21.md). -/

/-- The slots in the order of the table's rows (30_encoding.md R100, R103). -/
def codeSlots : List Slot :=
  (List.range 19).map .code

/-- The (slot, width) pairs a number of `nbits` bits may be: 18 (24 in whole bytes) is format H; any other width is one
code word's, and 8 stands for every width up to 8, the table's widths being rounded to whole bytes. -/
def placesFor (nbits : Nat) : List (Slot × Nat) :=
  if nbits = 18 ∨ nbits = 24 then [(.header, 18)]
  else if nbits = 8 then codeSlots.flatMap fun sl => (List.range 8).map fun n => (sl, n + 1)
  else if nbits < 8 then codeSlots.map fun sl => (sl, nbits)
  else []

/-- The instruction that `w` is, whole, at slot `p.1` and width `p.2`. -/
def wholeWord (w : Nat) (p : Slot × Nat) : Option Instr :=
  if w < 2 ^ p.2 then
    match decode huffSpecRef p.1 (wordBits p.2 w) with
    | .ok (i, []) => some i
    | _ => none
  else none

/-- The slot and width at which the table's number `w` of `nbits` bits is read. -/
def placeOf (nbits w : Nat) : Option (Slot × Nat) :=
  (placesFor nbits).find? fun p => (wholeWord w p).isSome

/-- The instruction the decoder reads from the table's number `w` of `nbits` bits. -/
def decodeTableWord (nbits w : Nat) : Option Instr :=
  (placeOf nbits w).bind (wholeWord w)

end Sys2Proof
end

