-- ==== Sys2Proof/Machine/State.lean ====
section
/-! DEFINITION. The machine's state (10_state.md), the reasons a step can stop, and the state after hardware reset. -/

namespace Sys2Proof.Machine

/-- STATUS (10_state.md R27): three flags and the 3-bit FAULT_CODE. -/
structure Status where
  busy : Bool
  done : Bool
  fault : Bool
  code : BitVec 3
deriving DecidableEq, Repr

/-- The position inside the fixed decode sequence (10_state.md R26; 46_sequencer.md R220 to R222): the operation or the
stream item that comes next. Its encoding is the model's (notes/assumptions/6.md). -/
inductive Pos where
  /-- No run: phase IDLE, DONE or FAULT. -/
  | halted
  /-- INIT (R221). -/
  | init
  /-- A band header (42_scaletracker.md R160). -/
  | bandHdr
  /-- The entry of row-group `g` of the band: `rg`, `keep`, SEED_SENTINEL, `tree`, `col` (46_sequencer.md R222,
  43_rowpredictor.md R170). -/
  | rowGroup (g : BitVec 2)
  /-- A control code (R173). -/
  | ctrl
  /-- Literal token `tok` of the group (R177). -/
  | lit
  /-- Residual token `tok` of the group (R178). -/
  | res
  /-- The repeat-count token of a chunk (R179). -/
  | nreps
  /-- The step token of an odd repeat (R179). -/
  | step
  /-- EMIT (R182). -/
  | emit
  /-- CARRY (R183). -/
  | carry
  /-- CHECKER(row) (45_demosaic.md R211). -/
  | checker
  /-- TONE (44_tonecurve.md R203). -/
  | tone
  /-- DEMOSAIC and the end of the run (45_demosaic.md R213, 46_sequencer.md R223). -/
  | demosaic
deriving DecidableEq, Repr

/-- The host's moves (00_scope.md R5, 10_state.md R28, 70_reset_and_hazards.md R260, R262). -/
inductive HostMove where
  /-- The host leaves this turn to the engine. -/
  | engineTurn
  | writeWidth (v : BitVec 16)
  | writeHeight (v : BitVec 16)
  | writeSrcLen (v : BitVec 32)
  | writeCfaTile (v : BitVec 8)
  /-- A byte written into SRC at index `a`. -/
  | writeSrc (a : BitVec 32) (b : Byte)
  /-- A write of `start` to CTRL.START. -/
  | writeCtrl (start : Bool)
  /-- Hardware reset. -/
  | hardwareReset
deriving DecidableEq, Repr

/-- The machine's state. Registers, status, host registers and memory spaces are the spec's (10_state.md); `cfg` is the
implementation's parameters (R38); `freeCtr` and `hostMoves` are the model's own. -/
structure State where
  /-- BitReader, R21: index into SRC of the next byte not yet fetched. -/
  ptr : BitVec 32
  /-- R21: the last byte fetched. -/
  cur : Byte
  /-- R21: remaining bits in `cur`, 0..8. -/
  rem : BitVec 4
  /-- R23: the last control symbol, and the control tree the next control code is read through. -/
  tree : BitVec 4
  /-- R23: the column cursor. -/
  col : BitVec 16
  /-- R23: the repeat count of the current run chunk. -/
  nreps : BitVec 4
  /-- R23: the repeat index within the chunk. -/
  rep : BitVec 4
  /-- R23: the run-mode drift correction, signed. -/
  step : BitVec 12
  /-- R23: set in the two kept row-groups of a band. -/
  keep : Bool
  /-- R23: the row-group index within the band. -/
  rg : BitVec 2
  /-- R23: first image row of the current band. -/
  row : BitVec 16
  /-- R24: `M`, the band's multiplier. -/
  mult : BitVec 6
  /-- R24: the previous band's multiplier. -/
  prevM : BitVec 6
  /-- R24: `LAST_SCALE_LUT[prevM] * M`. -/
  val : BitVec 24
  /-- R26: the position in the sequence. -/
  pos : Pos
  /-- The token index `k` of the loops of R177 and R178. -/
  tok : BitVec 2
  /-- R220: WIDTH as latched for the run. -/
  w : BitVec 16
  /-- R220: HEIGHT as latched for the run. -/
  h : BitVec 16
  /-- R27. -/
  status : Status
  /-- R29: `ptr` in bits 35:4, `rem` in bits 3:0. -/
  faultInfo : BitVec 36
  /-- R28: WIDTH. -/
  width : BitVec 16
  /-- R28: HEIGHT. -/
  height : BitVec 16
  /-- R28: SRC_LEN. -/
  srcLen : BitVec 32
  /-- R28, 45_demosaic.md R214: CFA_TILE. -/
  cfaTile : BitVec 8
  /-- R36: SRC. -/
  src : List Host.Cell
  /-- R30: HUFF, entry `i` of table `t` at `256 * t + i`. -/
  huff : Store HuffEntry
  /-- R31: RBUF, cell `i` of row `r` at `65536 * r + i`. -/
  rbuf : Store Half
  /-- R34: PLANE, row-major. -/
  plane : Store Half
  /-- R33: CURVE. -/
  curve : Store Half
  /-- R35: T8, row-major. -/
  t8 : List Host.Cell
  /-- R35: OUT, row-major. -/
  out : List Host.Cell
  /-- R7, R38: the parameters of the implementation. -/
  cfg : Config
  /-- The model's: numbers the free values (notes/assumptions/13.md). -/
  freeCtr : Nat
  /-- The model's: the host's coming moves, first to come first (notes/assumptions/7.md). -/
  hostMoves : List HostMove
deriving DecidableEq, Repr

/-- Why the model stops without a next state. The four faults of 60_exceptions.md R230 are not here: they are taken
(R238), a next state. -/
inductive Fault where
  /-- Raised by a group of a kept row-group whose cells lie beyond the row (`col + 1 >= W2`); 20_memory.md R66 says no
  rule computes one. Safe: no claim about such an access can be proved. -/
  | noSuchCell (col : BitVec 16)
  /-- Raised by DECODE of a table index above 18 (41_huffman.md R143). Safe. -/
  | noSuchTable (t : Nat)
  /-- Raised by REFILL of a byte below SRC_LEN that the host never wrote: it reads as no value (10_state.md R40). Safe. -/
  | srcByteUnwritten (a : BitVec 32)
deriving DecidableEq, Repr

/-- Why the model has no behaviour. -/
inductive Refusal where
  /-- Raised by `exec`'s arm of an instruction without a meaning; no arm does. Safe. -/
  | notModelled (mnemonic : String)
  /-- Raised by START on a configuration that breaks 00_scope.md R8 (60_exceptions.md R236). Safe. -/
  | illFormedConfig
  /-- Raised by DECODE when no prefix of 8 bits is a code word (41_huffman.md R143 "not reached"; R236). Safe. -/
  | incompleteTable (t : Nat)
  /-- Raised by a control or repeat-count value outside 0..8 (00_scope.md R8 (b); R236). Safe. -/
  | illegalSymbol (t : Nat) (v : Byte)
  /-- Raised by READBITS(n) with n outside 1..8 (40_bitreader.md R132); no rule issues it. Safe. -/
  | readBitsRange (n : Nat)
  /-- Raised by a host write of SRC while BUSY (20_memory.md R72, 93_implementation_defined.md U7). Safe for the engine;
  a claim holds only for hosts that keep the duty. -/
  | hostWritesSrcWhileBusy (a : BitVec 32)
deriving DecidableEq, Repr

/-- The machine after hardware reset (10_state.md R40, 70_reset_and_hazards.md R260): STATUS 0 (phase IDLE), `ptr` and
`rem` 0, HUFF and CURVE as built (nothing listed); every register R40 calls unspecified is 0 (notes/assumptions/9.md). -/
def State.reset : State where
  ptr := 0
  cur := 0
  rem := 0
  tree := 0
  col := 0
  nreps := 0
  rep := 0
  step := 0
  keep := false
  rg := 0
  row := 0
  mult := 0
  prevM := 0
  val := 0
  pos := .halted
  tok := 0
  w := 0
  h := 0
  status := ⟨false, false, false, 0⟩
  faultInfo := 0
  width := 0
  height := 0
  srcLen := 0
  cfaTile := 0
  src := []
  huff := []
  rbuf := []
  plane := []
  curve := []
  t8 := []
  out := []
  cfg := Config.reference
  freeCtr := 0
  hostMoves := []

end Sys2Proof.Machine
end

