-- ==== Sys2Proof/Machine/Flags.lean ====
section
/-! DEFINITION. STATUS: its values and the fault codes (10_state.md R27, 60_exceptions.md R230). No stream instruction
reads or writes a flag and there are no condition codes (R27), so STATUS is all the flags there are. -/

namespace Sys2Proof.Machine

/-- The faults of 60_exceptions.md R230. -/
inductive RunFault where
  | outOfMemory
  | truncated
  | invalidGeometry
  | zeroMultiplier
deriving DecidableEq, Repr

/-- FAULT_CODE (60_exceptions.md R230). -/
def faultCode : RunFault → BitVec 3
  | .outOfMemory => 1
  | .truncated => 2
  | .invalidGeometry => 3
  | .zeroMultiplier => 4

/-- STATUS of phase IDLE (10_state.md R40). -/
def statusIdle : Status := ⟨false, false, false, 0⟩

/-- STATUS of a run (46_sequencer.md R220). -/
def statusBusy : Status := ⟨true, false, false, 0⟩

/-- STATUS at the end of a run without fault (46_sequencer.md R220, R223). -/
def statusDone : Status := ⟨false, true, false, 0⟩

/-- STATUS after a fault (60_exceptions.md R238). -/
def statusFault (f : RunFault) : Status := ⟨false, false, true, faultCode f⟩

end Sys2Proof.Machine
end

