-- ==== Sys2Proof/Machine/Operands.lean ====
section
/-! DEFINITION. The named conversions (00_scope.md R11) and the operand assembly of the tokens (30_encoding.md R95, R98). -/

namespace Sys2Proof.Machine

/-- `sext8(v)` (00_scope.md R11). -/
def sext8 (v : Byte) : Int :=
  if v.toNat < 128 then v.toNat else (v.toNat : Int) - 256

/-- `wrap16(v)` (00_scope.md R11): the 16-bit cell whose signed value is congruent to `v` modulo 65536. -/
def wrap16 (v : Int) : Half :=
  BitVec.ofInt 16 v

/-- `trunc16(v)` (00_scope.md R11): `v mod 65536`. -/
def trunc16 (v : Int) : Half :=
  BitVec.ofInt 16 v

/-- `a >> n` on integers: `floor(a / 2^n)` (00_scope.md R11). -/
def floorShift (a : Int) (n : Nat) : Int :=
  a / 2 ^ n

/-- The value of a literal token from its raw byte, used unsigned (30_encoding.md R95, R98). -/
def literalValue (b : Byte) : Int :=
  b.toNat

/-- The repeat count of a repeat-count token (30_encoding.md R98): `sext8(val) + 1`. -/
def repeatCount (b : Byte) : BitVec 4 :=
  BitVec.ofInt 4 (sext8 b + 1)

/-- The drift correction of a step token (30_encoding.md R98): `value << 4`, in the 12-bit register `step`. -/
def stepValue (v : Int) : BitVec 12 :=
  BitVec.ofInt 12 (v * 16)

/-- `W2 = W / 2` (00_scope.md R13), of the latched width. -/
def halfWidth (s : State) : Nat :=
  s.w.toNat / 2

/-- The buffer row of cell `k` of a group (43_rowpredictor.md R172). -/
def cellRow (k : BitVec 2) : Nat :=
  if k.toNat < 2 then 1 else 2

/-- The buffer index of cell `k` of a group whose lowered column cursor is `col` (43_rowpredictor.md R172). -/
def cellIndex (col : BitVec 16) (k : BitVec 2) : Nat :=
  if k.toNat % 2 = 0 then col.toNat + 1 else col.toNat

end Sys2Proof.Machine
end

