-- ==== Sys2Proof/Machine/Ops.lean ====
section
/-! DEFINITION. The named operations over memory spaces and registers, and taking a fault. -/

namespace Sys2Proof.Machine

/-! ## A memory space: (address, element) pairs, addresses strictly rising -/

/-- The element listed at an address. -/
def storeGet {α : Type} : Store α → Nat → Option α
  | [], _ => none
  | (b, u) :: rest, a => if a = b then some u else storeGet rest a

/-- List an element at an address. -/
def storeSet {α : Type} : Store α → Nat → α → Store α
  | [], a, v => [(a, v)]
  | (b, u) :: rest, a, v =>
    if a < b then (a, v) :: (b, u) :: rest
    else if a = b then (a, v) :: rest
    else (b, u) :: storeSet rest a v

/-- List nothing at an address. -/
def storeErase {α : Type} : Store α → Nat → Store α
  | [], _ => []
  | (b, u) :: rest, a =>
    if a < b then (b, u) :: rest else if a = b then rest else (b, u) :: storeErase rest a

/-- Read an address of a space whose unlisted addresses read as `d`. -/
def storeRead {α : Type} (d : α) (m : Store α) (a : Nat) : α :=
  (storeGet m a).getD d

/-- Write an address of a space whose unlisted addresses read as `d`: the value `d` itself is not listed. -/
def storeWrite {α : Type} [DecidableEq α] (d : α) (m : Store α) (a : Nat) (v : α) : Store α :=
  if v = d then storeErase m a else storeSet m a v

/-- The writes of a list, first to last. -/
def storeWriteAll {α : Type} [DecidableEq α] (d : α) (m : Store α) (ws : List (Nat × α)) : Store α :=
  ws.foldl (fun m p => storeWrite d m p.1 p.2) m

/-- The space of addresses below `n` with the element `f a` at each: what writing every address in order leaves. -/
def storeFill {α : Type} [DecidableEq α] (d : α) (n : Nat) (f : Nat → α) : Store α :=
  (List.range n).filterMap fun a => if f a = d then none else some (a, f a)

/-- Addresses strictly rising. -/
abbrev storeSorted {α : Type} (m : Store α) : Prop :=
  m.Pairwise fun p q => p.1 < q.1

/-- The canonical form of a space whose unlisted address `a` reads as `d a`: addresses strictly rising and no entry
equal to what the address reads as unlisted. -/
abbrev storeWf {α : Type} [DecidableEq α] (d : Nat → α) (m : Store α) : Prop :=
  storeSorted m ∧ ∀ p ∈ m, p.2 ≠ d p.1

/-! ## What an unlisted address reads as -/

/-- An unlisted byte of SRC has no value (10_state.md R40; notes/assumptions/10.md). -/
def readSrc (s : State) (a : BitVec 32) : Option Byte :=
  storeGet s.src a.toNat

/-- `HUFF[t][i]` (10_state.md R30): an unlisted entry is the one BUILD and BUILD_LIT put there (R40, R260;
notes/assumptions/12.md); none where there is no table `t` or the specification does not fill the slot. -/
def readHuff (s : State) (t i : Nat) : Option HuffEntry :=
  if 18 < t then none
  else match storeGet s.huff (256 * t + i) with
    | some e => some e
    | none => builtEntry s.cfg.huffSpec t i

/-- One segment of CURVE_BUILD (44_tonecurve.md R201): the curve at `c` between breakpoints `p` and `q`. -/
def segmentValue (p q : Nat × Nat) (c : Nat) : Half :=
  trunc16 (p.2 + (2 * ((c : Int) - p.1) * ((q.2 : Int) - p.2) + ((q.1 : Int) - p.1)) / (2 * ((q.1 : Int) - p.1)))

/-- `CURVE[c]` as CURVE_BUILD leaves it (44_tonecurve.md R201): the segments are written in order, so a shared
breakpoint holds what its later segment wrote. -/
def builtCurve : List (Nat × Nat) → Nat → Option Half
  | p :: q :: rest, c =>
    match builtCurve (q :: rest) c with
    | some v => some v
    | none => if p.1 ≤ c ∧ c ≤ q.1 then some (segmentValue p q c) else none
  | _, _ => none

/-- What an unlisted word of CURVE reads as: the word CURVE_BUILD put there (10_state.md R40, R260;
notes/assumptions/12.md). -/
def curveDefault (c : Config) (v : Nat) : Half :=
  (builtCurve c.toneBreakpoints v).getD (Config.freeCurve v)

/-- `CURVE[v]` (10_state.md R33). -/
def readCurve (s : State) (v : Half) : Half :=
  match storeGet s.curve v.toNat with
  | some u => u
  | none => curveDefault s.cfg v.toNat

/-- `LAST_SCALE_LUT[m]` (10_state.md R32); an entry the configuration does not define is free (notes/assumptions/14.md). -/
def scaleEntry (c : Config) (m : BitVec 6) : Nat :=
  match c.lastScaleLut[m.toNat]? with
  | some (some v) => v
  | _ => Config.freeScale m.toNat

/-- The address of `buf[r][i]`. -/
def cellAddr (r i : Nat) : Nat :=
  65536 * r + i

/-- `buf[r][i]` (10_state.md R31), as its 16 bits; an unlisted cell reads BUF_INIT (notes/assumptions/11.md). -/
def readCell (s : State) (r i : Nat) : Half :=
  storeRead s.cfg.bufInit s.rbuf (cellAddr r i)

/-- `buf[r][i]` as the signed number every rule computes with (10_state.md R31). -/
def cell (s : State) (r i : Nat) : Int :=
  (readCell s r i).toInt

/-- `buf[r][i] <- wrap16(v)` (00_scope.md R11: every write to a cell applies wrap16). -/
def writeCell (s : State) (r i : Nat) (v : Int) : State :=
  { s with rbuf := storeWrite s.cfg.bufInit s.rbuf (cellAddr r i) (wrap16 v) }

/-- Cell writes `((r, i), v)`, first to last, whose values are already computed. -/
def writeCells (s : State) (ws : List ((Nat × Nat) × Int)) : State :=
  { s with rbuf :=
      storeWriteAll s.cfg.bufInit s.rbuf (ws.map fun p => (cellAddr p.1.1 p.1.2, wrap16 p.2)) }

/-- The address of `PLANE[y][x]` (and `T8[y][x]`, `OUT`): row-major over the latched width (10_state.md R34, R35). -/
def pixelAddr (s : State) (y x : Nat) : Nat :=
  y * s.w.toNat + x

/-- `PLANE[y][x]` (10_state.md R34); an unlisted word reads PLANE_INIT (notes/assumptions/11.md). -/
def readPlane (s : State) (y x : Nat) : Half :=
  storeRead s.cfg.planeInit s.plane (pixelAddr s y x)

/-- Plane writes `((y, x), v)`, first to last, each `trunc16` (00_scope.md R11). -/
def writePlane (s : State) (ws : List ((Nat × Nat) × Int)) : State :=
  { s with plane :=
      storeWriteAll s.cfg.planeInit s.plane (ws.map fun p => (pixelAddr s p.1.1 p.1.2, trunc16 p.2)) }

/-- `T8[y][x]` (10_state.md R35); an unlisted byte reads 0 (notes/assumptions/11.md). -/
def readT8 (s : State) (y x : Nat) : Byte :=
  storeRead 0 s.t8 (pixelAddr s y x)

/-- Byte `a` of OUT (10_state.md R35); an unlisted byte reads 0 (notes/assumptions/11.md). -/
def readOut (s : State) (a : Nat) : Byte :=
  storeRead 0 s.out a

/-- The canonical form of every space of the machine. -/
abbrev Memory.wf (s : State) : Prop :=
  storeSorted s.src ∧
  storeSorted s.huff ∧ (∀ p ∈ s.huff, some p.2 ≠ builtEntry s.cfg.huffSpec (p.1 / 256) (p.1 % 256)) ∧
  storeWf (fun _ => s.cfg.bufInit) s.rbuf ∧
  storeWf (fun _ => s.cfg.planeInit) s.plane ∧
  storeWf (curveDefault s.cfg) s.curve ∧
  storeWf (fun _ => (0 : Byte)) s.t8 ∧
  storeWf (fun _ => (0 : Byte)) s.out

/-! ## Outcomes -/

/-- The outcome of an operation on the state. -/
abbrev Result := Host.Outcome State Fault Refusal

/-- Go on from a next state. -/
def andThen (r : Result) (k : State → Result) : Result :=
  match r with
  | .next s => k s
  | .fault f => .fault f
  | .refused q => .refused q

/-- The outcome of an operation that reads the stream: a value and the state after it, a run that ended in a fault of
60_exceptions.md R230 (the state after fault entry), or a stop of the model. -/
inductive Read (α : Type) where
  | got (a : α) (s : State)
  | raised (s : State)
  | stuck (f : Fault)
  | noMeaning (r : Refusal)
deriving Repr

/-- Go on with the value read. -/
def readThen {α β : Type} (r : Read α) (k : α → State → Read β) : Read β :=
  match r with
  | .got a s => k a s
  | .raised s => .raised s
  | .stuck f => .stuck f
  | .noMeaning q => .noMeaning q

/-- A run that ended in a fault is a next state (60_exceptions.md R238). -/
def runRead {α : Type} (r : Read α) (k : α → State → Result) : Result :=
  match r with
  | .got a s => k a s
  | .raised s => .next s
  | .stuck f => .fault f
  | .noMeaning q => .refused q

/-! ## Taking a fault -/

/-- FAULT_INFO as R29 lays it out: `ptr` in bits 35:4, `rem` in bits 3:0. -/
def cursorInfo (s : State) : BitVec 36 :=
  s.ptr ++ s.rem

/-- `raise X(ptr, rem)` (60_exceptions.md R238): FAULT_INFO and STATUS are written and the sequence is abandoned.
FAULT_INFO is unspecified for `OutOfMemory` and `InvalidGeometry` (R232, R233): a free value
(notes/assumptions/13.md). There is no return from a fault (R241). -/
def raise (f : RunFault) (s : State) : State :=
  match f with
  | .truncated | .zeroMultiplier =>
    { s with faultInfo := cursorInfo s, status := statusFault f, pos := .halted }
  | .outOfMemory | .invalidGeometry =>
    { s with
      faultInfo := Config.freeFaultInfo s.freeCtr
      freeCtr := s.freeCtr + 1
      status := statusFault f
      pos := .halted }

end Sys2Proof.Machine
end

