-- ==== Sys2Proof/Machine/Band.lean ====
section
/-! DEFINITION. BANDHDR and DECAY (42_scaletracker.md R160 to R164). -/

namespace Sys2Proof.Machine

/-- The cells `(r, i)`, r in 0..2, i in 0..W2, of the reconstruction buffer (10_state.md R31). -/
def allCells (s : State) : List (Nat × Nat) :=
  (List.range 3).flatMap fun r => (List.range (halfWidth s + 1)).map fun i => (r, i)

/-- A cell's value after DECAY by `v` (42_scaletracker.md R162), before wrap16. -/
def decayed (s : State) (v : Nat) (c : Int) : Int :=
  floorShift (c * v + s.cfg.decayBias) 12

/-- DECAY(val) (42_scaletracker.md R162): every cell of the three rows, the sentinel included; each from its own old
value, so the order cannot be observed. -/
def decay (v : Nat) (s : State) : State :=
  writeCells s ((allCells s).map fun p => (p, decayed s v (cell s p.1 p.2)))

/-- The register `val` (10_state.md R24, 24 bits) after the product `v` of 42_scaletracker.md R161: the product where it
fits; the spec sizes the register for LAST_SCALE_LUT_REF and states nothing for a larger one, which is free
(notes/assumptions/33.md). -/
def scaleRegister (v : Nat) : BitVec 24 :=
  if v < 2 ^ 24 then BitVec.ofNat 24 v else Config.freeVal v

/-- BANDHDR after its 18 bits (42_scaletracker.md R160): `M = 0` raises ZeroMultiplier (R164) before DECAY; else
`val <- LAST_SCALE_LUT[prevM] * M`, DECAY of that exact product (R161, R162), `prevM <- M`. The first row-group of the band comes next
(46_sequencer.md R222). -/
def bandHeader (m : BitVec 6) (s : State) : Result :=
  if m = 0 then .next (raise .zeroMultiplier { s with mult := m })
  else
    let v := scaleEntry s.cfg s.prevM * m.toNat
    .next { decay v s with mult := m, val := scaleRegister v, prevM := m, pos := .rowGroup 0 }

/-- BANDHDR (42_scaletracker.md R160): P1 and P2 are read and ignored (30_encoding.md R92). -/
def execBandhdr (m _p1 _p2 : BitVec 6) (s : State) : Result :=
  bandHeader m s

end Sys2Proof.Machine
end

