-- ==== Sys2Proof/Machine/Cells.lean ====
section
/-! DEFINITION. What the three group instructions share: the predictor, the four cells of a group, the end of a group and
of a row-group (43_rowpredictor.md R170 to R176). -/

namespace Sys2Proof.Machine

/-- The predictor `P(y, x)` (43_rowpredictor.md R174): the two diagonal neighbours first, halved, then the in-row
neighbour, halved again. -/
def predict (s : State) (y x : Nat) : Int :=
  floorShift (floorShift (cell s (y - 1) x + cell s (y - 1) (x + 1)) 1 + cell s y (x + 1)) 1

/-- `cell_k <- wrap16(v)` (43_rowpredictor.md R172, R181). -/
def writeGroupCell (s : State) (k : BitVec 2) (v : Int) : State :=
  writeCell s (cellRow k) (cellIndex s.col k) v

/-- `P` at cell `k` (43_rowpredictor.md R172, R174). -/
def predictAt (s : State) (k : BitVec 2) : Int :=
  predict s (cellRow k) (cellIndex s.col k)

/-- A write to the group's cells happens only in a kept row-group (43_rowpredictor.md R184), and only to cells that exist
(20_memory.md R66: indices `col` and `col + 1`, at most W2 - 1). -/
def keptGroup (s : State) (k : State → State) : Result :=
  if s.keep then
    if s.col.toNat + 1 < halfWidth s then .next (k s) else .fault (.noSuchCell s.col)
  else .next s

/-- Where the sequence goes when a row-group is over (46_sequencer.md R222): the next row-group, or CHECKER after the
fourth. -/
def afterRowGroup (s : State) : State :=
  { s with pos := if s.rg = 3 then .checker else .rowGroup (s.rg + 1) }

/-- The test of the row-group loop (43_rowpredictor.md R170): while `col > 0` another control code, else the end: EMIT
and CARRY in a kept row-group. -/
def groupEnd (s : State) : State :=
  if 0 < s.col.toNat then { s with pos := .ctrl }
  else if s.keep then { s with pos := .emit }
  else afterRowGroup s

/-- After token `k` of a literal or predicted group (43_rowpredictor.md R177, R178: k in 0..3). -/
def tokenDone (s : State) : State :=
  if s.tok = 3 then groupEnd s else { s with tok := s.tok + 1 }

end Sys2Proof.Machine
end

