-- ==== Sys2Proof/Machine/GrpLit.lean ====
section
/-! DEFINITION. GRP.LIT and its tokens (43_rowpredictor.md R177). -/

namespace Sys2Proof.Machine

/-- The control code of a literal group (43_rowpredictor.md R173, R177): `tree <- 8`, `col <- col - 2`, four literal
tokens follow. -/
def beginLit (s : State) : State :=
  { s with tree := 8, col := s.col - 2, tok := 0, pos := .lit }

/-- Literal token `k` with raw byte `b` (43_rowpredictor.md R177): `cell_k <- wrap16(lit * M)`. -/
def litToken (b : Byte) (s : State) : Result :=
  andThen (keptGroup s fun s => writeGroupCell s s.tok (literalValue b * s.mult.toNat)) fun s =>
    .next (tokenDone s)

/-- GRP.LIT.C0 (R177). -/
def execGrpLitC0 (s : State) : Result :=
  .next (beginLit s)

/-- GRP.LIT.C1 (R177). -/
def execGrpLitC1 (s : State) : Result :=
  .next (beginLit s)

/-- GRP.LIT.C2 (R177). -/
def execGrpLitC2 (s : State) : Result :=
  .next (beginLit s)

/-- GRP.LIT.C3 (R177). -/
def execGrpLitC3 (s : State) : Result :=
  .next (beginLit s)

/-- GRP.LIT.C4 (R177). -/
def execGrpLitC4 (s : State) : Result :=
  .next (beginLit s)

/-- GRP.LIT.C5 (R177). -/
def execGrpLitC5 (s : State) : Result :=
  .next (beginLit s)

/-- GRP.LIT.C6 (R177). -/
def execGrpLitC6 (s : State) : Result :=
  .next (beginLit s)

/-- GRP.LIT.C7 (R177). -/
def execGrpLitC7 (s : State) : Result :=
  .next (beginLit s)

/-- GRP.LIT.C8 (R177). -/
def execGrpLitC8 (s : State) : Result :=
  .next (beginLit s)

/-- TOK.LIT (30_encoding.md R94, R95; 43_rowpredictor.md R177). -/
def execTokLit (v : BitVec 5) (s : State) : Result :=
  litToken (literalByte v) s

end Sys2Proof.Machine
end

