-- ==== Sys2Proof/Machine/GrpPred.lean ====
section
/-! DEFINITION. GRP.PRED1 to GRP.PRED7 and their residual tokens (43_rowpredictor.md R178). -/

namespace Sys2Proof.Machine

/-- The control code of a predicted group of symbol `t` (43_rowpredictor.md R173, R178): `tree <- t`,
`col <- col - 2`, four residual tokens of table `t + 10` follow. -/
def beginPred (t : BitVec 4) (s : State) : State :=
  { s with tree := t, col := s.col - 2, tok := 0, pos := .res }

/-- Residual token `k` with signed value `r` (43_rowpredictor.md R178):
`cell_k <- wrap16((r << RESID_SHIFT) + P(cell_k))`. -/
def resToken (r : Int) (s : State) : Result :=
  andThen (keptGroup s fun s => writeGroupCell s s.tok (r * 2 ^ s.cfg.residShift + predictAt s s.tok)) fun s =>
    .next (tokenDone s)

/-- GRP.PRED1.C0 (R178). -/
def execGrpPred1C0 (s : State) : Result :=
  .next (beginPred 1 s)

/-- GRP.PRED2.C0 (R178). -/
def execGrpPred2C0 (s : State) : Result :=
  .next (beginPred 2 s)

/-- GRP.PRED3.C0 (R178). -/
def execGrpPred3C0 (s : State) : Result :=
  .next (beginPred 3 s)

/-- GRP.PRED4.C0 (R178). -/
def execGrpPred4C0 (s : State) : Result :=
  .next (beginPred 4 s)

/-- GRP.PRED5.C0 (R178). -/
def execGrpPred5C0 (s : State) : Result :=
  .next (beginPred 5 s)

/-- GRP.PRED6.C0 (R178). -/
def execGrpPred6C0 (s : State) : Result :=
  .next (beginPred 6 s)

/-- GRP.PRED7.C0 (R178). -/
def execGrpPred7C0 (s : State) : Result :=
  .next (beginPred 7 s)

/-- GRP.PRED1.C1 (R178). -/
def execGrpPred1C1 (s : State) : Result :=
  .next (beginPred 1 s)

/-- GRP.PRED2.C1 (R178). -/
def execGrpPred2C1 (s : State) : Result :=
  .next (beginPred 2 s)

/-- GRP.PRED3.C1 (R178). -/
def execGrpPred3C1 (s : State) : Result :=
  .next (beginPred 3 s)

/-- GRP.PRED4.C1 (R178). -/
def execGrpPred4C1 (s : State) : Result :=
  .next (beginPred 4 s)

/-- GRP.PRED5.C1 (R178). -/
def execGrpPred5C1 (s : State) : Result :=
  .next (beginPred 5 s)

/-- GRP.PRED6.C1 (R178). -/
def execGrpPred6C1 (s : State) : Result :=
  .next (beginPred 6 s)

/-- GRP.PRED7.C1 (R178). -/
def execGrpPred7C1 (s : State) : Result :=
  .next (beginPred 7 s)

/-- GRP.PRED1.C2 (R178). -/
def execGrpPred1C2 (s : State) : Result :=
  .next (beginPred 1 s)

/-- GRP.PRED2.C2 (R178). -/
def execGrpPred2C2 (s : State) : Result :=
  .next (beginPred 2 s)

/-- GRP.PRED3.C2 (R178). -/
def execGrpPred3C2 (s : State) : Result :=
  .next (beginPred 3 s)

/-- GRP.PRED4.C2 (R178). -/
def execGrpPred4C2 (s : State) : Result :=
  .next (beginPred 4 s)

/-- GRP.PRED5.C2 (R178). -/
def execGrpPred5C2 (s : State) : Result :=
  .next (beginPred 5 s)

/-- GRP.PRED6.C2 (R178). -/
def execGrpPred6C2 (s : State) : Result :=
  .next (beginPred 6 s)

/-- GRP.PRED7.C2 (R178). -/
def execGrpPred7C2 (s : State) : Result :=
  .next (beginPred 7 s)

/-- GRP.PRED1.C3 (R178). -/
def execGrpPred1C3 (s : State) : Result :=
  .next (beginPred 1 s)

/-- GRP.PRED2.C3 (R178). -/
def execGrpPred2C3 (s : State) : Result :=
  .next (beginPred 2 s)

/-- GRP.PRED3.C3 (R178). -/
def execGrpPred3C3 (s : State) : Result :=
  .next (beginPred 3 s)

/-- GRP.PRED4.C3 (R178). -/
def execGrpPred4C3 (s : State) : Result :=
  .next (beginPred 4 s)

/-- GRP.PRED5.C3 (R178). -/
def execGrpPred5C3 (s : State) : Result :=
  .next (beginPred 5 s)

/-- GRP.PRED6.C3 (R178). -/
def execGrpPred6C3 (s : State) : Result :=
  .next (beginPred 6 s)

/-- GRP.PRED7.C3 (R178). -/
def execGrpPred7C3 (s : State) : Result :=
  .next (beginPred 7 s)

/-- GRP.PRED1.C4 (R178). -/
def execGrpPred1C4 (s : State) : Result :=
  .next (beginPred 1 s)

/-- GRP.PRED2.C4 (R178). -/
def execGrpPred2C4 (s : State) : Result :=
  .next (beginPred 2 s)

/-- GRP.PRED3.C4 (R178). -/
def execGrpPred3C4 (s : State) : Result :=
  .next (beginPred 3 s)

/-- GRP.PRED4.C4 (R178). -/
def execGrpPred4C4 (s : State) : Result :=
  .next (beginPred 4 s)

/-- GRP.PRED5.C4 (R178). -/
def execGrpPred5C4 (s : State) : Result :=
  .next (beginPred 5 s)

/-- GRP.PRED6.C4 (R178). -/
def execGrpPred6C4 (s : State) : Result :=
  .next (beginPred 6 s)

/-- GRP.PRED7.C4 (R178). -/
def execGrpPred7C4 (s : State) : Result :=
  .next (beginPred 7 s)

/-- GRP.PRED1.C5 (R178). -/
def execGrpPred1C5 (s : State) : Result :=
  .next (beginPred 1 s)

/-- GRP.PRED2.C5 (R178). -/
def execGrpPred2C5 (s : State) : Result :=
  .next (beginPred 2 s)

/-- GRP.PRED3.C5 (R178). -/
def execGrpPred3C5 (s : State) : Result :=
  .next (beginPred 3 s)

/-- GRP.PRED4.C5 (R178). -/
def execGrpPred4C5 (s : State) : Result :=
  .next (beginPred 4 s)

/-- GRP.PRED5.C5 (R178). -/
def execGrpPred5C5 (s : State) : Result :=
  .next (beginPred 5 s)

/-- GRP.PRED6.C5 (R178). -/
def execGrpPred6C5 (s : State) : Result :=
  .next (beginPred 6 s)

/-- GRP.PRED7.C5 (R178). -/
def execGrpPred7C5 (s : State) : Result :=
  .next (beginPred 7 s)

/-- GRP.PRED1.C6 (R178). -/
def execGrpPred1C6 (s : State) : Result :=
  .next (beginPred 1 s)

/-- GRP.PRED2.C6 (R178). -/
def execGrpPred2C6 (s : State) : Result :=
  .next (beginPred 2 s)

/-- GRP.PRED3.C6 (R178). -/
def execGrpPred3C6 (s : State) : Result :=
  .next (beginPred 3 s)

/-- GRP.PRED4.C6 (R178). -/
def execGrpPred4C6 (s : State) : Result :=
  .next (beginPred 4 s)

/-- GRP.PRED5.C6 (R178). -/
def execGrpPred5C6 (s : State) : Result :=
  .next (beginPred 5 s)

/-- GRP.PRED6.C6 (R178). -/
def execGrpPred6C6 (s : State) : Result :=
  .next (beginPred 6 s)

/-- GRP.PRED7.C6 (R178). -/
def execGrpPred7C6 (s : State) : Result :=
  .next (beginPred 7 s)

/-- GRP.PRED1.C7 (R178). -/
def execGrpPred1C7 (s : State) : Result :=
  .next (beginPred 1 s)

/-- GRP.PRED2.C7 (R178). -/
def execGrpPred2C7 (s : State) : Result :=
  .next (beginPred 2 s)

/-- GRP.PRED3.C7 (R178). -/
def execGrpPred3C7 (s : State) : Result :=
  .next (beginPred 3 s)

/-- GRP.PRED4.C7 (R178). -/
def execGrpPred4C7 (s : State) : Result :=
  .next (beginPred 4 s)

/-- GRP.PRED5.C7 (R178). -/
def execGrpPred5C7 (s : State) : Result :=
  .next (beginPred 5 s)

/-- GRP.PRED6.C7 (R178). -/
def execGrpPred6C7 (s : State) : Result :=
  .next (beginPred 6 s)

/-- GRP.PRED7.C7 (R178). -/
def execGrpPred7C7 (s : State) : Result :=
  .next (beginPred 7 s)

/-- GRP.PRED1.C8 (R178). -/
def execGrpPred1C8 (s : State) : Result :=
  .next (beginPred 1 s)

/-- GRP.PRED2.C8 (R178). -/
def execGrpPred2C8 (s : State) : Result :=
  .next (beginPred 2 s)

/-- GRP.PRED3.C8 (R178). -/
def execGrpPred3C8 (s : State) : Result :=
  .next (beginPred 3 s)

/-- GRP.PRED4.C8 (R178). -/
def execGrpPred4C8 (s : State) : Result :=
  .next (beginPred 4 s)

/-- GRP.PRED5.C8 (R178). -/
def execGrpPred5C8 (s : State) : Result :=
  .next (beginPred 5 s)

/-- GRP.PRED6.C8 (R178). -/
def execGrpPred6C8 (s : State) : Result :=
  .next (beginPred 6 s)

/-- GRP.PRED7.C8 (R178). -/
def execGrpPred7C8 (s : State) : Result :=
  .next (beginPred 7 s)

/-- TOK.RES1.M3 (R98, R178). -/
def execTokRes1_M3 (s : State) : Result :=
  resToken (-3) s

/-- TOK.RES1.3 (R98, R178). -/
def execTokRes1_3 (s : State) : Result :=
  resToken 3 s

/-- TOK.RES2.M17 (R98, R178). -/
def execTokRes2_M17 (s : State) : Result :=
  resToken (-17) s

/-- TOK.RES2.M5 (R98, R178). -/
def execTokRes2_M5 (s : State) : Result :=
  resToken (-5) s

/-- TOK.RES2.5 (R98, R178). -/
def execTokRes2_5 (s : State) : Result :=
  resToken 5 s

/-- TOK.RES2.17 (R98, R178). -/
def execTokRes2_17 (s : State) : Result :=
  resToken 17 s

/-- TOK.RES3.M7 (R98, R178). -/
def execTokRes3_M7 (s : State) : Result :=
  resToken (-7) s

/-- TOK.RES3.2 (R98, R178). -/
def execTokRes3_2 (s : State) : Result :=
  resToken 2 s

/-- TOK.RES3.9 (R98, R178). -/
def execTokRes3_9 (s : State) : Result :=
  resToken 9 s

/-- TOK.RES3.18 (R98, R178). -/
def execTokRes3_18 (s : State) : Result :=
  resToken 18 s

/-- TOK.RES4.M18 (R98, R178). -/
def execTokRes4_M18 (s : State) : Result :=
  resToken (-18) s

/-- TOK.RES4.M9 (R98, R178). -/
def execTokRes4_M9 (s : State) : Result :=
  resToken (-9) s

/-- TOK.RES4.M2 (R98, R178). -/
def execTokRes4_M2 (s : State) : Result :=
  resToken (-2) s

/-- TOK.RES4.7 (R98, R178). -/
def execTokRes4_7 (s : State) : Result :=
  resToken 7 s

/-- TOK.RES5.M79 (R98, R178). -/
def execTokRes5_M79 (s : State) : Result :=
  resToken (-79) s

/-- TOK.RES5.M49 (R98, R178). -/
def execTokRes5_M49 (s : State) : Result :=
  resToken (-49) s

/-- TOK.RES5.M28 (R98, R178). -/
def execTokRes5_M28 (s : State) : Result :=
  resToken (-28) s

/-- TOK.RES5.M9 (R98, R178). -/
def execTokRes5_M9 (s : State) : Result :=
  resToken (-9) s

/-- TOK.RES5.9 (R98, R178). -/
def execTokRes5_9 (s : State) : Result :=
  resToken 9 s

/-- TOK.RES5.28 (R98, R178). -/
def execTokRes5_28 (s : State) : Result :=
  resToken 28 s

/-- TOK.RES5.49 (R98, R178). -/
def execTokRes5_49 (s : State) : Result :=
  resToken 49 s

/-- TOK.RES5.79 (R98, R178). -/
def execTokRes5_79 (s : State) : Result :=
  resToken 79 s

/-- TOK.RES6.M37 (R98, R178). -/
def execTokRes6_M37 (s : State) : Result :=
  resToken (-37) s

/-- TOK.RES6.M16 (R98, R178). -/
def execTokRes6_M16 (s : State) : Result :=
  resToken (-16) s

/-- TOK.RES6.M1 (R98, R178). -/
def execTokRes6_M1 (s : State) : Result :=
  resToken (-1) s

/-- TOK.RES6.13 (R98, R178). -/
def execTokRes6_13 (s : State) : Result :=
  resToken 13 s

/-- TOK.RES6.26 (R98, R178). -/
def execTokRes6_26 (s : State) : Result :=
  resToken 26 s

/-- TOK.RES6.39 (R98, R178). -/
def execTokRes6_39 (s : State) : Result :=
  resToken 39 s

/-- TOK.RES6.55 (R98, R178). -/
def execTokRes6_55 (s : State) : Result :=
  resToken 55 s

/-- TOK.RES6.76 (R98, R178). -/
def execTokRes6_76 (s : State) : Result :=
  resToken 76 s

/-- TOK.RES7.M76 (R98, R178). -/
def execTokRes7_M76 (s : State) : Result :=
  resToken (-76) s

/-- TOK.RES7.M55 (R98, R178). -/
def execTokRes7_M55 (s : State) : Result :=
  resToken (-55) s

/-- TOK.RES7.M39 (R98, R178). -/
def execTokRes7_M39 (s : State) : Result :=
  resToken (-39) s

/-- TOK.RES7.M26 (R98, R178). -/
def execTokRes7_M26 (s : State) : Result :=
  resToken (-26) s

/-- TOK.RES7.M13 (R98, R178). -/
def execTokRes7_M13 (s : State) : Result :=
  resToken (-13) s

/-- TOK.RES7.1 (R98, R178). -/
def execTokRes7_1 (s : State) : Result :=
  resToken 1 s

/-- TOK.RES7.16 (R98, R178). -/
def execTokRes7_16 (s : State) : Result :=
  resToken 16 s

/-- TOK.RES7.37 (R98, R178). -/
def execTokRes7_37 (s : State) : Result :=
  resToken 37 s

end Sys2Proof.Machine
end

