-- ==== Sys2Proof/Machine/GrpRun.lean ====
section
/-! DEFINITION. GRP.RUN and its repeat-count and step tokens (43_rowpredictor.md R179, R180; 30_encoding.md R97). A run
group is cut at its tokens: each step of the machine runs from one token to the next. -/

namespace Sys2Proof.Machine

/-- `cell_k <- wrap16(P(cell_k))` (43_rowpredictor.md R179). -/
def predictCell (k : BitVec 2) (s : State) : State :=
  writeGroupCell s k (predictAt s k)

/-- The predictor copy of a repeat (43_rowpredictor.md R179): the four cells in the order of R175, each seeing the ones
before it. -/
def predictCells (s : State) : State :=
  predictCell 3 (predictCell 2 (predictCell 1 (predictCell 0 s)))

/-- `cell_k <- wrap16(cell_k + step)` (43_rowpredictor.md R179). -/
def addStepCell (k : BitVec 2) (s : State) : State :=
  writeGroupCell s k (cell s (cellRow k) (cellIndex s.col k) + s.step.toInt)

/-- The step added to the four cells of a repeat (43_rowpredictor.md R179). -/
def addStepCells (s : State) : State :=
  addStepCell 3 (addStepCell 2 (addStepCell 1 (addStepCell 0 s)))

/-- The repeats of a chunk (43_rowpredictor.md R179) up to the next step token, or to `done` when the chunk is over.
`fuel` bounds the repeats ("for up to 8 repeats"). -/
def repeatLoop (done : State → Result) : (fuel : Nat) → State → Result
  | 0, s => done s
  | fuel + 1, s =>
    if s.rep.toNat < 8 ∧ s.rep.toNat < s.nreps.toNat ∧ 0 < s.col.toNat then
      andThen (keptGroup { s with col := s.col - 2 } predictCells) fun s =>
        if s.rep.toNat % 2 = 1 then .next { s with pos := .step }
        else repeatLoop done fuel { s with rep := s.rep + 1 }
    else done s

/-- The chunk of one repeat that starts without a token because `col <= 2` (43_rowpredictor.md R179, R180 (a), (c)):
`nreps <- 1`, so the group ends after it. -/
def soleChunk (s : State) : Result :=
  repeatLoop (fun s => .next (groupEnd s)) 8 { s with nreps := 1, rep := 0 }

/-- The start of a chunk (43_rowpredictor.md R179): a repeat-count token when `col > 2`. -/
def beginChunk (s : State) : Result :=
  if 2 < s.col.toNat then .next { s with pos := .nreps } else soleChunk s

/-- The end of a chunk (43_rowpredictor.md R179 `until nreps /= 9`): another chunk after `nreps = 9`, else the end of
the group. -/
def chunkEnd (s : State) : Result :=
  if s.nreps = 9 then beginChunk s else .next (groupEnd s)

/-- Go on with the repeats of the current chunk (43_rowpredictor.md R179). -/
def continueChunk (s : State) : Result :=
  repeatLoop chunkEnd 8 s

/-- The control code of a run group (43_rowpredictor.md R173, R179): `tree <- 0`, and the first chunk starts. -/
def beginRun (s : State) : Result :=
  beginChunk { s with tree := 0 }

/-- A repeat-count token of count `n` (43_rowpredictor.md R179): `nreps <- n`, `rep <- 0`, and the repeats begin. -/
def nrepsToken (n : BitVec 4) (s : State) : Result :=
  continueChunk { s with nreps := n, rep := 0 }

/-- A step token of signed value `v` (43_rowpredictor.md R179): `step <- v << 4`, added to the four cells, and the
chunk goes on with the next repeat. -/
def stepToken (v : Int) (s : State) : Result :=
  andThen (keptGroup { s with step := stepValue v } addStepCells) fun s =>
    continueChunk { s with rep := s.rep + 1 }

/-- GRP.RUN.C1 (R179). -/
def execGrpRunC1 (s : State) : Result :=
  beginRun s

/-- GRP.RUN.C2 (R179). -/
def execGrpRunC2 (s : State) : Result :=
  beginRun s

/-- GRP.RUN.C3 (R179). -/
def execGrpRunC3 (s : State) : Result :=
  beginRun s

/-- GRP.RUN.C4 (R179). -/
def execGrpRunC4 (s : State) : Result :=
  beginRun s

/-- GRP.RUN.C5 (R179). -/
def execGrpRunC5 (s : State) : Result :=
  beginRun s

/-- GRP.RUN.C6 (R179). -/
def execGrpRunC6 (s : State) : Result :=
  beginRun s

/-- GRP.RUN.C7 (R179). -/
def execGrpRunC7 (s : State) : Result :=
  beginRun s

/-- GRP.RUN.C8 (R179). -/
def execGrpRunC8 (s : State) : Result :=
  beginRun s

/-- TOK.NREPS.1 (R98, R179). -/
def execTokNreps1 (s : State) : Result :=
  nrepsToken 1 s

/-- TOK.NREPS.2 (R98, R179). -/
def execTokNreps2 (s : State) : Result :=
  nrepsToken 2 s

/-- TOK.NREPS.3 (R98, R179). -/
def execTokNreps3 (s : State) : Result :=
  nrepsToken 3 s

/-- TOK.NREPS.4 (R98, R179). -/
def execTokNreps4 (s : State) : Result :=
  nrepsToken 4 s

/-- TOK.NREPS.5 (R98, R179). -/
def execTokNreps5 (s : State) : Result :=
  nrepsToken 5 s

/-- TOK.NREPS.6 (R98, R179). -/
def execTokNreps6 (s : State) : Result :=
  nrepsToken 6 s

/-- TOK.NREPS.7 (R98, R179). -/
def execTokNreps7 (s : State) : Result :=
  nrepsToken 7 s

/-- TOK.NREPS.8 (R98, R179). -/
def execTokNreps8 (s : State) : Result :=
  nrepsToken 8 s

/-- TOK.NREPS.9 (R98, R179). -/
def execTokNreps9 (s : State) : Result :=
  nrepsToken 9 s

/-- TOK.STEP.M2 (R98, R179). -/
def execTokStepM2 (s : State) : Result :=
  stepToken (-2) s

/-- TOK.STEP.0 (R98, R179). -/
def execTokStep0 (s : State) : Result :=
  stepToken 0 s

/-- TOK.STEP.2 (R98, R179). -/
def execTokStep2 (s : State) : Result :=
  stepToken 2 s

end Sys2Proof.Machine
end

