-- ==== Sys2Proof/Machine/Dispatch.lean ====
section
/-! DEFINITION. One arm per instruction, each one call of its meaning. -/

namespace Sys2Proof.Machine

def exec (i : Instr) (s : State) : Host.Outcome State Fault Refusal :=
  match i with
  | .bandhdr m p1 p2 => Sys2Proof.Machine.execBandhdr m p1 p2 s
  | .grpPred1C0 => Sys2Proof.Machine.execGrpPred1C0 s
  | .grpPred2C0 => Sys2Proof.Machine.execGrpPred2C0 s
  | .grpPred3C0 => Sys2Proof.Machine.execGrpPred3C0 s
  | .grpPred4C0 => Sys2Proof.Machine.execGrpPred4C0 s
  | .grpPred5C0 => Sys2Proof.Machine.execGrpPred5C0 s
  | .grpPred6C0 => Sys2Proof.Machine.execGrpPred6C0 s
  | .grpPred7C0 => Sys2Proof.Machine.execGrpPred7C0 s
  | .grpLitC0 => Sys2Proof.Machine.execGrpLitC0 s
  | .grpRunC1 => Sys2Proof.Machine.execGrpRunC1 s
  | .grpPred1C1 => Sys2Proof.Machine.execGrpPred1C1 s
  | .grpPred2C1 => Sys2Proof.Machine.execGrpPred2C1 s
  | .grpPred3C1 => Sys2Proof.Machine.execGrpPred3C1 s
  | .grpPred4C1 => Sys2Proof.Machine.execGrpPred4C1 s
  | .grpPred5C1 => Sys2Proof.Machine.execGrpPred5C1 s
  | .grpPred6C1 => Sys2Proof.Machine.execGrpPred6C1 s
  | .grpPred7C1 => Sys2Proof.Machine.execGrpPred7C1 s
  | .grpLitC1 => Sys2Proof.Machine.execGrpLitC1 s
  | .grpRunC2 => Sys2Proof.Machine.execGrpRunC2 s
  | .grpPred1C2 => Sys2Proof.Machine.execGrpPred1C2 s
  | .grpPred2C2 => Sys2Proof.Machine.execGrpPred2C2 s
  | .grpPred3C2 => Sys2Proof.Machine.execGrpPred3C2 s
  | .grpPred4C2 => Sys2Proof.Machine.execGrpPred4C2 s
  | .grpPred5C2 => Sys2Proof.Machine.execGrpPred5C2 s
  | .grpPred6C2 => Sys2Proof.Machine.execGrpPred6C2 s
  | .grpPred7C2 => Sys2Proof.Machine.execGrpPred7C2 s
  | .grpLitC2 => Sys2Proof.Machine.execGrpLitC2 s
  | .grpRunC3 => Sys2Proof.Machine.execGrpRunC3 s
  | .grpPred1C3 => Sys2Proof.Machine.execGrpPred1C3 s
  | .grpPred2C3 => Sys2Proof.Machine.execGrpPred2C3 s
  | .grpPred3C3 => Sys2Proof.Machine.execGrpPred3C3 s
  | .grpPred4C3 => Sys2Proof.Machine.execGrpPred4C3 s
  | .grpPred5C3 => Sys2Proof.Machine.execGrpPred5C3 s
  | .grpPred6C3 => Sys2Proof.Machine.execGrpPred6C3 s
  | .grpPred7C3 => Sys2Proof.Machine.execGrpPred7C3 s
  | .grpLitC3 => Sys2Proof.Machine.execGrpLitC3 s
  | .grpRunC4 => Sys2Proof.Machine.execGrpRunC4 s
  | .grpPred1C4 => Sys2Proof.Machine.execGrpPred1C4 s
  | .grpPred2C4 => Sys2Proof.Machine.execGrpPred2C4 s
  | .grpPred3C4 => Sys2Proof.Machine.execGrpPred3C4 s
  | .grpPred4C4 => Sys2Proof.Machine.execGrpPred4C4 s
  | .grpPred5C4 => Sys2Proof.Machine.execGrpPred5C4 s
  | .grpPred6C4 => Sys2Proof.Machine.execGrpPred6C4 s
  | .grpPred7C4 => Sys2Proof.Machine.execGrpPred7C4 s
  | .grpLitC4 => Sys2Proof.Machine.execGrpLitC4 s
  | .grpRunC5 => Sys2Proof.Machine.execGrpRunC5 s
  | .grpPred1C5 => Sys2Proof.Machine.execGrpPred1C5 s
  | .grpPred2C5 => Sys2Proof.Machine.execGrpPred2C5 s
  | .grpPred3C5 => Sys2Proof.Machine.execGrpPred3C5 s
  | .grpPred4C5 => Sys2Proof.Machine.execGrpPred4C5 s
  | .grpPred5C5 => Sys2Proof.Machine.execGrpPred5C5 s
  | .grpPred6C5 => Sys2Proof.Machine.execGrpPred6C5 s
  | .grpPred7C5 => Sys2Proof.Machine.execGrpPred7C5 s
  | .grpLitC5 => Sys2Proof.Machine.execGrpLitC5 s
  | .grpRunC6 => Sys2Proof.Machine.execGrpRunC6 s
  | .grpPred1C6 => Sys2Proof.Machine.execGrpPred1C6 s
  | .grpPred2C6 => Sys2Proof.Machine.execGrpPred2C6 s
  | .grpPred3C6 => Sys2Proof.Machine.execGrpPred3C6 s
  | .grpPred4C6 => Sys2Proof.Machine.execGrpPred4C6 s
  | .grpPred5C6 => Sys2Proof.Machine.execGrpPred5C6 s
  | .grpPred6C6 => Sys2Proof.Machine.execGrpPred6C6 s
  | .grpPred7C6 => Sys2Proof.Machine.execGrpPred7C6 s
  | .grpLitC6 => Sys2Proof.Machine.execGrpLitC6 s
  | .grpRunC7 => Sys2Proof.Machine.execGrpRunC7 s
  | .grpPred1C7 => Sys2Proof.Machine.execGrpPred1C7 s
  | .grpPred2C7 => Sys2Proof.Machine.execGrpPred2C7 s
  | .grpPred3C7 => Sys2Proof.Machine.execGrpPred3C7 s
  | .grpPred4C7 => Sys2Proof.Machine.execGrpPred4C7 s
  | .grpPred5C7 => Sys2Proof.Machine.execGrpPred5C7 s
  | .grpPred6C7 => Sys2Proof.Machine.execGrpPred6C7 s
  | .grpPred7C7 => Sys2Proof.Machine.execGrpPred7C7 s
  | .grpLitC7 => Sys2Proof.Machine.execGrpLitC7 s
  | .grpRunC8 => Sys2Proof.Machine.execGrpRunC8 s
  | .grpPred1C8 => Sys2Proof.Machine.execGrpPred1C8 s
  | .grpPred2C8 => Sys2Proof.Machine.execGrpPred2C8 s
  | .grpPred3C8 => Sys2Proof.Machine.execGrpPred3C8 s
  | .grpPred4C8 => Sys2Proof.Machine.execGrpPred4C8 s
  | .grpPred5C8 => Sys2Proof.Machine.execGrpPred5C8 s
  | .grpPred6C8 => Sys2Proof.Machine.execGrpPred6C8 s
  | .grpPred7C8 => Sys2Proof.Machine.execGrpPred7C8 s
  | .grpLitC8 => Sys2Proof.Machine.execGrpLitC8 s
  | .tokNreps1 => Sys2Proof.Machine.execTokNreps1 s
  | .tokNreps2 => Sys2Proof.Machine.execTokNreps2 s
  | .tokNreps3 => Sys2Proof.Machine.execTokNreps3 s
  | .tokNreps4 => Sys2Proof.Machine.execTokNreps4 s
  | .tokNreps5 => Sys2Proof.Machine.execTokNreps5 s
  | .tokNreps6 => Sys2Proof.Machine.execTokNreps6 s
  | .tokNreps7 => Sys2Proof.Machine.execTokNreps7 s
  | .tokNreps8 => Sys2Proof.Machine.execTokNreps8 s
  | .tokNreps9 => Sys2Proof.Machine.execTokNreps9 s
  | .tokStepM2 => Sys2Proof.Machine.execTokStepM2 s
  | .tokStep0 => Sys2Proof.Machine.execTokStep0 s
  | .tokStep2 => Sys2Proof.Machine.execTokStep2 s
  | .tokRes1_M3 => Sys2Proof.Machine.execTokRes1_M3 s
  | .tokRes1_3 => Sys2Proof.Machine.execTokRes1_3 s
  | .tokRes2_M17 => Sys2Proof.Machine.execTokRes2_M17 s
  | .tokRes2_M5 => Sys2Proof.Machine.execTokRes2_M5 s
  | .tokRes2_5 => Sys2Proof.Machine.execTokRes2_5 s
  | .tokRes2_17 => Sys2Proof.Machine.execTokRes2_17 s
  | .tokRes3_M7 => Sys2Proof.Machine.execTokRes3_M7 s
  | .tokRes3_2 => Sys2Proof.Machine.execTokRes3_2 s
  | .tokRes3_9 => Sys2Proof.Machine.execTokRes3_9 s
  | .tokRes3_18 => Sys2Proof.Machine.execTokRes3_18 s
  | .tokRes4_M18 => Sys2Proof.Machine.execTokRes4_M18 s
  | .tokRes4_M9 => Sys2Proof.Machine.execTokRes4_M9 s
  | .tokRes4_M2 => Sys2Proof.Machine.execTokRes4_M2 s
  | .tokRes4_7 => Sys2Proof.Machine.execTokRes4_7 s
  | .tokRes5_M79 => Sys2Proof.Machine.execTokRes5_M79 s
  | .tokRes5_M49 => Sys2Proof.Machine.execTokRes5_M49 s
  | .tokRes5_M28 => Sys2Proof.Machine.execTokRes5_M28 s
  | .tokRes5_M9 => Sys2Proof.Machine.execTokRes5_M9 s
  | .tokRes5_9 => Sys2Proof.Machine.execTokRes5_9 s
  | .tokRes5_28 => Sys2Proof.Machine.execTokRes5_28 s
  | .tokRes5_49 => Sys2Proof.Machine.execTokRes5_49 s
  | .tokRes5_79 => Sys2Proof.Machine.execTokRes5_79 s
  | .tokRes6_M37 => Sys2Proof.Machine.execTokRes6_M37 s
  | .tokRes6_M16 => Sys2Proof.Machine.execTokRes6_M16 s
  | .tokRes6_M1 => Sys2Proof.Machine.execTokRes6_M1 s
  | .tokRes6_13 => Sys2Proof.Machine.execTokRes6_13 s
  | .tokRes6_26 => Sys2Proof.Machine.execTokRes6_26 s
  | .tokRes6_39 => Sys2Proof.Machine.execTokRes6_39 s
  | .tokRes6_55 => Sys2Proof.Machine.execTokRes6_55 s
  | .tokRes6_76 => Sys2Proof.Machine.execTokRes6_76 s
  | .tokRes7_M76 => Sys2Proof.Machine.execTokRes7_M76 s
  | .tokRes7_M55 => Sys2Proof.Machine.execTokRes7_M55 s
  | .tokRes7_M39 => Sys2Proof.Machine.execTokRes7_M39 s
  | .tokRes7_M26 => Sys2Proof.Machine.execTokRes7_M26 s
  | .tokRes7_M13 => Sys2Proof.Machine.execTokRes7_M13 s
  | .tokRes7_1 => Sys2Proof.Machine.execTokRes7_1 s
  | .tokRes7_16 => Sys2Proof.Machine.execTokRes7_16 s
  | .tokRes7_37 => Sys2Proof.Machine.execTokRes7_37 s
  | .tokLit v => Sys2Proof.Machine.execTokLit v s

end Sys2Proof.Machine
end

