-- ==== Sys2Proof/Machine/BitReader.lean ====
section
/-! DEFINITION. BitReader (40_bitreader.md R130 to R134) and DECODE (41_huffman.md R143). -/

namespace Sys2Proof.Machine

/-- `bitpos = 8 * ptr - rem`, the program counter (10_state.md R25). -/
def bitpos (s : State) : Int :=
  8 * (s.ptr.toNat : Int) - s.rem.toNat

/-- REFILL (40_bitreader.md R131). -/
def refill (s : State) : Read Unit :=
  if s.srcLen.toNat ≤ s.ptr.toNat then .raised (raise .truncated s)
  else match readSrc s s.ptr with
    | none => .stuck (.srcByteUnwritten s.ptr)
    | some b => .got () { s with cur := b, ptr := s.ptr + 1, rem := 8 }

/-- RESET (40_bitreader.md R133): REFILL at once; the unread bits of `cur` are dropped. -/
def resetReader (s : State) : Read Unit :=
  refill s

/-- The bit that `rem` stands before, taken from `cur`: the two last lines of READBITS's loop (40_bitreader.md R130). -/
def takeBit (s : State) : Read Bool :=
  .got (s.cur.getLsbD (s.rem - 1).toNat) { s with rem := s.rem - 1 }

/-- One turn of READBITS's loop (40_bitreader.md R130): refill when `rem = 0`, then take a bit. -/
def readBit (s : State) : Read Bool :=
  if s.rem = 0 then readThen (refill s) fun _ s => takeBit s else takeBit s

/-- READBITS's loop (40_bitreader.md R130) with `n` bits to go and `v` read so far. -/
def readBitsLoop : (n v : Nat) → State → Read Nat
  | 0, v, s => .got v s
  | n + 1, v, s => readThen (readBit s) fun b s => readBitsLoop n (2 * v + b.toNat) s

/-- READBITS(n) (40_bitreader.md R130); `n` outside 1..8 is outside the contract and refused (R132). -/
def readBits (n : Nat) (s : State) : Read Nat :=
  if 1 ≤ n ∧ n ≤ 8 then readBitsLoop n 0 s else .noMeaning (.readBitsRange n)

/-- DECODE's loop (41_huffman.md R143): `k` is the number of the next bit, `p` the prefix read so far, `n` the bits
that may still be read. -/
def decodeLoop (t : Nat) : (n k p : Nat) → State → Read Byte
  | 0, _, _, _ => .noMeaning (.incompleteTable t)
  | n + 1, k, p, s =>
    readThen (readBits 1 s) fun b s =>
      let p' := 2 * p + b
      match readHuff s t (p' <<< (8 - k)) with
      | none => if t ≤ 18 then .noMeaning (.incompleteTable t) else .stuck (.noSuchTable t)
      | some e => if e.len.toNat = k then .got e.val s else decodeLoop t n (k + 1) p' s

/-- DECODE(t) (41_huffman.md R143): the raw byte of the code word at the cursor. -/
def decodeToken (t : Nat) (s : State) : Read Byte :=
  decodeLoop t 8 1 0 s

end Sys2Proof.Machine
end

