-- ==== Sys2Proof/Machine/Fetch.lean ====
section
/-! DEFINITION. Fetching the next item of the stream (30_encoding.md R90 to R99). -/

namespace Sys2Proof.Machine

/-- What the stream holds at the cursor: a row of the opcode table, or (under a HUFF_SPEC other than HUFF_SPEC_REF) a
value of a code table that has no row (notes/assumptions/15.md). -/
inductive Fetched where
  | row (i : Instr)
  | unlisted (t : Nat) (v : Byte)
deriving DecidableEq, Repr

/-- The slot of the grammar at the sequence's position (30_encoding.md R90, R100): none where no bits are read. -/
def slotAt (s : State) : Option Slot :=
  match s.pos with
  | .bandHdr => some .header
  | .ctrl => some (.code s.tree.toNat)
  | .lit => some (.code 18)
  | .res => some (.code (s.tree.toNat + 10))
  | .nreps => some (.code 9)
  | .step => some (.code 10)
  | _ => none

/-- Format H (42_scaletracker.md R160): three fields of 6 bits; `M` is written as soon as it is read. -/
def fetchHeader (s : State) : Read Fetched :=
  readThen (readBits 6 s) fun m s =>
    readThen (readBits 6 { s with mult := BitVec.ofNat 6 m }) fun p1 s =>
      readThen (readBits 6 s) fun p2 s =>
        .got (.row (.bandhdr (BitVec.ofNat 6 m) (BitVec.ofNat 6 p1) (BitVec.ofNat 6 p2))) s

/-- The code word of table `t` at the cursor (41_huffman.md R143). -/
def fetchCode (t : Nat) (s : State) : Read Fetched :=
  readThen (decodeToken t s) fun v s =>
    match rowOf t v with
    | some i => .got (.row i) s
    | none => .got (.unlisted t v) s

/-- The item of the stream at slot `sl`. -/
def fetch (sl : Slot) (s : State) : Read Fetched :=
  match sl with
  | .header => fetchHeader s
  | .code t => fetchCode t s

end Sys2Proof.Machine
end

