-- ==== Sys2Proof/Machine/Sequencer.lean ====
section
/-! DEFINITION. The sequence's own operations: START, INIT, the entry and the end of a row-group, CHECKER, TONE, DEMOSAIC and
the end of a run (46_sequencer.md R220 to R223; 43_rowpredictor.md R170, R171, R182, R183; 44_tonecurve.md R203;
45_demosaic.md R211, R213). -/

namespace Sys2Proof.Machine

/-! ## START and INIT -/

/-- The geometry test of START (46_sequencer.md R220; 60_exceptions.md R232): W or H zero or no multiple of 4. -/
def badGeometry (w h : BitVec 16) : Bool :=
  w == 0 || h == 0 || w.toNat % 4 != 0 || h.toNat % 4 != 0

/-- The capacity test of START (46_sequencer.md R220; 60_exceptions.md R233). -/
def overCapacity (c : Config) (w h : BitVec 16) : Bool :=
  decide (c.wMax < w.toNat) || decide (c.hMax < h.toNat)

/-- START accepted (46_sequencer.md R220): STATUS, the latched W and H, the geometry test, then the capacity test.
DESIGN CHOICE (notes/assumptions/32.md): what 10_state.md R40 calls unspecified after START keeps its value. -/
def acceptStart (s : State) : State :=
  let s := { s with status := statusBusy, w := s.width, h := s.height }
  if badGeometry s.w s.h then raise .invalidGeometry s
  else if overCapacity s.cfg s.w s.h then raise .outOfMemory s
  else { s with pos := .init }

/-- BUILD(HUFF_SPEC) and BUILD_LIT (41_huffman.md R141, R142): every entry is the built one, so none is listed. -/
def buildTables (s : State) : State :=
  { s with huff := [] }

/-- CURVE_BUILD (44_tonecurve.md R201): every word is the built one, so none is listed. -/
def buildCurve (s : State) : State :=
  { s with curve := [] }

/-- `buf[r][i] <- BUF_INIT` for every cell (46_sequencer.md R221): none is listed. -/
def fillBuffer (s : State) : State :=
  { s with rbuf := [] }

/-- `PLANE[y][x] <- PLANE_INIT` for every word (46_sequencer.md R221): none is listed. -/
def fillPlane (s : State) : State :=
  { s with plane := [] }

/-- The stores and registers INIT sets before RESET (46_sequencer.md R221). DESIGN CHOICE (notes/assumptions/32.md): the
registers and stores that R221 does not name keep what they held. -/
def initStores (s : State) : State :=
  { fillPlane (fillBuffer (buildCurve (buildTables s))) with prevM := s.cfg.prevMInit, ptr := 0, rem := 0 }

/-- INIT (46_sequencer.md R221) and the start of the band loop at `row = 0` (R220). DESIGN CHOICE
(notes/assumptions/32.md): `tree`, `col`, `nreps`, `rep`, `step`, `M`, `val`, FAULT_INFO, T8 and OUT, which 10_state.md R40
leaves unspecified here, keep their values from before START until they are written. -/
def runInit (s : State) : Result :=
  runRead (resetReader (initStores s)) fun _ s => .next { s with row := 0, pos := .bandHdr }

/-! ## Row-groups -/

/-- SEED_SENTINEL (43_rowpredictor.md R171): index W2 of each row gets `M << SENTINEL_SHIFT`. -/
def seedSentinel (s : State) : State :=
  writeCells s ((List.range 3).map fun r => ((r, halfWidth s), (s.mult.toNat : Int) * 2 ^ s.cfg.sentinelShift))

/-- The entry of row-group `g` (46_sequencer.md R222; 43_rowpredictor.md R170): `rg`, `keep`, SEED_SENTINEL in a kept
one, `tree <- 1`, `col <- W2`. -/
def rowGroupEntry (g : BitVec 2) (s : State) : State :=
  let s := { s with rg := g, keep := decide (g.toNat < 2) }
  let s := if s.keep then seedSentinel s else s
  groupEnd { s with tree := 1, col := BitVec.ofNat 16 (halfWidth s) }

/-- EMIT's value of a cell under multiplier `m` (43_rowpredictor.md R182); the quotient at `m = 0`, which no run
reaches, is free (notes/assumptions/14.md). -/
def emitValue (m : BitVec 6) (c : Int) : Int :=
  if c ≤ 0 then 0 else if m = 0 then Config.freeQuotient c else c * 16 / m.toNat

/-- EMIT's plane writes (43_rowpredictor.md R182): for y in 0..1, x in 0..W2-1. -/
def emitWrites (s : State) : List ((Nat × Nat) × Int) :=
  (List.range 2).flatMap fun y =>
    (List.range (halfWidth s)).map fun x =>
      ((s.row.toNat + 2 * s.rg.toNat + y, 2 * x + y), emitValue s.mult (cell s (y + 1) x))

/-- EMIT (43_rowpredictor.md R182); CARRY comes next. -/
def emit (s : State) : State :=
  { writePlane s (emitWrites s) with pos := .carry }

/-- CARRY's copy (43_rowpredictor.md R183): `buf[0][i + CARRY_SHIFT] <- buf[2][i]` for i in 0..W2 - CARRY_SHIFT. -/
def carryRow (s : State) : State :=
  writeCells s ((List.range (halfWidth s + 1 - s.cfg.carryShift)).map fun i =>
    ((0, i + s.cfg.carryShift), cell s 2 i))

/-- CARRY (43_rowpredictor.md R183) and the end of the kept row-group. -/
def carry (s : State) : State :=
  afterRowGroup (carryRow s)

/-! ## The checkerboard -/

/-- CHECKER's value at an odd-parity position (45_demosaic.md R211): the neighbours mirrored at the edges, clamped at 0. -/
def checkerValue (s : State) (y x : Nat) : Int :=
  let l := if 0 < x then x - 1 else x + 1
  let r := if x + 1 < s.w.toNat then x + 1 else x - 1
  let v := ((readPlane s y x).toNat - 2048 : Int) * 2 + ((readPlane s y l).toNat + (readPlane s y r).toNat : Int) / 2
  if v < 0 then 0 else v

/-- The positions CHECKER rewrites: rows `row..row+3`, (x + y) odd (45_demosaic.md R211). -/
def checkerPositions (s : State) : List (Nat × Nat) :=
  (List.range 4).flatMap fun dy =>
    ((List.range s.w.toNat).filter fun x => (x + (s.row.toNat + dy)) % 2 = 1).map fun x => (s.row.toNat + dy, x)

/-- CHECKER(row) (45_demosaic.md R211). The neighbours of a rewritten word are never rewritten, so the order of the
loops cannot be observed and the values are those of the plane before it. -/
def checkerRows (s : State) : State :=
  writePlane s ((checkerPositions s).map fun p => (p, checkerValue s p.1 p.2))

/-- CHECKER and the band loop's next turn (46_sequencer.md R220, R222): the next band, or TONE after the last. -/
def checker (s : State) : State :=
  let s := checkerRows s
  if s.row.toNat + 4 < s.h.toNat then { s with row := s.row + 4, pos := .bandHdr } else { s with pos := .tone }

/-! ## Output -/

/-- TONE's sample of a plane word (44_tonecurve.md R203): the curve, shifted right by 4, at most 255. -/
def toneSample (s : State) (v : Half) : Byte :=
  BitVec.ofNat 8 (min ((readCurve s v).toNat >>> 4) 255)

/-- TONE (44_tonecurve.md R203): the whole T8. -/
def tone (s : State) : State :=
  { s with
    t8 := storeFill 0 (s.h.toNat * s.w.toNat) fun a => toneSample s (readPlane s (a / s.w.toNat) (a % s.w.toNat))
    pos := .demosaic }

/-- The T8 plane as the list of its samples, row-major. -/
def t8Samples (s : State) : List Byte :=
  (List.range (s.h.toNat * s.w.toNat)).map fun a => readT8 s (a / s.w.toNat) (a % s.w.toNat)

/-- The function that the implementation's `Config.demosaic` is (45_demosaic.md R213): the bytes listed for the
arguments, else the identity (R215). -/
def demosaicOf (g : List (DemosaicArgs × List Byte)) (a : DemosaicArgs) : List Byte :=
  match g.find? fun p => p.1 == a with
  | some p => p.2
  | none => a.t8

/-- The arguments of a run's DEMOSAIC (45_demosaic.md R213; 46_sequencer.md R220). -/
def demosaicArgs (s : State) : DemosaicArgs :=
  ⟨t8Samples s, s.w.toNat, s.h.toNat, s.cfaTile⟩

/-- DEMOSAIC writes all W * H bytes of OUT, then STATUS.DONE is set (45_demosaic.md R216; 46_sequencer.md R220, R223). -/
def demosaic (s : State) : State :=
  let samples := demosaicOf s.cfg.demosaic (demosaicArgs s)
  { s with
    out := storeFill 0 (s.h.toNat * s.w.toNat) fun a => samples[a]?.getD 0
    status := statusDone
    pos := .halted }

end Sys2Proof.Machine
end

