-- ==== Sys2Proof/WellFormed.lean ====
section
/-! DEFINITION. Well-formed configurations (00_scope.md R8) and well-formed instructions of an encoder. -/

namespace Sys2Proof

/-- 00_scope.md R8 (a): every pair is in range, the layout of 41_huffman.md R141 from slot `s` on fills exactly
18 * 256 = 4608 slots, and every entry's first slot is a multiple of its run length. -/
def specLaidOut : List (Nat × Int) → Nat → Bool
  | [], s => s == 4608
  | (l, v) :: rest, s =>
    decide (1 ≤ l) && decide (l ≤ 8) && decide (-128 ≤ v) && decide (v ≤ 127) && s % (256 >>> l) == 0 &&
      specLaidOut rest (s + 256 >>> l)

/-- 00_scope.md R8 (b): every value stored in tables 0..9 (slots below 2560) is in 0..8. -/
def specSymbols : List (Nat × Int) → Nat → Bool
  | [], _ => true
  | (l, v) :: rest, s =>
    (decide (2560 ≤ s) || decide (0 ≤ v) && decide (v ≤ 8)) && specSymbols rest (s + 256 >>> l)

/-- 00_scope.md R6, R8 (c): LAST_SCALE_LUT has 256 entries, and those for m in 1..63 are defined; the others may hold any
value or none (93_implementation_defined.md U13). -/
def lutAdmitted (lut : List (Option Nat)) : Bool :=
  lut.length == lutEntries && ((lut.drop 1).take 63).all Option.isSome

/-- x strictly increasing along the breakpoints (00_scope.md R8 (d)). -/
def xIncreasing : List (Nat × Nat) → Bool
  | p :: q :: rest => decide (p.1 < q.1) && xIncreasing (q :: rest)
  | _ => true

/-- 00_scope.md R8 (d), 44_tonecurve.md R200: six pairs of 16-bit numbers, x0 = 0, x5 = 65535, x strictly increasing. -/
def breakpointsAdmitted (bp : List (Nat × Nat)) : Bool :=
  bp.length == 6 && xIncreasing bp && (bp.head?.map (·.1)) == some 0 && (bp.getLast?.map (·.1)) == some 65535 &&
    bp.all fun p => decide (p.2 < 65536)

/-- The ranges 00_scope.md R7 gives the shifts (PREV_M_INIT, BUF_INIT and PLANE_INIT may hold any value of their width). -/
def scalarsAdmitted (c : Config) : Bool :=
  decide (c.residShift ≤ 7) && decide (c.carryShift ≤ 1) && decide (c.sentinelShift ≤ 9)

/-- The capacities: multiples of 4, at least 320 and 240, at most 65532 (00_scope.md R7, 92_eei_decisions.md D5). -/
def capacityAdmitted (c : Config) : Bool :=
  c.wMax % 4 == 0 && c.hMax % 4 == 0 && decide (320 ≤ c.wMax) && decide (240 ≤ c.hMax) &&
    decide (c.wMax ≤ 65532) && decide (c.hMax ≤ 65532)

/-- 00_scope.md R8 (e), 45_demosaic.md R213: where DEMOSAIC is not the identity it gives W * H bytes. It is deterministic
by construction. -/
def demosaicAdmitted (g : List (DemosaicArgs × List Byte)) : Bool :=
  g.all fun p => p.2.length == p.1.w * p.1.h

/-- An admitted configuration (00_scope.md R8). -/
def Config.admitted (c : Config) : Bool :=
  specLaidOut c.huffSpec 0 && specSymbols c.huffSpec 0 && lutAdmitted c.lastScaleLut &&
    breakpointsAdmitted c.toneBreakpoints && scalarsAdmitted c && capacityAdmitted c && demosaicAdmitted c.demosaic

/-- What an encoder may write (70_reset_and_hazards.md R273: "a band header's `M` must not be 0"). The operands' ranges
are their types (30_encoding.md R106). The decoder reads a header with M = 0 all the same (42_scaletracker.md R164). -/
def Instr.wellFormed : Instr → Bool
  | .bandhdr m _ _ => decide (m ≠ 0)
  | _ => true

end Sys2Proof
end

