-- ==== Sys2Proof/Machine/HostPort.lean ====
section
/-! DEFINITION. The host's moves and what it can read (10_state.md R27 to R29; 20_memory.md R72; 46_sequencer.md R224;
70_reset_and_hazards.md R260, R262). -/

namespace Sys2Proof.Machine

/-- A host write to WIDTH, HEIGHT, SRC_LEN or CFA_TILE: ignored while BUSY = 1 (10_state.md R28). -/
def hostRegister (s : State) (write : State → State) : State :=
  if s.status.busy then s else write s

/-- A host write into SRC; while BUSY it breaks the host's duty and has no meaning (20_memory.md R72). -/
def hostWriteSrc (a : BitVec 32) (b : Byte) (s : State) : Result :=
  if s.status.busy then .refused (.hostWritesSrcWhileBusy a)
  else .next { s with src := storeSet s.src a.toNat b }

/-- A host write to CTRL.START (46_sequencer.md R220, R224): a 0, and a 1 while BUSY, have no effect and are not
remembered; a configuration that breaks 00_scope.md R8 is refused (60_exceptions.md R236). -/
def hostStart (start : Bool) (s : State) : Result :=
  if start = false ∨ s.status.busy then .next s
  else if s.cfg.admitted then .next (acceptStart s)
  else .refused .illFormedConfig

/-- Hardware reset (70_reset_and_hazards.md R260): the state of `State.reset`, on the same implementation, with the
host's SRC and coming moves (notes/assumptions/22.md). -/
def hardwareReset (s : State) : State :=
  { State.reset with cfg := s.cfg, src := s.src, freeCtr := s.freeCtr, hostMoves := s.hostMoves }

/-- One move of the host other than `engineTurn`, which changes nothing. -/
def hostMove (m : HostMove) (s : State) : Result :=
  match m with
  | .engineTurn => .next s
  | .writeWidth v => .next (hostRegister s fun s => { s with width := v })
  | .writeHeight v => .next (hostRegister s fun s => { s with height := v })
  | .writeSrcLen v => .next (hostRegister s fun s => { s with srcLen := v })
  | .writeCfaTile v => .next (hostRegister s fun s => { s with cfaTile := v })
  | .writeSrc a b => hostWriteSrc a b s
  | .writeCtrl start => hostStart start s
  | .hardwareReset => .next (hardwareReset s)

/-- What a host read of CTRL returns (10_state.md R28: START "reads 0"). -/
def hostReadCtrl (_s : State) : Bool :=
  false

/-- What a host read of FAULT_INFO returns where it is meaningful (10_state.md R29). -/
def hostReadFaultInfo (s : State) : Option (BitVec 36) :=
  if s.status.fault then some s.faultInfo else none

/-- What a host read of byte `a` of OUT returns where the host may read it: after `DONE = 1`, `a < W * H`
(20_memory.md R60, R71, R72; 60_exceptions.md R239). -/
def hostReadOut (s : State) (a : Nat) : Option Byte :=
  if s.status.done && decide (a < s.w.toNat * s.h.toNat) then some (readOut s a) else none

end Sys2Proof.Machine
end

