-- ==== Sys2Proof/Machine/Engine.lean ====
section
/-! DEFINITION. One turn of the engine: one primitive operation or one item of the stream (00_scope.md R9,
92_eei_decisions.md D40; notes/assumptions/5.md). -/

namespace Sys2Proof.Machine

/-- The effect of value `v` of table `t` where the opcode table has no row for it: the same operations as the rows'
(30_encoding.md R98, R100; notes/assumptions/15.md). A control or repeat-count value outside 0..8 breaks 00_scope.md
R8 (b). -/
def execUnlisted (t : Nat) (v : Byte) (s : State) : Result :=
  if t ≤ 8 then
    if v = 0 then beginRun s
    else if v.toNat ≤ 7 then .next (beginPred (v.setWidth 4) s)
    else if v = 8 then .next (beginLit s)
    else .refused (.illegalSymbol t v)
  else if t = 9 then
    if v.toNat ≤ 8 then nrepsToken (repeatCount v) s else .refused (.illegalSymbol t v)
  else if t = 10 then stepToken (sext8 v) s
  else if t ≤ 17 then resToken (sext8 v) s
  else litToken v s

/-- Run what was fetched. -/
def execFetched (f : Fetched) (s : State) : Result :=
  match f with
  | .row i => exec i s
  | .unlisted t v => execUnlisted t v s

/-- Read the item at slot `sl` and run it; a fault of 60_exceptions.md R230 in the reading ends the run. -/
def runStream (sl : Slot) (s : State) : Result :=
  runRead (fetch sl s) execFetched

/-- An operation of the sequence that reads no bits (46_sequencer.md R220 to R222). -/
def runPrimitive (s : State) : Result :=
  match s.pos with
  | .init => runInit s
  | .rowGroup g => .next (rowGroupEntry g s)
  | .emit => .next (emit s)
  | .carry => .next (carry s)
  | .checker => .next (checker s)
  | .tone => .next (tone s)
  | .demosaic => .next (demosaic s)
  | _ => .next s

/-- One turn of the engine. In phases IDLE, DONE and FAULT it does nothing (60_exceptions.md R250; 46_sequencer.md
R223). -/
def engineStep (s : State) : Result :=
  if s.status.busy then
    match slotAt s with
    | some sl => runStream sl s
    | none => runPrimitive s
  else .next s

/-- One turn of the machine: the host's next move, or the engine's turn (00_scope.md R5; notes/assumptions/7.md). -/
def turn (s : State) : Result :=
  match s.hostMoves with
  | [] => engineStep s
  | .engineTurn :: rest => engineStep { s with hostMoves := rest }
  | m :: rest => hostMove m { s with hostMoves := rest }

/-! ## Placing one instruction -/

/-- Up to 32 bits as the four bytes of SRC that hold them, first bit in bit 7 of byte 0 (20_memory.md R61), zeros
after them. -/
def srcOfBits (bits : List Bool) : List Host.Cell :=
  (List.range 4).map fun a => (a, BitVec.ofNat 8 (bitsValue ((bits ++ List.replicate 32 false).drop (8 * a) |>.take 8)))

/-- The position of the sequence at which a slot is fetched. -/
def posOfSlot : Slot → Pos
  | .header => .bandHdr
  | .code t => if t ≤ 8 then .ctrl else if t = 9 then .nreps else if t = 10 then .step else if t = 18 then .lit else .res

/-- The value of `tree` at which a slot is fetched (30_encoding.md R93, R96): the context of a control code, the symbol
of a residual's group, 8 in a literal group, 0 in a run group. -/
def treeOfSlot (s : State) : Slot → BitVec 4
  | .header => s.tree
  | .code t => if t ≤ 8 then BitVec.ofNat 4 t else if t ≤ 10 then 0 else if t = 18 then 8 else BitVec.ofNat 4 (t - 10)

/-- The machine with the bits of one instruction at SRC[0], a run under way and the sequence at the slot where they are
read (notes/assumptions/21.md). The geometry and cursors are ones at which the sequence fetches that slot: a 16 by 4
image, `col` above 2 (43_rowpredictor.md R170, R179), a repeat with odd `rep` for a step token. -/
def placeWord (sl : Slot) (bits : List Bool) (s : State) : State :=
  { s with
    hostMoves := []
    src := srcOfBits bits
    srcLen := 4
    ptr := 0
    rem := 0
    status := statusBusy
    w := 16
    h := 4
    col := 4
    tree := treeOfSlot s sl
    nreps := 8
    rep := 1
    pos := posOfSlot sl }

/-- `State.withFetchWord`'s placing of the table's number `w` of `nbits` bits: at the slot and width at which
`decodeTableWord` reads it; a number that is no instruction is placed as it stands, as a band header's bits. -/
def placeTableWord (s : State) (nbits w : Nat) : State :=
  match placeOf nbits w with
  | some p => placeWord p.1 (wordBits p.2 w) s
  | none => placeWord .header (wordBits nbits w) s

end Sys2Proof.Machine
end

