-- ==== Sys2Proof/Machine/Step.lean ====
section
/-! DEFINITION. The machine's step. -/

namespace Sys2Proof.Machine

/-- One step (00_scope.md R9): one turn of the host or of the engine. -/
def step (s : State) : Host.Outcome State Fault Refusal :=
  turn s

/-- `s` with the table's number `w` of `nbits` bits placed so that the next step fetches and runs it. -/
def State.withFetchWord (s : State) (nbits w : Nat) : State :=
  placeTableWord s nbits w

end Sys2Proof.Machine
end

