-- ==== Sys2Proof/Safety.lean ====
section
/-! DEFINITION. What a legal state is, what the stream holds ahead of the cursor, and what a run can depend on: the terms
the statements use. -/

namespace Sys2Proof.Machine

/-! ## The stream ahead of the cursor -/

/-- The eight bits of a byte in stream order (20_memory.md R61). -/
def byteBits (b : Byte) : List Bool :=
  wordBits 8 b.toNat

/-- The bytes of SRC from `ptr` up to SRC_LEN (a byte the host never wrote stands as 0: see `srcWritten`). -/
def bytesAhead (s : State) : List Byte :=
  (List.range (s.srcLen.toNat - s.ptr.toNat)).map fun k => (storeGet s.src (s.ptr.toNat + k)).getD 0

/-- The bits the engine has not consumed, in stream order: `cur[rem-1:0]` (10_state.md R22), then the bytes ahead. -/
def unreadBits (s : State) : List Bool :=
  wordBits s.rem.toNat s.cur.toNat ++ (bytesAhead s).flatMap byteBits

/-- The host wrote every byte below SRC_LEN (70_reset_and_hazards.md R262 (a), (b)). -/
abbrev srcWritten (s : State) : Prop :=
  ∀ a, a < s.srcLen.toNat → (storeGet s.src a).isSome = true

/-! ## Legal states -/

/-- STATUS is one of its values (10_state.md R27; 60_exceptions.md R230): at most one flag, and a code only with FAULT. -/
abbrev statusLegal (s : State) : Prop :=
  s.status ∈ [statusIdle, statusBusy, statusDone, statusFault .outOfMemory, statusFault .truncated,
    statusFault .invalidGeometry, statusFault .zeroMultiplier]

/-- A band is under way: its multiplier passed BANDHDR's check (42_scaletracker.md R163, R164). -/
abbrev bandLegal (s : State) : Prop :=
  s.mult ≠ 0 ∧ s.mult = s.prevM

/-- A row-group is under way: `keep` is set in the first two of the band (46_sequencer.md R222), `tree` is in 0..8 and
`col` is even and at most W2 (10_state.md R23). -/
abbrev rowGroupLegal (s : State) : Prop :=
  bandLegal s ∧ s.keep = decide (s.rg.toNat < 2) ∧ s.tree.toNat ≤ 8 ∧ s.col.toNat % 2 = 0 ∧ s.col.toNat ≤ halfWidth s

/-- What the position says of the registers (10_state.md R23, R26; 43_rowpredictor.md R170, R177 to R179). -/
def posLegal (s : State) : Prop :=
  match s.pos with
  | .halted => False
  | .init | .bandHdr => True
  | .rowGroup _ => bandLegal s
  | .ctrl => rowGroupLegal s ∧ 0 < s.col.toNat
  | .lit => rowGroupLegal s ∧ s.col.toNat + 2 ≤ halfWidth s ∧ s.tree = 8
  | .res => rowGroupLegal s ∧ s.col.toNat + 2 ≤ halfWidth s ∧ 1 ≤ s.tree.toNat ∧ s.tree.toNat ≤ 7
  | .nreps => rowGroupLegal s ∧ 2 < s.col.toNat ∧ s.tree = 0
  | .step => rowGroupLegal s ∧ s.col.toNat + 2 ≤ halfWidth s ∧ s.tree = 0 ∧
      s.rep.toNat % 2 = 1 ∧ s.rep.toNat < 8 ∧ s.rep.toNat < s.nreps.toNat ∧ s.nreps.toNat ≤ 9
  | .emit | .carry => rowGroupLegal s ∧ s.keep = true ∧ s.col = 0
  | .checker => bandLegal s ∧ s.rg = 3
  | .tone | .demosaic => s.row.toNat + 4 = s.h.toNat

/-- The cursor of a run after INIT: `cur` is the last byte fetched, `ptr` at most SRC_LEN (10_state.md R21). -/
abbrev cursorLegal (s : State) : Prop :=
  1 ≤ s.ptr.toNat ∧ s.ptr.toNat ≤ s.srcLen.toNat ∧ storeGet s.src (s.ptr.toNat - 1) = some s.cur

/-- A run is under way. -/
structure RunLegal (s : State) : Prop where
  /-- START's two tests passed (46_sequencer.md R220). -/
  geometry : badGeometry s.w s.h = false
  capacity : overCapacity s.cfg s.w s.h = false
  /-- The latched geometry is the host registers' (46_sequencer.md R220; 10_state.md R28). -/
  latched : s.w = s.width ∧ s.h = s.height
  cursor : s.pos ≠ .init → cursorLegal s
  /-- `prevM` in 1..63 (10_state.md R24) where PREV_M_INIT is (00_scope.md R7), `row` a multiple of 4 in 0..H-4 (R23). -/
  band : s.pos ≠ .init → (s.cfg.prevMInit ≠ 0 → s.prevM ≠ 0) ∧ s.row.toNat % 4 = 0 ∧ s.row.toNat + 4 ≤ s.h.toNat
  position : posLegal s

/-- The invariant of the machine. -/
structure Inv (s : State) : Prop where
  /-- The configuration is admitted (00_scope.md R8). -/
  admitted : s.cfg.admitted = true
  /-- Every space is in canonical form. -/
  memory : Memory.wf s
  /-- HUFF and CURVE hold what BUILD, BUILD_LIT and CURVE_BUILD put there (20_memory.md R68). -/
  tables : s.huff = [] ∧ s.curve = []
  status : statusLegal s
  /-- "remaining-bits is always in [0,8]" (10_state.md R22). -/
  rem : s.rem.toNat ≤ 8
  /-- Phases IDLE, DONE and FAULT have no position (10_state.md R26). -/
  quiet : s.status.busy = false → s.pos = .halted
  run : s.status.busy = true → RunLegal s

/-- Every listed RBUF cell is one of the `3 * (W2 + 1)` cells and every listed PLANE word is in the plane (10_state.md
R31, R34; 20_memory.md R66). -/
abbrev inBounds (s : State) : Prop :=
  (∀ p ∈ s.rbuf, p.1 / 65536 < 3 ∧ p.1 % 65536 ≤ halfWidth s) ∧ ∀ p ∈ s.plane, p.1 < s.h.toNat * s.w.toNat

/-! ## Runs -/

/-- `n` turns of the engine. -/
def engineSteps : Nat → State → Result
  | 0, s => .next s
  | n + 1, s => andThen (engineStep s) (engineSteps n)

/-- What every run overwrites before it reads it, whatever its position: `val` and `step` (read only in the operation
that writes them), FAULT_INFO and OUT (written only at the end of a run), and the model's own count of free values. -/
def blankIdle (s : State) : State :=
  { s with val := 0, step := 0, faultInfo := 0, out := [], freeCtr := 0 }

/-- As `blankIdle`, with the registers of a row-group but `rg`. -/
def blankGroup (s : State) : State :=
  { blankIdle s with tree := 0, col := 0, nreps := 0, rep := 0, keep := false, tok := 0 }

/-- As `blankGroup`, with `rg` and `M`. -/
def blankBand (s : State) : State :=
  { blankGroup s with rg := 0, mult := 0 }

/-- As `blankBand`, with the cursor, `prevM`, `row` and RBUF. -/
def blankRows (s : State) : State :=
  { blankBand s with ptr := 0, cur := 0, rem := 0, prevM := 0, row := 0, rbuf := [] }

/-- As `blankRows`, with PLANE and T8. -/
def blankPlanes (s : State) : State :=
  { blankRows s with plane := [], t8 := [] }

/-- The state with every register and store blanked that no rule reads before it is written again, at the state's
position (10_state.md R39, R41; 46_sequencer.md R220 to R222). What is left is all that the rest of the run, and the
host, can depend on. -/
def liveOnly (s : State) : State :=
  match s.pos with
  | .halted =>
    { blankPlanes s with
      w := if s.status.done then s.w else 0
      h := if s.status.done then s.h else 0
      out := if s.status.done then s.out else []
      faultInfo := if s.status.code = 2 ∨ s.status.code = 4 then s.faultInfo else 0 }
  | .init => blankPlanes s
  | .bandHdr => { blankBand s with t8 := [] }
  | .rowGroup _ => { blankGroup s with t8 := [], rg := 0 }
  | .ctrl | .nreps => { blankIdle s with t8 := [], nreps := 0, rep := 0, tok := 0 }
  | .lit | .res => { blankIdle s with t8 := [], nreps := 0, rep := 0 }
  | .step => { blankIdle s with t8 := [], tok := 0 }
  | .emit | .carry => { blankGroup s with t8 := [] }
  | .checker => { blankBand s with t8 := [] }
  | .tone => { blankRows s with t8 := [] }
  | .demosaic => { blankRows s with plane := [] }

/-! ## The instructions by kind, and what a repeat of a run does -/

/-- The control codes of a literal group, by context (30_encoding.md R93, R103). -/
def litCodes : List Instr :=
  [.grpLitC0, .grpLitC1, .grpLitC2, .grpLitC3, .grpLitC4, .grpLitC5, .grpLitC6, .grpLitC7, .grpLitC8]

/-- The control codes of the predicted group of symbol `t`, by context (30_encoding.md R93, R103). -/
def predCodesOf (t : BitVec 4) : List Instr :=
  match t with
  | 1 => [.grpPred1C0, .grpPred1C1, .grpPred1C2, .grpPred1C3, .grpPred1C4, .grpPred1C5, .grpPred1C6, .grpPred1C7,
      .grpPred1C8]
  | 2 => [.grpPred2C0, .grpPred2C1, .grpPred2C2, .grpPred2C3, .grpPred2C4, .grpPred2C5, .grpPred2C6, .grpPred2C7,
      .grpPred2C8]
  | 3 => [.grpPred3C0, .grpPred3C1, .grpPred3C2, .grpPred3C3, .grpPred3C4, .grpPred3C5, .grpPred3C6, .grpPred3C7,
      .grpPred3C8]
  | 4 => [.grpPred4C0, .grpPred4C1, .grpPred4C2, .grpPred4C3, .grpPred4C4, .grpPred4C5, .grpPred4C6, .grpPred4C7,
      .grpPred4C8]
  | 5 => [.grpPred5C0, .grpPred5C1, .grpPred5C2, .grpPred5C3, .grpPred5C4, .grpPred5C5, .grpPred5C6, .grpPred5C7,
      .grpPred5C8]
  | 6 => [.grpPred6C0, .grpPred6C1, .grpPred6C2, .grpPred6C3, .grpPred6C4, .grpPred6C5, .grpPred6C6, .grpPred6C7,
      .grpPred6C8]
  | 7 => [.grpPred7C0, .grpPred7C1, .grpPred7C2, .grpPred7C3, .grpPred7C4, .grpPred7C5, .grpPred7C6, .grpPred7C7,
      .grpPred7C8]
  | _ => []

/-- The control codes of a predicted group, each with its symbol. -/
def predCodes : List (BitVec 4 × Instr) :=
  ([1, 2, 3, 4, 5, 6, 7] : List (BitVec 4)).flatMap fun t => (predCodesOf t).map fun i => (t, i)

/-- The control codes of a run group, by context (30_encoding.md R102, R103: none in context 0). -/
def runCodes : List Instr :=
  [.grpRunC1, .grpRunC2, .grpRunC3, .grpRunC4, .grpRunC5, .grpRunC6, .grpRunC7, .grpRunC8]

/-- The residual tokens of the group symbol `t`, each with its signed value (30_encoding.md R98, R102). -/
def residualTokensOf (t : Nat) : List (Int × Instr) :=
  match t with
  | 1 => [(-3, .tokRes1_M3), (3, .tokRes1_3)]
  | 2 => [(-17, .tokRes2_M17), (-5, .tokRes2_M5), (5, .tokRes2_5), (17, .tokRes2_17)]
  | 3 => [(-7, .tokRes3_M7), (2, .tokRes3_2), (9, .tokRes3_9), (18, .tokRes3_18)]
  | 4 => [(-18, .tokRes4_M18), (-9, .tokRes4_M9), (-2, .tokRes4_M2), (7, .tokRes4_7)]
  | 5 => [(-79, .tokRes5_M79), (-49, .tokRes5_M49), (-28, .tokRes5_M28), (-9, .tokRes5_M9), (9, .tokRes5_9), (28,
      .tokRes5_28), (49, .tokRes5_49), (79, .tokRes5_79)]
  | 6 => [(-37, .tokRes6_M37), (-16, .tokRes6_M16), (-1, .tokRes6_M1), (13, .tokRes6_13), (26, .tokRes6_26), (39,
      .tokRes6_39), (55, .tokRes6_55), (76, .tokRes6_76)]
  | 7 => [(-76, .tokRes7_M76), (-55, .tokRes7_M55), (-39, .tokRes7_M39), (-26, .tokRes7_M26), (-13, .tokRes7_M13),
      (1, .tokRes7_1), (16, .tokRes7_16), (37, .tokRes7_37)]
  | _ => []

/-- The residual tokens, each with its signed value. -/
def residualTokens : List (Int × Instr) :=
  [1, 2, 3, 4, 5, 6, 7].flatMap residualTokensOf

/-- The repeat-count tokens, each with its count (30_encoding.md R98, R103). -/
def nrepsTokens : List (BitVec 4 × Instr) :=
  [(1, .tokNreps1), (2, .tokNreps2), (3, .tokNreps3), (4, .tokNreps4), (5, .tokNreps5), (6, .tokNreps6),
    (7, .tokNreps7), (8, .tokNreps8), (9, .tokNreps9)]

/-- The step tokens, each with its signed value (30_encoding.md R98, R102). -/
def stepTokens : List (Int × Instr) :=
  [(-2, .tokStepM2), (0, .tokStep0), (2, .tokStep2)]

/-- The sequence at position `p`. -/
def atPos (p : Pos) (s : State) : State :=
  { s with pos := p }

/-- The repeat index `r`. -/
def withRep (r : BitVec 4) (s : State) : State :=
  { s with rep := r }

/-- A chunk of a run begins with count `n` (43_rowpredictor.md R179): `nreps <- n`, `rep <- 0`. -/
def startChunk (n : BitVec 4) (s : State) : State :=
  { s with nreps := n, rep := 0 }

/-- One repeat of a run (43_rowpredictor.md R179): `col <- col - 2`, then in a kept row-group the predictor copy. -/
def oneRepeat (s : State) : State :=
  let u := { s with col := s.col - 2 }
  if s.keep then predictCells u else u

/-- The effect of a step token of value `v` on the registers and cells (43_rowpredictor.md R179): `step <- v << 4`,
then in a kept row-group `step` is added to the four cells. -/
def stepAdded (v : Int) (s : State) : State :=
  let u := { s with step := BitVec.ofInt 12 (v * 16) }
  if s.keep then addStepCells u else u

end Sys2Proof.Machine
end

