-- ==== Sys2Proof/Certificates/Slice0/Obligations.lean ====
section
/-! DEFINITION. The statements for the provers. -/

open Sys2Proof Sys2Proof.Machine

/-! ## Encoding -/

/-- 41_huffman.md R147 (c), R99: at its slot, the bits of an instruction decode to that instruction, and the decoder
takes exactly those bits, whatever follows. Every operand at every value; a header with M = 0 too (R164). The code words
are those of HUFF_SPEC_REF, the spec's candidate (the model's choice, notes/assumptions/1.md). -/
def Obligations.DecodeOfEncode : Prop :=
  ∀ (i : Instr) (rest : List Bool), decode huffSpecRef i.slot (encode i ++ rest) = .ok (i, rest)

/-- 41_huffman.md R147 (b), 30_encoding.md R101: at a slot, each instruction has one encoding: what decodes to an
instruction begins with that instruction's bits. Under HUFF_SPEC_REF (the model's choice, notes/assumptions/1.md). -/
def Obligations.EncodeOfDecode : Prop :=
  ∀ (sl : Slot) (bits : List Bool) (i : Instr) (rest : List Bool),
    decode huffSpecRef sl bits = .ok (i, rest) → i.slot = sl ∧ bits = encode i ++ rest

/-- 41_huffman.md R145: under any HUFF_SPEC that satisfies 00_scope.md R8 (a), and for table 18, DECODE of any 8 bits or
more is the entry that 8 bits index, after exactly that entry's number of bits. -/
def Obligations.EveryTableDecodesEveryBitString : Prop :=
  ∀ (spec : List (Nat × Int)) (t : Nat) (bits : List Bool),
    specLaidOut spec 0 = true → t ≤ 18 → 8 ≤ bits.length →
    ∃ e, builtEntry spec t (bitsValue (bits.take 8)) = some e ∧ 1 ≤ e.len.toNat ∧ e.len.toNat ≤ 8 ∧
      decodeCode spec t bits = .ok (e.val, bits.drop e.len.toNat)

/-- 30_encoding.md R95: the five bits of a literal token decode to `8 * v + 4`, under every HUFF_SPEC. -/
def Obligations.LiteralTokenDecodesToCentredValue : Prop :=
  ∀ (spec : List (Nat × Int)) (v : BitVec 5) (rest : List Bool),
    decodeCode spec 18 (wordBits 5 v.toNat ++ rest) = .ok (BitVec.ofNat 8 (8 * v.toNat + 4), rest)

/-- 30_encoding.md R92, R101, R102: a few words written out from the spec's code books, one or more of each
family. Under HUFF_SPEC_REF (the model's choice, notes/assumptions/1.md). -/
def Obligations.WordsOfTheCodeBooks : Prop :=
  decode huffSpecRef .header ([false, true, false, false, false, false] ++ [false, false, false, false, false, true] ++
    [true, true, true, true, true, true]) = .ok (.bandhdr 16 1 63, []) ∧
  decode huffSpecRef (.code 1) [true, true, true, true, true, true, true, true] = .ok (.grpLitC1, []) ∧
  decode huffSpecRef (.code 8) [true, true, false] = .ok (.grpLitC8, []) ∧
  decode huffSpecRef (.code 5) [true, true, true, true, false] = .ok (.grpRunC5, []) ∧
  decode huffSpecRef (.code 0) [true, true, true, true, true, false] = .ok (.grpPred5C0, []) ∧
  decode huffSpecRef (.code 9) [true, true, true, true] = .ok (.tokNreps9, []) ∧
  decode huffSpecRef (.code 10) [true, true] = .ok (.tokStepM2, []) ∧
  decode huffSpecRef (.code 16) [true, true, true, true, true, false] = .ok (.tokRes6_M37, []) ∧
  decode huffSpecRef (.code 18) [false, true, false, true, false] = .ok (.tokLit 10, [])

/-! ## BitReader and DECODE -/

/-- 40_bitreader.md R130 (a) to (d), R135: READBITS(n) returns the next n bits of the stream, MSB first; `bitpos` grows
by exactly n; at most one byte is fetched, none when `n <= rem`; nothing but the cursor changes. -/
def Obligations.ReadBitsReturnsStreamBits : Prop :=
  ∀ (s : State) (n : Nat),
    1 ≤ n → n ≤ 8 → s.rem.toNat ≤ 8 → srcWritten s → n ≤ (unreadBits s).length →
    ∃ t, readBits n s = .got (bitsValue ((unreadBits s).take n)) t ∧
      unreadBits t = (unreadBits s).drop n ∧ bitpos t = bitpos s + n ∧ t.rem.toNat ≤ 7 ∧
      t.ptr.toNat ≤ s.ptr.toNat + 1 ∧ (n ≤ s.rem.toNat → t.ptr = s.ptr ∧ t.cur = s.cur) ∧
      t = { s with ptr := t.ptr, cur := t.cur, rem := t.rem }

/-- 60_exceptions.md R231, R238: when fewer than n bits are left, READBITS(n) raises Truncated: FAULT_INFO is
`ptr = SRC_LEN`, `rem = 0`, and nothing but the cursor, STATUS, FAULT_INFO and the position changes. -/
def Obligations.ReadBitsPastTheEndIsTruncated : Prop :=
  ∀ (s : State) (n : Nat),
    1 ≤ n → n ≤ 8 → s.rem.toNat ≤ 8 → s.ptr.toNat ≤ s.srcLen.toNat → srcWritten s → (unreadBits s).length < n →
    ∃ c : Byte, readBits n s = .raised
      { s with
        ptr := s.srcLen, cur := c, rem := 0, pos := .halted
        status := ⟨false, false, true, 2⟩, faultInfo := s.srcLen ++ (0 : BitVec 4) }

/-- 40_bitreader.md R135, first law: `READBITS(a)` then `READBITS(b)` is `READBITS(a + b)`, the results concatenated;
here with the outcomes of both sides equal, a fault included. -/
def Obligations.ReadBitsSplits : Prop :=
  ∀ (s : State) (a b : Nat), 1 ≤ a → 1 ≤ b → a + b ≤ 8 →
    readThen (readBits a s) (fun x u => readThen (readBits b u) fun y v => .got (x * 2 ^ b + y) v) = readBits (a + b) s

/-- 40_bitreader.md R132: READBITS(n) with n outside 1..8 is refused. -/
def Obligations.ReadBitsOutsideContractIsRefused : Prop :=
  ∀ (s : State) (n : Nat), n = 0 ∨ 8 < n → readBits n s = .noMeaning (.readBitsRange n)

/-- 40_bitreader.md R131, R133: RESET fetches the byte at `ptr` at once and puts the cursor at the byte boundary before
it; at `ptr >= SRC_LEN` it raises Truncated with the cursor as it stands. -/
def Obligations.ResetRefillsAtByteBoundary : Prop :=
  (∀ (s : State) (b : Byte), s.ptr.toNat < s.srcLen.toNat → storeGet s.src s.ptr.toNat = some b →
    ∃ t, resetReader s = .got () t ∧ t = { s with cur := b, ptr := s.ptr + 1, rem := 8 } ∧
      bitpos t = 8 * (s.ptr.toNat : Int)) ∧
  (∀ s : State, s.srcLen.toNat ≤ s.ptr.toNat → resetReader s = .raised
    { s with faultInfo := s.ptr ++ s.rem, status := ⟨false, false, true, 2⟩, pos := .halted })

/-- 41_huffman.md R143, R145: DECODE(t) of the machine reads the code word that stands next in the stream, consumes
exactly its bits, never touches the byte after the one its last bit is in, and changes nothing but the cursor; when the
stream ends inside it, it raises Truncated. -/
def Obligations.DecodeReadsTheNextCodeWord : Prop :=
  ∀ (s : State) (t : Nat), s.huff = [] → s.rem.toNat ≤ 8 → s.ptr.toNat ≤ s.srcLen.toNat → srcWritten s →
    (∀ v rest, decodeCode s.cfg.huffSpec t (unreadBits s) = .ok (v, rest) →
      ∃ u, decodeToken t s = .got v u ∧ unreadBits u = rest ∧
        bitpos u = bitpos s + ((unreadBits s).length - rest.length : Nat) ∧ u.rem.toNat ≤ 7 ∧
        u = { s with ptr := u.ptr, cur := u.cur, rem := u.rem }) ∧
    (decodeCode s.cfg.huffSpec t (unreadBits s) = .error .endOfBits →
      ∃ c : Byte, decodeToken t s = .raised
        { s with
          ptr := s.srcLen, cur := c, rem := 0, pos := .halted
          status := ⟨false, false, true, 2⟩, faultInfo := s.srcLen ++ (0 : BitVec 4) })

/-- 00_scope.md R2, 10_state.md R25: where the bits at the cursor decode to an instruction at the slot the sequence
stands at, the step is that instruction's `exec` on the state with the cursor moved past its bits (for a band header,
with M read into its register: 42_scaletracker.md R160). -/
def Obligations.StepRunsTheDecodedInstruction : Prop :=
  ∀ (s : State) (sl : Slot) (i : Instr) (rest : List Bool),
    s.hostMoves = [] → s.status.busy = true → slotAt s = some sl → s.huff = [] → s.rem.toNat ≤ 8 →
    s.ptr.toNat ≤ s.srcLen.toNat → srcWritten s →
    decode s.cfg.huffSpec sl (unreadBits s) = .ok (i, rest) →
    ∃ c, step s = exec i c ∧ unreadBits c = rest ∧
      c = { s with ptr := c.ptr, cur := c.cur, rem := c.rem, mult := c.mult } ∧
      (∀ t, sl = .code t → c.mult = s.mult) ∧ (∀ m p1 p2, i = .bandhdr m p1 p2 → c.mult = m)

/-! ## BANDHDR -/

/-- 42_scaletracker.md R160 to R163: BANDHDR with M not 0 sets `M`, `val` and `prevM`, and every cell `c` of the three
rows, the sentinel included, becomes `wrap16((c * val + DECAY_BIAS) >> 12)`; P1 and P2 have no effect; every other
address of RBUF and every other part of the state is as it was. `val` holds the product where its 24 bits can
(10_state.md R24); a larger product leaves it a free value, which is the model's choice (notes/assumptions/33.md; 16.md:
no configuration is refused for it). -/
def Obligations.BandHeaderDecaysTheBuffer : Prop :=
  ∀ (s : State) (m p1 p2 : BitVec 6), m ≠ 0 → storeSorted s.rbuf →
    let v := scaleEntry s.cfg s.prevM * m.toNat
    ∃ t, exec (.bandhdr m p1 p2) s = .next t ∧
      (∀ r i, r < 3 → i ≤ halfWidth s → readCell t r i = BitVec.ofInt 16
        ((cell s r i * (v : Int) + s.cfg.decayBias) / 4096)) ∧
      (∀ a, (∀ r i, r < 3 → i ≤ halfWidth s → a ≠ cellAddr r i) →
        storeRead s.cfg.bufInit t.rbuf a = storeRead s.cfg.bufInit s.rbuf a) ∧
      t = { s with mult := m, val := t.val, prevM := m, pos := .rowGroup 0, rbuf := t.rbuf } ∧
      (v < 2 ^ 24 → t.val.toNat = v)

/-- 42_scaletracker.md R164, 60_exceptions.md R234, R238: BANDHDR with M = 0 raises ZeroMultiplier before DECAY: RBUF is
as it was, FAULT_INFO holds the cursor. -/
def Obligations.ZeroMultiplierFaults : Prop :=
  ∀ (s : State) (p1 p2 : BitVec 6), exec (.bandhdr 0 p1 p2) s = .next
    { s with mult := 0, status := ⟨false, false, true, 4⟩, faultInfo := s.ptr ++ s.rem, pos := .halted }

/-- 42_scaletracker.md R165: where `LAST_SCALE_LUT[prevM] * M` is 4096 and DECAY_BIAS is -1, a band header lowers every
cell by one (modulo 2^16). -/
def Obligations.IdentityScaleLowersEveryCellByOne : Prop :=
  ∀ (s t : State) (m p1 p2 : BitVec 6),
    scaleEntry s.cfg s.prevM * m.toNat = 4096 → s.cfg.decayBias = -1 → storeSorted s.rbuf →
    exec (.bandhdr m p1 p2) s = .next t →
    ∀ r i, r < 3 → i ≤ halfWidth s → readCell t r i = readCell s r i - 1

/-! ## The control codes -/

/-- 43_rowpredictor.md R173, R177: the control code of a literal group, in every context, sets `tree` to 8 and lowers
`col` by 2; four literal tokens follow; nothing else changes. -/
def Obligations.LiteralGroupStarts : Prop :=
  ∀ i ∈ litCodes, ∀ s : State, exec i s = .next { s with tree := 8, col := s.col - 2, tok := 0, pos := .lit }

/-- 43_rowpredictor.md R173, R178: the control code of a predicted group of symbol t, in every context, sets `tree` to t
and lowers `col` by 2; four residual tokens follow; nothing else changes. -/
def Obligations.PredictedGroupStarts : Prop :=
  ∀ p ∈ predCodes, ∀ s : State,
    exec p.2 s = .next { s with tree := p.1, col := s.col - 2, tok := 0, pos := .res } ∧
      1 ≤ p.1.toNat ∧ p.1.toNat ≤ 7

/-- 43_rowpredictor.md R179, R180 (a), (c), for every even `col` (10_state.md R23): the control code of a run group sets
`tree` to 0; with `col > 2` a repeat-count token follows; with `col = 2` one repeat is made and the group ends; with
`col = 0` none is. -/
def Obligations.RunGroupStarts : Prop :=
  ∀ i ∈ runCodes, ∀ s : State, s.col.toNat % 2 = 0 → (s.keep = true → s.col.toNat ≤ halfWidth s) →
    let u := { s with tree := 0 }
    (2 < s.col.toNat → exec i s = .next (atPos .nreps u)) ∧
    (s.col = 2 → exec i s = .next (groupEnd (withRep 1 (oneRepeat (startChunk 1 u))))) ∧
    (s.col = 0 → exec i s = .next (groupEnd (startChunk 1 u)))

/-- 43_rowpredictor.md R170, 46_sequencer.md R222: after a group, another control code while `col > 0`; else the
row-group is over: EMIT in a kept one, in a discarded one the next row-group, and CHECKER after the fourth. -/
def Obligations.GroupEndFollowsTheColumn : Prop :=
  ∀ s : State,
    (0 < s.col.toNat → groupEnd s = { s with pos := .ctrl }) ∧
    (s.col = 0 → s.keep = true → groupEnd s = { s with pos := .emit }) ∧
    (s.col = 0 → s.keep = false → s.rg ≠ 3 → groupEnd s = { s with pos := .rowGroup (s.rg + 1) }) ∧
    (s.col = 0 → s.keep = false → s.rg = 3 → groupEnd s = { s with pos := .checker })

/-! ## The tokens -/

/-- 43_rowpredictor.md R172, R177, R181: in a kept row-group literal token k writes `wrap16((8 * v + 4) * M)` to cell k
and to nothing else; after the fourth token the group ends. -/
def Obligations.LiteralTokenWritesItsCell : Prop :=
  ∀ (s : State) (v : BitVec 5),
    s.keep = true → s.col.toNat + 1 < halfWidth s → storeSorted s.rbuf →
    ∃ t, exec (.tokLit v) s = .next t ∧
      readCell t (cellRow s.tok) (cellIndex s.col s.tok) =
        BitVec.ofInt 16 (((8 * v.toNat + 4) * s.mult.toNat : Nat) : Int) ∧
      (∀ a, a ≠ cellAddr (cellRow s.tok) (cellIndex s.col s.tok) →
        storeRead s.cfg.bufInit t.rbuf a = storeRead s.cfg.bufInit s.rbuf a) ∧
      (s.tok ≠ 3 → t = { s with rbuf := t.rbuf, tok := s.tok + 1 }) ∧
      (s.tok = 3 → t = { s with rbuf := t.rbuf, pos := if s.col = 0 then .emit else .ctrl })

/-- 43_rowpredictor.md R172, R174, R178, R181: in a kept row-group residual token k of value r writes
`wrap16((r << RESID_SHIFT) + P)` to cell k, P from the buffer as the tokens before it left it (the two diagonal
neighbours halved, then with the in-row neighbour halved again), and to nothing else; after the fourth token the group
ends. -/
def Obligations.ResidualTokenWritesItsCell : Prop :=
  ∀ p ∈ residualTokens, ∀ s : State,
    s.keep = true → s.col.toNat + 1 < halfWidth s → storeSorted s.rbuf →
    let y := cellRow s.tok
    let x := cellIndex s.col s.tok
    ∃ t, exec p.2 s = .next t ∧
      readCell t y x = BitVec.ofInt 16 (p.1 * 2 ^ s.cfg.residShift +
        ((cell s (y - 1) x + cell s (y - 1) (x + 1)) / 2 + cell s y (x + 1)) / 2) ∧
      (∀ a, a ≠ cellAddr y x → storeRead s.cfg.bufInit t.rbuf a = storeRead s.cfg.bufInit s.rbuf a) ∧
      (s.tok ≠ 3 → t = { s with rbuf := t.rbuf, tok := s.tok + 1 }) ∧
      (s.tok = 3 → t = { s with rbuf := t.rbuf, pos := if s.col = 0 then .emit else .ctrl })

/-- 43_rowpredictor.md R172, R175: the cells of tokens 0 to 3, with `col` the lowered cursor. -/
def Obligations.CellsOfAGroup : Prop :=
  ∀ col : BitVec 16,
    (cellRow 0, cellIndex col 0) = (1, col.toNat + 1) ∧ (cellRow 1, cellIndex col 1) = (1, col.toNat) ∧
    (cellRow 2, cellIndex col 2) = (2, col.toNat + 1) ∧ (cellRow 3, cellIndex col 3) = (2, col.toNat)

/-- 43_rowpredictor.md R177, R178, R184: in a discarded row-group a literal or residual token is read and writes no
cell; the sequence goes on as in a kept one, without EMIT. -/
def Obligations.DiscardedTokensWriteNothing : Prop :=
  ∀ (i : Instr) (s : State), (∃ v, i = .tokLit v) ∨ (∃ r, (r, i) ∈ residualTokens) → s.keep = false →
    (s.tok ≠ 3 → exec i s = .next { s with tok := s.tok + 1 }) ∧
    (s.tok = 3 → exec i s = .next
      { s with pos := if s.col ≠ 0 then .ctrl else if s.rg = 3 then .checker else .rowGroup (s.rg + 1) })

/-- 20_memory.md R66, 43_rowpredictor.md R172 (the model's choice, notes/assumptions/19.md): a token of a kept row-group
whose cells lie beyond the row stops with a fault of the model's own. No run reaches one. -/
def Obligations.TokenBeyondTheRowStops : Prop :=
  ∀ (i : Instr) (s : State),
    (∃ v, i = .tokLit v) ∨ (∃ r, (r, i) ∈ residualTokens) ∨ (∃ v, (v, i) ∈ stepTokens) →
    s.keep = true → halfWidth s ≤ s.col.toNat + 1 → exec i s = .fault (.noSuchCell s.col)

/-- 43_rowpredictor.md R174: the predictor halves the sum of the two diagonal neighbours, then its sum with the in-row
one, each time downward; it is the floor of the quarter of the sum with the in-row neighbour counted twice, and a signed
16-bit number. -/
def Obligations.PredictorIsTheFloorOfTheWeightedSum : Prop :=
  ∀ (s : State) (y x : Nat),
    predict s y x = ((cell s (y - 1) x + cell s (y - 1) (x + 1)) / 2 + cell s y (x + 1)) / 2 ∧
      predict s y x = (cell s (y - 1) x + cell s (y - 1) (x + 1) + 2 * cell s y (x + 1)) / 4 ∧
      -32768 ≤ predict s y x ∧ predict s y x ≤ 32767

/-- 43_rowpredictor.md R176, 70_reset_and_hazards.md R263, R264: the predictor copy of a repeat writes cells 0 to 3 in
order, each seeing the ones before it: the four values, by the neighbours R176 names, and nothing else. -/
def Obligations.PredictorCopySeesEarlierCells : Prop :=
  ∀ s : State, s.col.toNat + 1 < halfWidth s → storeSorted s.rbuf →
    let c := s.col.toNat
    let t := predictCells s
    readCell t 1 (c + 1) = BitVec.ofInt 16 (((cell s 0 (c + 1) + cell s 0 (c + 2)) / 2 + cell s 1 (c + 2)) / 2) ∧
    readCell t 1 c = BitVec.ofInt 16 (((cell s 0 c + cell s 0 (c + 1)) / 2 + cell t 1 (c + 1)) / 2) ∧
    readCell t 2 (c + 1) = BitVec.ofInt 16 (((cell t 1 (c + 1) + cell s 1 (c + 2)) / 2 + cell s 2 (c + 2)) / 2) ∧
    readCell t 2 c = BitVec.ofInt 16 (((cell t 1 c + cell t 1 (c + 1)) / 2 + cell t 2 (c + 1)) / 2) ∧
    (∀ a, a ≠ cellAddr 1 (c + 1) → a ≠ cellAddr 1 c → a ≠ cellAddr 2 (c + 1) → a ≠ cellAddr 2 c →
      storeRead s.cfg.bufInit t.rbuf a = storeRead s.cfg.bufInit s.rbuf a) ∧
    t = { s with rbuf := t.rbuf }

/-- 43_rowpredictor.md R179, 70_reset_and_hazards.md R265: the step is added to the four cells as they stand, each
`wrap16(cell + step)`, and to nothing else. -/
def Obligations.StepIsAddedToTheFourCells : Prop :=
  ∀ s : State, s.col.toNat + 1 < halfWidth s → storeSorted s.rbuf →
    let c := s.col.toNat
    let t := addStepCells s
    (∀ r i, (r = 1 ∨ r = 2) → (i = c ∨ i = c + 1) → readCell t r i = BitVec.ofInt 16 (cell s r i + s.step.toInt)) ∧
    (∀ a, a ≠ cellAddr 1 (c + 1) → a ≠ cellAddr 1 c → a ≠ cellAddr 2 (c + 1) → a ≠ cellAddr 2 c →
      storeRead s.cfg.bufInit t.rbuf a = storeRead s.cfg.bufInit s.rbuf a) ∧
    t = { s with rbuf := t.rbuf }

/-- 43_rowpredictor.md R179, R180 (b), (d), where the grammar has a repeat-count token (`col > 2`, even): a count n sets
`nreps` and makes repeat 0; for n = 1 the group is over; else repeat 1 is made and a step token follows. -/
def Obligations.RepeatCountTokenStartsTheChunk : Prop :=
  ∀ p ∈ nrepsTokens, ∀ s : State,
    2 < s.col.toNat → s.col.toNat % 2 = 0 → (s.keep = true → s.col.toNat ≤ halfWidth s) →
    let u := withRep 1 (oneRepeat (startChunk p.1 s))
    (p.1 = 1 → exec p.2 s = .next (atPos .ctrl u)) ∧ (p.1 ≠ 1 → exec p.2 s = .next (atPos .step (oneRepeat u)))

/-- 43_rowpredictor.md R179, R180 (b), (c): a step token of value v sets `step` to `v << 4`, adds it (`stepAdded`), and
the chunk goes on: with the even repeat and the odd one after it while `rep < 8`, `rep < nreps` and `col > 0`; a chunk
that ends ends the group, or after `nreps = 9` starts another chunk. For every even `col`, odd `rep` below `nreps`. -/
def Obligations.StepTokenGoesOnWithTheChunk : Prop :=
  ∀ p ∈ stepTokens, ∀ s : State,
    s.col.toNat % 2 = 0 → s.rep.toNat % 2 = 1 → s.rep.toNat < 8 → s.rep.toNat < s.nreps.toNat → s.nreps.toNat ≤ 9 →
    (s.keep = true → s.col.toNat + 1 < halfWidth s) →
    let u := withRep (s.rep + 1) (stepAdded p.1 s)
    let evenDone := withRep (s.rep + 2) (oneRepeat u)
    let lastChunk := fun x : State => groupEnd (startChunk 1 x)
    -- the chunk is over
    (s.nreps = s.rep + 1 → s.nreps ≠ 9 → exec p.2 s = .next (groupEnd u)) ∧
    (s.col = 0 → s.nreps ≠ 9 → exec p.2 s = .next (groupEnd u)) ∧
    (s.col = 0 → s.nreps = 9 → exec p.2 s = .next (lastChunk u)) ∧
    (s.rep = 7 → s.nreps = 9 → 2 < s.col.toNat → exec p.2 s = .next (atPos .nreps u)) ∧
    (s.rep = 7 → s.nreps = 9 → s.col = 2 →
      exec p.2 s = .next (groupEnd (withRep 1 (oneRepeat (startChunk 1 u))))) ∧
    -- one more repeat, and the chunk is over
    (s.rep ≠ 7 → s.rep.toNat + 1 < s.nreps.toNat → s.col = 2 → s.nreps ≠ 9 →
      exec p.2 s = .next (groupEnd evenDone)) ∧
    (s.rep ≠ 7 → s.col = 2 → s.nreps = 9 → exec p.2 s = .next (lastChunk evenDone)) ∧
    (s.rep ≠ 7 → s.nreps = s.rep + 2 → 2 < s.col.toNat → exec p.2 s = .next (groupEnd evenDone)) ∧
    -- two more repeats, and another step token
    (s.rep ≠ 7 → s.rep.toNat + 2 < s.nreps.toNat → 2 < s.col.toNat →
      exec p.2 s = .next (atPos .step (oneRepeat evenDone)))

/-- 43_rowpredictor.md R184: in a discarded row-group no instruction but a band header writes RBUF or PLANE. -/
def Obligations.DiscardPassLeavesTheImage : Prop :=
  ∀ (i : Instr) (s t : State), i.slot ≠ .header → s.keep = false → exec i s = .next t →
    t.rbuf = s.rbuf ∧ t.plane = s.plane ∧ t.keep = false

/-- 43_rowpredictor.md R187: a token or control code consumes the same bits, and moves `tree`, `col` and the counters in
the same way, in a discarded row-group as in a kept one. -/
def Obligations.DiscardPassConsumesTheSameBits : Prop :=
  ∀ s t : State, s.status.busy = true → s.pos ∈ [Pos.ctrl, .lit, .res, .nreps, .step] → engineStep s = .next t →
    ∃ u, engineStep { s with keep := false } = .next u ∧
      u.ptr = t.ptr ∧ u.cur = t.cur ∧ u.rem = t.rem ∧ u.tree = t.tree ∧ u.col = t.col ∧ u.nreps = t.nreps ∧
      u.rep = t.rep ∧ u.step = t.step ∧ u.tok = t.tok ∧ u.status = t.status ∧ (t.pos ≠ .emit → u.pos = t.pos)

/-- 43_rowpredictor.md R184, 46_sequencer.md R229 ("None of them depends on a cell value"): whatever RBUF, PLANE, T8 and
OUT hold, one step of the machine has the same outcome in every register, in STATUS and in every other store. -/
def Obligations.ControlDoesNotDependOnImageData : Prop :=
  ∀ (s t : State) (rb pl : Store Half) (t8 out : List Host.Cell), step s = .next t →
    ∃ u, step { s with rbuf := rb, plane := pl, t8 := t8, out := out } = .next u ∧
      u = { t with rbuf := u.rbuf, plane := u.plane, t8 := u.t8, out := u.out }

/-! ## The sequence -/

/-- 43_rowpredictor.md R170, R171, 46_sequencer.md R222: a row-group starts with `tree` 1 and `col` W2; in the two kept
ones index W2 of each of the three rows gets `wrap16(M << SENTINEL_SHIFT)` first, and no other cell changes; in the two
discarded ones no cell does. -/
def Obligations.RowGroupStartsAndSeedsTheSentinel : Prop :=
  ∀ (s : State) (g : BitVec 2), s.status.busy = true → s.pos = .rowGroup g → badGeometry s.w s.h = false →
    storeSorted s.rbuf →
    ∃ t, engineStep s = .next t ∧
      t = { s with
            rg := g, keep := decide (g.toNat < 2), tree := 1, col := BitVec.ofNat 16 (s.w.toNat / 2), pos := .ctrl
            rbuf := t.rbuf } ∧
      t.col.toNat = s.w.toNat / 2 ∧
      (g.toNat < 2 → ∀ r, r < 3 →
        readCell t r (halfWidth s) = BitVec.ofInt 16 ((s.mult.toNat : Int) * 2 ^ s.cfg.sentinelShift)) ∧
      (∀ a, (∀ r, r < 3 → a ≠ cellAddr r (halfWidth s)) →
        storeRead s.cfg.bufInit t.rbuf a = storeRead s.cfg.bufInit s.rbuf a) ∧
      (2 ≤ g.toNat → t.rbuf = s.rbuf)

/-- 43_rowpredictor.md R182: EMIT writes `c * 16 / M` (0 for c <= 0), truncated to 16 bits, of rows 1 and 2 to the
positions `(row + 2 * rg + y, 2 * x + y)` of PLANE, the sentinel not among them, and nothing else; CARRY follows. -/
def Obligations.EmitWritesTheQuincunx : Prop :=
  ∀ s : State, s.status.busy = true → s.pos = .emit → s.mult ≠ 0 → storeSorted s.plane →
    ∃ t, engineStep s = .next t ∧
      (∀ y x, y < 2 → x < halfWidth s → readPlane t (s.row.toNat + 2 * s.rg.toNat + y) (2 * x + y) = BitVec.ofInt 16
        (if cell s (y + 1) x ≤ 0 then 0 else cell s (y + 1) x * 16 / (s.mult.toNat : Int))) ∧
      (∀ a, (∀ y x, y < 2 → x < halfWidth s →
          a ≠ pixelAddr s (s.row.toNat + 2 * s.rg.toNat + y) (2 * x + y)) →
        storeRead s.cfg.planeInit t.plane a = storeRead s.cfg.planeInit s.plane a) ∧
      t = { s with plane := t.plane, pos := .carry }

/-- 43_rowpredictor.md R183: CARRY copies row 2 into row 0, shifted by CARRY_SHIFT, the sentinel included, and writes
nothing else; the next row-group follows, or CHECKER after the fourth. -/
def Obligations.CarryCopiesRowTwo : Prop :=
  ∀ s : State, s.status.busy = true → s.pos = .carry → s.cfg.carryShift ≤ 1 → storeSorted s.rbuf →
    ∃ t, engineStep s = .next t ∧
      (∀ i, i + s.cfg.carryShift ≤ halfWidth s → readCell t 0 (i + s.cfg.carryShift) = readCell s 2 i) ∧
      (∀ a, (∀ i, i + s.cfg.carryShift ≤ halfWidth s → a ≠ cellAddr 0 (i + s.cfg.carryShift)) →
        storeRead s.cfg.bufInit t.rbuf a = storeRead s.cfg.bufInit s.rbuf a) ∧
      t = { s with rbuf := t.rbuf, pos := if s.rg = 3 then .checker else .rowGroup (s.rg + 1) }

/-- 45_demosaic.md R211, 46_sequencer.md R220, R222: CHECKER rewrites the odd-parity words of the band's four rows by
the formula of R211, the neighbours mirrored at the edges, and nothing else; the next band follows, or TONE. -/
def Obligations.CheckerRewritesTheOddParityWords : Prop :=
  ∀ s : State, s.status.busy = true → s.pos = .checker → badGeometry s.w s.h = false → storeSorted s.plane →
    ∃ t, engineStep s = .next t ∧
      (∀ y x, s.row.toNat ≤ y → y < s.row.toNat + 4 → x < s.w.toNat → (x + y) % 2 = 1 →
        let l := if x = 0 then 1 else x - 1
        let r := if x + 1 = s.w.toNat then x - 1 else x + 1
        let v : Int := ((readPlane s y x).toNat - 2048) * 2 + ((readPlane s y l).toNat + (readPlane s y r).toNat) / 2
        readPlane t y x = BitVec.ofInt 16 (if v < 0 then 0 else v)) ∧
      (∀ a, (∀ y x, s.row.toNat ≤ y → y < s.row.toNat + 4 → x < s.w.toNat → (x + y) % 2 = 1 → a ≠ pixelAddr s y x) →
        storeRead s.cfg.planeInit t.plane a = storeRead s.cfg.planeInit s.plane a) ∧
      (s.row.toNat + 4 < s.h.toNat → t = { s with plane := t.plane, row := s.row + 4, pos := .bandHdr }) ∧
      (s.h.toNat ≤ s.row.toNat + 4 → t = { s with plane := t.plane, pos := .tone })

/-- 45_demosaic.md R211, second formula: where an odd-parity word holds the baseline 2048, CHECKER makes it the average
of its two neighbours, halves downward. -/
def Obligations.CheckerAveragesAtTheBaseline : Prop :=
  ∀ (s : State) (y x : Nat), readPlane s y x = 2048 → 0 < x → x + 1 < s.w.toNat →
    checkerValue s y x = (((readPlane s y (x - 1)).toNat + (readPlane s y (x + 1)).toNat) / 2 : Nat) ∧
      (trunc16 (checkerValue s y x)).toNat = ((readPlane s y (x - 1)).toNat + (readPlane s y (x + 1)).toNat) / 2

/-- 44_tonecurve.md R203: TONE writes `min(CURVE[PLANE[y][x]] >> 4, 255)` to every sample of T8 and changes nothing else;
DEMOSAIC follows. -/
def Obligations.ToneMapsThePlane : Prop :=
  ∀ s : State, s.status.busy = true → s.pos = .tone →
    ∃ t, engineStep s = .next t ∧
      (∀ y x, y < s.h.toNat → x < s.w.toNat →
        (readT8 t y x).toNat = min ((readCurve s (readPlane s y x)).toNat / 16) 255) ∧
      t = { s with t8 := t.t8, pos := .demosaic }

/-- 44_tonecurve.md R201, R202: with well-formed breakpoints CURVE_BUILD's curve has the value `y_i` at each breakpoint
`x_i`, and between two consecutive breakpoints with `y` non-decreasing it is non-decreasing. -/
def Obligations.CurveMeetsItsBreakpoints : Prop :=
  ∀ (c : Config), breakpointsAdmitted c.toneBreakpoints = true →
    (∀ p ∈ c.toneBreakpoints, (curveDefault c p.1).toNat = p.2) ∧
    (∀ k, k < 5 → ∀ p q, c.toneBreakpoints[k]? = some p → c.toneBreakpoints[k + 1]? = some q → p.2 ≤ q.2 →
      ∀ a b, p.1 ≤ a → a ≤ b → b ≤ q.1 → (curveDefault c a).toNat ≤ (curveDefault c b).toNat)

/-- 45_demosaic.md R213, R215, R216, 46_sequencer.md R223: DEMOSAIC writes all W * H bytes of OUT and sets DONE; the host
then reads exactly those bytes: under every admitted configuration those of its function (`demosaicOf`) at T8, W, H and
CFA_TILE, and under the identity T8's own, whatever CFA_TILE holds. -/
def Obligations.DemosaicEndsTheRun : Prop :=
  ∀ s : State, s.status.busy = true → s.pos = .demosaic →
    ∃ t, engineStep s = .next t ∧
      t = { s with out := t.out, status := ⟨false, true, false, 0⟩, pos := .halted } ∧
      (s.cfg.demosaic = [] → ∀ y x, y < s.h.toNat → x < s.w.toNat →
        hostReadOut t (y * s.w.toNat + x) = some (readT8 s y x)) ∧
      (s.cfg.admitted = true →
        (demosaicOf s.cfg.demosaic ⟨t8Samples s, s.w.toNat, s.h.toNat, s.cfaTile⟩).length = s.w.toNat * s.h.toNat ∧
        ∀ a, a < s.w.toNat * s.h.toNat → hostReadOut t a =
          (demosaicOf s.cfg.demosaic ⟨t8Samples s, s.w.toNat, s.h.toNat, s.cfaTile⟩)[a]?) ∧
      (∀ a, s.w.toNat * s.h.toNat ≤ a → hostReadOut t a = none)

/-! ## START, INIT and the host -/

/-- 46_sequencer.md R220, 60_exceptions.md R232, R233, R237: START when not BUSY latches W and H and tests the geometry,
then the capacity; with both passed, INIT comes next; else the fault is taken before any store is written. The model's
choice: FAULT_INFO after these two faults is a free value (notes/assumptions/13.md), and what 10_state.md R40 calls
unspecified after START keeps its value (notes/assumptions/32.md). -/
def Obligations.StartTestsGeometryThenCapacity : Prop :=
  ∀ (s : State) (rest : List HostMove), s.hostMoves = .writeCtrl true :: rest → s.status.busy = false →
    s.cfg.admitted = true →
    let bad := s.width = 0 ∨ s.height = 0 ∨ s.width.toNat % 4 ≠ 0 ∨ s.height.toNat % 4 ≠ 0
    let big := s.cfg.wMax < s.width.toNat ∨ s.cfg.hMax < s.height.toNat
    ∃ t, step s = .next t ∧
      (bad → t = { s with
        hostMoves := rest, w := s.width, h := s.height, status := ⟨false, false, true, 3⟩, pos := .halted
        faultInfo := t.faultInfo, freeCtr := t.freeCtr }) ∧
      (¬ bad → big → t = { s with
        hostMoves := rest, w := s.width, h := s.height, status := ⟨false, false, true, 1⟩, pos := .halted
        faultInfo := t.faultInfo, freeCtr := t.freeCtr }) ∧
      (¬ bad → ¬ big → t = { s with
        hostMoves := rest, w := s.width, h := s.height, status := ⟨true, false, false, 0⟩, pos := .init })

/-- 46_sequencer.md R224: a write of 1 to CTRL.START while BUSY, and a write of 0 at any time, have no effect and are not
remembered; START in phase DONE or FAULT begins a new run and clears the old outcome. -/
def Obligations.StartWhileBusyIsIgnored : Prop :=
  ∀ (s : State) (b : Bool) (rest : List HostMove), s.hostMoves = .writeCtrl b :: rest →
    (b = false ∨ s.status.busy = true → step s = .next { s with hostMoves := rest }) ∧
    (b = true → s.status.busy = false → s.status.done = true ∨ s.status.fault = true → s.cfg.admitted = true →
      badGeometry s.width s.height = false → overCapacity s.cfg s.width s.height = false →
      ∃ t, step s = .next t ∧ t.status = ⟨true, false, false, 0⟩ ∧ t.pos = .init)

/-- 46_sequencer.md R221, 10_state.md R40: INIT gives every store and register the run later reads its starting value
and fetches SRC[0]; with SRC_LEN = 0 its RESET raises Truncated. That the registers and stores R221 does not name, which
R40 calls unspecified here, keep their values is the model's choice (notes/assumptions/32.md). -/
def Obligations.InitPrimesTheRun : Prop :=
  ∀ s : State, s.status.busy = true → s.pos = .init →
    (∀ b, 0 < s.srcLen.toNat → storeGet s.src 0 = some b →
      ∃ t, engineStep s = .next t ∧
        t = { s with
              ptr := 1, cur := b, rem := 8, prevM := s.cfg.prevMInit, row := 0, pos := .bandHdr
              huff := t.huff, curve := t.curve, rbuf := t.rbuf, plane := t.plane } ∧
        (∀ k i, k ≤ 18 → readHuff t k i = builtEntry s.cfg.huffSpec k i) ∧
        (∀ v, readCurve t v = curveDefault s.cfg v.toNat) ∧
        (∀ r i, readCell t r i = s.cfg.bufInit) ∧ (∀ y x, readPlane t y x = s.cfg.planeInit)) ∧
    (s.srcLen = 0 →
      ∃ t, engineStep s = .next t ∧ t.status = ⟨false, false, true, 2⟩ ∧ t.faultInfo = 0 ∧ t.pos = .halted ∧
        t.src = s.src ∧ t.t8 = s.t8 ∧ t.out = s.out)

/-- 10_state.md R28, R36: a host write to WIDTH, HEIGHT, SRC_LEN or CFA_TILE takes effect when not BUSY and is ignored
while BUSY; a host write of SRC when not BUSY stores that byte and no other. -/
def Obligations.HostWritesTakeEffectWhenNotBusy : Prop :=
  (∀ (s : State) (rest : List HostMove) (v : BitVec 16) (n : BitVec 32) (c : BitVec 8), s.status.busy = false →
    (s.hostMoves = .writeWidth v :: rest → step s = .next { s with hostMoves := rest, width := v }) ∧
    (s.hostMoves = .writeHeight v :: rest → step s = .next { s with hostMoves := rest, height := v }) ∧
    (s.hostMoves = .writeSrcLen n :: rest → step s = .next { s with hostMoves := rest, srcLen := n }) ∧
    (s.hostMoves = .writeCfaTile c :: rest → step s = .next { s with hostMoves := rest, cfaTile := c }) ∧
    (s.hostMoves = .writeSrc n c :: rest → ∃ t, step s = .next t ∧ t = { s with hostMoves := rest, src := t.src } ∧
      readSrc t n = some c ∧ ∀ a, a ≠ n → readSrc t a = readSrc s a)) ∧
  (∀ (s : State) (rest : List HostMove) (v : BitVec 16) (n : BitVec 32) (c : BitVec 8), s.status.busy = true →
    s.hostMoves = .writeWidth v :: rest ∨ s.hostMoves = .writeHeight v :: rest ∨
      s.hostMoves = .writeSrcLen n :: rest ∨ s.hostMoves = .writeCfaTile c :: rest →
    step s = .next { s with hostMoves := rest })

/-- 60_exceptions.md R250, R241, R242, 46_sequencer.md R223: in phases IDLE, DONE and FAULT the engine changes nothing. -/
def Obligations.QuiescentPhasesChangeNothing : Prop :=
  ∀ s : State, s.status.busy = false →
    (s.hostMoves = [] → step s = .next s) ∧
    (∀ rest, s.hostMoves = .engineTurn :: rest → step s = .next { s with hostMoves := rest })

/-- 70_reset_and_hazards.md R260, 10_state.md R40: hardware reset, in any phase, brings phase IDLE: STATUS all 0, `ptr` and
`rem` 0, HUFF and CURVE as built; that the host's SRC stays is the model's choice (notes/assumptions/22.md). -/
def Obligations.HardwareResetBringsPhaseIdle : Prop :=
  ∀ (s : State) (rest : List HostMove), s.hostMoves = .hardwareReset :: rest →
    ∃ t, step s = .next t ∧ t.status = ⟨false, false, false, 0⟩ ∧ t.pos = .halted ∧ t.ptr = 0 ∧ t.rem = 0 ∧
      (∀ k i, k ≤ 18 → readHuff t k i = builtEntry s.cfg.huffSpec k i) ∧
      (∀ v, readCurve t v = curveDefault s.cfg v.toNat) ∧ t.cfg = s.cfg ∧ t.src = s.src ∧ t.hostMoves = rest

/-- 10_state.md R40: the values the spec gives after hardware reset, in `State.reset`. -/
def Obligations.ResetHasTheSpecsValues : Prop :=
  State.reset.status = ⟨false, false, false, 0⟩ ∧ State.reset.ptr = 0 ∧ State.reset.rem = 0 ∧
  (∀ k i, k ≤ 18 → readHuff State.reset k i = builtEntry State.reset.cfg.huffSpec k i) ∧
  ∀ v, readCurve State.reset v = curveDefault State.reset.cfg v.toNat

/-! ## Faults -/

/-- 43_rowpredictor.md R186, 60_exceptions.md R231: inside a row-group the only fault is Truncated, with FAULT_INFO at the
end of SRC. -/
def Obligations.OnlyTruncatedInsideARowGroup : Prop :=
  ∀ s t : State, Inv s → s.status.busy = true →
    (∃ g, s.pos = .rowGroup g) ∨ s.pos ∈ [Pos.ctrl, .lit, .res, .nreps, .step, .emit, .carry] →
    engineStep s = .next t → t.status.fault = true →
    t.status = ⟨false, false, true, 2⟩ ∧ t.faultInfo = s.srcLen ++ (0 : BitVec 4)

/-- 60_exceptions.md R237: a band header cut short by the end of SRC reports Truncated, whatever its M field, and leaves
RBUF as it was. -/
def Obligations.HeaderCutShortIsTruncated : Prop :=
  ∀ s : State, s.status.busy = true → s.pos = .bandHdr → s.rem.toNat ≤ 8 → s.ptr.toNat ≤ s.srcLen.toNat →
    srcWritten s → (unreadBits s).length < 18 →
    ∃ t, engineStep s = .next t ∧ t.status = ⟨false, false, true, 2⟩ ∧ t.pos = .halted ∧
      t.faultInfo = s.srcLen ++ (0 : BitVec 4) ∧ t.rbuf = s.rbuf ∧ t.prevM = s.prevM

/-- 60_exceptions.md R239, 41_huffman.md R146, 20_memory.md R68: no step, a fault included, changes the parameters or
what HUFF, CURVE and LAST_SCALE_LUT read as. -/
def Obligations.NoStepChangesTheTables : Prop :=
  ∀ s t : State, s.huff = [] → s.curve = [] → step s = .next t →
    t.cfg = s.cfg ∧ (∀ k i, readHuff t k i = readHuff s k i) ∧ (∀ v, readCurve t v = readCurve s v) ∧
      ∀ m, scaleEntry t.cfg m = scaleEntry s.cfg m

/-- 10_state.md R25, 46_sequencer.md R229: after INIT the program counter never moves backward, and never past the end
of SRC. -/
def Obligations.CursorNeverMovesBackward : Prop :=
  ∀ s t : State, Inv s → s.status.busy = true → s.pos ≠ .init → engineStep s = .next t →
    bitpos s ≤ bitpos t ∧ bitpos t ≤ 8 * (s.srcLen.toNat : Int) ∧ t.srcLen = s.srcLen ∧ t.src = s.src

/-! ## Invariants and runs -/

/-- 10_state.md R40: the state after reset is legal. Rests on the values the model chose for it (notes/assumptions/1.md,
2.md, 3.md, 9.md). -/
def Obligations.ResetIsLegal : Prop :=
  Inv State.reset

/-- 10_state.md R22, R23, R24, R27, 20_memory.md R66, 43_rowpredictor.md R185: every step, of the host or of the engine,
from a legal state leads to a legal state. -/
def Obligations.EveryStepKeepsTheInvariant : Prop :=
  ∀ s t : State, Inv s → step s = .next t → Inv t

/-- 30_encoding.md R104, 60_exceptions.md R235, 43_rowpredictor.md R186: from a legal state whose SRC the host has
written, every turn of the engine has a next state, whatever the bits: no illegal code, no cell outside the buffer, no
refusal. -/
def Obligations.EngineNeverStops : Prop :=
  ∀ s : State, Inv s → srcWritten s → ∃ t, engineStep s = .next t

/-- 20_memory.md R66: after INIT, every cell of RBUF and every word of PLANE that a step of the engine writes is inside the
buffer and the plane. -/
def Obligations.WritesStayInBounds : Prop :=
  ∀ s t : State, Inv s → s.status.busy = true → (s.pos = .init ∨ inBounds s) → engineStep s = .next t → inBounds t

/-- 46_sequencer.md R225: every run ends, in DONE or in FAULT, within a number of turns that the geometry bounds. -/
def Obligations.EveryRunEnds : Prop :=
  ∀ s : State, Inv s → srcWritten s → s.status.busy = true →
    ∃ n t, n ≤ 3 + s.h.toNat / 4 * (14 + 10 * halfWidth s) ∧ engineSteps n s = .next t ∧ t.status.busy = false ∧
      (t.status.done = true ∨ t.status.fault = true)

/-- 10_state.md R39, R41, 46_sequencer.md R227: a register or store that no rule reads before it is written again has no
influence: two legal states that agree on what is live (`liveOnly`) take the same steps and agree after them, up to the
bytes of OUT and the fault the host reads. -/
def Obligations.StepsDependOnlyOnWhatIsLive : Prop :=
  ∀ s t s' : State, Inv s → Inv t → liveOnly s = liveOnly t → step s = .next s' →
    ∃ t', step t = .next t' ∧ liveOnly s' = liveOnly t'

/-- 10_state.md R39, 70_reset_and_hazards.md R260: START after any earlier run, fault or reset begins the run in the same
state: accepted with the same host inputs, two machines of one implementation agree on all that is live. -/
def Obligations.StartForgetsEarlierRuns : Prop :=
  ∀ s t : State, Inv s → Inv t → s.status.busy = false → t.status.busy = false →
    s.cfg = t.cfg → s.src = t.src → s.srcLen = t.srcLen → s.width = t.width → s.height = t.height →
    s.cfaTile = t.cfaTile → s.hostMoves = t.hostMoves → liveOnly (acceptStart s) = liveOnly (acceptStart t)
end

