-- ==== Sys2Proof/Laws/State.lean ====
section
/-! SUPPORT. One lemma per field per update of the state, so that no proof unfolds an update to see what it leaves. -/

namespace Sys2Proof.Machine

/-! ## `writeCell`: RBUF only -/

theorem writeCell_eq (s : State) (r i : Nat) (v : Int) :
    writeCell s r i v = { s with rbuf := (writeCell s r i v).rbuf } := rfl

@[simp] theorem writeCell_ptr (s : State) (r i : Nat) (v : Int) : (writeCell s r i v).ptr = s.ptr := (congrArg State.ptr (writeCell_eq s r i v)).trans rfl
@[simp] theorem writeCell_cur (s : State) (r i : Nat) (v : Int) : (writeCell s r i v).cur = s.cur := (congrArg State.cur (writeCell_eq s r i v)).trans rfl
@[simp] theorem writeCell_rem (s : State) (r i : Nat) (v : Int) : (writeCell s r i v).rem = s.rem := (congrArg State.rem (writeCell_eq s r i v)).trans rfl
@[simp] theorem writeCell_tree (s : State) (r i : Nat) (v : Int) : (writeCell s r i v).tree = s.tree := (congrArg State.tree (writeCell_eq s r i v)).trans rfl
@[simp] theorem writeCell_col (s : State) (r i : Nat) (v : Int) : (writeCell s r i v).col = s.col := (congrArg State.col (writeCell_eq s r i v)).trans rfl
@[simp] theorem writeCell_nreps (s : State) (r i : Nat) (v : Int) : (writeCell s r i v).nreps = s.nreps := (congrArg State.nreps (writeCell_eq s r i v)).trans rfl
@[simp] theorem writeCell_rep (s : State) (r i : Nat) (v : Int) : (writeCell s r i v).rep = s.rep := (congrArg State.rep (writeCell_eq s r i v)).trans rfl
@[simp] theorem writeCell_step (s : State) (r i : Nat) (v : Int) : (writeCell s r i v).step = s.step := (congrArg State.step (writeCell_eq s r i v)).trans rfl
@[simp] theorem writeCell_keep (s : State) (r i : Nat) (v : Int) : (writeCell s r i v).keep = s.keep := (congrArg State.keep (writeCell_eq s r i v)).trans rfl
@[simp] theorem writeCell_rg (s : State) (r i : Nat) (v : Int) : (writeCell s r i v).rg = s.rg := (congrArg State.rg (writeCell_eq s r i v)).trans rfl
@[simp] theorem writeCell_row (s : State) (r i : Nat) (v : Int) : (writeCell s r i v).row = s.row := (congrArg State.row (writeCell_eq s r i v)).trans rfl
@[simp] theorem writeCell_mult (s : State) (r i : Nat) (v : Int) : (writeCell s r i v).mult = s.mult := (congrArg State.mult (writeCell_eq s r i v)).trans rfl
@[simp] theorem writeCell_prevM (s : State) (r i : Nat) (v : Int) : (writeCell s r i v).prevM = s.prevM := (congrArg State.prevM (writeCell_eq s r i v)).trans rfl
@[simp] theorem writeCell_val (s : State) (r i : Nat) (v : Int) : (writeCell s r i v).val = s.val := (congrArg State.val (writeCell_eq s r i v)).trans rfl
@[simp] theorem writeCell_pos (s : State) (r i : Nat) (v : Int) : (writeCell s r i v).pos = s.pos := (congrArg State.pos (writeCell_eq s r i v)).trans rfl
@[simp] theorem writeCell_tok (s : State) (r i : Nat) (v : Int) : (writeCell s r i v).tok = s.tok := (congrArg State.tok (writeCell_eq s r i v)).trans rfl
@[simp] theorem writeCell_w (s : State) (r i : Nat) (v : Int) : (writeCell s r i v).w = s.w := (congrArg State.w (writeCell_eq s r i v)).trans rfl
@[simp] theorem writeCell_h (s : State) (r i : Nat) (v : Int) : (writeCell s r i v).h = s.h := (congrArg State.h (writeCell_eq s r i v)).trans rfl
@[simp] theorem writeCell_status (s : State) (r i : Nat) (v : Int) : (writeCell s r i v).status = s.status := (congrArg State.status (writeCell_eq s r i v)).trans rfl
@[simp] theorem writeCell_faultInfo (s : State) (r i : Nat) (v : Int) : (writeCell s r i v).faultInfo = s.faultInfo := (congrArg State.faultInfo (writeCell_eq s r i v)).trans rfl
@[simp] theorem writeCell_width (s : State) (r i : Nat) (v : Int) : (writeCell s r i v).width = s.width := (congrArg State.width (writeCell_eq s r i v)).trans rfl
@[simp] theorem writeCell_height (s : State) (r i : Nat) (v : Int) : (writeCell s r i v).height = s.height := (congrArg State.height (writeCell_eq s r i v)).trans rfl
@[simp] theorem writeCell_srcLen (s : State) (r i : Nat) (v : Int) : (writeCell s r i v).srcLen = s.srcLen := (congrArg State.srcLen (writeCell_eq s r i v)).trans rfl
@[simp] theorem writeCell_cfaTile (s : State) (r i : Nat) (v : Int) : (writeCell s r i v).cfaTile = s.cfaTile := (congrArg State.cfaTile (writeCell_eq s r i v)).trans rfl
@[simp] theorem writeCell_src (s : State) (r i : Nat) (v : Int) : (writeCell s r i v).src = s.src := (congrArg State.src (writeCell_eq s r i v)).trans rfl
@[simp] theorem writeCell_huff (s : State) (r i : Nat) (v : Int) : (writeCell s r i v).huff = s.huff := (congrArg State.huff (writeCell_eq s r i v)).trans rfl
@[simp] theorem writeCell_plane (s : State) (r i : Nat) (v : Int) : (writeCell s r i v).plane = s.plane := (congrArg State.plane (writeCell_eq s r i v)).trans rfl
@[simp] theorem writeCell_curve (s : State) (r i : Nat) (v : Int) : (writeCell s r i v).curve = s.curve := (congrArg State.curve (writeCell_eq s r i v)).trans rfl
@[simp] theorem writeCell_t8 (s : State) (r i : Nat) (v : Int) : (writeCell s r i v).t8 = s.t8 := (congrArg State.t8 (writeCell_eq s r i v)).trans rfl
@[simp] theorem writeCell_out (s : State) (r i : Nat) (v : Int) : (writeCell s r i v).out = s.out := (congrArg State.out (writeCell_eq s r i v)).trans rfl
@[simp] theorem writeCell_cfg (s : State) (r i : Nat) (v : Int) : (writeCell s r i v).cfg = s.cfg := (congrArg State.cfg (writeCell_eq s r i v)).trans rfl
@[simp] theorem writeCell_freeCtr (s : State) (r i : Nat) (v : Int) : (writeCell s r i v).freeCtr = s.freeCtr := (congrArg State.freeCtr (writeCell_eq s r i v)).trans rfl
@[simp] theorem writeCell_hostMoves (s : State) (r i : Nat) (v : Int) : (writeCell s r i v).hostMoves = s.hostMoves := (congrArg State.hostMoves (writeCell_eq s r i v)).trans rfl

/-! ## `writeCells`: RBUF only -/

theorem writeCells_eq (s : State) (ws : List ((Nat × Nat) × Int)) :
    writeCells s ws = { s with rbuf := (writeCells s ws).rbuf } := rfl

@[simp] theorem writeCells_ptr (s : State) (ws : List ((Nat × Nat) × Int)) : (writeCells s ws).ptr = s.ptr := (congrArg State.ptr (writeCells_eq s ws)).trans rfl
@[simp] theorem writeCells_cur (s : State) (ws : List ((Nat × Nat) × Int)) : (writeCells s ws).cur = s.cur := (congrArg State.cur (writeCells_eq s ws)).trans rfl
@[simp] theorem writeCells_rem (s : State) (ws : List ((Nat × Nat) × Int)) : (writeCells s ws).rem = s.rem := (congrArg State.rem (writeCells_eq s ws)).trans rfl
@[simp] theorem writeCells_tree (s : State) (ws : List ((Nat × Nat) × Int)) : (writeCells s ws).tree = s.tree := (congrArg State.tree (writeCells_eq s ws)).trans rfl
@[simp] theorem writeCells_col (s : State) (ws : List ((Nat × Nat) × Int)) : (writeCells s ws).col = s.col := (congrArg State.col (writeCells_eq s ws)).trans rfl
@[simp] theorem writeCells_nreps (s : State) (ws : List ((Nat × Nat) × Int)) : (writeCells s ws).nreps = s.nreps := (congrArg State.nreps (writeCells_eq s ws)).trans rfl
@[simp] theorem writeCells_rep (s : State) (ws : List ((Nat × Nat) × Int)) : (writeCells s ws).rep = s.rep := (congrArg State.rep (writeCells_eq s ws)).trans rfl
@[simp] theorem writeCells_step (s : State) (ws : List ((Nat × Nat) × Int)) : (writeCells s ws).step = s.step := (congrArg State.step (writeCells_eq s ws)).trans rfl
@[simp] theorem writeCells_keep (s : State) (ws : List ((Nat × Nat) × Int)) : (writeCells s ws).keep = s.keep := (congrArg State.keep (writeCells_eq s ws)).trans rfl
@[simp] theorem writeCells_rg (s : State) (ws : List ((Nat × Nat) × Int)) : (writeCells s ws).rg = s.rg := (congrArg State.rg (writeCells_eq s ws)).trans rfl
@[simp] theorem writeCells_row (s : State) (ws : List ((Nat × Nat) × Int)) : (writeCells s ws).row = s.row := (congrArg State.row (writeCells_eq s ws)).trans rfl
@[simp] theorem writeCells_mult (s : State) (ws : List ((Nat × Nat) × Int)) : (writeCells s ws).mult = s.mult := (congrArg State.mult (writeCells_eq s ws)).trans rfl
@[simp] theorem writeCells_prevM (s : State) (ws : List ((Nat × Nat) × Int)) : (writeCells s ws).prevM = s.prevM := (congrArg State.prevM (writeCells_eq s ws)).trans rfl
@[simp] theorem writeCells_val (s : State) (ws : List ((Nat × Nat) × Int)) : (writeCells s ws).val = s.val := (congrArg State.val (writeCells_eq s ws)).trans rfl
@[simp] theorem writeCells_pos (s : State) (ws : List ((Nat × Nat) × Int)) : (writeCells s ws).pos = s.pos := (congrArg State.pos (writeCells_eq s ws)).trans rfl
@[simp] theorem writeCells_tok (s : State) (ws : List ((Nat × Nat) × Int)) : (writeCells s ws).tok = s.tok := (congrArg State.tok (writeCells_eq s ws)).trans rfl
@[simp] theorem writeCells_w (s : State) (ws : List ((Nat × Nat) × Int)) : (writeCells s ws).w = s.w := (congrArg State.w (writeCells_eq s ws)).trans rfl
@[simp] theorem writeCells_h (s : State) (ws : List ((Nat × Nat) × Int)) : (writeCells s ws).h = s.h := (congrArg State.h (writeCells_eq s ws)).trans rfl
@[simp] theorem writeCells_status (s : State) (ws : List ((Nat × Nat) × Int)) : (writeCells s ws).status = s.status := (congrArg State.status (writeCells_eq s ws)).trans rfl
@[simp] theorem writeCells_faultInfo (s : State) (ws : List ((Nat × Nat) × Int)) : (writeCells s ws).faultInfo = s.faultInfo := (congrArg State.faultInfo (writeCells_eq s ws)).trans rfl
@[simp] theorem writeCells_width (s : State) (ws : List ((Nat × Nat) × Int)) : (writeCells s ws).width = s.width := (congrArg State.width (writeCells_eq s ws)).trans rfl
@[simp] theorem writeCells_height (s : State) (ws : List ((Nat × Nat) × Int)) : (writeCells s ws).height = s.height := (congrArg State.height (writeCells_eq s ws)).trans rfl
@[simp] theorem writeCells_srcLen (s : State) (ws : List ((Nat × Nat) × Int)) : (writeCells s ws).srcLen = s.srcLen := (congrArg State.srcLen (writeCells_eq s ws)).trans rfl
@[simp] theorem writeCells_cfaTile (s : State) (ws : List ((Nat × Nat) × Int)) : (writeCells s ws).cfaTile = s.cfaTile := (congrArg State.cfaTile (writeCells_eq s ws)).trans rfl
@[simp] theorem writeCells_src (s : State) (ws : List ((Nat × Nat) × Int)) : (writeCells s ws).src = s.src := (congrArg State.src (writeCells_eq s ws)).trans rfl
@[simp] theorem writeCells_huff (s : State) (ws : List ((Nat × Nat) × Int)) : (writeCells s ws).huff = s.huff := (congrArg State.huff (writeCells_eq s ws)).trans rfl
@[simp] theorem writeCells_plane (s : State) (ws : List ((Nat × Nat) × Int)) : (writeCells s ws).plane = s.plane := (congrArg State.plane (writeCells_eq s ws)).trans rfl
@[simp] theorem writeCells_curve (s : State) (ws : List ((Nat × Nat) × Int)) : (writeCells s ws).curve = s.curve := (congrArg State.curve (writeCells_eq s ws)).trans rfl
@[simp] theorem writeCells_t8 (s : State) (ws : List ((Nat × Nat) × Int)) : (writeCells s ws).t8 = s.t8 := (congrArg State.t8 (writeCells_eq s ws)).trans rfl
@[simp] theorem writeCells_out (s : State) (ws : List ((Nat × Nat) × Int)) : (writeCells s ws).out = s.out := (congrArg State.out (writeCells_eq s ws)).trans rfl
@[simp] theorem writeCells_cfg (s : State) (ws : List ((Nat × Nat) × Int)) : (writeCells s ws).cfg = s.cfg := (congrArg State.cfg (writeCells_eq s ws)).trans rfl
@[simp] theorem writeCells_freeCtr (s : State) (ws : List ((Nat × Nat) × Int)) : (writeCells s ws).freeCtr = s.freeCtr := (congrArg State.freeCtr (writeCells_eq s ws)).trans rfl
@[simp] theorem writeCells_hostMoves (s : State) (ws : List ((Nat × Nat) × Int)) : (writeCells s ws).hostMoves = s.hostMoves := (congrArg State.hostMoves (writeCells_eq s ws)).trans rfl

/-! ## `writePlane`: PLANE only -/

theorem writePlane_eq (s : State) (ws : List ((Nat × Nat) × Int)) :
    writePlane s ws = { s with plane := (writePlane s ws).plane } := rfl

@[simp] theorem writePlane_ptr (s : State) (ws : List ((Nat × Nat) × Int)) : (writePlane s ws).ptr = s.ptr := (congrArg State.ptr (writePlane_eq s ws)).trans rfl
@[simp] theorem writePlane_cur (s : State) (ws : List ((Nat × Nat) × Int)) : (writePlane s ws).cur = s.cur := (congrArg State.cur (writePlane_eq s ws)).trans rfl
@[simp] theorem writePlane_rem (s : State) (ws : List ((Nat × Nat) × Int)) : (writePlane s ws).rem = s.rem := (congrArg State.rem (writePlane_eq s ws)).trans rfl
@[simp] theorem writePlane_tree (s : State) (ws : List ((Nat × Nat) × Int)) : (writePlane s ws).tree = s.tree := (congrArg State.tree (writePlane_eq s ws)).trans rfl
@[simp] theorem writePlane_col (s : State) (ws : List ((Nat × Nat) × Int)) : (writePlane s ws).col = s.col := (congrArg State.col (writePlane_eq s ws)).trans rfl
@[simp] theorem writePlane_nreps (s : State) (ws : List ((Nat × Nat) × Int)) : (writePlane s ws).nreps = s.nreps := (congrArg State.nreps (writePlane_eq s ws)).trans rfl
@[simp] theorem writePlane_rep (s : State) (ws : List ((Nat × Nat) × Int)) : (writePlane s ws).rep = s.rep := (congrArg State.rep (writePlane_eq s ws)).trans rfl
@[simp] theorem writePlane_step (s : State) (ws : List ((Nat × Nat) × Int)) : (writePlane s ws).step = s.step := (congrArg State.step (writePlane_eq s ws)).trans rfl
@[simp] theorem writePlane_keep (s : State) (ws : List ((Nat × Nat) × Int)) : (writePlane s ws).keep = s.keep := (congrArg State.keep (writePlane_eq s ws)).trans rfl
@[simp] theorem writePlane_rg (s : State) (ws : List ((Nat × Nat) × Int)) : (writePlane s ws).rg = s.rg := (congrArg State.rg (writePlane_eq s ws)).trans rfl
@[simp] theorem writePlane_row (s : State) (ws : List ((Nat × Nat) × Int)) : (writePlane s ws).row = s.row := (congrArg State.row (writePlane_eq s ws)).trans rfl
@[simp] theorem writePlane_mult (s : State) (ws : List ((Nat × Nat) × Int)) : (writePlane s ws).mult = s.mult := (congrArg State.mult (writePlane_eq s ws)).trans rfl
@[simp] theorem writePlane_prevM (s : State) (ws : List ((Nat × Nat) × Int)) : (writePlane s ws).prevM = s.prevM := (congrArg State.prevM (writePlane_eq s ws)).trans rfl
@[simp] theorem writePlane_val (s : State) (ws : List ((Nat × Nat) × Int)) : (writePlane s ws).val = s.val := (congrArg State.val (writePlane_eq s ws)).trans rfl
@[simp] theorem writePlane_pos (s : State) (ws : List ((Nat × Nat) × Int)) : (writePlane s ws).pos = s.pos := (congrArg State.pos (writePlane_eq s ws)).trans rfl
@[simp] theorem writePlane_tok (s : State) (ws : List ((Nat × Nat) × Int)) : (writePlane s ws).tok = s.tok := (congrArg State.tok (writePlane_eq s ws)).trans rfl
@[simp] theorem writePlane_w (s : State) (ws : List ((Nat × Nat) × Int)) : (writePlane s ws).w = s.w := (congrArg State.w (writePlane_eq s ws)).trans rfl
@[simp] theorem writePlane_h (s : State) (ws : List ((Nat × Nat) × Int)) : (writePlane s ws).h = s.h := (congrArg State.h (writePlane_eq s ws)).trans rfl
@[simp] theorem writePlane_status (s : State) (ws : List ((Nat × Nat) × Int)) : (writePlane s ws).status = s.status := (congrArg State.status (writePlane_eq s ws)).trans rfl
@[simp] theorem writePlane_faultInfo (s : State) (ws : List ((Nat × Nat) × Int)) : (writePlane s ws).faultInfo = s.faultInfo := (congrArg State.faultInfo (writePlane_eq s ws)).trans rfl
@[simp] theorem writePlane_width (s : State) (ws : List ((Nat × Nat) × Int)) : (writePlane s ws).width = s.width := (congrArg State.width (writePlane_eq s ws)).trans rfl
@[simp] theorem writePlane_height (s : State) (ws : List ((Nat × Nat) × Int)) : (writePlane s ws).height = s.height := (congrArg State.height (writePlane_eq s ws)).trans rfl
@[simp] theorem writePlane_srcLen (s : State) (ws : List ((Nat × Nat) × Int)) : (writePlane s ws).srcLen = s.srcLen := (congrArg State.srcLen (writePlane_eq s ws)).trans rfl
@[simp] theorem writePlane_cfaTile (s : State) (ws : List ((Nat × Nat) × Int)) : (writePlane s ws).cfaTile = s.cfaTile := (congrArg State.cfaTile (writePlane_eq s ws)).trans rfl
@[simp] theorem writePlane_src (s : State) (ws : List ((Nat × Nat) × Int)) : (writePlane s ws).src = s.src := (congrArg State.src (writePlane_eq s ws)).trans rfl
@[simp] theorem writePlane_huff (s : State) (ws : List ((Nat × Nat) × Int)) : (writePlane s ws).huff = s.huff := (congrArg State.huff (writePlane_eq s ws)).trans rfl
@[simp] theorem writePlane_rbuf (s : State) (ws : List ((Nat × Nat) × Int)) : (writePlane s ws).rbuf = s.rbuf := (congrArg State.rbuf (writePlane_eq s ws)).trans rfl
@[simp] theorem writePlane_curve (s : State) (ws : List ((Nat × Nat) × Int)) : (writePlane s ws).curve = s.curve := (congrArg State.curve (writePlane_eq s ws)).trans rfl
@[simp] theorem writePlane_t8 (s : State) (ws : List ((Nat × Nat) × Int)) : (writePlane s ws).t8 = s.t8 := (congrArg State.t8 (writePlane_eq s ws)).trans rfl
@[simp] theorem writePlane_out (s : State) (ws : List ((Nat × Nat) × Int)) : (writePlane s ws).out = s.out := (congrArg State.out (writePlane_eq s ws)).trans rfl
@[simp] theorem writePlane_cfg (s : State) (ws : List ((Nat × Nat) × Int)) : (writePlane s ws).cfg = s.cfg := (congrArg State.cfg (writePlane_eq s ws)).trans rfl
@[simp] theorem writePlane_freeCtr (s : State) (ws : List ((Nat × Nat) × Int)) : (writePlane s ws).freeCtr = s.freeCtr := (congrArg State.freeCtr (writePlane_eq s ws)).trans rfl
@[simp] theorem writePlane_hostMoves (s : State) (ws : List ((Nat × Nat) × Int)) : (writePlane s ws).hostMoves = s.hostMoves := (congrArg State.hostMoves (writePlane_eq s ws)).trans rfl

/-! ## `writeGroupCell`: RBUF only -/

theorem writeGroupCell_eq (s : State) (k : BitVec 2) (v : Int) :
    writeGroupCell s k v = { s with rbuf := (writeGroupCell s k v).rbuf } := rfl

@[simp] theorem writeGroupCell_ptr (s : State) (k : BitVec 2) (v : Int) : (writeGroupCell s k v).ptr = s.ptr := (congrArg State.ptr (writeGroupCell_eq s k v)).trans rfl
@[simp] theorem writeGroupCell_cur (s : State) (k : BitVec 2) (v : Int) : (writeGroupCell s k v).cur = s.cur := (congrArg State.cur (writeGroupCell_eq s k v)).trans rfl
@[simp] theorem writeGroupCell_rem (s : State) (k : BitVec 2) (v : Int) : (writeGroupCell s k v).rem = s.rem := (congrArg State.rem (writeGroupCell_eq s k v)).trans rfl
@[simp] theorem writeGroupCell_tree (s : State) (k : BitVec 2) (v : Int) : (writeGroupCell s k v).tree = s.tree := (congrArg State.tree (writeGroupCell_eq s k v)).trans rfl
@[simp] theorem writeGroupCell_col (s : State) (k : BitVec 2) (v : Int) : (writeGroupCell s k v).col = s.col := (congrArg State.col (writeGroupCell_eq s k v)).trans rfl
@[simp] theorem writeGroupCell_nreps (s : State) (k : BitVec 2) (v : Int) : (writeGroupCell s k v).nreps = s.nreps := (congrArg State.nreps (writeGroupCell_eq s k v)).trans rfl
@[simp] theorem writeGroupCell_rep (s : State) (k : BitVec 2) (v : Int) : (writeGroupCell s k v).rep = s.rep := (congrArg State.rep (writeGroupCell_eq s k v)).trans rfl
@[simp] theorem writeGroupCell_step (s : State) (k : BitVec 2) (v : Int) : (writeGroupCell s k v).step = s.step := (congrArg State.step (writeGroupCell_eq s k v)).trans rfl
@[simp] theorem writeGroupCell_keep (s : State) (k : BitVec 2) (v : Int) : (writeGroupCell s k v).keep = s.keep := (congrArg State.keep (writeGroupCell_eq s k v)).trans rfl
@[simp] theorem writeGroupCell_rg (s : State) (k : BitVec 2) (v : Int) : (writeGroupCell s k v).rg = s.rg := (congrArg State.rg (writeGroupCell_eq s k v)).trans rfl
@[simp] theorem writeGroupCell_row (s : State) (k : BitVec 2) (v : Int) : (writeGroupCell s k v).row = s.row := (congrArg State.row (writeGroupCell_eq s k v)).trans rfl
@[simp] theorem writeGroupCell_mult (s : State) (k : BitVec 2) (v : Int) : (writeGroupCell s k v).mult = s.mult := (congrArg State.mult (writeGroupCell_eq s k v)).trans rfl
@[simp] theorem writeGroupCell_prevM (s : State) (k : BitVec 2) (v : Int) : (writeGroupCell s k v).prevM = s.prevM := (congrArg State.prevM (writeGroupCell_eq s k v)).trans rfl
@[simp] theorem writeGroupCell_val (s : State) (k : BitVec 2) (v : Int) : (writeGroupCell s k v).val = s.val := (congrArg State.val (writeGroupCell_eq s k v)).trans rfl
@[simp] theorem writeGroupCell_pos (s : State) (k : BitVec 2) (v : Int) : (writeGroupCell s k v).pos = s.pos := (congrArg State.pos (writeGroupCell_eq s k v)).trans rfl
@[simp] theorem writeGroupCell_tok (s : State) (k : BitVec 2) (v : Int) : (writeGroupCell s k v).tok = s.tok := (congrArg State.tok (writeGroupCell_eq s k v)).trans rfl
@[simp] theorem writeGroupCell_w (s : State) (k : BitVec 2) (v : Int) : (writeGroupCell s k v).w = s.w := (congrArg State.w (writeGroupCell_eq s k v)).trans rfl
@[simp] theorem writeGroupCell_h (s : State) (k : BitVec 2) (v : Int) : (writeGroupCell s k v).h = s.h := (congrArg State.h (writeGroupCell_eq s k v)).trans rfl
@[simp] theorem writeGroupCell_status (s : State) (k : BitVec 2) (v : Int) : (writeGroupCell s k v).status = s.status := (congrArg State.status (writeGroupCell_eq s k v)).trans rfl
@[simp] theorem writeGroupCell_faultInfo (s : State) (k : BitVec 2) (v : Int) : (writeGroupCell s k v).faultInfo = s.faultInfo := (congrArg State.faultInfo (writeGroupCell_eq s k v)).trans rfl
@[simp] theorem writeGroupCell_width (s : State) (k : BitVec 2) (v : Int) : (writeGroupCell s k v).width = s.width := (congrArg State.width (writeGroupCell_eq s k v)).trans rfl
@[simp] theorem writeGroupCell_height (s : State) (k : BitVec 2) (v : Int) : (writeGroupCell s k v).height = s.height := (congrArg State.height (writeGroupCell_eq s k v)).trans rfl
@[simp] theorem writeGroupCell_srcLen (s : State) (k : BitVec 2) (v : Int) : (writeGroupCell s k v).srcLen = s.srcLen := (congrArg State.srcLen (writeGroupCell_eq s k v)).trans rfl
@[simp] theorem writeGroupCell_cfaTile (s : State) (k : BitVec 2) (v : Int) : (writeGroupCell s k v).cfaTile = s.cfaTile := (congrArg State.cfaTile (writeGroupCell_eq s k v)).trans rfl
@[simp] theorem writeGroupCell_src (s : State) (k : BitVec 2) (v : Int) : (writeGroupCell s k v).src = s.src := (congrArg State.src (writeGroupCell_eq s k v)).trans rfl
@[simp] theorem writeGroupCell_huff (s : State) (k : BitVec 2) (v : Int) : (writeGroupCell s k v).huff = s.huff := (congrArg State.huff (writeGroupCell_eq s k v)).trans rfl
@[simp] theorem writeGroupCell_plane (s : State) (k : BitVec 2) (v : Int) : (writeGroupCell s k v).plane = s.plane := (congrArg State.plane (writeGroupCell_eq s k v)).trans rfl
@[simp] theorem writeGroupCell_curve (s : State) (k : BitVec 2) (v : Int) : (writeGroupCell s k v).curve = s.curve := (congrArg State.curve (writeGroupCell_eq s k v)).trans rfl
@[simp] theorem writeGroupCell_t8 (s : State) (k : BitVec 2) (v : Int) : (writeGroupCell s k v).t8 = s.t8 := (congrArg State.t8 (writeGroupCell_eq s k v)).trans rfl
@[simp] theorem writeGroupCell_out (s : State) (k : BitVec 2) (v : Int) : (writeGroupCell s k v).out = s.out := (congrArg State.out (writeGroupCell_eq s k v)).trans rfl
@[simp] theorem writeGroupCell_cfg (s : State) (k : BitVec 2) (v : Int) : (writeGroupCell s k v).cfg = s.cfg := (congrArg State.cfg (writeGroupCell_eq s k v)).trans rfl
@[simp] theorem writeGroupCell_freeCtr (s : State) (k : BitVec 2) (v : Int) : (writeGroupCell s k v).freeCtr = s.freeCtr := (congrArg State.freeCtr (writeGroupCell_eq s k v)).trans rfl
@[simp] theorem writeGroupCell_hostMoves (s : State) (k : BitVec 2) (v : Int) : (writeGroupCell s k v).hostMoves = s.hostMoves := (congrArg State.hostMoves (writeGroupCell_eq s k v)).trans rfl

/-! ## `predictCell`: RBUF only -/

theorem predictCell_eq (k : BitVec 2) (s : State) :
    predictCell k s = { s with rbuf := (predictCell k s).rbuf } := rfl

@[simp] theorem predictCell_ptr (k : BitVec 2) (s : State) : (predictCell k s).ptr = s.ptr := (congrArg State.ptr (predictCell_eq k s)).trans rfl
@[simp] theorem predictCell_cur (k : BitVec 2) (s : State) : (predictCell k s).cur = s.cur := (congrArg State.cur (predictCell_eq k s)).trans rfl
@[simp] theorem predictCell_rem (k : BitVec 2) (s : State) : (predictCell k s).rem = s.rem := (congrArg State.rem (predictCell_eq k s)).trans rfl
@[simp] theorem predictCell_tree (k : BitVec 2) (s : State) : (predictCell k s).tree = s.tree := (congrArg State.tree (predictCell_eq k s)).trans rfl
@[simp] theorem predictCell_col (k : BitVec 2) (s : State) : (predictCell k s).col = s.col := (congrArg State.col (predictCell_eq k s)).trans rfl
@[simp] theorem predictCell_nreps (k : BitVec 2) (s : State) : (predictCell k s).nreps = s.nreps := (congrArg State.nreps (predictCell_eq k s)).trans rfl
@[simp] theorem predictCell_rep (k : BitVec 2) (s : State) : (predictCell k s).rep = s.rep := (congrArg State.rep (predictCell_eq k s)).trans rfl
@[simp] theorem predictCell_step (k : BitVec 2) (s : State) : (predictCell k s).step = s.step := (congrArg State.step (predictCell_eq k s)).trans rfl
@[simp] theorem predictCell_keep (k : BitVec 2) (s : State) : (predictCell k s).keep = s.keep := (congrArg State.keep (predictCell_eq k s)).trans rfl
@[simp] theorem predictCell_rg (k : BitVec 2) (s : State) : (predictCell k s).rg = s.rg := (congrArg State.rg (predictCell_eq k s)).trans rfl
@[simp] theorem predictCell_row (k : BitVec 2) (s : State) : (predictCell k s).row = s.row := (congrArg State.row (predictCell_eq k s)).trans rfl
@[simp] theorem predictCell_mult (k : BitVec 2) (s : State) : (predictCell k s).mult = s.mult := (congrArg State.mult (predictCell_eq k s)).trans rfl
@[simp] theorem predictCell_prevM (k : BitVec 2) (s : State) : (predictCell k s).prevM = s.prevM := (congrArg State.prevM (predictCell_eq k s)).trans rfl
@[simp] theorem predictCell_val (k : BitVec 2) (s : State) : (predictCell k s).val = s.val := (congrArg State.val (predictCell_eq k s)).trans rfl
@[simp] theorem predictCell_pos (k : BitVec 2) (s : State) : (predictCell k s).pos = s.pos := (congrArg State.pos (predictCell_eq k s)).trans rfl
@[simp] theorem predictCell_tok (k : BitVec 2) (s : State) : (predictCell k s).tok = s.tok := (congrArg State.tok (predictCell_eq k s)).trans rfl
@[simp] theorem predictCell_w (k : BitVec 2) (s : State) : (predictCell k s).w = s.w := (congrArg State.w (predictCell_eq k s)).trans rfl
@[simp] theorem predictCell_h (k : BitVec 2) (s : State) : (predictCell k s).h = s.h := (congrArg State.h (predictCell_eq k s)).trans rfl
@[simp] theorem predictCell_status (k : BitVec 2) (s : State) : (predictCell k s).status = s.status := (congrArg State.status (predictCell_eq k s)).trans rfl
@[simp] theorem predictCell_faultInfo (k : BitVec 2) (s : State) : (predictCell k s).faultInfo = s.faultInfo := (congrArg State.faultInfo (predictCell_eq k s)).trans rfl
@[simp] theorem predictCell_width (k : BitVec 2) (s : State) : (predictCell k s).width = s.width := (congrArg State.width (predictCell_eq k s)).trans rfl
@[simp] theorem predictCell_height (k : BitVec 2) (s : State) : (predictCell k s).height = s.height := (congrArg State.height (predictCell_eq k s)).trans rfl
@[simp] theorem predictCell_srcLen (k : BitVec 2) (s : State) : (predictCell k s).srcLen = s.srcLen := (congrArg State.srcLen (predictCell_eq k s)).trans rfl
@[simp] theorem predictCell_cfaTile (k : BitVec 2) (s : State) : (predictCell k s).cfaTile = s.cfaTile := (congrArg State.cfaTile (predictCell_eq k s)).trans rfl
@[simp] theorem predictCell_src (k : BitVec 2) (s : State) : (predictCell k s).src = s.src := (congrArg State.src (predictCell_eq k s)).trans rfl
@[simp] theorem predictCell_huff (k : BitVec 2) (s : State) : (predictCell k s).huff = s.huff := (congrArg State.huff (predictCell_eq k s)).trans rfl
@[simp] theorem predictCell_plane (k : BitVec 2) (s : State) : (predictCell k s).plane = s.plane := (congrArg State.plane (predictCell_eq k s)).trans rfl
@[simp] theorem predictCell_curve (k : BitVec 2) (s : State) : (predictCell k s).curve = s.curve := (congrArg State.curve (predictCell_eq k s)).trans rfl
@[simp] theorem predictCell_t8 (k : BitVec 2) (s : State) : (predictCell k s).t8 = s.t8 := (congrArg State.t8 (predictCell_eq k s)).trans rfl
@[simp] theorem predictCell_out (k : BitVec 2) (s : State) : (predictCell k s).out = s.out := (congrArg State.out (predictCell_eq k s)).trans rfl
@[simp] theorem predictCell_cfg (k : BitVec 2) (s : State) : (predictCell k s).cfg = s.cfg := (congrArg State.cfg (predictCell_eq k s)).trans rfl
@[simp] theorem predictCell_freeCtr (k : BitVec 2) (s : State) : (predictCell k s).freeCtr = s.freeCtr := (congrArg State.freeCtr (predictCell_eq k s)).trans rfl
@[simp] theorem predictCell_hostMoves (k : BitVec 2) (s : State) : (predictCell k s).hostMoves = s.hostMoves := (congrArg State.hostMoves (predictCell_eq k s)).trans rfl

/-! ## `predictCells`: RBUF only -/

theorem predictCells_eq (s : State) :
    predictCells s = { s with rbuf := (predictCells s).rbuf } := by
  unfold predictCells
  rw [predictCell_eq 3, predictCell_eq 2, predictCell_eq 1, predictCell_eq 0]

@[simp] theorem predictCells_ptr (s : State) : (predictCells s).ptr = s.ptr := (congrArg State.ptr (predictCells_eq s)).trans rfl
@[simp] theorem predictCells_cur (s : State) : (predictCells s).cur = s.cur := (congrArg State.cur (predictCells_eq s)).trans rfl
@[simp] theorem predictCells_rem (s : State) : (predictCells s).rem = s.rem := (congrArg State.rem (predictCells_eq s)).trans rfl
@[simp] theorem predictCells_tree (s : State) : (predictCells s).tree = s.tree := (congrArg State.tree (predictCells_eq s)).trans rfl
@[simp] theorem predictCells_col (s : State) : (predictCells s).col = s.col := (congrArg State.col (predictCells_eq s)).trans rfl
@[simp] theorem predictCells_nreps (s : State) : (predictCells s).nreps = s.nreps := (congrArg State.nreps (predictCells_eq s)).trans rfl
@[simp] theorem predictCells_rep (s : State) : (predictCells s).rep = s.rep := (congrArg State.rep (predictCells_eq s)).trans rfl
@[simp] theorem predictCells_step (s : State) : (predictCells s).step = s.step := (congrArg State.step (predictCells_eq s)).trans rfl
@[simp] theorem predictCells_keep (s : State) : (predictCells s).keep = s.keep := (congrArg State.keep (predictCells_eq s)).trans rfl
@[simp] theorem predictCells_rg (s : State) : (predictCells s).rg = s.rg := (congrArg State.rg (predictCells_eq s)).trans rfl
@[simp] theorem predictCells_row (s : State) : (predictCells s).row = s.row := (congrArg State.row (predictCells_eq s)).trans rfl
@[simp] theorem predictCells_mult (s : State) : (predictCells s).mult = s.mult := (congrArg State.mult (predictCells_eq s)).trans rfl
@[simp] theorem predictCells_prevM (s : State) : (predictCells s).prevM = s.prevM := (congrArg State.prevM (predictCells_eq s)).trans rfl
@[simp] theorem predictCells_val (s : State) : (predictCells s).val = s.val := (congrArg State.val (predictCells_eq s)).trans rfl
@[simp] theorem predictCells_pos (s : State) : (predictCells s).pos = s.pos := (congrArg State.pos (predictCells_eq s)).trans rfl
@[simp] theorem predictCells_tok (s : State) : (predictCells s).tok = s.tok := (congrArg State.tok (predictCells_eq s)).trans rfl
@[simp] theorem predictCells_w (s : State) : (predictCells s).w = s.w := (congrArg State.w (predictCells_eq s)).trans rfl
@[simp] theorem predictCells_h (s : State) : (predictCells s).h = s.h := (congrArg State.h (predictCells_eq s)).trans rfl
@[simp] theorem predictCells_status (s : State) : (predictCells s).status = s.status := (congrArg State.status (predictCells_eq s)).trans rfl
@[simp] theorem predictCells_faultInfo (s : State) : (predictCells s).faultInfo = s.faultInfo := (congrArg State.faultInfo (predictCells_eq s)).trans rfl
@[simp] theorem predictCells_width (s : State) : (predictCells s).width = s.width := (congrArg State.width (predictCells_eq s)).trans rfl
@[simp] theorem predictCells_height (s : State) : (predictCells s).height = s.height := (congrArg State.height (predictCells_eq s)).trans rfl
@[simp] theorem predictCells_srcLen (s : State) : (predictCells s).srcLen = s.srcLen := (congrArg State.srcLen (predictCells_eq s)).trans rfl
@[simp] theorem predictCells_cfaTile (s : State) : (predictCells s).cfaTile = s.cfaTile := (congrArg State.cfaTile (predictCells_eq s)).trans rfl
@[simp] theorem predictCells_src (s : State) : (predictCells s).src = s.src := (congrArg State.src (predictCells_eq s)).trans rfl
@[simp] theorem predictCells_huff (s : State) : (predictCells s).huff = s.huff := (congrArg State.huff (predictCells_eq s)).trans rfl
@[simp] theorem predictCells_plane (s : State) : (predictCells s).plane = s.plane := (congrArg State.plane (predictCells_eq s)).trans rfl
@[simp] theorem predictCells_curve (s : State) : (predictCells s).curve = s.curve := (congrArg State.curve (predictCells_eq s)).trans rfl
@[simp] theorem predictCells_t8 (s : State) : (predictCells s).t8 = s.t8 := (congrArg State.t8 (predictCells_eq s)).trans rfl
@[simp] theorem predictCells_out (s : State) : (predictCells s).out = s.out := (congrArg State.out (predictCells_eq s)).trans rfl
@[simp] theorem predictCells_cfg (s : State) : (predictCells s).cfg = s.cfg := (congrArg State.cfg (predictCells_eq s)).trans rfl
@[simp] theorem predictCells_freeCtr (s : State) : (predictCells s).freeCtr = s.freeCtr := (congrArg State.freeCtr (predictCells_eq s)).trans rfl
@[simp] theorem predictCells_hostMoves (s : State) : (predictCells s).hostMoves = s.hostMoves := (congrArg State.hostMoves (predictCells_eq s)).trans rfl

/-! ## `addStepCell`: RBUF only -/

theorem addStepCell_eq (k : BitVec 2) (s : State) :
    addStepCell k s = { s with rbuf := (addStepCell k s).rbuf } := rfl

@[simp] theorem addStepCell_ptr (k : BitVec 2) (s : State) : (addStepCell k s).ptr = s.ptr := (congrArg State.ptr (addStepCell_eq k s)).trans rfl
@[simp] theorem addStepCell_cur (k : BitVec 2) (s : State) : (addStepCell k s).cur = s.cur := (congrArg State.cur (addStepCell_eq k s)).trans rfl
@[simp] theorem addStepCell_rem (k : BitVec 2) (s : State) : (addStepCell k s).rem = s.rem := (congrArg State.rem (addStepCell_eq k s)).trans rfl
@[simp] theorem addStepCell_tree (k : BitVec 2) (s : State) : (addStepCell k s).tree = s.tree := (congrArg State.tree (addStepCell_eq k s)).trans rfl
@[simp] theorem addStepCell_col (k : BitVec 2) (s : State) : (addStepCell k s).col = s.col := (congrArg State.col (addStepCell_eq k s)).trans rfl
@[simp] theorem addStepCell_nreps (k : BitVec 2) (s : State) : (addStepCell k s).nreps = s.nreps := (congrArg State.nreps (addStepCell_eq k s)).trans rfl
@[simp] theorem addStepCell_rep (k : BitVec 2) (s : State) : (addStepCell k s).rep = s.rep := (congrArg State.rep (addStepCell_eq k s)).trans rfl
@[simp] theorem addStepCell_step (k : BitVec 2) (s : State) : (addStepCell k s).step = s.step := (congrArg State.step (addStepCell_eq k s)).trans rfl
@[simp] theorem addStepCell_keep (k : BitVec 2) (s : State) : (addStepCell k s).keep = s.keep := (congrArg State.keep (addStepCell_eq k s)).trans rfl
@[simp] theorem addStepCell_rg (k : BitVec 2) (s : State) : (addStepCell k s).rg = s.rg := (congrArg State.rg (addStepCell_eq k s)).trans rfl
@[simp] theorem addStepCell_row (k : BitVec 2) (s : State) : (addStepCell k s).row = s.row := (congrArg State.row (addStepCell_eq k s)).trans rfl
@[simp] theorem addStepCell_mult (k : BitVec 2) (s : State) : (addStepCell k s).mult = s.mult := (congrArg State.mult (addStepCell_eq k s)).trans rfl
@[simp] theorem addStepCell_prevM (k : BitVec 2) (s : State) : (addStepCell k s).prevM = s.prevM := (congrArg State.prevM (addStepCell_eq k s)).trans rfl
@[simp] theorem addStepCell_val (k : BitVec 2) (s : State) : (addStepCell k s).val = s.val := (congrArg State.val (addStepCell_eq k s)).trans rfl
@[simp] theorem addStepCell_pos (k : BitVec 2) (s : State) : (addStepCell k s).pos = s.pos := (congrArg State.pos (addStepCell_eq k s)).trans rfl
@[simp] theorem addStepCell_tok (k : BitVec 2) (s : State) : (addStepCell k s).tok = s.tok := (congrArg State.tok (addStepCell_eq k s)).trans rfl
@[simp] theorem addStepCell_w (k : BitVec 2) (s : State) : (addStepCell k s).w = s.w := (congrArg State.w (addStepCell_eq k s)).trans rfl
@[simp] theorem addStepCell_h (k : BitVec 2) (s : State) : (addStepCell k s).h = s.h := (congrArg State.h (addStepCell_eq k s)).trans rfl
@[simp] theorem addStepCell_status (k : BitVec 2) (s : State) : (addStepCell k s).status = s.status := (congrArg State.status (addStepCell_eq k s)).trans rfl
@[simp] theorem addStepCell_faultInfo (k : BitVec 2) (s : State) : (addStepCell k s).faultInfo = s.faultInfo := (congrArg State.faultInfo (addStepCell_eq k s)).trans rfl
@[simp] theorem addStepCell_width (k : BitVec 2) (s : State) : (addStepCell k s).width = s.width := (congrArg State.width (addStepCell_eq k s)).trans rfl
@[simp] theorem addStepCell_height (k : BitVec 2) (s : State) : (addStepCell k s).height = s.height := (congrArg State.height (addStepCell_eq k s)).trans rfl
@[simp] theorem addStepCell_srcLen (k : BitVec 2) (s : State) : (addStepCell k s).srcLen = s.srcLen := (congrArg State.srcLen (addStepCell_eq k s)).trans rfl
@[simp] theorem addStepCell_cfaTile (k : BitVec 2) (s : State) : (addStepCell k s).cfaTile = s.cfaTile := (congrArg State.cfaTile (addStepCell_eq k s)).trans rfl
@[simp] theorem addStepCell_src (k : BitVec 2) (s : State) : (addStepCell k s).src = s.src := (congrArg State.src (addStepCell_eq k s)).trans rfl
@[simp] theorem addStepCell_huff (k : BitVec 2) (s : State) : (addStepCell k s).huff = s.huff := (congrArg State.huff (addStepCell_eq k s)).trans rfl
@[simp] theorem addStepCell_plane (k : BitVec 2) (s : State) : (addStepCell k s).plane = s.plane := (congrArg State.plane (addStepCell_eq k s)).trans rfl
@[simp] theorem addStepCell_curve (k : BitVec 2) (s : State) : (addStepCell k s).curve = s.curve := (congrArg State.curve (addStepCell_eq k s)).trans rfl
@[simp] theorem addStepCell_t8 (k : BitVec 2) (s : State) : (addStepCell k s).t8 = s.t8 := (congrArg State.t8 (addStepCell_eq k s)).trans rfl
@[simp] theorem addStepCell_out (k : BitVec 2) (s : State) : (addStepCell k s).out = s.out := (congrArg State.out (addStepCell_eq k s)).trans rfl
@[simp] theorem addStepCell_cfg (k : BitVec 2) (s : State) : (addStepCell k s).cfg = s.cfg := (congrArg State.cfg (addStepCell_eq k s)).trans rfl
@[simp] theorem addStepCell_freeCtr (k : BitVec 2) (s : State) : (addStepCell k s).freeCtr = s.freeCtr := (congrArg State.freeCtr (addStepCell_eq k s)).trans rfl
@[simp] theorem addStepCell_hostMoves (k : BitVec 2) (s : State) : (addStepCell k s).hostMoves = s.hostMoves := (congrArg State.hostMoves (addStepCell_eq k s)).trans rfl

/-! ## `addStepCells`: RBUF only -/

theorem addStepCells_eq (s : State) :
    addStepCells s = { s with rbuf := (addStepCells s).rbuf } := by
  unfold addStepCells
  rw [addStepCell_eq 3, addStepCell_eq 2, addStepCell_eq 1, addStepCell_eq 0]

@[simp] theorem addStepCells_ptr (s : State) : (addStepCells s).ptr = s.ptr := (congrArg State.ptr (addStepCells_eq s)).trans rfl
@[simp] theorem addStepCells_cur (s : State) : (addStepCells s).cur = s.cur := (congrArg State.cur (addStepCells_eq s)).trans rfl
@[simp] theorem addStepCells_rem (s : State) : (addStepCells s).rem = s.rem := (congrArg State.rem (addStepCells_eq s)).trans rfl
@[simp] theorem addStepCells_tree (s : State) : (addStepCells s).tree = s.tree := (congrArg State.tree (addStepCells_eq s)).trans rfl
@[simp] theorem addStepCells_col (s : State) : (addStepCells s).col = s.col := (congrArg State.col (addStepCells_eq s)).trans rfl
@[simp] theorem addStepCells_nreps (s : State) : (addStepCells s).nreps = s.nreps := (congrArg State.nreps (addStepCells_eq s)).trans rfl
@[simp] theorem addStepCells_rep (s : State) : (addStepCells s).rep = s.rep := (congrArg State.rep (addStepCells_eq s)).trans rfl
@[simp] theorem addStepCells_step (s : State) : (addStepCells s).step = s.step := (congrArg State.step (addStepCells_eq s)).trans rfl
@[simp] theorem addStepCells_keep (s : State) : (addStepCells s).keep = s.keep := (congrArg State.keep (addStepCells_eq s)).trans rfl
@[simp] theorem addStepCells_rg (s : State) : (addStepCells s).rg = s.rg := (congrArg State.rg (addStepCells_eq s)).trans rfl
@[simp] theorem addStepCells_row (s : State) : (addStepCells s).row = s.row := (congrArg State.row (addStepCells_eq s)).trans rfl
@[simp] theorem addStepCells_mult (s : State) : (addStepCells s).mult = s.mult := (congrArg State.mult (addStepCells_eq s)).trans rfl
@[simp] theorem addStepCells_prevM (s : State) : (addStepCells s).prevM = s.prevM := (congrArg State.prevM (addStepCells_eq s)).trans rfl
@[simp] theorem addStepCells_val (s : State) : (addStepCells s).val = s.val := (congrArg State.val (addStepCells_eq s)).trans rfl
@[simp] theorem addStepCells_pos (s : State) : (addStepCells s).pos = s.pos := (congrArg State.pos (addStepCells_eq s)).trans rfl
@[simp] theorem addStepCells_tok (s : State) : (addStepCells s).tok = s.tok := (congrArg State.tok (addStepCells_eq s)).trans rfl
@[simp] theorem addStepCells_w (s : State) : (addStepCells s).w = s.w := (congrArg State.w (addStepCells_eq s)).trans rfl
@[simp] theorem addStepCells_h (s : State) : (addStepCells s).h = s.h := (congrArg State.h (addStepCells_eq s)).trans rfl
@[simp] theorem addStepCells_status (s : State) : (addStepCells s).status = s.status := (congrArg State.status (addStepCells_eq s)).trans rfl
@[simp] theorem addStepCells_faultInfo (s : State) : (addStepCells s).faultInfo = s.faultInfo := (congrArg State.faultInfo (addStepCells_eq s)).trans rfl
@[simp] theorem addStepCells_width (s : State) : (addStepCells s).width = s.width := (congrArg State.width (addStepCells_eq s)).trans rfl
@[simp] theorem addStepCells_height (s : State) : (addStepCells s).height = s.height := (congrArg State.height (addStepCells_eq s)).trans rfl
@[simp] theorem addStepCells_srcLen (s : State) : (addStepCells s).srcLen = s.srcLen := (congrArg State.srcLen (addStepCells_eq s)).trans rfl
@[simp] theorem addStepCells_cfaTile (s : State) : (addStepCells s).cfaTile = s.cfaTile := (congrArg State.cfaTile (addStepCells_eq s)).trans rfl
@[simp] theorem addStepCells_src (s : State) : (addStepCells s).src = s.src := (congrArg State.src (addStepCells_eq s)).trans rfl
@[simp] theorem addStepCells_huff (s : State) : (addStepCells s).huff = s.huff := (congrArg State.huff (addStepCells_eq s)).trans rfl
@[simp] theorem addStepCells_plane (s : State) : (addStepCells s).plane = s.plane := (congrArg State.plane (addStepCells_eq s)).trans rfl
@[simp] theorem addStepCells_curve (s : State) : (addStepCells s).curve = s.curve := (congrArg State.curve (addStepCells_eq s)).trans rfl
@[simp] theorem addStepCells_t8 (s : State) : (addStepCells s).t8 = s.t8 := (congrArg State.t8 (addStepCells_eq s)).trans rfl
@[simp] theorem addStepCells_out (s : State) : (addStepCells s).out = s.out := (congrArg State.out (addStepCells_eq s)).trans rfl
@[simp] theorem addStepCells_cfg (s : State) : (addStepCells s).cfg = s.cfg := (congrArg State.cfg (addStepCells_eq s)).trans rfl
@[simp] theorem addStepCells_freeCtr (s : State) : (addStepCells s).freeCtr = s.freeCtr := (congrArg State.freeCtr (addStepCells_eq s)).trans rfl
@[simp] theorem addStepCells_hostMoves (s : State) : (addStepCells s).hostMoves = s.hostMoves := (congrArg State.hostMoves (addStepCells_eq s)).trans rfl

/-! ## `decay`: RBUF only -/

theorem decay_eq (v : Nat) (s : State) :
    decay v s = { s with rbuf := (decay v s).rbuf } := rfl

@[simp] theorem decay_ptr (v : Nat) (s : State) : (decay v s).ptr = s.ptr := (congrArg State.ptr (decay_eq v s)).trans rfl
@[simp] theorem decay_cur (v : Nat) (s : State) : (decay v s).cur = s.cur := (congrArg State.cur (decay_eq v s)).trans rfl
@[simp] theorem decay_rem (v : Nat) (s : State) : (decay v s).rem = s.rem := (congrArg State.rem (decay_eq v s)).trans rfl
@[simp] theorem decay_tree (v : Nat) (s : State) : (decay v s).tree = s.tree := (congrArg State.tree (decay_eq v s)).trans rfl
@[simp] theorem decay_col (v : Nat) (s : State) : (decay v s).col = s.col := (congrArg State.col (decay_eq v s)).trans rfl
@[simp] theorem decay_nreps (v : Nat) (s : State) : (decay v s).nreps = s.nreps := (congrArg State.nreps (decay_eq v s)).trans rfl
@[simp] theorem decay_rep (v : Nat) (s : State) : (decay v s).rep = s.rep := (congrArg State.rep (decay_eq v s)).trans rfl
@[simp] theorem decay_step (v : Nat) (s : State) : (decay v s).step = s.step := (congrArg State.step (decay_eq v s)).trans rfl
@[simp] theorem decay_keep (v : Nat) (s : State) : (decay v s).keep = s.keep := (congrArg State.keep (decay_eq v s)).trans rfl
@[simp] theorem decay_rg (v : Nat) (s : State) : (decay v s).rg = s.rg := (congrArg State.rg (decay_eq v s)).trans rfl
@[simp] theorem decay_row (v : Nat) (s : State) : (decay v s).row = s.row := (congrArg State.row (decay_eq v s)).trans rfl
@[simp] theorem decay_mult (v : Nat) (s : State) : (decay v s).mult = s.mult := (congrArg State.mult (decay_eq v s)).trans rfl
@[simp] theorem decay_prevM (v : Nat) (s : State) : (decay v s).prevM = s.prevM := (congrArg State.prevM (decay_eq v s)).trans rfl
@[simp] theorem decay_val (v : Nat) (s : State) : (decay v s).val = s.val := (congrArg State.val (decay_eq v s)).trans rfl
@[simp] theorem decay_pos (v : Nat) (s : State) : (decay v s).pos = s.pos := (congrArg State.pos (decay_eq v s)).trans rfl
@[simp] theorem decay_tok (v : Nat) (s : State) : (decay v s).tok = s.tok := (congrArg State.tok (decay_eq v s)).trans rfl
@[simp] theorem decay_w (v : Nat) (s : State) : (decay v s).w = s.w := (congrArg State.w (decay_eq v s)).trans rfl
@[simp] theorem decay_h (v : Nat) (s : State) : (decay v s).h = s.h := (congrArg State.h (decay_eq v s)).trans rfl
@[simp] theorem decay_status (v : Nat) (s : State) : (decay v s).status = s.status := (congrArg State.status (decay_eq v s)).trans rfl
@[simp] theorem decay_faultInfo (v : Nat) (s : State) : (decay v s).faultInfo = s.faultInfo := (congrArg State.faultInfo (decay_eq v s)).trans rfl
@[simp] theorem decay_width (v : Nat) (s : State) : (decay v s).width = s.width := (congrArg State.width (decay_eq v s)).trans rfl
@[simp] theorem decay_height (v : Nat) (s : State) : (decay v s).height = s.height := (congrArg State.height (decay_eq v s)).trans rfl
@[simp] theorem decay_srcLen (v : Nat) (s : State) : (decay v s).srcLen = s.srcLen := (congrArg State.srcLen (decay_eq v s)).trans rfl
@[simp] theorem decay_cfaTile (v : Nat) (s : State) : (decay v s).cfaTile = s.cfaTile := (congrArg State.cfaTile (decay_eq v s)).trans rfl
@[simp] theorem decay_src (v : Nat) (s : State) : (decay v s).src = s.src := (congrArg State.src (decay_eq v s)).trans rfl
@[simp] theorem decay_huff (v : Nat) (s : State) : (decay v s).huff = s.huff := (congrArg State.huff (decay_eq v s)).trans rfl
@[simp] theorem decay_plane (v : Nat) (s : State) : (decay v s).plane = s.plane := (congrArg State.plane (decay_eq v s)).trans rfl
@[simp] theorem decay_curve (v : Nat) (s : State) : (decay v s).curve = s.curve := (congrArg State.curve (decay_eq v s)).trans rfl
@[simp] theorem decay_t8 (v : Nat) (s : State) : (decay v s).t8 = s.t8 := (congrArg State.t8 (decay_eq v s)).trans rfl
@[simp] theorem decay_out (v : Nat) (s : State) : (decay v s).out = s.out := (congrArg State.out (decay_eq v s)).trans rfl
@[simp] theorem decay_cfg (v : Nat) (s : State) : (decay v s).cfg = s.cfg := (congrArg State.cfg (decay_eq v s)).trans rfl
@[simp] theorem decay_freeCtr (v : Nat) (s : State) : (decay v s).freeCtr = s.freeCtr := (congrArg State.freeCtr (decay_eq v s)).trans rfl
@[simp] theorem decay_hostMoves (v : Nat) (s : State) : (decay v s).hostMoves = s.hostMoves := (congrArg State.hostMoves (decay_eq v s)).trans rfl

/-! ## `seedSentinel`: RBUF only -/

theorem seedSentinel_eq (s : State) :
    seedSentinel s = { s with rbuf := (seedSentinel s).rbuf } := rfl

@[simp] theorem seedSentinel_ptr (s : State) : (seedSentinel s).ptr = s.ptr := (congrArg State.ptr (seedSentinel_eq s)).trans rfl
@[simp] theorem seedSentinel_cur (s : State) : (seedSentinel s).cur = s.cur := (congrArg State.cur (seedSentinel_eq s)).trans rfl
@[simp] theorem seedSentinel_rem (s : State) : (seedSentinel s).rem = s.rem := (congrArg State.rem (seedSentinel_eq s)).trans rfl
@[simp] theorem seedSentinel_tree (s : State) : (seedSentinel s).tree = s.tree := (congrArg State.tree (seedSentinel_eq s)).trans rfl
@[simp] theorem seedSentinel_col (s : State) : (seedSentinel s).col = s.col := (congrArg State.col (seedSentinel_eq s)).trans rfl
@[simp] theorem seedSentinel_nreps (s : State) : (seedSentinel s).nreps = s.nreps := (congrArg State.nreps (seedSentinel_eq s)).trans rfl
@[simp] theorem seedSentinel_rep (s : State) : (seedSentinel s).rep = s.rep := (congrArg State.rep (seedSentinel_eq s)).trans rfl
@[simp] theorem seedSentinel_step (s : State) : (seedSentinel s).step = s.step := (congrArg State.step (seedSentinel_eq s)).trans rfl
@[simp] theorem seedSentinel_keep (s : State) : (seedSentinel s).keep = s.keep := (congrArg State.keep (seedSentinel_eq s)).trans rfl
@[simp] theorem seedSentinel_rg (s : State) : (seedSentinel s).rg = s.rg := (congrArg State.rg (seedSentinel_eq s)).trans rfl
@[simp] theorem seedSentinel_row (s : State) : (seedSentinel s).row = s.row := (congrArg State.row (seedSentinel_eq s)).trans rfl
@[simp] theorem seedSentinel_mult (s : State) : (seedSentinel s).mult = s.mult := (congrArg State.mult (seedSentinel_eq s)).trans rfl
@[simp] theorem seedSentinel_prevM (s : State) : (seedSentinel s).prevM = s.prevM := (congrArg State.prevM (seedSentinel_eq s)).trans rfl
@[simp] theorem seedSentinel_val (s : State) : (seedSentinel s).val = s.val := (congrArg State.val (seedSentinel_eq s)).trans rfl
@[simp] theorem seedSentinel_pos (s : State) : (seedSentinel s).pos = s.pos := (congrArg State.pos (seedSentinel_eq s)).trans rfl
@[simp] theorem seedSentinel_tok (s : State) : (seedSentinel s).tok = s.tok := (congrArg State.tok (seedSentinel_eq s)).trans rfl
@[simp] theorem seedSentinel_w (s : State) : (seedSentinel s).w = s.w := (congrArg State.w (seedSentinel_eq s)).trans rfl
@[simp] theorem seedSentinel_h (s : State) : (seedSentinel s).h = s.h := (congrArg State.h (seedSentinel_eq s)).trans rfl
@[simp] theorem seedSentinel_status (s : State) : (seedSentinel s).status = s.status := (congrArg State.status (seedSentinel_eq s)).trans rfl
@[simp] theorem seedSentinel_faultInfo (s : State) : (seedSentinel s).faultInfo = s.faultInfo := (congrArg State.faultInfo (seedSentinel_eq s)).trans rfl
@[simp] theorem seedSentinel_width (s : State) : (seedSentinel s).width = s.width := (congrArg State.width (seedSentinel_eq s)).trans rfl
@[simp] theorem seedSentinel_height (s : State) : (seedSentinel s).height = s.height := (congrArg State.height (seedSentinel_eq s)).trans rfl
@[simp] theorem seedSentinel_srcLen (s : State) : (seedSentinel s).srcLen = s.srcLen := (congrArg State.srcLen (seedSentinel_eq s)).trans rfl
@[simp] theorem seedSentinel_cfaTile (s : State) : (seedSentinel s).cfaTile = s.cfaTile := (congrArg State.cfaTile (seedSentinel_eq s)).trans rfl
@[simp] theorem seedSentinel_src (s : State) : (seedSentinel s).src = s.src := (congrArg State.src (seedSentinel_eq s)).trans rfl
@[simp] theorem seedSentinel_huff (s : State) : (seedSentinel s).huff = s.huff := (congrArg State.huff (seedSentinel_eq s)).trans rfl
@[simp] theorem seedSentinel_plane (s : State) : (seedSentinel s).plane = s.plane := (congrArg State.plane (seedSentinel_eq s)).trans rfl
@[simp] theorem seedSentinel_curve (s : State) : (seedSentinel s).curve = s.curve := (congrArg State.curve (seedSentinel_eq s)).trans rfl
@[simp] theorem seedSentinel_t8 (s : State) : (seedSentinel s).t8 = s.t8 := (congrArg State.t8 (seedSentinel_eq s)).trans rfl
@[simp] theorem seedSentinel_out (s : State) : (seedSentinel s).out = s.out := (congrArg State.out (seedSentinel_eq s)).trans rfl
@[simp] theorem seedSentinel_cfg (s : State) : (seedSentinel s).cfg = s.cfg := (congrArg State.cfg (seedSentinel_eq s)).trans rfl
@[simp] theorem seedSentinel_freeCtr (s : State) : (seedSentinel s).freeCtr = s.freeCtr := (congrArg State.freeCtr (seedSentinel_eq s)).trans rfl
@[simp] theorem seedSentinel_hostMoves (s : State) : (seedSentinel s).hostMoves = s.hostMoves := (congrArg State.hostMoves (seedSentinel_eq s)).trans rfl

/-! ## `carryRow`: RBUF only -/

theorem carryRow_eq (s : State) :
    carryRow s = { s with rbuf := (carryRow s).rbuf } := rfl

@[simp] theorem carryRow_ptr (s : State) : (carryRow s).ptr = s.ptr := (congrArg State.ptr (carryRow_eq s)).trans rfl
@[simp] theorem carryRow_cur (s : State) : (carryRow s).cur = s.cur := (congrArg State.cur (carryRow_eq s)).trans rfl
@[simp] theorem carryRow_rem (s : State) : (carryRow s).rem = s.rem := (congrArg State.rem (carryRow_eq s)).trans rfl
@[simp] theorem carryRow_tree (s : State) : (carryRow s).tree = s.tree := (congrArg State.tree (carryRow_eq s)).trans rfl
@[simp] theorem carryRow_col (s : State) : (carryRow s).col = s.col := (congrArg State.col (carryRow_eq s)).trans rfl
@[simp] theorem carryRow_nreps (s : State) : (carryRow s).nreps = s.nreps := (congrArg State.nreps (carryRow_eq s)).trans rfl
@[simp] theorem carryRow_rep (s : State) : (carryRow s).rep = s.rep := (congrArg State.rep (carryRow_eq s)).trans rfl
@[simp] theorem carryRow_step (s : State) : (carryRow s).step = s.step := (congrArg State.step (carryRow_eq s)).trans rfl
@[simp] theorem carryRow_keep (s : State) : (carryRow s).keep = s.keep := (congrArg State.keep (carryRow_eq s)).trans rfl
@[simp] theorem carryRow_rg (s : State) : (carryRow s).rg = s.rg := (congrArg State.rg (carryRow_eq s)).trans rfl
@[simp] theorem carryRow_row (s : State) : (carryRow s).row = s.row := (congrArg State.row (carryRow_eq s)).trans rfl
@[simp] theorem carryRow_mult (s : State) : (carryRow s).mult = s.mult := (congrArg State.mult (carryRow_eq s)).trans rfl
@[simp] theorem carryRow_prevM (s : State) : (carryRow s).prevM = s.prevM := (congrArg State.prevM (carryRow_eq s)).trans rfl
@[simp] theorem carryRow_val (s : State) : (carryRow s).val = s.val := (congrArg State.val (carryRow_eq s)).trans rfl
@[simp] theorem carryRow_pos (s : State) : (carryRow s).pos = s.pos := (congrArg State.pos (carryRow_eq s)).trans rfl
@[simp] theorem carryRow_tok (s : State) : (carryRow s).tok = s.tok := (congrArg State.tok (carryRow_eq s)).trans rfl
@[simp] theorem carryRow_w (s : State) : (carryRow s).w = s.w := (congrArg State.w (carryRow_eq s)).trans rfl
@[simp] theorem carryRow_h (s : State) : (carryRow s).h = s.h := (congrArg State.h (carryRow_eq s)).trans rfl
@[simp] theorem carryRow_status (s : State) : (carryRow s).status = s.status := (congrArg State.status (carryRow_eq s)).trans rfl
@[simp] theorem carryRow_faultInfo (s : State) : (carryRow s).faultInfo = s.faultInfo := (congrArg State.faultInfo (carryRow_eq s)).trans rfl
@[simp] theorem carryRow_width (s : State) : (carryRow s).width = s.width := (congrArg State.width (carryRow_eq s)).trans rfl
@[simp] theorem carryRow_height (s : State) : (carryRow s).height = s.height := (congrArg State.height (carryRow_eq s)).trans rfl
@[simp] theorem carryRow_srcLen (s : State) : (carryRow s).srcLen = s.srcLen := (congrArg State.srcLen (carryRow_eq s)).trans rfl
@[simp] theorem carryRow_cfaTile (s : State) : (carryRow s).cfaTile = s.cfaTile := (congrArg State.cfaTile (carryRow_eq s)).trans rfl
@[simp] theorem carryRow_src (s : State) : (carryRow s).src = s.src := (congrArg State.src (carryRow_eq s)).trans rfl
@[simp] theorem carryRow_huff (s : State) : (carryRow s).huff = s.huff := (congrArg State.huff (carryRow_eq s)).trans rfl
@[simp] theorem carryRow_plane (s : State) : (carryRow s).plane = s.plane := (congrArg State.plane (carryRow_eq s)).trans rfl
@[simp] theorem carryRow_curve (s : State) : (carryRow s).curve = s.curve := (congrArg State.curve (carryRow_eq s)).trans rfl
@[simp] theorem carryRow_t8 (s : State) : (carryRow s).t8 = s.t8 := (congrArg State.t8 (carryRow_eq s)).trans rfl
@[simp] theorem carryRow_out (s : State) : (carryRow s).out = s.out := (congrArg State.out (carryRow_eq s)).trans rfl
@[simp] theorem carryRow_cfg (s : State) : (carryRow s).cfg = s.cfg := (congrArg State.cfg (carryRow_eq s)).trans rfl
@[simp] theorem carryRow_freeCtr (s : State) : (carryRow s).freeCtr = s.freeCtr := (congrArg State.freeCtr (carryRow_eq s)).trans rfl
@[simp] theorem carryRow_hostMoves (s : State) : (carryRow s).hostMoves = s.hostMoves := (congrArg State.hostMoves (carryRow_eq s)).trans rfl

/-! ## `checkerRows`: PLANE only -/

theorem checkerRows_eq (s : State) :
    checkerRows s = { s with plane := (checkerRows s).plane } := rfl

@[simp] theorem checkerRows_ptr (s : State) : (checkerRows s).ptr = s.ptr := (congrArg State.ptr (checkerRows_eq s)).trans rfl
@[simp] theorem checkerRows_cur (s : State) : (checkerRows s).cur = s.cur := (congrArg State.cur (checkerRows_eq s)).trans rfl
@[simp] theorem checkerRows_rem (s : State) : (checkerRows s).rem = s.rem := (congrArg State.rem (checkerRows_eq s)).trans rfl
@[simp] theorem checkerRows_tree (s : State) : (checkerRows s).tree = s.tree := (congrArg State.tree (checkerRows_eq s)).trans rfl
@[simp] theorem checkerRows_col (s : State) : (checkerRows s).col = s.col := (congrArg State.col (checkerRows_eq s)).trans rfl
@[simp] theorem checkerRows_nreps (s : State) : (checkerRows s).nreps = s.nreps := (congrArg State.nreps (checkerRows_eq s)).trans rfl
@[simp] theorem checkerRows_rep (s : State) : (checkerRows s).rep = s.rep := (congrArg State.rep (checkerRows_eq s)).trans rfl
@[simp] theorem checkerRows_step (s : State) : (checkerRows s).step = s.step := (congrArg State.step (checkerRows_eq s)).trans rfl
@[simp] theorem checkerRows_keep (s : State) : (checkerRows s).keep = s.keep := (congrArg State.keep (checkerRows_eq s)).trans rfl
@[simp] theorem checkerRows_rg (s : State) : (checkerRows s).rg = s.rg := (congrArg State.rg (checkerRows_eq s)).trans rfl
@[simp] theorem checkerRows_row (s : State) : (checkerRows s).row = s.row := (congrArg State.row (checkerRows_eq s)).trans rfl
@[simp] theorem checkerRows_mult (s : State) : (checkerRows s).mult = s.mult := (congrArg State.mult (checkerRows_eq s)).trans rfl
@[simp] theorem checkerRows_prevM (s : State) : (checkerRows s).prevM = s.prevM := (congrArg State.prevM (checkerRows_eq s)).trans rfl
@[simp] theorem checkerRows_val (s : State) : (checkerRows s).val = s.val := (congrArg State.val (checkerRows_eq s)).trans rfl
@[simp] theorem checkerRows_pos (s : State) : (checkerRows s).pos = s.pos := (congrArg State.pos (checkerRows_eq s)).trans rfl
@[simp] theorem checkerRows_tok (s : State) : (checkerRows s).tok = s.tok := (congrArg State.tok (checkerRows_eq s)).trans rfl
@[simp] theorem checkerRows_w (s : State) : (checkerRows s).w = s.w := (congrArg State.w (checkerRows_eq s)).trans rfl
@[simp] theorem checkerRows_h (s : State) : (checkerRows s).h = s.h := (congrArg State.h (checkerRows_eq s)).trans rfl
@[simp] theorem checkerRows_status (s : State) : (checkerRows s).status = s.status := (congrArg State.status (checkerRows_eq s)).trans rfl
@[simp] theorem checkerRows_faultInfo (s : State) : (checkerRows s).faultInfo = s.faultInfo := (congrArg State.faultInfo (checkerRows_eq s)).trans rfl
@[simp] theorem checkerRows_width (s : State) : (checkerRows s).width = s.width := (congrArg State.width (checkerRows_eq s)).trans rfl
@[simp] theorem checkerRows_height (s : State) : (checkerRows s).height = s.height := (congrArg State.height (checkerRows_eq s)).trans rfl
@[simp] theorem checkerRows_srcLen (s : State) : (checkerRows s).srcLen = s.srcLen := (congrArg State.srcLen (checkerRows_eq s)).trans rfl
@[simp] theorem checkerRows_cfaTile (s : State) : (checkerRows s).cfaTile = s.cfaTile := (congrArg State.cfaTile (checkerRows_eq s)).trans rfl
@[simp] theorem checkerRows_src (s : State) : (checkerRows s).src = s.src := (congrArg State.src (checkerRows_eq s)).trans rfl
@[simp] theorem checkerRows_huff (s : State) : (checkerRows s).huff = s.huff := (congrArg State.huff (checkerRows_eq s)).trans rfl
@[simp] theorem checkerRows_rbuf (s : State) : (checkerRows s).rbuf = s.rbuf := (congrArg State.rbuf (checkerRows_eq s)).trans rfl
@[simp] theorem checkerRows_curve (s : State) : (checkerRows s).curve = s.curve := (congrArg State.curve (checkerRows_eq s)).trans rfl
@[simp] theorem checkerRows_t8 (s : State) : (checkerRows s).t8 = s.t8 := (congrArg State.t8 (checkerRows_eq s)).trans rfl
@[simp] theorem checkerRows_out (s : State) : (checkerRows s).out = s.out := (congrArg State.out (checkerRows_eq s)).trans rfl
@[simp] theorem checkerRows_cfg (s : State) : (checkerRows s).cfg = s.cfg := (congrArg State.cfg (checkerRows_eq s)).trans rfl
@[simp] theorem checkerRows_freeCtr (s : State) : (checkerRows s).freeCtr = s.freeCtr := (congrArg State.freeCtr (checkerRows_eq s)).trans rfl
@[simp] theorem checkerRows_hostMoves (s : State) : (checkerRows s).hostMoves = s.hostMoves := (congrArg State.hostMoves (checkerRows_eq s)).trans rfl

/-! ## `oneRepeat`: RBUF and `col` -/

theorem oneRepeat_eq (s : State) :
    oneRepeat s = { s with col := (oneRepeat s).col, rbuf := (oneRepeat s).rbuf } := by
  unfold oneRepeat
  dsimp only
  split
  · rw [predictCells_eq]
  · rfl

@[simp] theorem oneRepeat_ptr (s : State) : (oneRepeat s).ptr = s.ptr := (congrArg State.ptr (oneRepeat_eq s)).trans rfl
@[simp] theorem oneRepeat_cur (s : State) : (oneRepeat s).cur = s.cur := (congrArg State.cur (oneRepeat_eq s)).trans rfl
@[simp] theorem oneRepeat_rem (s : State) : (oneRepeat s).rem = s.rem := (congrArg State.rem (oneRepeat_eq s)).trans rfl
@[simp] theorem oneRepeat_tree (s : State) : (oneRepeat s).tree = s.tree := (congrArg State.tree (oneRepeat_eq s)).trans rfl
@[simp] theorem oneRepeat_nreps (s : State) : (oneRepeat s).nreps = s.nreps := (congrArg State.nreps (oneRepeat_eq s)).trans rfl
@[simp] theorem oneRepeat_rep (s : State) : (oneRepeat s).rep = s.rep := (congrArg State.rep (oneRepeat_eq s)).trans rfl
@[simp] theorem oneRepeat_step (s : State) : (oneRepeat s).step = s.step := (congrArg State.step (oneRepeat_eq s)).trans rfl
@[simp] theorem oneRepeat_keep (s : State) : (oneRepeat s).keep = s.keep := (congrArg State.keep (oneRepeat_eq s)).trans rfl
@[simp] theorem oneRepeat_rg (s : State) : (oneRepeat s).rg = s.rg := (congrArg State.rg (oneRepeat_eq s)).trans rfl
@[simp] theorem oneRepeat_row (s : State) : (oneRepeat s).row = s.row := (congrArg State.row (oneRepeat_eq s)).trans rfl
@[simp] theorem oneRepeat_mult (s : State) : (oneRepeat s).mult = s.mult := (congrArg State.mult (oneRepeat_eq s)).trans rfl
@[simp] theorem oneRepeat_prevM (s : State) : (oneRepeat s).prevM = s.prevM := (congrArg State.prevM (oneRepeat_eq s)).trans rfl
@[simp] theorem oneRepeat_val (s : State) : (oneRepeat s).val = s.val := (congrArg State.val (oneRepeat_eq s)).trans rfl
@[simp] theorem oneRepeat_pos (s : State) : (oneRepeat s).pos = s.pos := (congrArg State.pos (oneRepeat_eq s)).trans rfl
@[simp] theorem oneRepeat_tok (s : State) : (oneRepeat s).tok = s.tok := (congrArg State.tok (oneRepeat_eq s)).trans rfl
@[simp] theorem oneRepeat_w (s : State) : (oneRepeat s).w = s.w := (congrArg State.w (oneRepeat_eq s)).trans rfl
@[simp] theorem oneRepeat_h (s : State) : (oneRepeat s).h = s.h := (congrArg State.h (oneRepeat_eq s)).trans rfl
@[simp] theorem oneRepeat_status (s : State) : (oneRepeat s).status = s.status := (congrArg State.status (oneRepeat_eq s)).trans rfl
@[simp] theorem oneRepeat_faultInfo (s : State) : (oneRepeat s).faultInfo = s.faultInfo := (congrArg State.faultInfo (oneRepeat_eq s)).trans rfl
@[simp] theorem oneRepeat_width (s : State) : (oneRepeat s).width = s.width := (congrArg State.width (oneRepeat_eq s)).trans rfl
@[simp] theorem oneRepeat_height (s : State) : (oneRepeat s).height = s.height := (congrArg State.height (oneRepeat_eq s)).trans rfl
@[simp] theorem oneRepeat_srcLen (s : State) : (oneRepeat s).srcLen = s.srcLen := (congrArg State.srcLen (oneRepeat_eq s)).trans rfl
@[simp] theorem oneRepeat_cfaTile (s : State) : (oneRepeat s).cfaTile = s.cfaTile := (congrArg State.cfaTile (oneRepeat_eq s)).trans rfl
@[simp] theorem oneRepeat_src (s : State) : (oneRepeat s).src = s.src := (congrArg State.src (oneRepeat_eq s)).trans rfl
@[simp] theorem oneRepeat_huff (s : State) : (oneRepeat s).huff = s.huff := (congrArg State.huff (oneRepeat_eq s)).trans rfl
@[simp] theorem oneRepeat_plane (s : State) : (oneRepeat s).plane = s.plane := (congrArg State.plane (oneRepeat_eq s)).trans rfl
@[simp] theorem oneRepeat_curve (s : State) : (oneRepeat s).curve = s.curve := (congrArg State.curve (oneRepeat_eq s)).trans rfl
@[simp] theorem oneRepeat_t8 (s : State) : (oneRepeat s).t8 = s.t8 := (congrArg State.t8 (oneRepeat_eq s)).trans rfl
@[simp] theorem oneRepeat_out (s : State) : (oneRepeat s).out = s.out := (congrArg State.out (oneRepeat_eq s)).trans rfl
@[simp] theorem oneRepeat_cfg (s : State) : (oneRepeat s).cfg = s.cfg := (congrArg State.cfg (oneRepeat_eq s)).trans rfl
@[simp] theorem oneRepeat_freeCtr (s : State) : (oneRepeat s).freeCtr = s.freeCtr := (congrArg State.freeCtr (oneRepeat_eq s)).trans rfl
@[simp] theorem oneRepeat_hostMoves (s : State) : (oneRepeat s).hostMoves = s.hostMoves := (congrArg State.hostMoves (oneRepeat_eq s)).trans rfl

/-! ## `stepAdded`: RBUF and `step` -/

theorem stepAdded_eq (v : Int) (s : State) :
    stepAdded v s = { s with step := (stepAdded v s).step, rbuf := (stepAdded v s).rbuf } := by
  unfold stepAdded
  dsimp only
  split
  · rw [addStepCells_eq]
  · rfl

@[simp] theorem stepAdded_ptr (v : Int) (s : State) : (stepAdded v s).ptr = s.ptr := (congrArg State.ptr (stepAdded_eq v s)).trans rfl
@[simp] theorem stepAdded_cur (v : Int) (s : State) : (stepAdded v s).cur = s.cur := (congrArg State.cur (stepAdded_eq v s)).trans rfl
@[simp] theorem stepAdded_rem (v : Int) (s : State) : (stepAdded v s).rem = s.rem := (congrArg State.rem (stepAdded_eq v s)).trans rfl
@[simp] theorem stepAdded_tree (v : Int) (s : State) : (stepAdded v s).tree = s.tree := (congrArg State.tree (stepAdded_eq v s)).trans rfl
@[simp] theorem stepAdded_col (v : Int) (s : State) : (stepAdded v s).col = s.col := (congrArg State.col (stepAdded_eq v s)).trans rfl
@[simp] theorem stepAdded_nreps (v : Int) (s : State) : (stepAdded v s).nreps = s.nreps := (congrArg State.nreps (stepAdded_eq v s)).trans rfl
@[simp] theorem stepAdded_rep (v : Int) (s : State) : (stepAdded v s).rep = s.rep := (congrArg State.rep (stepAdded_eq v s)).trans rfl
@[simp] theorem stepAdded_keep (v : Int) (s : State) : (stepAdded v s).keep = s.keep := (congrArg State.keep (stepAdded_eq v s)).trans rfl
@[simp] theorem stepAdded_rg (v : Int) (s : State) : (stepAdded v s).rg = s.rg := (congrArg State.rg (stepAdded_eq v s)).trans rfl
@[simp] theorem stepAdded_row (v : Int) (s : State) : (stepAdded v s).row = s.row := (congrArg State.row (stepAdded_eq v s)).trans rfl
@[simp] theorem stepAdded_mult (v : Int) (s : State) : (stepAdded v s).mult = s.mult := (congrArg State.mult (stepAdded_eq v s)).trans rfl
@[simp] theorem stepAdded_prevM (v : Int) (s : State) : (stepAdded v s).prevM = s.prevM := (congrArg State.prevM (stepAdded_eq v s)).trans rfl
@[simp] theorem stepAdded_val (v : Int) (s : State) : (stepAdded v s).val = s.val := (congrArg State.val (stepAdded_eq v s)).trans rfl
@[simp] theorem stepAdded_pos (v : Int) (s : State) : (stepAdded v s).pos = s.pos := (congrArg State.pos (stepAdded_eq v s)).trans rfl
@[simp] theorem stepAdded_tok (v : Int) (s : State) : (stepAdded v s).tok = s.tok := (congrArg State.tok (stepAdded_eq v s)).trans rfl
@[simp] theorem stepAdded_w (v : Int) (s : State) : (stepAdded v s).w = s.w := (congrArg State.w (stepAdded_eq v s)).trans rfl
@[simp] theorem stepAdded_h (v : Int) (s : State) : (stepAdded v s).h = s.h := (congrArg State.h (stepAdded_eq v s)).trans rfl
@[simp] theorem stepAdded_status (v : Int) (s : State) : (stepAdded v s).status = s.status := (congrArg State.status (stepAdded_eq v s)).trans rfl
@[simp] theorem stepAdded_faultInfo (v : Int) (s : State) : (stepAdded v s).faultInfo = s.faultInfo := (congrArg State.faultInfo (stepAdded_eq v s)).trans rfl
@[simp] theorem stepAdded_width (v : Int) (s : State) : (stepAdded v s).width = s.width := (congrArg State.width (stepAdded_eq v s)).trans rfl
@[simp] theorem stepAdded_height (v : Int) (s : State) : (stepAdded v s).height = s.height := (congrArg State.height (stepAdded_eq v s)).trans rfl
@[simp] theorem stepAdded_srcLen (v : Int) (s : State) : (stepAdded v s).srcLen = s.srcLen := (congrArg State.srcLen (stepAdded_eq v s)).trans rfl
@[simp] theorem stepAdded_cfaTile (v : Int) (s : State) : (stepAdded v s).cfaTile = s.cfaTile := (congrArg State.cfaTile (stepAdded_eq v s)).trans rfl
@[simp] theorem stepAdded_src (v : Int) (s : State) : (stepAdded v s).src = s.src := (congrArg State.src (stepAdded_eq v s)).trans rfl
@[simp] theorem stepAdded_huff (v : Int) (s : State) : (stepAdded v s).huff = s.huff := (congrArg State.huff (stepAdded_eq v s)).trans rfl
@[simp] theorem stepAdded_plane (v : Int) (s : State) : (stepAdded v s).plane = s.plane := (congrArg State.plane (stepAdded_eq v s)).trans rfl
@[simp] theorem stepAdded_curve (v : Int) (s : State) : (stepAdded v s).curve = s.curve := (congrArg State.curve (stepAdded_eq v s)).trans rfl
@[simp] theorem stepAdded_t8 (v : Int) (s : State) : (stepAdded v s).t8 = s.t8 := (congrArg State.t8 (stepAdded_eq v s)).trans rfl
@[simp] theorem stepAdded_out (v : Int) (s : State) : (stepAdded v s).out = s.out := (congrArg State.out (stepAdded_eq v s)).trans rfl
@[simp] theorem stepAdded_cfg (v : Int) (s : State) : (stepAdded v s).cfg = s.cfg := (congrArg State.cfg (stepAdded_eq v s)).trans rfl
@[simp] theorem stepAdded_freeCtr (v : Int) (s : State) : (stepAdded v s).freeCtr = s.freeCtr := (congrArg State.freeCtr (stepAdded_eq v s)).trans rfl
@[simp] theorem stepAdded_hostMoves (v : Int) (s : State) : (stepAdded v s).hostMoves = s.hostMoves := (congrArg State.hostMoves (stepAdded_eq v s)).trans rfl

/-! ## `afterRowGroup`: the position only -/

theorem afterRowGroup_eq (s : State) :
    afterRowGroup s = { s with pos := (afterRowGroup s).pos } := rfl

@[simp] theorem afterRowGroup_ptr (s : State) : (afterRowGroup s).ptr = s.ptr := (congrArg State.ptr (afterRowGroup_eq s)).trans rfl
@[simp] theorem afterRowGroup_cur (s : State) : (afterRowGroup s).cur = s.cur := (congrArg State.cur (afterRowGroup_eq s)).trans rfl
@[simp] theorem afterRowGroup_rem (s : State) : (afterRowGroup s).rem = s.rem := (congrArg State.rem (afterRowGroup_eq s)).trans rfl
@[simp] theorem afterRowGroup_tree (s : State) : (afterRowGroup s).tree = s.tree := (congrArg State.tree (afterRowGroup_eq s)).trans rfl
@[simp] theorem afterRowGroup_col (s : State) : (afterRowGroup s).col = s.col := (congrArg State.col (afterRowGroup_eq s)).trans rfl
@[simp] theorem afterRowGroup_nreps (s : State) : (afterRowGroup s).nreps = s.nreps := (congrArg State.nreps (afterRowGroup_eq s)).trans rfl
@[simp] theorem afterRowGroup_rep (s : State) : (afterRowGroup s).rep = s.rep := (congrArg State.rep (afterRowGroup_eq s)).trans rfl
@[simp] theorem afterRowGroup_step (s : State) : (afterRowGroup s).step = s.step := (congrArg State.step (afterRowGroup_eq s)).trans rfl
@[simp] theorem afterRowGroup_keep (s : State) : (afterRowGroup s).keep = s.keep := (congrArg State.keep (afterRowGroup_eq s)).trans rfl
@[simp] theorem afterRowGroup_rg (s : State) : (afterRowGroup s).rg = s.rg := (congrArg State.rg (afterRowGroup_eq s)).trans rfl
@[simp] theorem afterRowGroup_row (s : State) : (afterRowGroup s).row = s.row := (congrArg State.row (afterRowGroup_eq s)).trans rfl
@[simp] theorem afterRowGroup_mult (s : State) : (afterRowGroup s).mult = s.mult := (congrArg State.mult (afterRowGroup_eq s)).trans rfl
@[simp] theorem afterRowGroup_prevM (s : State) : (afterRowGroup s).prevM = s.prevM := (congrArg State.prevM (afterRowGroup_eq s)).trans rfl
@[simp] theorem afterRowGroup_val (s : State) : (afterRowGroup s).val = s.val := (congrArg State.val (afterRowGroup_eq s)).trans rfl
@[simp] theorem afterRowGroup_tok (s : State) : (afterRowGroup s).tok = s.tok := (congrArg State.tok (afterRowGroup_eq s)).trans rfl
@[simp] theorem afterRowGroup_w (s : State) : (afterRowGroup s).w = s.w := (congrArg State.w (afterRowGroup_eq s)).trans rfl
@[simp] theorem afterRowGroup_h (s : State) : (afterRowGroup s).h = s.h := (congrArg State.h (afterRowGroup_eq s)).trans rfl
@[simp] theorem afterRowGroup_status (s : State) : (afterRowGroup s).status = s.status := (congrArg State.status (afterRowGroup_eq s)).trans rfl
@[simp] theorem afterRowGroup_faultInfo (s : State) : (afterRowGroup s).faultInfo = s.faultInfo := (congrArg State.faultInfo (afterRowGroup_eq s)).trans rfl
@[simp] theorem afterRowGroup_width (s : State) : (afterRowGroup s).width = s.width := (congrArg State.width (afterRowGroup_eq s)).trans rfl
@[simp] theorem afterRowGroup_height (s : State) : (afterRowGroup s).height = s.height := (congrArg State.height (afterRowGroup_eq s)).trans rfl
@[simp] theorem afterRowGroup_srcLen (s : State) : (afterRowGroup s).srcLen = s.srcLen := (congrArg State.srcLen (afterRowGroup_eq s)).trans rfl
@[simp] theorem afterRowGroup_cfaTile (s : State) : (afterRowGroup s).cfaTile = s.cfaTile := (congrArg State.cfaTile (afterRowGroup_eq s)).trans rfl
@[simp] theorem afterRowGroup_src (s : State) : (afterRowGroup s).src = s.src := (congrArg State.src (afterRowGroup_eq s)).trans rfl
@[simp] theorem afterRowGroup_huff (s : State) : (afterRowGroup s).huff = s.huff := (congrArg State.huff (afterRowGroup_eq s)).trans rfl
@[simp] theorem afterRowGroup_rbuf (s : State) : (afterRowGroup s).rbuf = s.rbuf := (congrArg State.rbuf (afterRowGroup_eq s)).trans rfl
@[simp] theorem afterRowGroup_plane (s : State) : (afterRowGroup s).plane = s.plane := (congrArg State.plane (afterRowGroup_eq s)).trans rfl
@[simp] theorem afterRowGroup_curve (s : State) : (afterRowGroup s).curve = s.curve := (congrArg State.curve (afterRowGroup_eq s)).trans rfl
@[simp] theorem afterRowGroup_t8 (s : State) : (afterRowGroup s).t8 = s.t8 := (congrArg State.t8 (afterRowGroup_eq s)).trans rfl
@[simp] theorem afterRowGroup_out (s : State) : (afterRowGroup s).out = s.out := (congrArg State.out (afterRowGroup_eq s)).trans rfl
@[simp] theorem afterRowGroup_cfg (s : State) : (afterRowGroup s).cfg = s.cfg := (congrArg State.cfg (afterRowGroup_eq s)).trans rfl
@[simp] theorem afterRowGroup_freeCtr (s : State) : (afterRowGroup s).freeCtr = s.freeCtr := (congrArg State.freeCtr (afterRowGroup_eq s)).trans rfl
@[simp] theorem afterRowGroup_hostMoves (s : State) : (afterRowGroup s).hostMoves = s.hostMoves := (congrArg State.hostMoves (afterRowGroup_eq s)).trans rfl

/-! ## `groupEnd`: the position only -/

theorem groupEnd_eq (s : State) :
    groupEnd s = { s with pos := (groupEnd s).pos } := by
  unfold groupEnd
  split
  · rfl
  · split <;> rfl

@[simp] theorem groupEnd_ptr (s : State) : (groupEnd s).ptr = s.ptr := (congrArg State.ptr (groupEnd_eq s)).trans rfl
@[simp] theorem groupEnd_cur (s : State) : (groupEnd s).cur = s.cur := (congrArg State.cur (groupEnd_eq s)).trans rfl
@[simp] theorem groupEnd_rem (s : State) : (groupEnd s).rem = s.rem := (congrArg State.rem (groupEnd_eq s)).trans rfl
@[simp] theorem groupEnd_tree (s : State) : (groupEnd s).tree = s.tree := (congrArg State.tree (groupEnd_eq s)).trans rfl
@[simp] theorem groupEnd_col (s : State) : (groupEnd s).col = s.col := (congrArg State.col (groupEnd_eq s)).trans rfl
@[simp] theorem groupEnd_nreps (s : State) : (groupEnd s).nreps = s.nreps := (congrArg State.nreps (groupEnd_eq s)).trans rfl
@[simp] theorem groupEnd_rep (s : State) : (groupEnd s).rep = s.rep := (congrArg State.rep (groupEnd_eq s)).trans rfl
@[simp] theorem groupEnd_step (s : State) : (groupEnd s).step = s.step := (congrArg State.step (groupEnd_eq s)).trans rfl
@[simp] theorem groupEnd_keep (s : State) : (groupEnd s).keep = s.keep := (congrArg State.keep (groupEnd_eq s)).trans rfl
@[simp] theorem groupEnd_rg (s : State) : (groupEnd s).rg = s.rg := (congrArg State.rg (groupEnd_eq s)).trans rfl
@[simp] theorem groupEnd_row (s : State) : (groupEnd s).row = s.row := (congrArg State.row (groupEnd_eq s)).trans rfl
@[simp] theorem groupEnd_mult (s : State) : (groupEnd s).mult = s.mult := (congrArg State.mult (groupEnd_eq s)).trans rfl
@[simp] theorem groupEnd_prevM (s : State) : (groupEnd s).prevM = s.prevM := (congrArg State.prevM (groupEnd_eq s)).trans rfl
@[simp] theorem groupEnd_val (s : State) : (groupEnd s).val = s.val := (congrArg State.val (groupEnd_eq s)).trans rfl
@[simp] theorem groupEnd_tok (s : State) : (groupEnd s).tok = s.tok := (congrArg State.tok (groupEnd_eq s)).trans rfl
@[simp] theorem groupEnd_w (s : State) : (groupEnd s).w = s.w := (congrArg State.w (groupEnd_eq s)).trans rfl
@[simp] theorem groupEnd_h (s : State) : (groupEnd s).h = s.h := (congrArg State.h (groupEnd_eq s)).trans rfl
@[simp] theorem groupEnd_status (s : State) : (groupEnd s).status = s.status := (congrArg State.status (groupEnd_eq s)).trans rfl
@[simp] theorem groupEnd_faultInfo (s : State) : (groupEnd s).faultInfo = s.faultInfo := (congrArg State.faultInfo (groupEnd_eq s)).trans rfl
@[simp] theorem groupEnd_width (s : State) : (groupEnd s).width = s.width := (congrArg State.width (groupEnd_eq s)).trans rfl
@[simp] theorem groupEnd_height (s : State) : (groupEnd s).height = s.height := (congrArg State.height (groupEnd_eq s)).trans rfl
@[simp] theorem groupEnd_srcLen (s : State) : (groupEnd s).srcLen = s.srcLen := (congrArg State.srcLen (groupEnd_eq s)).trans rfl
@[simp] theorem groupEnd_cfaTile (s : State) : (groupEnd s).cfaTile = s.cfaTile := (congrArg State.cfaTile (groupEnd_eq s)).trans rfl
@[simp] theorem groupEnd_src (s : State) : (groupEnd s).src = s.src := (congrArg State.src (groupEnd_eq s)).trans rfl
@[simp] theorem groupEnd_huff (s : State) : (groupEnd s).huff = s.huff := (congrArg State.huff (groupEnd_eq s)).trans rfl
@[simp] theorem groupEnd_rbuf (s : State) : (groupEnd s).rbuf = s.rbuf := (congrArg State.rbuf (groupEnd_eq s)).trans rfl
@[simp] theorem groupEnd_plane (s : State) : (groupEnd s).plane = s.plane := (congrArg State.plane (groupEnd_eq s)).trans rfl
@[simp] theorem groupEnd_curve (s : State) : (groupEnd s).curve = s.curve := (congrArg State.curve (groupEnd_eq s)).trans rfl
@[simp] theorem groupEnd_t8 (s : State) : (groupEnd s).t8 = s.t8 := (congrArg State.t8 (groupEnd_eq s)).trans rfl
@[simp] theorem groupEnd_out (s : State) : (groupEnd s).out = s.out := (congrArg State.out (groupEnd_eq s)).trans rfl
@[simp] theorem groupEnd_cfg (s : State) : (groupEnd s).cfg = s.cfg := (congrArg State.cfg (groupEnd_eq s)).trans rfl
@[simp] theorem groupEnd_freeCtr (s : State) : (groupEnd s).freeCtr = s.freeCtr := (congrArg State.freeCtr (groupEnd_eq s)).trans rfl
@[simp] theorem groupEnd_hostMoves (s : State) : (groupEnd s).hostMoves = s.hostMoves := (congrArg State.hostMoves (groupEnd_eq s)).trans rfl

/-! ## `tokenDone`: the position and the token index -/

theorem tokenDone_eq (s : State) :
    tokenDone s = { s with pos := (tokenDone s).pos, tok := (tokenDone s).tok } := by
  unfold tokenDone
  split
  · rw [groupEnd_eq]
  · rfl

@[simp] theorem tokenDone_ptr (s : State) : (tokenDone s).ptr = s.ptr := (congrArg State.ptr (tokenDone_eq s)).trans rfl
@[simp] theorem tokenDone_cur (s : State) : (tokenDone s).cur = s.cur := (congrArg State.cur (tokenDone_eq s)).trans rfl
@[simp] theorem tokenDone_rem (s : State) : (tokenDone s).rem = s.rem := (congrArg State.rem (tokenDone_eq s)).trans rfl
@[simp] theorem tokenDone_tree (s : State) : (tokenDone s).tree = s.tree := (congrArg State.tree (tokenDone_eq s)).trans rfl
@[simp] theorem tokenDone_col (s : State) : (tokenDone s).col = s.col := (congrArg State.col (tokenDone_eq s)).trans rfl
@[simp] theorem tokenDone_nreps (s : State) : (tokenDone s).nreps = s.nreps := (congrArg State.nreps (tokenDone_eq s)).trans rfl
@[simp] theorem tokenDone_rep (s : State) : (tokenDone s).rep = s.rep := (congrArg State.rep (tokenDone_eq s)).trans rfl
@[simp] theorem tokenDone_step (s : State) : (tokenDone s).step = s.step := (congrArg State.step (tokenDone_eq s)).trans rfl
@[simp] theorem tokenDone_keep (s : State) : (tokenDone s).keep = s.keep := (congrArg State.keep (tokenDone_eq s)).trans rfl
@[simp] theorem tokenDone_rg (s : State) : (tokenDone s).rg = s.rg := (congrArg State.rg (tokenDone_eq s)).trans rfl
@[simp] theorem tokenDone_row (s : State) : (tokenDone s).row = s.row := (congrArg State.row (tokenDone_eq s)).trans rfl
@[simp] theorem tokenDone_mult (s : State) : (tokenDone s).mult = s.mult := (congrArg State.mult (tokenDone_eq s)).trans rfl
@[simp] theorem tokenDone_prevM (s : State) : (tokenDone s).prevM = s.prevM := (congrArg State.prevM (tokenDone_eq s)).trans rfl
@[simp] theorem tokenDone_val (s : State) : (tokenDone s).val = s.val := (congrArg State.val (tokenDone_eq s)).trans rfl
@[simp] theorem tokenDone_w (s : State) : (tokenDone s).w = s.w := (congrArg State.w (tokenDone_eq s)).trans rfl
@[simp] theorem tokenDone_h (s : State) : (tokenDone s).h = s.h := (congrArg State.h (tokenDone_eq s)).trans rfl
@[simp] theorem tokenDone_status (s : State) : (tokenDone s).status = s.status := (congrArg State.status (tokenDone_eq s)).trans rfl
@[simp] theorem tokenDone_faultInfo (s : State) : (tokenDone s).faultInfo = s.faultInfo := (congrArg State.faultInfo (tokenDone_eq s)).trans rfl
@[simp] theorem tokenDone_width (s : State) : (tokenDone s).width = s.width := (congrArg State.width (tokenDone_eq s)).trans rfl
@[simp] theorem tokenDone_height (s : State) : (tokenDone s).height = s.height := (congrArg State.height (tokenDone_eq s)).trans rfl
@[simp] theorem tokenDone_srcLen (s : State) : (tokenDone s).srcLen = s.srcLen := (congrArg State.srcLen (tokenDone_eq s)).trans rfl
@[simp] theorem tokenDone_cfaTile (s : State) : (tokenDone s).cfaTile = s.cfaTile := (congrArg State.cfaTile (tokenDone_eq s)).trans rfl
@[simp] theorem tokenDone_src (s : State) : (tokenDone s).src = s.src := (congrArg State.src (tokenDone_eq s)).trans rfl
@[simp] theorem tokenDone_huff (s : State) : (tokenDone s).huff = s.huff := (congrArg State.huff (tokenDone_eq s)).trans rfl
@[simp] theorem tokenDone_rbuf (s : State) : (tokenDone s).rbuf = s.rbuf := (congrArg State.rbuf (tokenDone_eq s)).trans rfl
@[simp] theorem tokenDone_plane (s : State) : (tokenDone s).plane = s.plane := (congrArg State.plane (tokenDone_eq s)).trans rfl
@[simp] theorem tokenDone_curve (s : State) : (tokenDone s).curve = s.curve := (congrArg State.curve (tokenDone_eq s)).trans rfl
@[simp] theorem tokenDone_t8 (s : State) : (tokenDone s).t8 = s.t8 := (congrArg State.t8 (tokenDone_eq s)).trans rfl
@[simp] theorem tokenDone_out (s : State) : (tokenDone s).out = s.out := (congrArg State.out (tokenDone_eq s)).trans rfl
@[simp] theorem tokenDone_cfg (s : State) : (tokenDone s).cfg = s.cfg := (congrArg State.cfg (tokenDone_eq s)).trans rfl
@[simp] theorem tokenDone_freeCtr (s : State) : (tokenDone s).freeCtr = s.freeCtr := (congrArg State.freeCtr (tokenDone_eq s)).trans rfl
@[simp] theorem tokenDone_hostMoves (s : State) : (tokenDone s).hostMoves = s.hostMoves := (congrArg State.hostMoves (tokenDone_eq s)).trans rfl

/-! ## `raise`: STATUS, FAULT_INFO and the position -/

theorem raise_eq (f : RunFault) (s : State) :
    raise f s = { s with pos := (raise f s).pos, status := (raise f s).status, faultInfo := (raise f s).faultInfo, freeCtr := (raise f s).freeCtr } := by
  cases f <;> rfl

@[simp] theorem raise_ptr (f : RunFault) (s : State) : (raise f s).ptr = s.ptr := (congrArg State.ptr (raise_eq f s)).trans rfl
@[simp] theorem raise_cur (f : RunFault) (s : State) : (raise f s).cur = s.cur := (congrArg State.cur (raise_eq f s)).trans rfl
@[simp] theorem raise_rem (f : RunFault) (s : State) : (raise f s).rem = s.rem := (congrArg State.rem (raise_eq f s)).trans rfl
@[simp] theorem raise_tree (f : RunFault) (s : State) : (raise f s).tree = s.tree := (congrArg State.tree (raise_eq f s)).trans rfl
@[simp] theorem raise_col (f : RunFault) (s : State) : (raise f s).col = s.col := (congrArg State.col (raise_eq f s)).trans rfl
@[simp] theorem raise_nreps (f : RunFault) (s : State) : (raise f s).nreps = s.nreps := (congrArg State.nreps (raise_eq f s)).trans rfl
@[simp] theorem raise_rep (f : RunFault) (s : State) : (raise f s).rep = s.rep := (congrArg State.rep (raise_eq f s)).trans rfl
@[simp] theorem raise_step (f : RunFault) (s : State) : (raise f s).step = s.step := (congrArg State.step (raise_eq f s)).trans rfl
@[simp] theorem raise_keep (f : RunFault) (s : State) : (raise f s).keep = s.keep := (congrArg State.keep (raise_eq f s)).trans rfl
@[simp] theorem raise_rg (f : RunFault) (s : State) : (raise f s).rg = s.rg := (congrArg State.rg (raise_eq f s)).trans rfl
@[simp] theorem raise_row (f : RunFault) (s : State) : (raise f s).row = s.row := (congrArg State.row (raise_eq f s)).trans rfl
@[simp] theorem raise_mult (f : RunFault) (s : State) : (raise f s).mult = s.mult := (congrArg State.mult (raise_eq f s)).trans rfl
@[simp] theorem raise_prevM (f : RunFault) (s : State) : (raise f s).prevM = s.prevM := (congrArg State.prevM (raise_eq f s)).trans rfl
@[simp] theorem raise_val (f : RunFault) (s : State) : (raise f s).val = s.val := (congrArg State.val (raise_eq f s)).trans rfl
@[simp] theorem raise_tok (f : RunFault) (s : State) : (raise f s).tok = s.tok := (congrArg State.tok (raise_eq f s)).trans rfl
@[simp] theorem raise_w (f : RunFault) (s : State) : (raise f s).w = s.w := (congrArg State.w (raise_eq f s)).trans rfl
@[simp] theorem raise_h (f : RunFault) (s : State) : (raise f s).h = s.h := (congrArg State.h (raise_eq f s)).trans rfl
@[simp] theorem raise_width (f : RunFault) (s : State) : (raise f s).width = s.width := (congrArg State.width (raise_eq f s)).trans rfl
@[simp] theorem raise_height (f : RunFault) (s : State) : (raise f s).height = s.height := (congrArg State.height (raise_eq f s)).trans rfl
@[simp] theorem raise_srcLen (f : RunFault) (s : State) : (raise f s).srcLen = s.srcLen := (congrArg State.srcLen (raise_eq f s)).trans rfl
@[simp] theorem raise_cfaTile (f : RunFault) (s : State) : (raise f s).cfaTile = s.cfaTile := (congrArg State.cfaTile (raise_eq f s)).trans rfl
@[simp] theorem raise_src (f : RunFault) (s : State) : (raise f s).src = s.src := (congrArg State.src (raise_eq f s)).trans rfl
@[simp] theorem raise_huff (f : RunFault) (s : State) : (raise f s).huff = s.huff := (congrArg State.huff (raise_eq f s)).trans rfl
@[simp] theorem raise_rbuf (f : RunFault) (s : State) : (raise f s).rbuf = s.rbuf := (congrArg State.rbuf (raise_eq f s)).trans rfl
@[simp] theorem raise_plane (f : RunFault) (s : State) : (raise f s).plane = s.plane := (congrArg State.plane (raise_eq f s)).trans rfl
@[simp] theorem raise_curve (f : RunFault) (s : State) : (raise f s).curve = s.curve := (congrArg State.curve (raise_eq f s)).trans rfl
@[simp] theorem raise_t8 (f : RunFault) (s : State) : (raise f s).t8 = s.t8 := (congrArg State.t8 (raise_eq f s)).trans rfl
@[simp] theorem raise_out (f : RunFault) (s : State) : (raise f s).out = s.out := (congrArg State.out (raise_eq f s)).trans rfl
@[simp] theorem raise_cfg (f : RunFault) (s : State) : (raise f s).cfg = s.cfg := (congrArg State.cfg (raise_eq f s)).trans rfl
@[simp] theorem raise_hostMoves (f : RunFault) (s : State) : (raise f s).hostMoves = s.hostMoves := (congrArg State.hostMoves (raise_eq f s)).trans rfl

/-! ## `atPos`: the position only -/

theorem atPos_eq (p : Pos) (s : State) :
    atPos p s = { s with pos := (atPos p s).pos } := rfl

@[simp] theorem atPos_ptr (p : Pos) (s : State) : (atPos p s).ptr = s.ptr := (congrArg State.ptr (atPos_eq p s)).trans rfl
@[simp] theorem atPos_cur (p : Pos) (s : State) : (atPos p s).cur = s.cur := (congrArg State.cur (atPos_eq p s)).trans rfl
@[simp] theorem atPos_rem (p : Pos) (s : State) : (atPos p s).rem = s.rem := (congrArg State.rem (atPos_eq p s)).trans rfl
@[simp] theorem atPos_tree (p : Pos) (s : State) : (atPos p s).tree = s.tree := (congrArg State.tree (atPos_eq p s)).trans rfl
@[simp] theorem atPos_col (p : Pos) (s : State) : (atPos p s).col = s.col := (congrArg State.col (atPos_eq p s)).trans rfl
@[simp] theorem atPos_nreps (p : Pos) (s : State) : (atPos p s).nreps = s.nreps := (congrArg State.nreps (atPos_eq p s)).trans rfl
@[simp] theorem atPos_rep (p : Pos) (s : State) : (atPos p s).rep = s.rep := (congrArg State.rep (atPos_eq p s)).trans rfl
@[simp] theorem atPos_step (p : Pos) (s : State) : (atPos p s).step = s.step := (congrArg State.step (atPos_eq p s)).trans rfl
@[simp] theorem atPos_keep (p : Pos) (s : State) : (atPos p s).keep = s.keep := (congrArg State.keep (atPos_eq p s)).trans rfl
@[simp] theorem atPos_rg (p : Pos) (s : State) : (atPos p s).rg = s.rg := (congrArg State.rg (atPos_eq p s)).trans rfl
@[simp] theorem atPos_row (p : Pos) (s : State) : (atPos p s).row = s.row := (congrArg State.row (atPos_eq p s)).trans rfl
@[simp] theorem atPos_mult (p : Pos) (s : State) : (atPos p s).mult = s.mult := (congrArg State.mult (atPos_eq p s)).trans rfl
@[simp] theorem atPos_prevM (p : Pos) (s : State) : (atPos p s).prevM = s.prevM := (congrArg State.prevM (atPos_eq p s)).trans rfl
@[simp] theorem atPos_val (p : Pos) (s : State) : (atPos p s).val = s.val := (congrArg State.val (atPos_eq p s)).trans rfl
@[simp] theorem atPos_tok (p : Pos) (s : State) : (atPos p s).tok = s.tok := (congrArg State.tok (atPos_eq p s)).trans rfl
@[simp] theorem atPos_w (p : Pos) (s : State) : (atPos p s).w = s.w := (congrArg State.w (atPos_eq p s)).trans rfl
@[simp] theorem atPos_h (p : Pos) (s : State) : (atPos p s).h = s.h := (congrArg State.h (atPos_eq p s)).trans rfl
@[simp] theorem atPos_status (p : Pos) (s : State) : (atPos p s).status = s.status := (congrArg State.status (atPos_eq p s)).trans rfl
@[simp] theorem atPos_faultInfo (p : Pos) (s : State) : (atPos p s).faultInfo = s.faultInfo := (congrArg State.faultInfo (atPos_eq p s)).trans rfl
@[simp] theorem atPos_width (p : Pos) (s : State) : (atPos p s).width = s.width := (congrArg State.width (atPos_eq p s)).trans rfl
@[simp] theorem atPos_height (p : Pos) (s : State) : (atPos p s).height = s.height := (congrArg State.height (atPos_eq p s)).trans rfl
@[simp] theorem atPos_srcLen (p : Pos) (s : State) : (atPos p s).srcLen = s.srcLen := (congrArg State.srcLen (atPos_eq p s)).trans rfl
@[simp] theorem atPos_cfaTile (p : Pos) (s : State) : (atPos p s).cfaTile = s.cfaTile := (congrArg State.cfaTile (atPos_eq p s)).trans rfl
@[simp] theorem atPos_src (p : Pos) (s : State) : (atPos p s).src = s.src := (congrArg State.src (atPos_eq p s)).trans rfl
@[simp] theorem atPos_huff (p : Pos) (s : State) : (atPos p s).huff = s.huff := (congrArg State.huff (atPos_eq p s)).trans rfl
@[simp] theorem atPos_rbuf (p : Pos) (s : State) : (atPos p s).rbuf = s.rbuf := (congrArg State.rbuf (atPos_eq p s)).trans rfl
@[simp] theorem atPos_plane (p : Pos) (s : State) : (atPos p s).plane = s.plane := (congrArg State.plane (atPos_eq p s)).trans rfl
@[simp] theorem atPos_curve (p : Pos) (s : State) : (atPos p s).curve = s.curve := (congrArg State.curve (atPos_eq p s)).trans rfl
@[simp] theorem atPos_t8 (p : Pos) (s : State) : (atPos p s).t8 = s.t8 := (congrArg State.t8 (atPos_eq p s)).trans rfl
@[simp] theorem atPos_out (p : Pos) (s : State) : (atPos p s).out = s.out := (congrArg State.out (atPos_eq p s)).trans rfl
@[simp] theorem atPos_cfg (p : Pos) (s : State) : (atPos p s).cfg = s.cfg := (congrArg State.cfg (atPos_eq p s)).trans rfl
@[simp] theorem atPos_freeCtr (p : Pos) (s : State) : (atPos p s).freeCtr = s.freeCtr := (congrArg State.freeCtr (atPos_eq p s)).trans rfl
@[simp] theorem atPos_hostMoves (p : Pos) (s : State) : (atPos p s).hostMoves = s.hostMoves := (congrArg State.hostMoves (atPos_eq p s)).trans rfl

/-! ## `withRep`: `rep` only -/

theorem withRep_eq (r : BitVec 4) (s : State) :
    withRep r s = { s with rep := (withRep r s).rep } := rfl

@[simp] theorem withRep_ptr (r : BitVec 4) (s : State) : (withRep r s).ptr = s.ptr := (congrArg State.ptr (withRep_eq r s)).trans rfl
@[simp] theorem withRep_cur (r : BitVec 4) (s : State) : (withRep r s).cur = s.cur := (congrArg State.cur (withRep_eq r s)).trans rfl
@[simp] theorem withRep_rem (r : BitVec 4) (s : State) : (withRep r s).rem = s.rem := (congrArg State.rem (withRep_eq r s)).trans rfl
@[simp] theorem withRep_tree (r : BitVec 4) (s : State) : (withRep r s).tree = s.tree := (congrArg State.tree (withRep_eq r s)).trans rfl
@[simp] theorem withRep_col (r : BitVec 4) (s : State) : (withRep r s).col = s.col := (congrArg State.col (withRep_eq r s)).trans rfl
@[simp] theorem withRep_nreps (r : BitVec 4) (s : State) : (withRep r s).nreps = s.nreps := (congrArg State.nreps (withRep_eq r s)).trans rfl
@[simp] theorem withRep_step (r : BitVec 4) (s : State) : (withRep r s).step = s.step := (congrArg State.step (withRep_eq r s)).trans rfl
@[simp] theorem withRep_keep (r : BitVec 4) (s : State) : (withRep r s).keep = s.keep := (congrArg State.keep (withRep_eq r s)).trans rfl
@[simp] theorem withRep_rg (r : BitVec 4) (s : State) : (withRep r s).rg = s.rg := (congrArg State.rg (withRep_eq r s)).trans rfl
@[simp] theorem withRep_row (r : BitVec 4) (s : State) : (withRep r s).row = s.row := (congrArg State.row (withRep_eq r s)).trans rfl
@[simp] theorem withRep_mult (r : BitVec 4) (s : State) : (withRep r s).mult = s.mult := (congrArg State.mult (withRep_eq r s)).trans rfl
@[simp] theorem withRep_prevM (r : BitVec 4) (s : State) : (withRep r s).prevM = s.prevM := (congrArg State.prevM (withRep_eq r s)).trans rfl
@[simp] theorem withRep_val (r : BitVec 4) (s : State) : (withRep r s).val = s.val := (congrArg State.val (withRep_eq r s)).trans rfl
@[simp] theorem withRep_pos (r : BitVec 4) (s : State) : (withRep r s).pos = s.pos := (congrArg State.pos (withRep_eq r s)).trans rfl
@[simp] theorem withRep_tok (r : BitVec 4) (s : State) : (withRep r s).tok = s.tok := (congrArg State.tok (withRep_eq r s)).trans rfl
@[simp] theorem withRep_w (r : BitVec 4) (s : State) : (withRep r s).w = s.w := (congrArg State.w (withRep_eq r s)).trans rfl
@[simp] theorem withRep_h (r : BitVec 4) (s : State) : (withRep r s).h = s.h := (congrArg State.h (withRep_eq r s)).trans rfl
@[simp] theorem withRep_status (r : BitVec 4) (s : State) : (withRep r s).status = s.status := (congrArg State.status (withRep_eq r s)).trans rfl
@[simp] theorem withRep_faultInfo (r : BitVec 4) (s : State) : (withRep r s).faultInfo = s.faultInfo := (congrArg State.faultInfo (withRep_eq r s)).trans rfl
@[simp] theorem withRep_width (r : BitVec 4) (s : State) : (withRep r s).width = s.width := (congrArg State.width (withRep_eq r s)).trans rfl
@[simp] theorem withRep_height (r : BitVec 4) (s : State) : (withRep r s).height = s.height := (congrArg State.height (withRep_eq r s)).trans rfl
@[simp] theorem withRep_srcLen (r : BitVec 4) (s : State) : (withRep r s).srcLen = s.srcLen := (congrArg State.srcLen (withRep_eq r s)).trans rfl
@[simp] theorem withRep_cfaTile (r : BitVec 4) (s : State) : (withRep r s).cfaTile = s.cfaTile := (congrArg State.cfaTile (withRep_eq r s)).trans rfl
@[simp] theorem withRep_src (r : BitVec 4) (s : State) : (withRep r s).src = s.src := (congrArg State.src (withRep_eq r s)).trans rfl
@[simp] theorem withRep_huff (r : BitVec 4) (s : State) : (withRep r s).huff = s.huff := (congrArg State.huff (withRep_eq r s)).trans rfl
@[simp] theorem withRep_rbuf (r : BitVec 4) (s : State) : (withRep r s).rbuf = s.rbuf := (congrArg State.rbuf (withRep_eq r s)).trans rfl
@[simp] theorem withRep_plane (r : BitVec 4) (s : State) : (withRep r s).plane = s.plane := (congrArg State.plane (withRep_eq r s)).trans rfl
@[simp] theorem withRep_curve (r : BitVec 4) (s : State) : (withRep r s).curve = s.curve := (congrArg State.curve (withRep_eq r s)).trans rfl
@[simp] theorem withRep_t8 (r : BitVec 4) (s : State) : (withRep r s).t8 = s.t8 := (congrArg State.t8 (withRep_eq r s)).trans rfl
@[simp] theorem withRep_out (r : BitVec 4) (s : State) : (withRep r s).out = s.out := (congrArg State.out (withRep_eq r s)).trans rfl
@[simp] theorem withRep_cfg (r : BitVec 4) (s : State) : (withRep r s).cfg = s.cfg := (congrArg State.cfg (withRep_eq r s)).trans rfl
@[simp] theorem withRep_freeCtr (r : BitVec 4) (s : State) : (withRep r s).freeCtr = s.freeCtr := (congrArg State.freeCtr (withRep_eq r s)).trans rfl
@[simp] theorem withRep_hostMoves (r : BitVec 4) (s : State) : (withRep r s).hostMoves = s.hostMoves := (congrArg State.hostMoves (withRep_eq r s)).trans rfl

/-! ## `startChunk`: `nreps` and `rep` -/

theorem startChunk_eq (n : BitVec 4) (s : State) :
    startChunk n s = { s with nreps := (startChunk n s).nreps, rep := (startChunk n s).rep } := rfl

@[simp] theorem startChunk_ptr (n : BitVec 4) (s : State) : (startChunk n s).ptr = s.ptr := (congrArg State.ptr (startChunk_eq n s)).trans rfl
@[simp] theorem startChunk_cur (n : BitVec 4) (s : State) : (startChunk n s).cur = s.cur := (congrArg State.cur (startChunk_eq n s)).trans rfl
@[simp] theorem startChunk_rem (n : BitVec 4) (s : State) : (startChunk n s).rem = s.rem := (congrArg State.rem (startChunk_eq n s)).trans rfl
@[simp] theorem startChunk_tree (n : BitVec 4) (s : State) : (startChunk n s).tree = s.tree := (congrArg State.tree (startChunk_eq n s)).trans rfl
@[simp] theorem startChunk_col (n : BitVec 4) (s : State) : (startChunk n s).col = s.col := (congrArg State.col (startChunk_eq n s)).trans rfl
@[simp] theorem startChunk_step (n : BitVec 4) (s : State) : (startChunk n s).step = s.step := (congrArg State.step (startChunk_eq n s)).trans rfl
@[simp] theorem startChunk_keep (n : BitVec 4) (s : State) : (startChunk n s).keep = s.keep := (congrArg State.keep (startChunk_eq n s)).trans rfl
@[simp] theorem startChunk_rg (n : BitVec 4) (s : State) : (startChunk n s).rg = s.rg := (congrArg State.rg (startChunk_eq n s)).trans rfl
@[simp] theorem startChunk_row (n : BitVec 4) (s : State) : (startChunk n s).row = s.row := (congrArg State.row (startChunk_eq n s)).trans rfl
@[simp] theorem startChunk_mult (n : BitVec 4) (s : State) : (startChunk n s).mult = s.mult := (congrArg State.mult (startChunk_eq n s)).trans rfl
@[simp] theorem startChunk_prevM (n : BitVec 4) (s : State) : (startChunk n s).prevM = s.prevM := (congrArg State.prevM (startChunk_eq n s)).trans rfl
@[simp] theorem startChunk_val (n : BitVec 4) (s : State) : (startChunk n s).val = s.val := (congrArg State.val (startChunk_eq n s)).trans rfl
@[simp] theorem startChunk_pos (n : BitVec 4) (s : State) : (startChunk n s).pos = s.pos := (congrArg State.pos (startChunk_eq n s)).trans rfl
@[simp] theorem startChunk_tok (n : BitVec 4) (s : State) : (startChunk n s).tok = s.tok := (congrArg State.tok (startChunk_eq n s)).trans rfl
@[simp] theorem startChunk_w (n : BitVec 4) (s : State) : (startChunk n s).w = s.w := (congrArg State.w (startChunk_eq n s)).trans rfl
@[simp] theorem startChunk_h (n : BitVec 4) (s : State) : (startChunk n s).h = s.h := (congrArg State.h (startChunk_eq n s)).trans rfl
@[simp] theorem startChunk_status (n : BitVec 4) (s : State) : (startChunk n s).status = s.status := (congrArg State.status (startChunk_eq n s)).trans rfl
@[simp] theorem startChunk_faultInfo (n : BitVec 4) (s : State) : (startChunk n s).faultInfo = s.faultInfo := (congrArg State.faultInfo (startChunk_eq n s)).trans rfl
@[simp] theorem startChunk_width (n : BitVec 4) (s : State) : (startChunk n s).width = s.width := (congrArg State.width (startChunk_eq n s)).trans rfl
@[simp] theorem startChunk_height (n : BitVec 4) (s : State) : (startChunk n s).height = s.height := (congrArg State.height (startChunk_eq n s)).trans rfl
@[simp] theorem startChunk_srcLen (n : BitVec 4) (s : State) : (startChunk n s).srcLen = s.srcLen := (congrArg State.srcLen (startChunk_eq n s)).trans rfl
@[simp] theorem startChunk_cfaTile (n : BitVec 4) (s : State) : (startChunk n s).cfaTile = s.cfaTile := (congrArg State.cfaTile (startChunk_eq n s)).trans rfl
@[simp] theorem startChunk_src (n : BitVec 4) (s : State) : (startChunk n s).src = s.src := (congrArg State.src (startChunk_eq n s)).trans rfl
@[simp] theorem startChunk_huff (n : BitVec 4) (s : State) : (startChunk n s).huff = s.huff := (congrArg State.huff (startChunk_eq n s)).trans rfl
@[simp] theorem startChunk_rbuf (n : BitVec 4) (s : State) : (startChunk n s).rbuf = s.rbuf := (congrArg State.rbuf (startChunk_eq n s)).trans rfl
@[simp] theorem startChunk_plane (n : BitVec 4) (s : State) : (startChunk n s).plane = s.plane := (congrArg State.plane (startChunk_eq n s)).trans rfl
@[simp] theorem startChunk_curve (n : BitVec 4) (s : State) : (startChunk n s).curve = s.curve := (congrArg State.curve (startChunk_eq n s)).trans rfl
@[simp] theorem startChunk_t8 (n : BitVec 4) (s : State) : (startChunk n s).t8 = s.t8 := (congrArg State.t8 (startChunk_eq n s)).trans rfl
@[simp] theorem startChunk_out (n : BitVec 4) (s : State) : (startChunk n s).out = s.out := (congrArg State.out (startChunk_eq n s)).trans rfl
@[simp] theorem startChunk_cfg (n : BitVec 4) (s : State) : (startChunk n s).cfg = s.cfg := (congrArg State.cfg (startChunk_eq n s)).trans rfl
@[simp] theorem startChunk_freeCtr (n : BitVec 4) (s : State) : (startChunk n s).freeCtr = s.freeCtr := (congrArg State.freeCtr (startChunk_eq n s)).trans rfl
@[simp] theorem startChunk_hostMoves (n : BitVec 4) (s : State) : (startChunk n s).hostMoves = s.hostMoves := (congrArg State.hostMoves (startChunk_eq n s)).trans rfl

@[simp] theorem atPos_pos (p : Pos) (s : State) : (atPos p s).pos = p := rfl
@[simp] theorem withRep_rep (r : BitVec 4) (s : State) : (withRep r s).rep = r := rfl
@[simp] theorem startChunk_nreps (n : BitVec 4) (s : State) : (startChunk n s).nreps = n := rfl
@[simp] theorem startChunk_rep (n : BitVec 4) (s : State) : (startChunk n s).rep = 0 := rfl
@[simp] theorem raise_status (f : RunFault) (s : State) : (raise f s).status = statusFault f := by cases f <;> rfl
@[simp] theorem raise_pos (f : RunFault) (s : State) : (raise f s).pos = .halted := by cases f <;> rfl
@[simp] theorem oneRepeat_col (s : State) : (oneRepeat s).col = s.col - 2 := by
  unfold oneRepeat; dsimp only; split <;> simp
@[simp] theorem stepAdded_step (v : Int) (s : State) : (stepAdded v s).step = BitVec.ofInt 12 (v * 16) := by
  unfold stepAdded; dsimp only; split <;> simp

end Sys2Proof.Machine
end

