-- ==== Sys2Proof/Laws/Store.lean ====
section
/-! SUPPORT. The laws of a memory space: read after write, and the canonical form every operation keeps. -/

namespace Sys2Proof.Machine

variable {α : Type}

theorem storeGet_storeSet (m : Store α) (a b : Nat) (v : α) :
    storeGet (storeSet m a v) b = if b = a then some v else storeGet m b := by
  induction m with
  | nil => simp [storeSet, storeGet]
  | cons p m ih =>
    obtain ⟨c, u⟩ := p
    simp only [storeSet]
    split
    · simp [storeGet]
    · split
      · subst_vars; simp only [storeGet]; split <;> rfl
      · simp only [storeGet, ih]
        split <;> split <;> simp_all

theorem storeGet_storeErase_other (m : Store α) (a b : Nat) (h : b ≠ a) :
    storeGet (storeErase m a) b = storeGet m b := by
  induction m with
  | nil => rfl
  | cons p m ih =>
    obtain ⟨c, u⟩ := p
    simp only [storeErase]
    split
    · rfl
    · split
      · subst_vars; simp [storeGet, h]
      · simp [storeGet, ih]

theorem storeGet_none_of_lt (m : Store α) (a : Nat) (h : ∀ p ∈ m, a < p.1) : storeGet m a = none := by
  induction m with
  | nil => rfl
  | cons p m ih =>
    have hp := h p (by simp)
    simp only [storeGet, if_neg (by omega : ¬ a = p.1)]
    exact ih fun q hq => h q (by simp [hq])

theorem storeGet_storeErase_same (m : Store α) (a : Nat) (h : storeSorted m) :
    storeGet (storeErase m a) a = none := by
  induction m with
  | nil => rfl
  | cons p m ih =>
    obtain ⟨c, u⟩ := p
    have hs := List.pairwise_cons.1 h
    simp only [storeErase]
    split
    · exact storeGet_none_of_lt _ _ fun q hq => by
        rcases List.mem_cons.1 hq with rfl | hq
        · assumption
        · have := hs.1 q hq
          simp only at this
          omega
    · split
      · subst_vars
        exact storeGet_none_of_lt _ _ hs.1
      · simp only [storeGet]
        rw [if_neg (by assumption)]
        exact ih hs.2

theorem mem_storeSet {m : Store α} {a : Nat} {v : α} {p : Nat × α} (h : p ∈ storeSet m a v) :
    p = (a, v) ∨ p ∈ m := by
  induction m with
  | nil => simpa [storeSet] using h
  | cons q m ih =>
    obtain ⟨c, u⟩ := q
    simp only [storeSet] at h
    split at h
    · simpa using h
    · split at h
      · rcases List.mem_cons.1 h with h | h
        · exact .inl h
        · exact .inr (by simp [h])
      · rcases List.mem_cons.1 h with h | h
        · exact .inr (by simp [h])
        · exact (ih h).imp id fun h => by simp [h]

theorem mem_storeErase {m : Store α} {a : Nat} {p : Nat × α} (h : p ∈ storeErase m a) : p ∈ m := by
  induction m with
  | nil => simp [storeErase] at h
  | cons q m ih =>
    obtain ⟨c, u⟩ := q
    simp only [storeErase] at h
    split at h
    · exact h
    · split at h
      · simp [h]
      · rcases List.mem_cons.1 h with h | h
        · simp [h]
        · simp [ih h]

theorem storeSorted_storeSet {m : Store α} (a : Nat) (v : α) (h : storeSorted m) : storeSorted (storeSet m a v) := by
  induction m with
  | nil => simp [storeSet]
  | cons q m ih =>
    obtain ⟨c, u⟩ := q
    have hs := List.pairwise_cons.1 h
    simp only [storeSet]
    split
    · refine List.pairwise_cons.2 ⟨fun p hp => ?_, h⟩
      rcases List.mem_cons.1 hp with rfl | hp
      · assumption
      · have := hs.1 p hp
        simp only at this ⊢
        omega
    · split
      · subst_vars
        exact List.pairwise_cons.2 ⟨hs.1, hs.2⟩
      · refine List.pairwise_cons.2 ⟨fun p hp => ?_, ih hs.2⟩
        rcases mem_storeSet hp with rfl | hp
        · simp only; omega
        · exact hs.1 p hp

theorem storeSorted_storeErase {m : Store α} (a : Nat) (h : storeSorted m) : storeSorted (storeErase m a) := by
  induction m with
  | nil => simp [storeErase]
  | cons q m ih =>
    obtain ⟨c, u⟩ := q
    have hs := List.pairwise_cons.1 h
    simp only [storeErase]
    split
    · exact h
    · split
      · exact hs.2
      · exact List.pairwise_cons.2 ⟨fun p hp => hs.1 p (mem_storeErase hp), ih hs.2⟩

variable [DecidableEq α]

/-- Reading the address just written gives the value written. -/
theorem storeRead_storeWrite_same (d : α) (m : Store α) (a : Nat) (v : α) (h : storeSorted m) :
    storeRead d (storeWrite d m a v) a = v := by
  unfold storeRead storeWrite
  split
  · rw [storeGet_storeErase_same m a h]; simp [*]
  · simp [storeGet_storeSet]

/-- A write leaves every other address as it was. -/
theorem storeRead_storeWrite_other (d : α) (m : Store α) (a b : Nat) (v : α) (h : b ≠ a) :
    storeRead d (storeWrite d m a v) b = storeRead d m b := by
  unfold storeRead storeWrite
  split
  · rw [storeGet_storeErase_other m a b h]
  · simp [storeGet_storeSet, h]

theorem storeSorted_storeWrite {m : Store α} (d : α) (a : Nat) (v : α) (h : storeSorted m) :
    storeSorted (storeWrite d m a v) := by
  unfold storeWrite
  split
  · exact storeSorted_storeErase a h
  · exact storeSorted_storeSet a v h

theorem storeSorted_storeWriteAll {m : Store α} (d : α) (ws : List (Nat × α)) (h : storeSorted m) :
    storeSorted (storeWriteAll d m ws) := by
  induction ws generalizing m with
  | nil => exact h
  | cons w ws ih => exact ih (storeSorted_storeWrite d w.1 w.2 h)

/-- A write keeps the canonical form of a space whose unlisted addresses all read as `d`. -/
theorem storeWf_storeWrite {m : Store α} (d : α) (a : Nat) (v : α) (h : storeWf (fun _ => d) m) :
    storeWf (fun _ => d) (storeWrite d m a v) := by
  refine ⟨storeSorted_storeWrite d a v h.1, fun p hp => ?_⟩
  unfold storeWrite at hp
  split at hp
  · exact h.2 p (mem_storeErase hp)
  · rcases mem_storeSet hp with rfl | hp
    · assumption
    · exact h.2 p hp

theorem storeWf_storeWriteAll {m : Store α} (d : α) (ws : List (Nat × α)) (h : storeWf (fun _ => d) m) :
    storeWf (fun _ => d) (storeWriteAll d m ws) := by
  induction ws generalizing m with
  | nil => exact h
  | cons w ws ih => exact ih (storeWf_storeWrite d w.1 w.2 h)

/-- Writes to other addresses leave an address as it was. -/
theorem storeRead_storeWriteAll_other (d : α) (m : Store α) (ws : List (Nat × α)) (a : Nat)
    (h : ∀ p ∈ ws, p.1 ≠ a) : storeRead d (storeWriteAll d m ws) a = storeRead d m a := by
  induction ws generalizing m with
  | nil => rfl
  | cons w ws ih =>
    have hw := h w (by simp)
    exact (ih _ fun p hp => h p (by simp [hp])).trans
      (storeRead_storeWrite_other d m w.1 a w.2 (Ne.symm hw))

/-- After a list of writes to distinct addresses, each of them holds its value. -/
theorem storeRead_storeWriteAll_mem (d : α) (m : Store α) (ws : List (Nat × α)) (a : Nat) (v : α)
    (hs : storeSorted m) (hd : (ws.map (·.1)).Nodup) (h : (a, v) ∈ ws) :
    storeRead d (storeWriteAll d m ws) a = v := by
  induction ws generalizing m with
  | nil => simp at h
  | cons w ws ih =>
    have hn := List.nodup_cons.1 (by simpa using hd : (w.1 :: ws.map (·.1)).Nodup)
    rcases List.mem_cons.1 h with rfl | h
    · refine (storeRead_storeWriteAll_other d _ ws a fun p hp e => hn.1 ?_).trans
        (storeRead_storeWrite_same d m a v hs)
      exact List.mem_map.2 ⟨p, hp, e⟩
    · exact ih _ (storeSorted_storeWrite d w.1 w.2 hs) hn.2 h

omit [DecidableEq α] in
theorem storeGet_eq_some_of_mem {m : Store α} {a : Nat} {v : α} (hs : storeSorted m) (h : (a, v) ∈ m) :
    storeGet m a = some v := by
  induction m with
  | nil => simp at h
  | cons q m ih =>
    obtain ⟨c, u⟩ := q
    have hq := List.pairwise_cons.1 hs
    rcases List.mem_cons.1 h with h | h
    · cases h; simp [storeGet]
    · have := hq.1 _ h
      simp only at this
      simp only [storeGet, if_neg (by omega : ¬ a = c)]
      exact ih hq.2 h

omit [DecidableEq α] in
theorem mem_of_storeGet_eq_some {m : Store α} {a : Nat} {v : α} (h : storeGet m a = some v) : (a, v) ∈ m := by
  induction m with
  | nil => simp [storeGet] at h
  | cons q m ih =>
    obtain ⟨c, u⟩ := q
    simp only [storeGet] at h
    split at h
    · cases h; subst_vars; simp
    · simp [ih h]

theorem storeWf_storeFill (d : α) (n : Nat) (f : Nat → α) : storeWf (fun _ => d) (storeFill d n f) := by
  unfold storeFill
  refine ⟨?_, fun p hp => ?_⟩
  · refine List.Pairwise.filterMap _ ?_ (List.pairwise_lt_range (n := n))
    intro a b hab p hp q hq
    split at hp <;> split at hq <;> simp_all
    subst hp hq
    exact hab
  · obtain ⟨a, _, ha⟩ := List.mem_filterMap.1 hp
    split at ha
    · cases ha
    · cases ha; assumption

/-- What a filled space reads as. -/
theorem storeRead_storeFill (d : α) (n : Nat) (f : Nat → α) (a : Nat) :
    storeRead d (storeFill d n f) a = if a < n then f a else d := by
  have hw := storeWf_storeFill d n f
  unfold storeRead
  cases hg : storeGet (storeFill d n f) a with
  | some v =>
    have hm := mem_of_storeGet_eq_some hg
    obtain ⟨b, hb, he⟩ := List.mem_filterMap.1 hm
    split at he
    · cases he
    · cases he
      simp [List.mem_range.1 hb]
  | none =>
    simp only [Option.getD_none]
    split
    · rename_i hlt
      by_contra hne
      have : (a, f a) ∈ storeFill d n f :=
        List.mem_filterMap.2 ⟨a, List.mem_range.2 hlt, by simp [Ne.symm hne]⟩
      rw [storeGet_eq_some_of_mem hw.1 this] at hg
      cases hg
    · rfl

/-! ## What a write can list -/

/-- What a space lists after writes, it listed before or one of the writes wrote. -/
theorem mem_storeWrite {d : α} {m : Store α} {a : Nat} {v : α} {p : Nat × α} (h : p ∈ storeWrite d m a v) :
    p ∈ m ∨ p.1 = a := by
  unfold storeWrite at h
  split at h
  · exact .inl (mem_storeErase h)
  · exact (mem_storeSet h).symm.imp id fun h => congrArg Prod.fst h

theorem mem_storeWriteAll {d : α} (ws : List (Nat × α)) : ∀ {m : Store α} {p : Nat × α},
    p ∈ storeWriteAll d m ws → p ∈ m ∨ ∃ q ∈ ws, p.1 = q.1 := by
  induction ws with
  | nil => intro m p h; exact .inl h
  | cons q rest ih =>
    intro m p h
    rcases ih (m := storeWrite d m q.1 q.2) h with h | ⟨r, hr, he⟩
    · exact (mem_storeWrite h).imp id fun h => ⟨q, List.mem_cons_self, h⟩
    · exact .inr ⟨r, List.mem_cons_of_mem _ hr, he⟩

end Sys2Proof.Machine
end

