-- ==== Sys2Proof/Laws/Cells.lean ====
section
/-! SUPPORT. RBUF and PLANE: reading after writing, and what the operations on a group's cells do
(43_rowpredictor.md R172 to R179). -/

namespace Sys2Proof.Machine

/-! ## One cell -/

/-- Different cells have different addresses. -/
theorem cellAddr_inj {r i r' i' : Nat} (h : i < 65536) (h' : i' < 65536) :
    cellAddr r i = cellAddr r' i' ↔ r = r' ∧ i = i' := by
  unfold cellAddr
  omega

/-- A cell as read is the cell as computed with. -/
theorem cell_eq (s : State) (r i : Nat) : cell s r i = (readCell s r i).toInt := rfl

/-- What a write to a cell leaves at every address. -/
theorem storeRead_writeCell (s : State) (r i : Nat) (v : Int) (a : Nat) (h : storeSorted s.rbuf) :
    storeRead s.cfg.bufInit (writeCell s r i v).rbuf a =
      if a = cellAddr r i then wrap16 v else storeRead s.cfg.bufInit s.rbuf a := by
  split
  · subst_vars
    exact storeRead_storeWrite_same _ _ _ _ h
  · exact storeRead_storeWrite_other _ _ _ _ _ (by assumption)

theorem storeRead_writeCell_other {s : State} {r i : Nat} {v : Int} {a : Nat} {d : Half} (hd : d = s.cfg.bufInit)
    (h : a ≠ cellAddr r i) : storeRead d (writeCell s r i v).rbuf a = storeRead d s.rbuf a := by
  subst hd
  exact storeRead_storeWrite_other _ _ _ _ _ h

theorem readCell_writeCell {s : State} {r i r' i' : Nat} {v : Int} (h : storeSorted s.rbuf) (hi : i < 65536)
    (hi' : i' < 65536) :
    readCell (writeCell s r i v) r' i' = if r' = r ∧ i' = i then wrap16 v else readCell s r' i' := by
  refine (storeRead_writeCell s r i v (cellAddr r' i') h).trans ?_
  simp only [cellAddr_inj hi' hi]
  rfl

theorem storeSorted_writeCell {s : State} (r i : Nat) (v : Int) (h : storeSorted s.rbuf) :
    storeSorted (writeCell s r i v).rbuf :=
  storeSorted_storeWrite _ _ _ h

theorem storeSorted_writeCells {s : State} (ws : List ((Nat × Nat) × Int)) (h : storeSorted s.rbuf) :
    storeSorted (writeCells s ws).rbuf :=
  storeSorted_storeWriteAll _ _ h

/-! ## Many cells at once -/

/-- What writes to distinct cells leave: each its value, every other address what it held. -/
theorem readCell_writeCells_mem {s : State} {ws : List ((Nat × Nat) × Int)} (h : storeSorted s.rbuf)
    (hd : (ws.map (·.1)).Nodup) (hb : ∀ p ∈ ws, p.1.2 < 65536) {r i : Nat} {v : Int} (hm : ((r, i), v) ∈ ws) :
    readCell (writeCells s ws) r i = wrap16 v := by
  refine storeRead_storeWriteAll_mem _ _ _ _ _ h ?_ (List.mem_map.2 ⟨((r, i), v), hm, rfl⟩)
  rw [List.map_map]
  have : (fun p : Nat × Half => p.1) ∘ (fun p : (Nat × Nat) × Int => (cellAddr p.1.1 p.1.2, wrap16 p.2)) =
      (fun q : Nat × Nat => cellAddr q.1 q.2) ∘ (·.1) := rfl
  rw [this, ← List.map_map]
  refine hd.map_on ?_
  intro p hp q hq hpq
  obtain ⟨p', hp', rfl⟩ := List.mem_map.1 hp
  obtain ⟨q', hq', rfl⟩ := List.mem_map.1 hq
  obtain ⟨h1, h2⟩ := (cellAddr_inj (hb p' hp') (hb q' hq')).1 hpq
  exact Prod.ext h1 h2

theorem storeRead_writeCells_other {s : State} {ws : List ((Nat × Nat) × Int)} {a : Nat}
    (h : ∀ p ∈ ws, a ≠ cellAddr p.1.1 p.1.2) :
    storeRead s.cfg.bufInit (writeCells s ws).rbuf a = storeRead s.cfg.bufInit s.rbuf a := by
  refine storeRead_storeWriteAll_other _ _ _ _ ?_
  intro p hp
  obtain ⟨q, hq, rfl⟩ := List.mem_map.1 hp
  exact (h q hq).symm

theorem storeSorted_writePlane {s : State} (ws : List ((Nat × Nat) × Int)) (h : storeSorted s.plane) :
    storeSorted (writePlane s ws).plane :=
  storeSorted_storeWriteAll _ _ h

/-- Plane positions inside a row have different addresses. -/
theorem pixelAddr_inj {s : State} {y x y' x' : Nat} (h : x < s.w.toNat) (h' : x' < s.w.toNat) :
    pixelAddr s y x = pixelAddr s y' x' ↔ y = y' ∧ x = x' := by
  unfold pixelAddr
  constructor
  · intro e
    have hw : 0 < s.w.toNat := by omega
    have h1 : (y * s.w.toNat + x) / s.w.toNat = y := by
      rw [Nat.mul_comm, Nat.mul_add_div hw, Nat.div_eq_of_lt h, Nat.add_zero]
    have h2 : (y' * s.w.toNat + x') / s.w.toNat = y' := by
      rw [Nat.mul_comm, Nat.mul_add_div hw, Nat.div_eq_of_lt h', Nat.add_zero]
    rw [e, h2] at h1
    subst h1
    exact ⟨rfl, by omega⟩
  · rintro ⟨rfl, rfl⟩
    rfl

theorem pixelAddr_lt {s : State} {y x : Nat} (hy : y < s.h.toNat) (hx : x < s.w.toNat) :
    pixelAddr s y x < s.h.toNat * s.w.toNat := by
  unfold pixelAddr
  calc y * s.w.toNat + x < y * s.w.toNat + s.w.toNat := by omega
    _ = (y + 1) * s.w.toNat := by ring
    _ ≤ s.h.toNat * s.w.toNat := Nat.mul_le_mul_right _ hy

theorem readPlane_writePlane_mem {s : State} {ws : List ((Nat × Nat) × Int)} (h : storeSorted s.plane)
    (hd : (ws.map (·.1)).Nodup) (hb : ∀ p ∈ ws, p.1.2 < s.w.toNat) {y x : Nat} {v : Int} (hm : ((y, x), v) ∈ ws) :
    readPlane (writePlane s ws) y x = trunc16 v := by
  refine storeRead_storeWriteAll_mem _ _ _ _ _ h ?_ (List.mem_map.2 ⟨((y, x), v), hm, rfl⟩)
  rw [List.map_map]
  have : (fun p : Nat × Half => p.1) ∘ (fun p : (Nat × Nat) × Int => (pixelAddr s p.1.1 p.1.2, trunc16 p.2)) =
      (fun q : Nat × Nat => pixelAddr s q.1 q.2) ∘ (·.1) := rfl
  rw [this, ← List.map_map]
  refine hd.map_on ?_
  intro p hp q hq hpq
  obtain ⟨p', hp', rfl⟩ := List.mem_map.1 hp
  obtain ⟨q', hq', rfl⟩ := List.mem_map.1 hq
  obtain ⟨h1, h2⟩ := (pixelAddr_inj (hb p' hp') (hb q' hq')).1 hpq
  exact Prod.ext h1 h2

theorem storeRead_writePlane_other {s : State} {ws : List ((Nat × Nat) × Int)} {a : Nat}
    (h : ∀ p ∈ ws, a ≠ pixelAddr s p.1.1 p.1.2) :
    storeRead s.cfg.planeInit (writePlane s ws).plane a = storeRead s.cfg.planeInit s.plane a := by
  refine storeRead_storeWriteAll_other _ _ _ _ ?_
  intro p hp
  obtain ⟨q, hq, rfl⟩ := List.mem_map.1 hp
  exact (h q hq).symm

/-! ## Canonical form -/

/-- RBUF stays in canonical form under a cell write. -/
theorem storeWf_writeCell {s : State} (r i : Nat) (v : Int) (h : storeWf (fun _ => s.cfg.bufInit) s.rbuf) :
    storeWf (fun _ => s.cfg.bufInit) (writeCell s r i v).rbuf :=
  storeWf_storeWrite _ _ _ h

theorem storeWf_writeCells {s : State} (ws : List ((Nat × Nat) × Int)) (h : storeWf (fun _ => s.cfg.bufInit) s.rbuf) :
    storeWf (fun _ => s.cfg.bufInit) (writeCells s ws).rbuf :=
  storeWf_storeWriteAll _ _ h

theorem storeWf_writePlane {s : State} (ws : List ((Nat × Nat) × Int))
    (h : storeWf (fun _ => s.cfg.planeInit) s.plane) :
    storeWf (fun _ => s.cfg.planeInit) (writePlane s ws).plane :=
  storeWf_storeWriteAll _ _ h

/-- The canonical form of the whole machine depends only on its spaces and its parameters. -/
theorem Memory.wf_congr {s t : State} (h : Memory.wf s) (h1 : t.src = s.src) (h2 : t.huff = s.huff)
    (h3 : t.curve = s.curve) (h4 : t.cfg = s.cfg) (h5 : storeWf (fun _ => s.cfg.bufInit) t.rbuf)
    (h6 : storeWf (fun _ => s.cfg.planeInit) t.plane) (h7 : storeWf (fun _ => (0 : Byte)) t.t8)
    (h8 : storeWf (fun _ => (0 : Byte)) t.out) : Memory.wf t := by
  obtain ⟨w1, w2, w3, -, -, w6, -, -⟩ := h
  refine ⟨by rw [h1]; exact w1, by rw [h2]; exact w2, by rw [h2, h4]; exact w3, by rw [h4]; exact h5,
    by rw [h4]; exact h6, by rw [h3, h4]; exact w6, h7, h8⟩

/-- The memory of `State.reset` is in canonical form. -/
theorem Memory.wf_reset : Memory.wf State.reset := by
  unfold Memory.wf storeWf storeSorted State.reset
  simp

/-! ## A property of RBUF that every cell write keeps -/

/-- The cells an operation may write: what holds after every write to one of them holds after the operation. -/
theorem predictCells_keeps {Q : State → Prop} (hw : ∀ (u : State) (k : BitVec 2) (v : Int), Q u →
    Q (writeGroupCell u k v)) {s : State} (h : Q s) : Q (predictCells s) := by
  unfold predictCells predictCell
  exact hw _ _ _ (hw _ _ _ (hw _ _ _ (hw _ _ _ h)))

theorem addStepCells_keeps {Q : State → Prop} (hw : ∀ (u : State) (k : BitVec 2) (v : Int), Q u →
    Q (writeGroupCell u k v)) {s : State} (h : Q s) : Q (addStepCells s) := by
  unfold addStepCells addStepCell
  exact hw _ _ _ (hw _ _ _ (hw _ _ _ (hw _ _ _ h)))

/-- The canonical form of RBUF, as a property of the state. -/
abbrev rbufWf (s : State) : Prop :=
  storeWf (fun _ => s.cfg.bufInit) s.rbuf

theorem rbufWf_writeGroupCell (s : State) (k : BitVec 2) (v : Int) (h : rbufWf s) : rbufWf (writeGroupCell s k v) :=
  storeWf_writeCell _ _ _ h

theorem rbufWf_predictCells {s : State} (h : rbufWf s) : rbufWf (predictCells s) :=
  predictCells_keeps rbufWf_writeGroupCell h

theorem rbufWf_addStepCells {s : State} (h : rbufWf s) : rbufWf (addStepCells s) :=
  addStepCells_keeps rbufWf_writeGroupCell h

theorem rbufWf_oneRepeat {s : State} (h : rbufWf s) : rbufWf (oneRepeat s) := by
  unfold oneRepeat
  dsimp only
  split
  · exact rbufWf_predictCells (s := { s with col := s.col - 2 }) h
  · exact h

theorem rbufWf_stepAdded (v : Int) {s : State} (h : rbufWf s) : rbufWf (stepAdded v s) := by
  unfold stepAdded
  dsimp only
  split
  · exact rbufWf_addStepCells (s := { s with step := BitVec.ofInt 12 (v * 16) }) h
  · exact h

/-! ## The four cells of a group -/

/-- The four cells of a group: their rows and indices (43_rowpredictor.md R172). -/
theorem group_cells (col : BitVec 16) :
    (cellRow 0 = 1 ∧ cellIndex col 0 = col.toNat + 1) ∧ (cellRow 1 = 1 ∧ cellIndex col 1 = col.toNat) ∧
    (cellRow 2 = 2 ∧ cellIndex col 2 = col.toNat + 1) ∧ (cellRow 3 = 2 ∧ cellIndex col 3 = col.toNat) :=
  ⟨⟨rfl, rfl⟩, ⟨rfl, rfl⟩, ⟨rfl, rfl⟩, ⟨rfl, rfl⟩⟩

/-- Every cell of a group is in row 1 or 2, at `col` or `col + 1`. -/
theorem group_cell_range (col : BitVec 16) (k : BitVec 2) :
    (cellRow k = 1 ∨ cellRow k = 2) ∧ (cellIndex col k = col.toNat ∨ cellIndex col k = col.toNat + 1) := by
  unfold cellRow cellIndex
  constructor <;> split <;> simp

theorem halfWidth_lt (s : State) : halfWidth s < 32768 := by
  have := s.w.isLt
  unfold halfWidth
  omega

/-- Four writes to the cells of a group, one after the other. -/
theorem readCell_four {s : State} {c : Nat} {v0 v1 v2 v3 : Int} (hc : c + 1 < 65536) (h : storeSorted s.rbuf) :
    let t := writeCell (writeCell (writeCell (writeCell s 1 (c + 1) v0) 1 c v1) 2 (c + 1) v2) 2 c v3
    readCell t 1 (c + 1) = wrap16 v0 ∧ readCell t 1 c = wrap16 v1 ∧ readCell t 2 (c + 1) = wrap16 v2 ∧
      readCell t 2 c = wrap16 v3 ∧
      ∀ a, a ≠ cellAddr 1 (c + 1) → a ≠ cellAddr 1 c → a ≠ cellAddr 2 (c + 1) → a ≠ cellAddr 2 c →
        storeRead s.cfg.bufInit t.rbuf a = storeRead s.cfg.bufInit s.rbuf a := by
  have h0 := storeSorted_writeCell 1 (c + 1) v0 h
  have h1 := storeSorted_writeCell 1 c v1 h0
  have h2 := storeSorted_writeCell 2 (c + 1) v2 h1
  have hc' : c < 65536 := by omega
  refine ⟨?_, ?_, ?_, ?_, fun a n0 n1 n2 n3 => ?_⟩
  · rw [readCell_writeCell h2 hc' hc, if_neg (by omega), readCell_writeCell h1 hc hc, if_neg (by omega),
      readCell_writeCell h0 hc' hc, if_neg (by omega), readCell_writeCell h hc hc, if_pos ⟨rfl, rfl⟩]
  · rw [readCell_writeCell h2 hc' hc', if_neg (by omega), readCell_writeCell h1 hc hc', if_neg (by omega),
      readCell_writeCell h0 hc' hc', if_pos ⟨rfl, rfl⟩]
  · rw [readCell_writeCell h2 hc' hc, if_neg (by omega), readCell_writeCell h1 hc hc, if_pos ⟨rfl, rfl⟩]
  · rw [readCell_writeCell h2 hc' hc', if_pos ⟨rfl, rfl⟩]
  · rw [storeRead_writeCell_other (by simp) n3, storeRead_writeCell_other (by simp) n2,
      storeRead_writeCell_other (by simp) n1, storeRead_writeCell_other rfl n0]

/-! ## What a kept or discarded group does -/

theorem keptGroup_kept {s : State} {k : State → State} (h : s.keep = true) (hc : s.col.toNat + 1 < halfWidth s) :
    keptGroup s k = .next (k s) := by
  unfold keptGroup
  rw [if_pos h, if_pos hc]

theorem keptGroup_discarded {s : State} {k : State → State} (h : s.keep = false) : keptGroup s k = .next s := by
  unfold keptGroup
  rw [if_neg (by rw [h]; decide)]

theorem keptGroup_stops {s : State} {k : State → State} (h : s.keep = true) (hc : halfWidth s ≤ s.col.toNat + 1) :
    keptGroup s k = .fault (.noSuchCell s.col) := by
  unfold keptGroup
  rw [if_pos h, if_neg (by omega)]

/-- The repeat of a run, where its cells exist. -/
theorem keptGroup_oneRepeat {s : State} (h : s.keep = true → (s.col - 2).toNat + 1 < halfWidth s) :
    keptGroup { s with col := s.col - 2 } predictCells = .next (oneRepeat s) := by
  unfold oneRepeat
  dsimp only
  by_cases hk : s.keep = true
  · rw [if_pos hk]
    exact keptGroup_kept (s := { s with col := s.col - 2 }) hk (h hk)
  · rw [if_neg hk]
    exact keptGroup_discarded (s := { s with col := s.col - 2 }) (by simpa using hk)

/-- The step of a run, where its cells exist. -/
theorem keptGroup_stepAdded {s : State} {v : Int} (h : s.keep = true → s.col.toNat + 1 < halfWidth s) :
    keptGroup { s with step := stepValue v } addStepCells = .next (stepAdded v s) := by
  unfold stepAdded
  dsimp only
  by_cases hk : s.keep = true
  · rw [if_pos hk]
    exact keptGroup_kept (s := { s with step := stepValue v }) hk (h hk)
  · rw [if_neg hk]
    exact keptGroup_discarded (s := { s with step := stepValue v }) (by simpa using hk)

/-- `col` lowered by 2. -/
theorem toNat_col_sub_two {c : BitVec 16} (h : 2 ≤ c.toNat) : (c - 2).toNat = c.toNat - 2 := by
  rw [BitVec.toNat_sub]
  show (2 ^ 16 - 2 + c.toNat) % 2 ^ 16 = _
  have := c.isLt
  omega

theorem toNat_rep_succ {r : BitVec 4} (h : r.toNat < 8) : (r + 1).toNat = r.toNat + 1 := by
  rw [BitVec.toNat_add]
  show (r.toNat + 1) % 2 ^ 4 = _
  omega

end Sys2Proof.Machine
end

