-- ==== Sys2Proof/Laws/Band.lean ====
section
/-! SUPPORT. DECAY (42_scaletracker.md R162): what it does to each cell, the register `val`, and LAST_SCALE_LUT. -/

namespace Sys2Proof.Machine

theorem mem_allCells {s : State} {r i : Nat} : (r, i) ∈ allCells s ↔ r < 3 ∧ i ≤ halfWidth s := by
  unfold allCells
  simp only [List.mem_flatMap, List.mem_range, List.mem_map, Prod.mk.injEq]
  constructor
  · rintro ⟨a, ha, b, hb, rfl, rfl⟩
    omega
  · rintro ⟨h1, h2⟩
    exact ⟨r, h1, i, by omega, rfl, rfl⟩

/-- A grid of pairs lists no pair twice, where the pair determines its row and column. -/
theorem nodup_grid (f : Nat → Nat → Nat × Nat) (n m : Nat)
    (h : ∀ y x y' x', f y x = f y' x' → y = y' ∧ x = x') :
    ((List.range n).flatMap fun y => (List.range m).map fun x => f y x).Nodup := by
  refine List.nodup_flatMap.2 ⟨fun r _ => (List.nodup_range).map fun a b hh => (h _ _ _ _ hh).2, ?_⟩
  refine (List.nodup_range (n := n)).imp ?_
  intro a b hab
  simp only [Function.onFun, List.disjoint_left, List.mem_map]
  rintro p ⟨x, _, rfl⟩ ⟨y, _, hh⟩
  exact hab (h _ _ _ _ hh).1.symm

theorem nodup_allCells (s : State) : (allCells s).Nodup :=
  nodup_grid (fun r i => (r, i)) 3 _ fun _ _ _ _ h => Prod.mk.inj h

/-- A cell after DECAY, from its own old value. -/
theorem readCell_decay {s : State} (v : Nat) (h : storeSorted s.rbuf) {r i : Nat} (hr : r < 3) (hi : i ≤ halfWidth s) :
    readCell (decay v s) r i = wrap16 (decayed s v (cell s r i)) := by
  refine readCell_writeCells_mem h ?_ ?_ (List.mem_map.2 ⟨(r, i), mem_allCells.2 ⟨hr, hi⟩, rfl⟩)
  · rw [List.map_map]
    exact (List.map_id (allCells s)).symm ▸ nodup_allCells s
  · intro p hp
    obtain ⟨q, hq, rfl⟩ := List.mem_map.1 hp
    have := (mem_allCells (r := q.1) (i := q.2)).1 hq
    have := halfWidth_lt s
    simp only
    omega

/-- DECAY changes no other address. -/
theorem storeRead_decay_other {s : State} (v : Nat) {a : Nat}
    (h : ∀ r i, r < 3 → i ≤ halfWidth s → a ≠ cellAddr r i) :
    storeRead s.cfg.bufInit (decay v s).rbuf a = storeRead s.cfg.bufInit s.rbuf a := by
  refine storeRead_writeCells_other ?_
  intro p hp
  obtain ⟨q, hq, rfl⟩ := List.mem_map.1 hp
  have := (mem_allCells (r := q.1) (i := q.2)).1 hq
  exact h _ _ this.1 this.2

/-- `val` holds the whole product of R161 where its 24 bits can (10_state.md R24). -/
theorem scaleRegister_toNat {v : Nat} (h : v < 2 ^ 24) : (scaleRegister v).toNat = v := by
  unfold scaleRegister
  rw [if_pos h, BitVec.toNat_ofNat, Nat.mod_eq_of_lt h]

/-- A defined entry of LAST_SCALE_LUT (10_state.md R32). -/
theorem scaleEntry_of_some {c : Config} {m : BitVec 6} {v : Nat} (h : c.lastScaleLut[m.toNat]? = some (some v)) :
    scaleEntry c m = v := by
  unfold scaleEntry
  rw [h]

/-- Under an admitted configuration every entry for m in 1..63 is a defined one (00_scope.md R8 (c)). -/
theorem scaleEntry_defined {c : Config} (h : c.admitted = true) {m : BitVec 6} (hm : m ≠ 0) :
    c.lastScaleLut[m.toNat]? = some (some (scaleEntry c m)) := by
  simp only [Config.admitted, Bool.and_eq_true, lutAdmitted, beq_iff_eq, List.all_eq_true] at h
  obtain ⟨⟨⟨⟨⟨_, hlen, hall⟩, _⟩, _⟩, _⟩, _⟩ := h
  have hm0 : m.toNat ≠ 0 := fun e => hm (BitVec.eq_of_toNat_eq e)
  have hlt := m.isLt
  have hl : m.toNat < c.lastScaleLut.length := by rw [hlen]; unfold lutEntries; omega
  have hmem : c.lastScaleLut[m.toNat] ∈ (c.lastScaleLut.drop 1).take 63 := by
    refine List.mem_iff_getElem?.2 ⟨m.toNat - 1, ?_⟩
    rw [List.getElem?_take_of_lt (by omega), List.getElem?_drop, show 1 + (m.toNat - 1) = m.toNat by omega,
      List.getElem?_eq_getElem hl]
  obtain ⟨v, hv⟩ := Option.isSome_iff_exists.1 (hall _ hmem)
  have : c.lastScaleLut[m.toNat]? = some (some v) := by rw [List.getElem?_eq_getElem hl, hv]
  rw [scaleEntry_of_some this, this]

end Sys2Proof.Machine
end

