-- ==== Sys2Proof/Laws/BitReader.lean ====
section
/-! SUPPORT. The BitReader and DECODE, said once in terms of the bits not yet read (40_bitreader.md R130 to R135). -/

namespace Sys2Proof.Machine

/-! ## Bits -/

@[simp] theorem length_wordBits (n w : Nat) : (wordBits n w).length = n := by
  induction n with
  | zero => rfl
  | succ n ih => simp [wordBits, ih]

theorem bitsValue_append (xs ys : List Bool) : bitsValue (xs ++ ys) = bitsValue xs * 2 ^ ys.length + bitsValue ys := by
  have key : ∀ (ys : List Bool) (v : Nat),
      ys.foldl (fun v b => 2 * v + b.toNat) v = v * 2 ^ ys.length + ys.foldl (fun v b => 2 * v + b.toNat) 0 := by
    intro ys
    induction ys with
    | nil => intro v; simp
    | cons b ys ih =>
      intro v
      simp only [List.foldl_cons, List.length_cons]
      rw [ih (2 * v + b.toNat), ih (2 * 0 + b.toNat)]
      ring
  unfold bitsValue
  rw [List.foldl_append, key]

theorem bitsValue_cons (b : Bool) (bs : List Bool) : bitsValue (b :: bs) = b.toNat * 2 ^ bs.length + bitsValue bs := by
  have := bitsValue_append [b] bs
  simpa [bitsValue] using this

theorem bitsValue_lt (bs : List Bool) : bitsValue bs < 2 ^ bs.length := by
  induction bs with
  | nil => decide
  | cons b bs ih =>
    rw [bitsValue_cons, List.length_cons, Nat.pow_succ]
    cases b <;> simp <;> omega

theorem bitsValue_wordBits (n w : Nat) : bitsValue (wordBits n w) = w % 2 ^ n := by
  induction n with
  | zero => simp [wordBits, bitsValue, Nat.mod_one]
  | succ n ih =>
    rw [wordBits, bitsValue_cons, ih, length_wordBits, Nat.pow_succ, Nat.mod_mul, Nat.testBit_eq_decide_div_mod_eq]
    have : w / 2 ^ n % 2 = 0 ∨ w / 2 ^ n % 2 = 1 := by omega
    rcases this with h | h <;> simp [h, Nat.add_comm]

/-! ## The list of unread bits -/

theorem bytesAhead_cons {s : State} (h : s.ptr.toNat < s.srcLen.toNat) {b : Byte}
    (hb : storeGet s.src s.ptr.toNat = some b) (c : Byte) (r : BitVec 4) :
    bytesAhead s = b :: bytesAhead { s with cur := c, ptr := s.ptr + 1, rem := r } := by
  have hp : (s.ptr + 1).toNat = s.ptr.toNat + 1 := by
    have := s.srcLen.isLt
    rw [BitVec.toNat_add]
    show (s.ptr.toNat + 1) % 2 ^ 32 = _
    omega
  unfold bytesAhead
  rw [show s.srcLen.toNat - s.ptr.toNat = (s.srcLen.toNat - (s.ptr + 1).toNat) + 1 by omega,
    List.range_succ_eq_map, List.map_cons, List.map_map]
  simp only [Nat.add_zero, hb, Option.getD_some, List.cons.injEq, true_and, hp]
  apply List.map_congr_left
  intro k _
  simp only [Function.comp_apply, Nat.succ_eq_add_one]
  congr 2
  omega

theorem bytesAhead_nil {s : State} (h : s.srcLen.toNat ≤ s.ptr.toNat) : bytesAhead s = [] := by
  unfold bytesAhead
  rw [Nat.sub_eq_zero_of_le h]
  rfl

theorem length_flatMap_byteBits (bs : List Byte) : (bs.flatMap byteBits).length = 8 * bs.length := by
  induction bs with
  | nil => rfl
  | cons b bs ih =>
    rw [List.flatMap_cons, List.length_append, ih, byteBits, length_wordBits, List.length_cons]
    omega

/-- The bits not yet read are those between the cursor and the end of SRC. -/
theorem length_unreadBits (s : State) :
    (unreadBits s).length = s.rem.toNat + 8 * (s.srcLen.toNat - s.ptr.toNat) := by
  unfold unreadBits
  rw [List.length_append, length_wordBits, length_flatMap_byteBits]
  simp [bytesAhead]

theorem bitpos_eq_of_length {s t : State} (hl : t.srcLen = s.srcLen) (ht : t.ptr.toNat ≤ t.srcLen.toNat)
    (hs : s.ptr.toNat ≤ s.srcLen.toNat) :
    bitpos t = bitpos s + (((unreadBits s).length : Int) - (unreadBits t).length) := by
  rw [length_unreadBits, length_unreadBits]
  unfold bitpos
  rw [hl] at *
  push_cast [Nat.cast_sub hs, Nat.cast_sub ht]
  ring

theorem toNat_ptr_succ {s : State} (h : s.ptr.toNat < s.srcLen.toNat) : (s.ptr + 1).toNat = s.ptr.toNat + 1 := by
  have := s.srcLen.isLt
  rw [BitVec.toNat_add]
  show (s.ptr.toNat + 1) % 2 ^ 32 = _
  omega

/-- The cursor moved: only `ptr`, `cur` and `rem` may differ, `ptr` does not pass SRC_LEN. -/
structure CursorMoved (s t : State) : Prop where
  eq : t = { s with ptr := t.ptr, cur := t.cur, rem := t.rem }
  ptr_le : s.ptr.toNat ≤ s.srcLen.toNat → t.ptr.toNat ≤ s.srcLen.toNat
  ptr_ge : s.ptr.toNat ≤ t.ptr.toNat
  /-- `cur` stays the last byte fetched. -/
  cur : (t.ptr = s.ptr ∧ t.cur = s.cur) ∨ (1 ≤ t.ptr.toNat ∧ storeGet s.src (t.ptr.toNat - 1) = some t.cur)

theorem CursorMoved.refl (s : State) : CursorMoved s s := ⟨rfl, id, le_refl _, .inl ⟨rfl, rfl⟩⟩

theorem CursorMoved.trans {s t u : State} (h : CursorMoved s t) (h' : CursorMoved t u) : CursorMoved s u := by
  have hs : t.src = s.src := by rw [h.eq]
  have hl : t.srcLen = s.srcLen := by rw [h.eq]
  refine ⟨?_, fun hp => hl ▸ h'.ptr_le (hl ▸ h.ptr_le hp), le_trans h.ptr_ge h'.ptr_ge, ?_⟩
  · rw [h'.eq, h.eq]
  · rcases h'.cur with ⟨hp, hc⟩ | ⟨hp, hc⟩
    · rw [hp, hc]
      exact h.cur
    · exact .inr ⟨hp, hs ▸ hc⟩

theorem CursorMoved.srcWritten {s t : State} (h : CursorMoved s t) (hw : srcWritten s) : srcWritten t := by
  rw [h.eq]
  exact hw

/-- What one turn of READBITS's loop does when a bit is left. -/
theorem readBit_got {s : State} {b : Bool} {rest : List Bool} (hr : s.rem.toNat ≤ 8) (hw : srcWritten s)
    (h : unreadBits s = b :: rest) :
    ∃ t, readBit s = .got b t ∧ unreadBits t = rest ∧ CursorMoved s t ∧ t.rem.toNat ≤ 7 ∧
      (s.rem ≠ 0 → t.ptr = s.ptr ∧ t.cur = s.cur ∧ t.rem.toNat + 1 = s.rem.toNat) ∧
      (s.rem = 0 → t.ptr.toNat = s.ptr.toNat + 1 ∧ t.rem = 7) := by
  have take : ∀ u : State, ∀ k, u.rem.toNat = k + 1 → k < 8 → unreadBits u = b :: rest →
      takeBit u = .got b { u with rem := u.rem - 1 } ∧ unreadBits { u with rem := u.rem - 1 } = rest ∧
        (u.rem - 1).toNat = k := by
    intro u k hk hk8 hu
    have hsub : (u.rem - 1).toNat = k := by
      rw [BitVec.toNat_sub]
      show (2 ^ 4 - 1 + u.rem.toNat) % 2 ^ 4 = k
      omega
    unfold unreadBits at hu
    rw [hk, wordBits, List.cons_append, List.cons.injEq] at hu
    refine ⟨?_, ?_, hsub⟩
    · unfold takeBit
      rw [hsub, ← hu.1]
      rfl
    · rw [← hu.2]
      unfold unreadBits
      simp only [hsub]
      rfl
  unfold readBit
  by_cases h0 : s.rem = 0
  · rw [if_pos h0]
    have hlt : s.ptr.toNat < s.srcLen.toNat := by
      have := length_unreadBits s
      rw [h, h0] at this
      simp at this
      omega
    obtain ⟨c, hc⟩ := Option.isSome_iff_exists.1 (hw _ hlt)
    have hrd : readSrc s s.ptr = some c := hc
    unfold refill
    rw [if_neg (by omega), hrd]
    simp only [readThen]
    have hu : unreadBits { s with cur := c, ptr := s.ptr + 1, rem := 8 } = b :: rest := by
      rw [← h]
      unfold unreadBits
      rw [bytesAhead_cons hlt hc c 8, h0]
      rfl
    obtain ⟨h1, h2, h3⟩ := take { s with cur := c, ptr := s.ptr + 1, rem := 8 } 7 rfl (by decide) hu
    refine ⟨_, h1, h2, ⟨rfl, fun _ => ?_, ?_, .inr ⟨?_, ?_⟩⟩, ?_, fun h => absurd h0 h, fun _ => ⟨?_, ?_⟩⟩
    · show (s.ptr + 1).toNat ≤ _
      rw [toNat_ptr_succ hlt]; omega
    · show _ ≤ (s.ptr + 1).toNat
      rw [toNat_ptr_succ hlt]; omega
    · show 1 ≤ (s.ptr + 1).toNat
      rw [toNat_ptr_succ hlt]; omega
    · show storeGet s.src ((s.ptr + 1).toNat - 1) = some c
      rw [toNat_ptr_succ hlt]; exact hc
    · exact le_of_eq h3
    · exact toNat_ptr_succ hlt
    · exact BitVec.eq_of_toNat_eq h3
  · rw [if_neg h0]
    obtain ⟨k, hk⟩ : ∃ k, s.rem.toNat = k + 1 := by
      refine ⟨s.rem.toNat - 1, ?_⟩
      have : s.rem.toNat ≠ 0 := fun e => h0 (BitVec.eq_of_toNat_eq e)
      omega
    obtain ⟨h1, h2, h3⟩ := take s k hk (by omega) h
    exact ⟨_, h1, h2, ⟨rfl, fun h => h, le_refl _, .inl ⟨rfl, rfl⟩⟩, by simp only [h3]; omega,
      fun _ => ⟨rfl, rfl, by simp only [h3]; omega⟩, fun h => absurd h h0⟩

/-- What it does when none is. -/
theorem readBit_raised {s : State} (h : unreadBits s = []) :
    readBit s = .raised (raise .truncated s) ∧ s.rem = 0 ∧ s.srcLen.toNat ≤ s.ptr.toNat := by
  have hl := length_unreadBits s
  rw [h] at hl
  simp only [List.length_nil] at hl
  have h0 : s.rem = 0 := BitVec.eq_of_toNat_eq (by simp; omega)
  have hp : s.srcLen.toNat ≤ s.ptr.toNat := by omega
  refine ⟨?_, h0, hp⟩
  unfold readBit refill
  rw [if_pos h0, if_pos hp]
  rfl

/-- READBITS's loop, when enough bits are left. -/
theorem readBitsLoop_got (n : Nat) : ∀ {s : State} (v : Nat), s.rem.toNat ≤ 8 → srcWritten s →
    n ≤ (unreadBits s).length →
    ∃ t, readBitsLoop n v s = .got (v * 2 ^ n + bitsValue ((unreadBits s).take n)) t ∧
      unreadBits t = (unreadBits s).drop n ∧ CursorMoved s t ∧ (1 ≤ n → t.rem.toNat ≤ 7) ∧
      (n ≤ s.rem.toNat → t.ptr = s.ptr ∧ t.cur = s.cur ∧ t.rem.toNat + n = s.rem.toNat) ∧
      (n ≤ 8 → t.ptr.toNat ≤ s.ptr.toNat + 1) := by
  induction n with
  | zero => intro s v _ _ _; exact ⟨s, by simp [readBitsLoop, bitsValue], by simp, .refl s, by omega, by simp, by omega⟩
  | succ n ih =>
    intro s v hr hw hn
    cases hu : unreadBits s with
    | nil => simp [hu] at hn
    | cons b rest =>
      obtain ⟨t, h1, h2, h3, h4, h5, h6⟩ := readBit_got hr hw hu
      obtain ⟨u, g1, g2, g3, g4, g5, g6⟩ := ih (s := t) (2 * v + b.toNat) (by omega) (h3.srcWritten hw)
        (by rw [h2]; simp [hu] at hn; omega)
      refine ⟨u, ?_, ?_, h3.trans g3, fun _ => ?_, fun hle => ?_, fun h8 => ?_⟩
      · unfold readBitsLoop
        rw [h1]
        simp only [readThen]
        rw [g1, h2]
        congr 1
        rw [List.take_succ_cons, bitsValue_cons, List.length_take_of_le (by simp [hu] at hn; omega)]
        ring
      · rw [g2, h2, List.drop_succ_cons]
      · cases n with
        | zero =>
          simp only [readBitsLoop, Read.got.injEq] at g1
          rw [← g1.2]
          exact h4
        | succ n => exact g4 (by omega)
      · obtain ⟨p1, p2, p3⟩ := h5 (by rintro h0; rw [h0] at hle; simp at hle)
        obtain ⟨q1, q2, q3⟩ := g5 (by omega)
        exact ⟨q1.trans p1, q2.trans p2, by omega⟩
      · by_cases h0 : s.rem = 0
        · obtain ⟨p1, p2⟩ := h6 h0
          have := (g5 (by rw [p2]; show n ≤ 7; omega)).1
          rw [this]
          omega
        · have := (h5 h0).1
          rw [← this]
          exact g6 (by omega)

/-- READBITS's loop, when too few bits are left: Truncated at the end of SRC. -/
theorem readBitsLoop_raised (n : Nat) : ∀ {s : State} (v : Nat), s.rem.toNat ≤ 8 → s.ptr.toNat ≤ s.srcLen.toNat →
    srcWritten s → (unreadBits s).length < n →
    ∃ c : Byte, readBitsLoop n v s = .raised
      (raise .truncated { s with ptr := s.srcLen, cur := c, rem := 0 }) := by
  induction n with
  | zero => intro s v _ _ _ h; simp at h
  | succ n ih =>
    intro s v hr hp hw hn
    cases hu : unreadBits s with
    | nil =>
      obtain ⟨h1, h2, h3⟩ := readBit_raised hu
      refine ⟨s.cur, ?_⟩
      unfold readBitsLoop
      rw [h1]
      have h4 : s.srcLen = s.ptr := BitVec.eq_of_toNat_eq (by omega)
      have h5 : ∀ q r, q = s.ptr → r = s.rem → s = { s with ptr := q, cur := s.cur, rem := r } := by
        rintro _ _ rfl rfl
        rfl
      exact congrArg (fun u => Read.raised (raise .truncated u)) (h5 _ _ h4 h2.symm)
    | cons b rest =>
      obtain ⟨t, h1, h2, h3, h4, -, -⟩ := readBit_got hr hw hu
      have hl : t.srcLen = s.srcLen := by rw [h3.eq]
      obtain ⟨c, hc⟩ := ih (s := t) (2 * v + b.toNat) (by omega) (by rw [hl]; exact h3.ptr_le hp) (h3.srcWritten hw)
        (by rw [h2]; simp [hu] at hn; omega)
      refine ⟨c, ?_⟩
      unfold readBitsLoop
      rw [h1]
      simp only [readThen]
      rw [hc, h3.eq]

/-- READBITS(n) (40_bitreader.md R130): its value and state when n bits are left. -/
theorem readBits_got {s : State} {n : Nat} (h1 : 1 ≤ n) (h8 : n ≤ 8) (hr : s.rem.toNat ≤ 8) (hw : srcWritten s)
    (hn : n ≤ (unreadBits s).length) :
    ∃ t, readBits n s = .got (bitsValue ((unreadBits s).take n)) t ∧ unreadBits t = (unreadBits s).drop n ∧
      CursorMoved s t ∧ t.rem.toNat ≤ 7 ∧
      (n ≤ s.rem.toNat → t.ptr = s.ptr ∧ t.cur = s.cur ∧ t.rem.toNat + n = s.rem.toNat) ∧
      t.ptr.toNat ≤ s.ptr.toNat + 1 := by
  obtain ⟨t, g1, g2, g3, g4, g5, g6⟩ := readBitsLoop_got n 0 hr hw hn
  refine ⟨t, ?_, g2, g3, g4 h1, g5, g6 h8⟩
  unfold readBits
  rw [if_pos ⟨h1, h8⟩, g1]
  simp

/-- READBITS(n) when fewer than n bits are left. -/
theorem readBits_raised {s : State} {n : Nat} (h1 : 1 ≤ n) (h8 : n ≤ 8) (hr : s.rem.toNat ≤ 8)
    (hp : s.ptr.toNat ≤ s.srcLen.toNat) (hw : srcWritten s) (hn : (unreadBits s).length < n) :
    ∃ c : Byte, readBits n s = .raised (raise .truncated { s with ptr := s.srcLen, cur := c, rem := 0 }) := by
  obtain ⟨c, hc⟩ := readBitsLoop_raised n 0 hr hp hw hn
  refine ⟨c, ?_⟩
  unfold readBits
  rw [if_pos ⟨h1, h8⟩, hc]

/-! ## DECODE -/

theorem readBits_one {s : State} {b : Bool} {rest : List Bool} (hr : s.rem.toNat ≤ 8) (hw : srcWritten s)
    (h : unreadBits s = b :: rest) :
    ∃ t, readBits 1 s = .got b.toNat t ∧ unreadBits t = rest ∧ CursorMoved s t ∧ t.rem.toNat ≤ 7 := by
  obtain ⟨t, h1, h2, h3, h4, -, -⟩ := readBits_got (n := 1) (by decide) (by decide) hr hw (by rw [h]; simp)
  rw [h] at h1 h2
  exact ⟨t, by simpa [bitsValue] using h1, h2, h3, h4⟩

/-- With the tables as built, a read of HUFF is the built entry (10_state.md R30). -/
theorem readHuff_of_nil {s : State} (h : s.huff = []) (t c : Nat) : readHuff s t c = builtEntry s.cfg.huffSpec t c := by
  unfold readHuff
  split
  · unfold builtEntry
    rw [if_neg (by omega), if_neg (by omega)]
  · rw [h]
    rfl

/-- The outcome of DECODE by the machine at `s` says what the decoder of bit strings says of the unread bits. -/
def DecodeAgrees (s : State) (m : Read Byte) : Except DecodeError (Byte × List Bool) → Prop
  | .ok (v, rest) => ∃ u, m = .got v u ∧ unreadBits u = rest ∧ CursorMoved s u ∧ u.rem.toNat ≤ 7
  | .error .endOfBits => ∃ c : Byte, m = .raised (raise .truncated { s with ptr := s.srcLen, cur := c, rem := 0 })
  | .error (.incompleteTable t) => m = .noMeaning (.incompleteTable t)
  | .error (.noSuchTable t) => m = .stuck (.noSuchTable t)
  | .error (.noRow _ _) => False

theorem DecodeAgrees.trans {s u : State} {m : Read Byte} {r : Except DecodeError (Byte × List Bool)}
    (h : CursorMoved s u) (ha : DecodeAgrees u m r) : DecodeAgrees s m r := by
  match r, ha with
  | .ok (v, rest), ⟨u', g1, g2, g3, g4⟩ => exact ⟨u', g1, g2, h.trans g3, g4⟩
  | .error .endOfBits, ⟨c, hc⟩ => exact ⟨c, by rw [hc, h.eq]⟩
  | .error (.incompleteTable _), ha => exact ha
  | .error (.noSuchTable _), ha => exact ha

/-- DECODE's loop of the machine follows the decoder of bit strings. -/
theorem decodeLoop_agrees (t : Nat) (n : Nat) : ∀ {s : State} (k p : Nat), s.huff = [] → s.rem.toNat ≤ 8 →
    s.ptr.toNat ≤ s.srcLen.toNat → srcWritten s →
    DecodeAgrees s (decodeLoop t n k p s) (takeCode s.cfg.huffSpec t n k p (unreadBits s)) := by
  induction n with
  | zero => intro s k p _ _ _ _; rfl
  | succ n ih =>
    intro s k p hh hr hp hw
    cases hu : unreadBits s with
    | nil =>
      obtain ⟨c, hc⟩ := readBits_raised (n := 1) (by decide) (by decide) hr hp hw (by rw [hu]; decide)
      refine ⟨c, ?_⟩
      unfold decodeLoop
      rw [hc]
      rfl
    | cons b rest =>
      obtain ⟨u, h1, h2, h3, h4⟩ := readBits_one hr hw hu
      have hl : u.srcLen = s.srcLen := by rw [h3.eq]
      have hc : u.cfg = s.cfg := by rw [h3.eq]
      have hhu : u.huff = [] := by rw [h3.eq]; exact hh
      have hpu : u.ptr.toNat ≤ u.srcLen.toNat := by rw [hl]; exact h3.ptr_le hp
      have hm : decodeLoop t (n + 1) k p s =
          match builtEntry s.cfg.huffSpec t ((2 * p + b.toNat) <<< (8 - k)) with
          | none => if t ≤ 18 then .noMeaning (.incompleteTable t) else .stuck (.noSuchTable t)
          | some e => if e.len.toNat = k then .got e.val u else decodeLoop t n (k + 1) (2 * p + b.toNat) u := by
        conv_lhs => unfold decodeLoop
        rw [h1]
        simp only [readThen]
        rw [readHuff_of_nil hhu, hc]
        all_goals rfl
      have ht : takeCode s.cfg.huffSpec t (n + 1) k p (b :: rest) =
          match builtEntry s.cfg.huffSpec t ((2 * p + b.toNat) <<< (8 - k)) with
          | none => .error (if t ≤ 18 then .incompleteTable t else .noSuchTable t)
          | some e =>
            if e.len.toNat = k then .ok (e.val, rest)
            else takeCode s.cfg.huffSpec t n (k + 1) (2 * p + b.toNat) rest := rfl
      cases hb : builtEntry s.cfg.huffSpec t ((2 * p + b.toNat) <<< (8 - k)) with
      | none =>
        rw [hb] at hm ht
        rw [hm, ht]
        by_cases h18 : t ≤ 18
        · rw [if_pos h18, if_pos h18]; rfl
        · rw [if_neg h18, if_neg h18]; rfl
      | some e =>
        rw [hb] at hm ht
        rw [hm, ht]
        by_cases he : e.len.toNat = k
        · simp only [if_pos he]
          exact ⟨u, rfl, h2, h3, h4⟩
        · simp only [if_neg he]
          have hi := ih (s := u) (k + 1) (2 * p + b.toNat) hhu (by omega) hpu (h3.srcWritten hw)
          rw [hc, h2] at hi
          exact hi.trans h3

/-- DECODE(t) of the machine (41_huffman.md R143) follows the decoder of bit strings. -/
theorem decodeToken_agrees {s : State} (t : Nat) (hh : s.huff = []) (hr : s.rem.toNat ≤ 8)
    (hp : s.ptr.toNat ≤ s.srcLen.toNat) (hw : srcWritten s) :
    DecodeAgrees s (decodeToken t s) (decodeCode s.cfg.huffSpec t (unreadBits s)) :=
  decodeLoop_agrees t 8 1 0 hh hr hp hw

end Sys2Proof.Machine
end

