-- ==== Sys2Proof/Laws/Exec.lean ====
section
/-! SUPPORT. Each instruction's meaning as the shared operation it is, by kind: proofs cite these instead of splitting
`exec` over its arms. -/

namespace Sys2Proof.Machine

theorem exec_bandhdr (m p1 p2 : BitVec 6) (s : State) : exec (.bandhdr m p1 p2) s = bandHeader m s := rfl

theorem exec_tokLit (v : BitVec 5) (s : State) : exec (.tokLit v) s = litToken (literalByte v) s := rfl

/-- An instruction that stands at a code table runs the shared operation of its table and value: the opcode table's
rows and the values without a row share one meaning (30_encoding.md R98, R100). -/
theorem exec_eq_execUnlisted {i : Instr} {t : Nat} (h : i.slot = .code t) (s : State) :
    exec i s = execUnlisted t i.codeByte s := by
  cases i <;> cases h <;> rfl

/-! ## The kinds, by table and value -/

theorem litCodes_spec : ∀ i ∈ litCodes, i.codeByte = 8 ∧ ∃ t ∈ List.range 9, i.slot = .code t := by decide

theorem runCodes_spec : ∀ i ∈ runCodes, i.codeByte = 0 ∧ ∃ t ∈ List.range 9, i.slot = .code t := by decide

theorem predCodes_spec : ∀ p ∈ predCodes, (1 ≤ p.1.toNat ∧ p.1.toNat ≤ 7 ∧ p.2.codeByte = p.1.setWidth 8) ∧
    ∃ t ∈ List.range 9, p.2.slot = .code t := by decide +kernel

theorem nrepsTokens_spec : ∀ p ∈ nrepsTokens, (1 ≤ p.1.toNat ∧ p.1.toNat ≤ 9 ∧ p.2.codeByte.toNat ≤ 8 ∧
    repeatCount p.2.codeByte = p.1) ∧ p.2.slot = .code 9 := by decide

theorem stepTokens_spec : ∀ p ∈ stepTokens, sext8 p.2.codeByte = p.1 ∧ p.2.slot = .code 10 := by decide

theorem residualTokens_spec : ∀ p ∈ residualTokens, sext8 p.2.codeByte = p.1 ∧
    ∃ t ∈ List.range 18, 11 ≤ t ∧ p.2.slot = .code t := by decide +kernel

/-! ## `execUnlisted` by table -/

theorem execUnlisted_control_lit {t : Nat} (h : t ≤ 8) (s : State) : execUnlisted t 8 s = .next (beginLit s) := by
  unfold execUnlisted
  rw [if_pos h]
  rfl

theorem execUnlisted_control_run {t : Nat} (h : t ≤ 8) (s : State) : execUnlisted t 0 s = beginRun s := by
  unfold execUnlisted
  rw [if_pos h]
  rfl

theorem execUnlisted_control_pred {t : Nat} {v : Byte} (h : t ≤ 8) (h1 : 1 ≤ v.toNat) (h7 : v.toNat ≤ 7)
    (s : State) : execUnlisted t v s = .next (beginPred (v.setWidth 4) s) := by
  have h0 : v ≠ 0 := by
    rintro rfl
    exact absurd h1 (by decide)
  unfold execUnlisted
  rw [if_pos h, if_neg h0, if_pos h7]

theorem execUnlisted_nreps {v : Byte} (h : v.toNat ≤ 8) (s : State) :
    execUnlisted 9 v s = nrepsToken (repeatCount v) s := by
  unfold execUnlisted
  rw [if_neg (by decide), if_pos rfl, if_pos h]

theorem execUnlisted_step (v : Byte) (s : State) : execUnlisted 10 v s = stepToken (sext8 v) s := by
  unfold execUnlisted
  rw [if_neg (by decide), if_neg (by decide), if_pos rfl]

theorem execUnlisted_res {t : Nat} (h : 11 ≤ t) (h' : t ≤ 17) (v : Byte) (s : State) :
    execUnlisted t v s = resToken (sext8 v) s := by
  unfold execUnlisted
  rw [if_neg (by omega), if_neg (by omega), if_neg (by omega), if_pos h']

theorem execUnlisted_lit (v : Byte) (s : State) : execUnlisted 18 v s = litToken v s := by
  unfold execUnlisted
  rw [if_neg (by decide), if_neg (by decide), if_neg (by decide), if_neg (by decide)]

/-! ## `exec` by kind -/

theorem exec_litCodes {i : Instr} (h : i ∈ litCodes) (s : State) : exec i s = .next (beginLit s) := by
  obtain ⟨hb, t, ht, hs⟩ := litCodes_spec i h
  rw [exec_eq_execUnlisted hs, hb, execUnlisted_control_lit (by simp at ht; omega)]

theorem exec_runCodes {i : Instr} (h : i ∈ runCodes) (s : State) : exec i s = beginRun s := by
  obtain ⟨hb, t, ht, hs⟩ := runCodes_spec i h
  rw [exec_eq_execUnlisted hs, hb, execUnlisted_control_run (by simp at ht; omega)]

/-- A control symbol of a predicted group is in 1..7, and its code runs `beginPred` of it. -/
theorem exec_predCodes {t : BitVec 4} {i : Instr} (h : (t, i) ∈ predCodes) (s : State) :
    exec i s = .next (beginPred t s) ∧ 1 ≤ t.toNat ∧ t.toNat ≤ 7 := by
  obtain ⟨⟨h1, h7, hb⟩, c, hc, hs⟩ := predCodes_spec _ h
  simp only at h1 h7 hb hs
  refine ⟨?_, h1, h7⟩
  have hw : (t.setWidth 8).toNat = t.toNat := by
    rw [BitVec.toNat_setWidth]
    omega
  have hw' : (t.setWidth 8).setWidth 4 = t := by
    apply BitVec.eq_of_toNat_eq
    rw [BitVec.toNat_setWidth, hw]
    omega
  rw [exec_eq_execUnlisted hs, hb,
    execUnlisted_control_pred (by simp at hc; omega) (by omega) (by omega), hw']

theorem exec_nrepsTokens {n : BitVec 4} {i : Instr} (h : (n, i) ∈ nrepsTokens) (s : State) :
    exec i s = nrepsToken n s ∧ 1 ≤ n.toNat ∧ n.toNat ≤ 9 := by
  obtain ⟨⟨h1, h9, h8, hb⟩, hs⟩ := nrepsTokens_spec _ h
  exact ⟨by rw [exec_eq_execUnlisted hs, execUnlisted_nreps h8, hb], h1, h9⟩

theorem exec_stepTokens {v : Int} {i : Instr} (h : (v, i) ∈ stepTokens) (s : State) : exec i s = stepToken v s := by
  obtain ⟨hb, hs⟩ := stepTokens_spec _ h
  rw [exec_eq_execUnlisted hs, execUnlisted_step, hb]

theorem exec_residualTokens {r : Int} {i : Instr} (h : (r, i) ∈ residualTokens) (s : State) :
    exec i s = resToken r s := by
  obtain ⟨hb, t, ht, h11, hs⟩ := residualTokens_spec _ h
  rw [exec_eq_execUnlisted hs, execUnlisted_res h11 (by simp at ht; omega), hb]

/-! ## What was fetched -/

theorem codeBook_slot (t : Nat) : ∀ r ∈ codeBook t, r.2.slot = .code t ∧ r.2.codeByte = r.1 := by
  match t with
  | 0 | 1 | 2 | 3 | 4 | 5 | 6 | 7 | 8 | 9 | 10 | 11 | 12 | 13 | 14 | 15 | 16 | 17 => decide
  | n + 18 => intro r h; cases h

theorem literalByte_field : ∀ v : Byte, v &&& 7 = 4 → literalByte ((v >>> 3).setWidth 5) = v := by decide +kernel

/-- The row found for a value of a table stands at that table and has that value. -/
theorem rowOf_eq_some {t : Nat} {v : Byte} {i : Instr} (h : rowOf t v = some i) :
    i.slot = .code t ∧ i.codeByte = v := by
  unfold rowOf at h
  split at h
  · subst_vars
    split at h
    · cases h
      exact ⟨rfl, literalByte_field v (by assumption)⟩
    · cases h
  · obtain ⟨r, hr, rfl⟩ := Option.map_eq_some_iff.1 h
    have hm := codeBook_slot t r (List.mem_of_find?_eq_some hr)
    exact ⟨hm.1, hm.2.trans (by simpa using List.find?_some hr)⟩

/-- What was fetched at a table runs the shared operation of that table and value. -/
theorem exec_rowOf {t : Nat} {v : Byte} {i : Instr} (h : rowOf t v = some i) (s : State) :
    exec i s = execUnlisted t v s := by
  obtain ⟨h1, h2⟩ := rowOf_eq_some h
  rw [exec_eq_execUnlisted h1, h2]

end Sys2Proof.Machine
end

