-- ==== Sys2Proof/Laws/PerInstr.lean ====
section
/-! SUPPORT. Families of statements about every instruction as syntax, one lemma per constructor. -/

/-- Coding: a band header has 18 bits (30_encoding.md R92); any other instruction is the row of its table and value, and
the entry at its bits, left-aligned in 8 (30_encoding.md R101), holds the number of its bits and its value. -/
def Sys2Proof.Laws.Coding.Statement (i : Sys2Proof.Instr) : Prop :=
  match i.slot with
  | .header => (Sys2Proof.encode i).length = 18
  | .code t =>
    Sys2Proof.rowOf t i.codeByte = some i ∧
    1 ≤ (Sys2Proof.encode i).length ∧ (Sys2Proof.encode i).length ≤ 8 ∧
    Sys2Proof.builtEntry Sys2Proof.huffSpecRef t
      (Sys2Proof.bitsValue (Sys2Proof.encode i) <<< (8 - (Sys2Proof.encode i).length)) =
      some ⟨BitVec.ofNat 4 (Sys2Proof.encode i).length, i.codeByte⟩

namespace Sys2Proof.Laws.Coding

/-- `Statement`, as the kernel evaluates it. -/
def check (i : Instr) : Bool :=
  match i.slot with
  | .header => false
  | .code t =>
    decide (rowOf t i.codeByte = some i) && (decide (1 ≤ (encode i).length) && (decide ((encode i).length ≤ 8) &&
      decide (builtEntry huffSpecRef t (bitsValue (encode i) <<< (8 - (encode i).length)) =
        some ⟨BitVec.ofNat 4 (encode i).length, i.codeByte⟩)))

theorem of_check {i : Instr} (h : check i = true) : Statement i := by
  unfold check at h
  unfold Statement
  split at h
  · cases h
  · simpa only [Bool.and_eq_true, decide_eq_true_eq] using h

theorem check_codeBook : ∀ t ∈ List.range 18, ∀ r ∈ codeBook t, check r.2 = true := by decide +kernel

/-- Row `k` of table `t`. -/
theorem of_row {i : Instr} (t k : Nat) (h : ((codeBook t)[k]?).map (·.2) = some i) : Statement i := by
  obtain ⟨r, hr, rfl⟩ := Option.map_eq_some_iff.1 h
  by_cases ht : t < 18
  · exact of_check (check_codeBook t (List.mem_range.2 ht) r (List.mem_of_getElem? hr))
  · obtain ⟨n, rfl⟩ := Nat.exists_eq_add_of_le (Nat.le_of_not_lt ht)
    rw [Nat.add_comm] at hr
    cases hr

theorem bandhdr (m p1 p2 : BitVec 6) : Statement (.bandhdr m p1 p2) := by
  show (encode (.bandhdr m p1 p2)).length = 18
  rfl

theorem grpPred1C0 : Statement .grpPred1C0 := of_row 0 0 rfl

theorem grpPred2C0 : Statement .grpPred2C0 := of_row 0 1 rfl

theorem grpPred3C0 : Statement .grpPred3C0 := of_row 0 2 rfl

theorem grpPred4C0 : Statement .grpPred4C0 := of_row 0 3 rfl

theorem grpPred5C0 : Statement .grpPred5C0 := of_row 0 4 rfl

theorem grpPred6C0 : Statement .grpPred6C0 := of_row 0 5 rfl

theorem grpPred7C0 : Statement .grpPred7C0 := of_row 0 6 rfl

theorem grpLitC0 : Statement .grpLitC0 := of_row 0 7 rfl

theorem grpRunC1 : Statement .grpRunC1 := of_row 1 0 rfl

theorem grpPred1C1 : Statement .grpPred1C1 := of_row 1 1 rfl

theorem grpPred2C1 : Statement .grpPred2C1 := of_row 1 2 rfl

theorem grpPred3C1 : Statement .grpPred3C1 := of_row 1 3 rfl

theorem grpPred4C1 : Statement .grpPred4C1 := of_row 1 4 rfl

theorem grpPred5C1 : Statement .grpPred5C1 := of_row 1 5 rfl

theorem grpPred6C1 : Statement .grpPred6C1 := of_row 1 6 rfl

theorem grpPred7C1 : Statement .grpPred7C1 := of_row 1 7 rfl

theorem grpLitC1 : Statement .grpLitC1 := of_row 1 8 rfl

theorem grpRunC2 : Statement .grpRunC2 := of_row 2 0 rfl

theorem grpPred1C2 : Statement .grpPred1C2 := of_row 2 1 rfl

theorem grpPred2C2 : Statement .grpPred2C2 := of_row 2 2 rfl

theorem grpPred3C2 : Statement .grpPred3C2 := of_row 2 3 rfl

theorem grpPred4C2 : Statement .grpPred4C2 := of_row 2 4 rfl

theorem grpPred5C2 : Statement .grpPred5C2 := of_row 2 5 rfl

theorem grpPred6C2 : Statement .grpPred6C2 := of_row 2 6 rfl

theorem grpPred7C2 : Statement .grpPred7C2 := of_row 2 7 rfl

theorem grpLitC2 : Statement .grpLitC2 := of_row 2 8 rfl

theorem grpRunC3 : Statement .grpRunC3 := of_row 3 0 rfl

theorem grpPred1C3 : Statement .grpPred1C3 := of_row 3 1 rfl

theorem grpPred2C3 : Statement .grpPred2C3 := of_row 3 2 rfl

theorem grpPred3C3 : Statement .grpPred3C3 := of_row 3 3 rfl

theorem grpPred4C3 : Statement .grpPred4C3 := of_row 3 4 rfl

theorem grpPred5C3 : Statement .grpPred5C3 := of_row 3 5 rfl

theorem grpPred6C3 : Statement .grpPred6C3 := of_row 3 6 rfl

theorem grpPred7C3 : Statement .grpPred7C3 := of_row 3 7 rfl

theorem grpLitC3 : Statement .grpLitC3 := of_row 3 8 rfl

theorem grpRunC4 : Statement .grpRunC4 := of_row 4 0 rfl

theorem grpPred1C4 : Statement .grpPred1C4 := of_row 4 1 rfl

theorem grpPred2C4 : Statement .grpPred2C4 := of_row 4 2 rfl

theorem grpPred3C4 : Statement .grpPred3C4 := of_row 4 3 rfl

theorem grpPred4C4 : Statement .grpPred4C4 := of_row 4 4 rfl

theorem grpPred5C4 : Statement .grpPred5C4 := of_row 4 5 rfl

theorem grpPred6C4 : Statement .grpPred6C4 := of_row 4 6 rfl

theorem grpPred7C4 : Statement .grpPred7C4 := of_row 4 7 rfl

theorem grpLitC4 : Statement .grpLitC4 := of_row 4 8 rfl

theorem grpRunC5 : Statement .grpRunC5 := of_row 5 0 rfl

theorem grpPred1C5 : Statement .grpPred1C5 := of_row 5 1 rfl

theorem grpPred2C5 : Statement .grpPred2C5 := of_row 5 2 rfl

theorem grpPred3C5 : Statement .grpPred3C5 := of_row 5 3 rfl

theorem grpPred4C5 : Statement .grpPred4C5 := of_row 5 4 rfl

theorem grpPred5C5 : Statement .grpPred5C5 := of_row 5 5 rfl

theorem grpPred6C5 : Statement .grpPred6C5 := of_row 5 6 rfl

theorem grpPred7C5 : Statement .grpPred7C5 := of_row 5 7 rfl

theorem grpLitC5 : Statement .grpLitC5 := of_row 5 8 rfl

theorem grpRunC6 : Statement .grpRunC6 := of_row 6 0 rfl

theorem grpPred1C6 : Statement .grpPred1C6 := of_row 6 1 rfl

theorem grpPred2C6 : Statement .grpPred2C6 := of_row 6 2 rfl

theorem grpPred3C6 : Statement .grpPred3C6 := of_row 6 3 rfl

theorem grpPred4C6 : Statement .grpPred4C6 := of_row 6 4 rfl

theorem grpPred5C6 : Statement .grpPred5C6 := of_row 6 5 rfl

theorem grpPred6C6 : Statement .grpPred6C6 := of_row 6 6 rfl

theorem grpPred7C6 : Statement .grpPred7C6 := of_row 6 7 rfl

theorem grpLitC6 : Statement .grpLitC6 := of_row 6 8 rfl

theorem grpRunC7 : Statement .grpRunC7 := of_row 7 0 rfl

theorem grpPred1C7 : Statement .grpPred1C7 := of_row 7 1 rfl

theorem grpPred2C7 : Statement .grpPred2C7 := of_row 7 2 rfl

theorem grpPred3C7 : Statement .grpPred3C7 := of_row 7 3 rfl

theorem grpPred4C7 : Statement .grpPred4C7 := of_row 7 4 rfl

theorem grpPred5C7 : Statement .grpPred5C7 := of_row 7 5 rfl

theorem grpPred6C7 : Statement .grpPred6C7 := of_row 7 6 rfl

theorem grpPred7C7 : Statement .grpPred7C7 := of_row 7 7 rfl

theorem grpLitC7 : Statement .grpLitC7 := of_row 7 8 rfl

theorem grpRunC8 : Statement .grpRunC8 := of_row 8 0 rfl

theorem grpPred1C8 : Statement .grpPred1C8 := of_row 8 1 rfl

theorem grpPred2C8 : Statement .grpPred2C8 := of_row 8 2 rfl

theorem grpPred3C8 : Statement .grpPred3C8 := of_row 8 3 rfl

theorem grpPred4C8 : Statement .grpPred4C8 := of_row 8 4 rfl

theorem grpPred5C8 : Statement .grpPred5C8 := of_row 8 5 rfl

theorem grpPred6C8 : Statement .grpPred6C8 := of_row 8 6 rfl

theorem grpPred7C8 : Statement .grpPred7C8 := of_row 8 7 rfl

theorem grpLitC8 : Statement .grpLitC8 := of_row 8 8 rfl

theorem tokNreps1 : Statement .tokNreps1 := of_row 9 0 rfl

theorem tokNreps2 : Statement .tokNreps2 := of_row 9 1 rfl

theorem tokNreps3 : Statement .tokNreps3 := of_row 9 2 rfl

theorem tokNreps4 : Statement .tokNreps4 := of_row 9 3 rfl

theorem tokNreps5 : Statement .tokNreps5 := of_row 9 4 rfl

theorem tokNreps6 : Statement .tokNreps6 := of_row 9 5 rfl

theorem tokNreps7 : Statement .tokNreps7 := of_row 9 6 rfl

theorem tokNreps8 : Statement .tokNreps8 := of_row 9 7 rfl

theorem tokNreps9 : Statement .tokNreps9 := of_row 9 8 rfl

theorem tokStepM2 : Statement .tokStepM2 := of_row 10 0 rfl

theorem tokStep0 : Statement .tokStep0 := of_row 10 1 rfl

theorem tokStep2 : Statement .tokStep2 := of_row 10 2 rfl

theorem tokRes1_M3 : Statement .tokRes1_M3 := of_row 11 0 rfl

theorem tokRes1_3 : Statement .tokRes1_3 := of_row 11 1 rfl

theorem tokRes2_M17 : Statement .tokRes2_M17 := of_row 12 0 rfl

theorem tokRes2_M5 : Statement .tokRes2_M5 := of_row 12 1 rfl

theorem tokRes2_5 : Statement .tokRes2_5 := of_row 12 2 rfl

theorem tokRes2_17 : Statement .tokRes2_17 := of_row 12 3 rfl

theorem tokRes3_M7 : Statement .tokRes3_M7 := of_row 13 0 rfl

theorem tokRes3_2 : Statement .tokRes3_2 := of_row 13 1 rfl

theorem tokRes3_9 : Statement .tokRes3_9 := of_row 13 2 rfl

theorem tokRes3_18 : Statement .tokRes3_18 := of_row 13 3 rfl

theorem tokRes4_M18 : Statement .tokRes4_M18 := of_row 14 0 rfl

theorem tokRes4_M9 : Statement .tokRes4_M9 := of_row 14 1 rfl

theorem tokRes4_M2 : Statement .tokRes4_M2 := of_row 14 2 rfl

theorem tokRes4_7 : Statement .tokRes4_7 := of_row 14 3 rfl

theorem tokRes5_M79 : Statement .tokRes5_M79 := of_row 15 0 rfl

theorem tokRes5_M49 : Statement .tokRes5_M49 := of_row 15 1 rfl

theorem tokRes5_M28 : Statement .tokRes5_M28 := of_row 15 2 rfl

theorem tokRes5_M9 : Statement .tokRes5_M9 := of_row 15 3 rfl

theorem tokRes5_9 : Statement .tokRes5_9 := of_row 15 4 rfl

theorem tokRes5_28 : Statement .tokRes5_28 := of_row 15 5 rfl

theorem tokRes5_49 : Statement .tokRes5_49 := of_row 15 6 rfl

theorem tokRes5_79 : Statement .tokRes5_79 := of_row 15 7 rfl

theorem tokRes6_M37 : Statement .tokRes6_M37 := of_row 16 0 rfl

theorem tokRes6_M16 : Statement .tokRes6_M16 := of_row 16 1 rfl

theorem tokRes6_M1 : Statement .tokRes6_M1 := of_row 16 2 rfl

theorem tokRes6_13 : Statement .tokRes6_13 := of_row 16 3 rfl

theorem tokRes6_26 : Statement .tokRes6_26 := of_row 16 4 rfl

theorem tokRes6_39 : Statement .tokRes6_39 := of_row 16 5 rfl

theorem tokRes6_55 : Statement .tokRes6_55 := of_row 16 6 rfl

theorem tokRes6_76 : Statement .tokRes6_76 := of_row 16 7 rfl

theorem tokRes7_M76 : Statement .tokRes7_M76 := of_row 17 0 rfl

theorem tokRes7_M55 : Statement .tokRes7_M55 := of_row 17 1 rfl

theorem tokRes7_M39 : Statement .tokRes7_M39 := of_row 17 2 rfl

theorem tokRes7_M26 : Statement .tokRes7_M26 := of_row 17 3 rfl

theorem tokRes7_M13 : Statement .tokRes7_M13 := of_row 17 4 rfl

theorem tokRes7_1 : Statement .tokRes7_1 := of_row 17 5 rfl

theorem tokRes7_16 : Statement .tokRes7_16 := of_row 17 6 rfl

theorem tokRes7_37 : Statement .tokRes7_37 := of_row 17 7 rfl

theorem tokLit (v : BitVec 5) : Statement (.tokLit v) := by
  apply of_check
  revert v
  decide +kernel

end Sys2Proof.Laws.Coding
end

