-- ==== Sys2Proof/Laws/Runs.lean ====
section
/-! SUPPORT. The repeats of a run group (43_rowpredictor.md R179, R180), said once by the state of the chunk. -/

namespace Sys2Proof.Machine

/-- Where the sequence goes after a group (43_rowpredictor.md R170, 46_sequencer.md R222). -/
def posAfterGroup (s : State) : Pos :=
  if 0 < s.col.toNat then .ctrl else if s.keep then .emit else if s.rg = 3 then .checker else .rowGroup (s.rg + 1)

theorem groupEnd_eq_atPos (s : State) : groupEnd s = atPos (posAfterGroup s) s := by
  unfold groupEnd afterRowGroup posAfterGroup
  split
  · rfl
  · split <;> rfl

theorem tokenDone_eq_atPos (s : State) :
    tokenDone s = if s.tok = 3 then atPos (posAfterGroup s) s else { s with tok := s.tok + 1 } := by
  unfold tokenDone
  rw [groupEnd_eq_atPos]

/-- The repeats are over. -/
theorem repeatLoop_stop {done : State → Result} (fuel : Nat) {s : State}
    (h : ¬ (s.rep.toNat < 8 ∧ s.rep.toNat < s.nreps.toNat ∧ 0 < s.col.toNat)) :
    repeatLoop done fuel s = done s := by
  cases fuel with
  | zero => rfl
  | succ n =>
    unfold repeatLoop
    rw [if_neg h]

/-- An odd repeat, then a step token. -/
theorem repeatLoop_odd {done : State → Result} (fuel : Nat) {s : State} (h8 : s.rep.toNat < 8)
    (hn : s.rep.toNat < s.nreps.toNat) (hc : 0 < s.col.toNat) (hodd : s.rep.toNat % 2 = 1)
    (hk : s.keep = true → (s.col - 2).toNat + 1 < halfWidth s) :
    repeatLoop done (fuel + 1) s = .next (atPos .step (oneRepeat s)) := by
  unfold repeatLoop
  rw [if_pos ⟨h8, hn, hc⟩, keptGroup_oneRepeat hk]
  exact if_pos (by rw [oneRepeat_rep]; exact hodd)

/-- An even repeat, then the next one. -/
theorem repeatLoop_even {done : State → Result} (fuel : Nat) {s : State} (h8 : s.rep.toNat < 8)
    (hn : s.rep.toNat < s.nreps.toNat) (hc : 0 < s.col.toNat) (heven : s.rep.toNat % 2 = 0)
    (hk : s.keep = true → (s.col - 2).toNat + 1 < halfWidth s) :
    repeatLoop done (fuel + 1) s = repeatLoop done fuel (withRep (s.rep + 1) (oneRepeat s)) := by
  conv_lhs => unfold repeatLoop
  rw [if_pos ⟨h8, hn, hc⟩, keptGroup_oneRepeat hk]
  refine (if_neg (by rw [oneRepeat_rep]; omega)).trans ?_
  unfold withRep
  rw [oneRepeat_rep]

/-- A chunk that starts without a token at `col = 0` makes no repeat (43_rowpredictor.md R180 (c)). -/
theorem soleChunk_zero {s : State} (h : s.col = 0) : soleChunk s = .next (groupEnd (startChunk 1 s)) :=
  repeatLoop_stop 8 (by simp [h])

/-- A chunk that starts without a token at `col = 2` makes one (43_rowpredictor.md R180 (a)). -/
theorem soleChunk_two {s : State} (h : s.col = 2) (hk : s.keep = true → 2 ≤ halfWidth s) :
    soleChunk s = .next (groupEnd (withRep 1 (oneRepeat (startChunk 1 s)))) := by
  have hc : s.col.toNat = 2 := by rw [h]; rfl
  have hs := toNat_col_sub_two (c := s.col) (by omega)
  refine (repeatLoop_even (s := startChunk 1 s) 7 (by simp) (by simp) (by rw [startChunk_col]; omega)
    (by simp) ?_).trans (repeatLoop_stop 7 ?_)
  · intro h'
    have := hk h'
    show (s.col - 2).toNat + 1 < halfWidth s
    omega
  · rintro ⟨-, h2, -⟩
    exact absurd h2 (by simp)

/-- The end of a chunk (43_rowpredictor.md R179, `until nreps /= 9`). -/
theorem chunkEnd_last {s : State} (h : s.nreps ≠ 9) : chunkEnd s = .next (groupEnd s) := by
  unfold chunkEnd
  rw [if_neg h]

theorem chunkEnd_chained {s : State} (h : s.nreps = 9) : chunkEnd s = beginChunk s := by
  unfold chunkEnd
  rw [if_pos h]

theorem beginChunk_token {s : State} (h : 2 < s.col.toNat) : beginChunk s = .next (atPos .nreps s) := by
  unfold beginChunk
  rw [if_pos h]
  rfl

theorem beginChunk_sole {s : State} (h : s.col.toNat ≤ 2) : beginChunk s = soleChunk s := by
  unfold beginChunk
  rw [if_neg (by omega)]

/-- `col` is 0 or 2 where it is even and at most 2. -/
theorem col_zero_or_two {s : State} (h : s.col.toNat % 2 = 0) (h2 : s.col.toNat ≤ 2) : s.col = 0 ∨ s.col = 2 := by
  rcases (by omega : s.col.toNat = 0 ∨ s.col.toNat = 2) with h | h
  · exact .inl (BitVec.eq_of_toNat_eq h)
  · exact .inr (BitVec.eq_of_toNat_eq h)

/-- What a step token does before the chunk goes on. -/
theorem stepToken_eq {s : State} {v : Int} (hk : s.keep = true → s.col.toNat + 1 < halfWidth s) :
    stepToken v s = continueChunk (withRep (s.rep + 1) (stepAdded v s)) := by
  unfold stepToken
  rw [keptGroup_stepAdded hk]
  simp only [andThen, stepAdded_rep]
  rfl

theorem nrepsToken_eq (n : BitVec 4) (s : State) : nrepsToken n s = continueChunk (startChunk n s) := rfl

end Sys2Proof.Machine
end

