-- ==== Sys2Proof/Laws/RunKeeps.lean ====
section
/-! SUPPORT. What a run group keeps of one state, and that it has a next state: stated once for any property, so that a
fact about every run group is proved from a few facts about one repeat. -/

namespace Sys2Proof.Machine

/-- `r` goes on to a state with property `Q`. -/
def Ends (Q : State → Prop) (r : Result) : Prop :=
  ∃ t, r = .next t ∧ Q t

theorem Ends.next {Q : State → Prop} {t : State} (h : Q t) : Ends Q (.next t) :=
  ⟨t, rfl, h⟩

theorem Ends.andThen {P Q : State → Prop} {r : Result} {k : State → Result} (h : Ends P r)
    (hk : ∀ t, P t → Ends Q (k t)) : Ends Q (andThen r k) := by
  obtain ⟨t, rfl, ht⟩ := h
  exact hk t ht

theorem Ends.mono {P Q : State → Prop} {r : Result} (h : Ends P r) (hpq : ∀ t, P t → Q t) : Ends Q r := by
  obtain ⟨t, rfl, ht⟩ := h
  exact ⟨t, rfl, hpq t ht⟩

/-- A property `P` of a state in which a chunk is under way, a weaker one `P0` between chunks, and the property `Q` of
the states that a token leaves: kept by what a run group does. -/
structure RunKeeps (P0 P Q : State → Prop) : Prop where
  weaken : ∀ s, P s → P0 s
  room : ∀ s, P s → 0 < s.col.toNat → s.keep = true → (s.col - 2).toNat + 1 < halfWidth s
  startChunk : ∀ s n, 1 ≤ n.toNat → n.toNat ≤ 9 → P0 s → P (startChunk n s)
  odd : ∀ s, P s → s.rep.toNat < 8 → s.rep.toNat < s.nreps.toNat → 0 < s.col.toNat → s.rep.toNat % 2 = 1 →
    Q (atPos .step (oneRepeat s))
  even : ∀ s, P s → s.rep.toNat < 8 → s.rep.toNat < s.nreps.toNat → 0 < s.col.toNat → s.rep.toNat % 2 = 0 →
    P (withRep (s.rep + 1) (oneRepeat s))
  nrepsPos : ∀ s, P0 s → 2 < s.col.toNat → Q (atPos .nreps s)
  groupEnd : ∀ s, P0 s → Q (groupEnd s)

variable {P0 P Q : State → Prop}

theorem RunKeeps.repeatLoop (K : RunKeeps P0 P Q) {done : State → Result} (hdone : ∀ s, P s → Ends Q (done s)) :
    ∀ (fuel : Nat) (s : State), P s → Ends Q (repeatLoop done fuel s) := by
  intro fuel
  induction fuel with
  | zero => exact hdone
  | succ n ih =>
    intro s h
    by_cases hg : s.rep.toNat < 8 ∧ s.rep.toNat < s.nreps.toNat ∧ 0 < s.col.toNat
    · obtain ⟨h8, hn, hc⟩ := hg
      rcases Nat.mod_two_eq_zero_or_one s.rep.toNat with hp | hp
      · rw [repeatLoop_even n h8 hn hc hp (K.room s h hc)]
        exact ih _ (K.even s h h8 hn hc hp)
      · rw [repeatLoop_odd n h8 hn hc hp (K.room s h hc)]
        exact .next (K.odd s h h8 hn hc hp)
    · rw [repeatLoop_stop _ hg]
      exact hdone s h

theorem RunKeeps.beginChunk (K : RunKeeps P0 P Q) {s : State} (h : P0 s) : Ends Q (beginChunk s) := by
  by_cases h2 : 2 < s.col.toNat
  · rw [beginChunk_token h2]
    exact .next (K.nrepsPos s h h2)
  · rw [beginChunk_sole (by omega)]
    exact K.repeatLoop (fun s h => .next (K.groupEnd s (K.weaken s h))) 8 _ (K.startChunk s 1 (by decide) (by decide) h)

theorem RunKeeps.chunkEnd (K : RunKeeps P0 P Q) {s : State} (h : P s) : Ends Q (chunkEnd s) := by
  by_cases h9 : s.nreps = 9
  · rw [chunkEnd_chained h9]
    exact K.beginChunk (K.weaken s h)
  · rw [chunkEnd_last h9]
    exact .next (K.groupEnd s (K.weaken s h))

theorem RunKeeps.continueChunk (K : RunKeeps P0 P Q) {s : State} (h : P s) : Ends Q (continueChunk s) :=
  K.repeatLoop (fun _ h => K.chunkEnd h) 8 s h

theorem RunKeeps.nrepsToken (K : RunKeeps P0 P Q) {s : State} {n : BitVec 4} (h1 : 1 ≤ n.toNat) (h9 : n.toNat ≤ 9)
    (h : P0 s) : Ends Q (nrepsToken n s) :=
  K.continueChunk (K.startChunk s n h1 h9 h)

theorem RunKeeps.stepToken (K : RunKeeps P0 P Q) {s : State} {v : Int}
    (hk : s.keep = true → s.col.toNat + 1 < halfWidth s) (h : P (withRep (s.rep + 1) (stepAdded v s))) :
    Ends Q (stepToken v s) := by
  rw [stepToken_eq hk]
  exact K.continueChunk h

theorem Ends.keptGroup {k : State → State} {s : State} (hk : s.keep = true → s.col.toNat + 1 < halfWidth s)
    (h : Q (if s.keep then k s else s)) : Ends Q (keptGroup s k) := by
  by_cases hkeep : s.keep = true
  · rw [keptGroup_kept hkeep (hk hkeep)]
    rw [if_pos hkeep] at h
    exact .next h
  · rw [keptGroup_discarded (by simpa using hkeep)]
    rw [if_neg hkeep] at h
    exact .next h

theorem Ends.litToken {b : Byte} {s : State} (hk : s.keep = true → s.col.toNat + 1 < halfWidth s)
    (h : Q (tokenDone (if s.keep then writeGroupCell s s.tok (literalValue b * s.mult.toNat) else s))) :
    Ends Q (litToken b s) :=
  Ends.andThen (P := fun u => Q (tokenDone u)) (.keptGroup hk h) fun _ h => .next h

theorem Ends.resToken {r : Int} {s : State} (hk : s.keep = true → s.col.toNat + 1 < halfWidth s)
    (h : Q (tokenDone (if s.keep then writeGroupCell s s.tok (r * 2 ^ s.cfg.residShift + predictAt s s.tok) else s))) :
    Ends Q (resToken r s) :=
  Ends.andThen (P := fun u => Q (tokenDone u)) (.keptGroup hk h) fun _ h => .next h

/-- What the value `v` of table `k` does, for the values that 00_scope.md R8 (b) admits. -/
theorem RunKeeps.execUnlisted (K : RunKeeps P0 P Q) {k : Nat} {v : Byte} {s : State} (hv : k ≤ 9 → v.toNat ≤ 8)
    (hctrl : k ≤ 8 → P0 { s with tree := 0 } ∧ (∀ c : BitVec 4, 1 ≤ c.toNat → c.toNat ≤ 7 → Q (beginPred c s)) ∧
      Q (beginLit s))
    (hnreps : k = 9 → P0 s)
    (hstep : k = 10 → (s.keep = true → s.col.toNat + 1 < halfWidth s) ∧
      ∀ a, P (withRep (s.rep + 1) (stepAdded a s)))
    (hres : 10 < k → k ≤ 17 → ∀ r, Ends Q (resToken r s)) (hlit : 17 < k → Ends Q (litToken v s)) :
    Ends Q (execUnlisted k v s) := by
  unfold Machine.execUnlisted
  by_cases h8 : k ≤ 8
  · obtain ⟨h1, h2, h3⟩ := hctrl h8
    rw [if_pos h8]
    by_cases v0 : v = 0
    · rw [if_pos v0]
      exact K.beginChunk h1
    · have hv0 : v.toNat ≠ 0 := fun h => v0 (BitVec.eq_of_toNat_eq h)
      rw [if_neg v0]
      by_cases v7 : v.toNat ≤ 7
      · rw [if_pos v7]
        have hw : (v.setWidth 4).toNat = v.toNat := by
          rw [BitVec.toNat_setWidth]
          omega
        exact .next (h2 _ (by omega) (by omega))
      · rw [if_neg v7, if_pos]
        · exact .next h3
        · have := hv (by omega)
          exact BitVec.eq_of_toNat_eq (by show v.toNat = 8; omega)
  · rw [if_neg h8]
    by_cases h9 : k = 9
    · have hv' := hv (by omega)
      have hn : 1 ≤ (repeatCount v).toNat ∧ (repeatCount v).toNat ≤ 9 := by
        have : ∀ v : Byte, v.toNat ≤ 8 → 1 ≤ (repeatCount v).toNat ∧ (repeatCount v).toNat ≤ 9 := by decide +kernel
        exact this v hv'
      rw [if_pos h9, if_pos hv']
      exact K.nrepsToken hn.1 hn.2 (hnreps h9)
    · rw [if_neg h9]
      by_cases h10 : k = 10
      · rw [if_pos h10]
        exact K.stepToken (hstep h10).1 ((hstep h10).2 _)
      · rw [if_neg h10]
        by_cases h17 : k ≤ 17
        · rw [if_pos h17]
          exact hres (by omega) h17 _
        · rw [if_neg h17]
          exact hlit (by omega)

end Sys2Proof.Machine
end

