-- ==== Sys2Proof/Laws/Twins.lean ====
section
/-! SUPPORT. What two states have in common after the same operation, and what one state keeps: stated once for any
relation, so that a property of every instruction is proved from a few facts about the small updates. -/

namespace Sys2Proof.Machine

/-- Where `r` goes on to a state, `r'` goes on to one that `E` relates to it. -/
def Follows (E : State → State → Prop) (r r' : Result) : Prop :=
  ∀ t, r = .next t → ∃ u, r' = .next u ∧ E t u

theorem Follows.next {E : State → State → Prop} {t u : State} (h : E t u) : Follows E (.next t) (.next u) := by
  intro t' ht
  cases ht
  exact ⟨u, rfl, h⟩

theorem Follows.andThen {R E : State → State → Prop} {r r' : Result} {k k' : State → Result} (h : Follows R r r')
    (hk : ∀ t u, R t u → Follows E (k t) (k' u)) : Follows E (andThen r k) (andThen r' k') := by
  cases r with
  | next t =>
    obtain ⟨u, rfl, hu⟩ := h t rfl
    exact hk t u hu
  | fault f => intro t ht; cases ht
  | refused q => intro t ht; cases ht

/-- A relation `R` between two states of a run group in which a chunk is under way, a weaker one `R0` between chunks, and
the relation `E` between the states that a token leaves: closed under what a run group does. -/
structure Twins (R0 R E : State → State → Prop) : Prop where
  weaken : ∀ s t, R s t → R0 s t
  col : ∀ s t, R0 s t → t.col = s.col
  keep : ∀ s t, R0 s t → t.keep = true → s.keep = true ∧ halfWidth t = halfWidth s
  counters : ∀ s t, R s t → t.nreps = s.nreps ∧ t.rep = s.rep
  startChunk : ∀ s t n, R0 s t → R (startChunk n s) (startChunk n t)
  oneRepeat : ∀ s t, R s t → R (oneRepeat s) (oneRepeat t)
  withRep : ∀ s t r, R s t → R (withRep r s) (withRep r t)
  stepPos : ∀ s t, R s t → E (atPos .step s) (atPos .step t)
  nrepsPos : ∀ s t, R0 s t → E (atPos .nreps s) (atPos .nreps t)
  groupEnd : ∀ s t, R0 s t → E (groupEnd s) (groupEnd t)

variable {R0 R E : State → State → Prop}

/-- A group's cell writes, on both sides. -/
theorem keptGroup_follows {Q : State → State → Prop} {k k' : State → State} {s t : State}
    (hc : t.col = s.col) (hk : t.keep = true → s.keep = true ∧ halfWidth t = halfWidth s)
    (h : Q (if s.keep then k s else s) (if t.keep then k' t else t)) :
    Follows Q (keptGroup s k) (keptGroup t k') := by
  intro v hv
  unfold keptGroup at hv ⊢
  by_cases ht : t.keep = true
  · obtain ⟨hs, hw⟩ := hk ht
    rw [if_pos hs] at hv
    rw [if_pos ht, hc, hw]
    rw [if_pos hs, if_pos ht] at h
    split at hv
    · cases hv
      rename_i hlt
      exact ⟨_, if_pos hlt, h⟩
    · cases hv
  · rw [if_neg ht]
    rw [if_neg ht] at h
    split at hv
    · rename_i hs
      rw [if_pos hs] at h
      split at hv
      · cases hv
        exact ⟨t, rfl, h⟩
      · cases hv
    · rename_i hs
      rw [if_neg hs] at h
      cases hv
      exact ⟨t, rfl, h⟩

theorem Twins.repeatLoop (T : Twins R0 R E) {done done' : State → Result}
    (hdone : ∀ s t, R s t → Follows E (done s) (done' t)) :
    ∀ (fuel : Nat) (s t : State), R s t → Follows E (repeatLoop done fuel s) (repeatLoop done' fuel t) := by
  intro fuel
  induction fuel with
  | zero => exact hdone
  | succ n ih =>
    intro s t h
    have h0 := T.weaken s t h
    obtain ⟨hn, hr⟩ := T.counters s t h
    have hc := T.col s t h0
    by_cases hg : s.rep.toNat < 8 ∧ s.rep.toNat < s.nreps.toNat ∧ 0 < s.col.toNat
    · have hg' : t.rep.toNat < 8 ∧ t.rep.toNat < t.nreps.toNat ∧ 0 < t.col.toNat := by rwa [hn, hr, hc]
      unfold Machine.repeatLoop
      rw [if_pos hg, if_pos hg']
      refine Follows.andThen (R := fun s' t' => R s' t' ∧ s'.rep = s.rep ∧ t'.rep = s.rep)
        (keptGroup_follows ?_ (T.keep s t h0) ⟨T.oneRepeat s t h, ?_, ?_⟩) ?_
      · show t.col - 2 = s.col - 2
        rw [hc]
      · exact oneRepeat_rep s
      · exact (oneRepeat_rep t).trans hr
      · rintro s' t' ⟨h', hs', ht'⟩
        by_cases hodd : s.rep.toNat % 2 = 1
        · rw [if_pos (hs'.symm ▸ hodd), if_pos (ht'.symm ▸ hodd)]
          exact .next (T.stepPos s' t' h')
        · rw [if_neg (hs'.symm ▸ hodd), if_neg (ht'.symm ▸ hodd)]
          have this : ∀ r, r = s'.rep + 1 → R (Machine.withRep (s'.rep + 1) s') (Machine.withRep r t') := by
            rintro _ rfl
            exact T.withRep s' t' _ h'
          exact ih _ _ (this _ (by rw [hs', ht']))
    · have hg' : ¬ (t.rep.toNat < 8 ∧ t.rep.toNat < t.nreps.toNat ∧ 0 < t.col.toNat) := by rwa [hn, hr, hc]
      rw [repeatLoop_stop _ hg, repeatLoop_stop _ hg']
      exact hdone s t h

theorem Twins.soleChunk (T : Twins R0 R E) {s t : State} (h : R0 s t) :
    Follows E (soleChunk s) (soleChunk t) :=
  T.repeatLoop (fun s t h => .next (T.groupEnd s t (T.weaken s t h))) 8 _ _ (T.startChunk s t 1 h)

theorem Twins.beginChunk (T : Twins R0 R E) {s t : State} (h : R0 s t) :
    Follows E (beginChunk s) (beginChunk t) := by
  have hc := T.col s t h
  by_cases h2 : 2 < s.col.toNat
  · rw [beginChunk_token h2, beginChunk_token (s := t) (by rwa [hc])]
    exact .next (T.nrepsPos s t h)
  · rw [beginChunk_sole (s := s) (by omega), beginChunk_sole (s := t) (by rw [hc]; omega)]
    exact T.soleChunk h

theorem Twins.chunkEnd (T : Twins R0 R E) {s t : State} (h : R s t) : Follows E (chunkEnd s) (chunkEnd t) := by
  have hn := (T.counters s t h).1
  by_cases h9 : s.nreps = 9
  · rw [chunkEnd_chained h9, chunkEnd_chained (hn.trans h9)]
    exact T.beginChunk (T.weaken s t h)
  · rw [chunkEnd_last h9, chunkEnd_last (s := t) (by rwa [hn])]
    exact .next (T.groupEnd s t (T.weaken s t h))

theorem Twins.continueChunk (T : Twins R0 R E) {s t : State} (h : R s t) :
    Follows E (continueChunk s) (continueChunk t) :=
  T.repeatLoop (fun _ _ h => T.chunkEnd h) 8 s t h

theorem Twins.nrepsToken (T : Twins R0 R E) {s t : State} (n : BitVec 4) (h : R0 s t) :
    Follows E (nrepsToken n s) (nrepsToken n t) :=
  T.continueChunk (T.startChunk s t n h)

theorem Twins.stepToken (T : Twins R0 R E) {s t : State} (v : Int) (h : R s t)
    (hv : R (stepAdded v s) (stepAdded v t)) : Follows E (stepToken v s) (stepToken v t) := by
  have h0 := T.weaken s t h
  refine Follows.andThen (R := R) (keptGroup_follows (T.col s t h0) (T.keep s t h0) hv) ?_
  intro s' t' h'
  have hr := (T.counters s' t' h').2
  have this : ∀ r, r = s'.rep + 1 → R (Machine.withRep (s'.rep + 1) s') (Machine.withRep r t') := by
    rintro _ rfl
    exact T.withRep s' t' _ h'
  exact T.continueChunk (this _ (by rw [hr]))

/-! ## The tokens of literal and predicted groups -/

theorem litToken_follows {s t : State} (b : Byte) (hc : t.col = s.col)
    (hk : t.keep = true → s.keep = true ∧ halfWidth t = halfWidth s)
    (h : E (tokenDone (if s.keep then writeGroupCell s s.tok (literalValue b * s.mult.toNat) else s))
      (tokenDone (if t.keep then writeGroupCell t t.tok (literalValue b * t.mult.toNat) else t))) :
    Follows E (litToken b s) (litToken b t) :=
  Follows.andThen (R := fun s' t' => E (tokenDone s') (tokenDone t')) (keptGroup_follows hc hk h)
    fun _ _ h => .next h

theorem resToken_follows {s t : State} (r : Int) (hc : t.col = s.col)
    (hk : t.keep = true → s.keep = true ∧ halfWidth t = halfWidth s)
    (h : E (tokenDone (if s.keep then writeGroupCell s s.tok (r * 2 ^ s.cfg.residShift + predictAt s s.tok) else s))
      (tokenDone (if t.keep then writeGroupCell t t.tok (r * 2 ^ t.cfg.residShift + predictAt t t.tok) else t))) :
    Follows E (resToken r s) (resToken r t) :=
  Follows.andThen (R := fun s' t' => E (tokenDone s') (tokenDone t')) (keptGroup_follows hc hk h)
    fun _ _ h => .next h

/-- What the value `v` of table `k` does, on both sides. -/
theorem Twins.execUnlisted (T : Twins R0 R E) {k : Nat} {v : Byte} {s t : State}
    (hctrl : k ≤ 8 → R0 { s with tree := 0 } { t with tree := 0 } ∧ (∀ c, E (beginPred c s) (beginPred c t)) ∧
      E (beginLit s) (beginLit t))
    (hnreps : k = 9 → R0 s t) (hstep : k = 10 → R s t ∧ ∀ a, R (stepAdded a s) (stepAdded a t))
    (hres : 10 < k → k ≤ 17 → ∀ r, Follows E (resToken r s) (resToken r t))
    (hlit : 17 < k → Follows E (litToken v s) (litToken v t)) :
    Follows E (execUnlisted k v s) (execUnlisted k v t) := by
  unfold Machine.execUnlisted
  split
  · obtain ⟨h1, h2, h3⟩ := hctrl (by assumption)
    split
    · exact T.beginChunk h1
    · split
      · exact .next (h2 _)
      · split
        · exact .next h3
        · intro u hu; cases hu
  · split
    · split
      · exact T.nrepsToken _ (hnreps (by assumption))
      · intro u hu; cases hu
    · split
      · exact T.stepToken _ (hstep (by assumption)).1 ((hstep (by assumption)).2 _)
      · split
        · exact hres (by omega) (by omega) _
        · exact hlit (by omega)

/-! ## Reading the stream -/

/-- Two reads with the same outcome, the states after them related: by `R` after a value, by `E` after a fault. -/
inductive ReadFollows {α : Type} (R E : State → State → Prop) : Read α → Read α → Prop
  | got {a : α} {s t : State} : R s t → ReadFollows R E (.got a s) (.got a t)
  | raised {s t : State} : E s t → ReadFollows R E (.raised s) (.raised t)
  | stuck (f : Fault) : ReadFollows R E (.stuck f) (.stuck f)
  | noMeaning (q : Refusal) : ReadFollows R E (.noMeaning q) (.noMeaning q)

/-- A relation that reading the stream keeps. -/
structure ReadTwins (R E : State → State → Prop) : Prop where
  same : ∀ s t, R s t → t.ptr = s.ptr ∧ t.cur = s.cur ∧ t.rem = s.rem ∧ t.srcLen = s.srcLen ∧ t.src = s.src ∧
    t.huff = s.huff ∧ t.cfg = s.cfg
  cursor : ∀ s t, R s t → ∀ p c r, R { s with ptr := p, cur := c, rem := r } { t with ptr := p, cur := c, rem := r }
  raised : ∀ s t, R s t → E (raise .truncated s) (raise .truncated t)

theorem ReadFollows.bind {α β : Type} {R' : State → State → Prop} {r r' : Read α} {k k' : α → State → Read β}
    (h : ReadFollows R E r r') (hk : ∀ a s t, R s t → ReadFollows R' E (k a s) (k' a t)) :
    ReadFollows R' E (readThen r k) (readThen r' k') := by
  cases h with
  | got h => exact hk _ _ _ h
  | raised h => exact .raised h
  | stuck f => exact .stuck f
  | noMeaning q => exact .noMeaning q

theorem ReadFollows.run {α : Type} {E' : State → State → Prop} {r r' : Read α} {k k' : α → State → Result}
    (h : ReadFollows R E r r') (he : ∀ s t, E s t → E' s t) (hk : ∀ a s t, R s t → Follows E' (k a s) (k' a t)) :
    Follows E' (runRead r k) (runRead r' k') := by
  cases h with
  | got h => exact hk _ _ _ h
  | raised h => exact .next (he _ _ h)
  | stuck f => intro u hu; cases hu
  | noMeaning q => intro u hu; cases hu

theorem ReadFollows.mono {α : Type} {E' : State → State → Prop} {r r' : Read α} (h : ReadFollows R E r r')
    (he : ∀ s t, E s t → E' s t) : ReadFollows R E' r r' := by
  cases h with
  | got h => exact .got h
  | raised h => exact .raised (he _ _ h)
  | stuck f => exact .stuck f
  | noMeaning q => exact .noMeaning q

theorem ReadTwins.refill (T : ReadTwins R E) {s t : State} (h : R s t) : ReadFollows R E (refill s) (refill t) := by
  obtain ⟨hp, hc, hr, hl, hs, -, -⟩ := T.same s t h
  unfold Machine.refill readSrc
  by_cases hlt : s.srcLen.toNat ≤ s.ptr.toNat
  · rw [if_pos hlt, if_pos (by rw [hl, hp]; exact hlt)]
    exact .raised (T.raised s t h)
  · rw [if_neg hlt, if_neg (by rw [hl, hp]; exact hlt),
      show storeGet t.src t.ptr.toNat = storeGet s.src s.ptr.toNat by rw [hs, hp]]
    cases storeGet s.src s.ptr.toNat with
    | none =>
      dsimp only
      rw [hp]
      exact .stuck _
    | some b =>
      have : ∀ p, p = s.ptr + 1 → R { s with cur := b, ptr := s.ptr + 1, rem := 8 } { t with cur := b, ptr := p, rem := 8 } := by
        rintro _ rfl
        exact T.cursor s t h _ _ _
      exact .got (this _ (by rw [hp]))

theorem ReadTwins.takeBit (T : ReadTwins R E) {s t : State} (h : R s t) : ReadFollows R E (takeBit s) (takeBit t) := by
  obtain ⟨hp, hc, hr, -⟩ := T.same s t h
  have : ∀ b p c r, b = s.cur.getLsbD (s.rem - 1).toNat → p = s.ptr → c = s.cur → r = s.rem - 1 →
      ReadFollows R E (.got (s.cur.getLsbD (s.rem - 1).toNat) { s with rem := s.rem - 1 })
        (.got b { t with ptr := p, cur := c, rem := r }) := by
    rintro _ _ _ _ rfl rfl rfl rfl
    exact .got (T.cursor s t h _ _ _)
  exact this _ _ _ _ (by rw [hc, hr]) hp hc (by rw [hr])

theorem ReadTwins.readBit (T : ReadTwins R E) {s t : State} (h : R s t) : ReadFollows R E (readBit s) (readBit t) := by
  have hr := (T.same s t h).2.2.1
  unfold Machine.readBit
  by_cases h0 : s.rem = 0
  · rw [if_pos h0, if_pos (hr.trans h0)]
    exact (T.refill h).bind fun _ s t h => T.takeBit h
  · rw [if_neg h0, if_neg (by rwa [hr])]
    exact T.takeBit h

theorem ReadTwins.readBitsLoop (T : ReadTwins R E) : ∀ (n v : Nat) {s t : State}, R s t →
    ReadFollows R E (readBitsLoop n v s) (readBitsLoop n v t) := by
  intro n
  induction n with
  | zero => intro v s t h; exact .got h
  | succ n ih =>
    intro v s t h
    exact (T.readBit h).bind fun b s t h => ih _ h

theorem ReadTwins.readBits (T : ReadTwins R E) (n : Nat) {s t : State} (h : R s t) :
    ReadFollows R E (readBits n s) (readBits n t) := by
  unfold Machine.readBits
  split
  · exact T.readBitsLoop n 0 h
  · exact .noMeaning _

theorem ReadTwins.decodeLoop (T : ReadTwins R E) (k : Nat) : ∀ (n j p : Nat) {s t : State}, R s t →
    ReadFollows R E (decodeLoop k n j p s) (decodeLoop k n j p t) := by
  intro n
  induction n with
  | zero => intro j p s t h; exact .noMeaning _
  | succ n ih =>
    intro j p s t h
    refine (T.readBits 1 h).bind fun b s t h => ?_
    obtain ⟨-, -, -, -, -, hh, hc⟩ := T.same s t h
    have e : readHuff t k = readHuff s k := by
      funext i
      unfold readHuff
      rw [hh, hc]
    dsimp only
    rw [e]
    split
    · split
      · exact .noMeaning _
      · exact .stuck _
    · split
      · exact .got h
      · exact ih _ _ h

/-- Running a code word is running its value (30_encoding.md R98, R100): the row found and the shared operation agree. -/
theorem runStream_code (k : Nat) (s : State) :
    runStream (.code k) s = runRead (decodeToken k s) (Machine.execUnlisted k) := by
  show runRead (fetchCode k s) execFetched = _
  unfold fetchCode
  cases decodeToken k s with
  | got v u =>
    simp only [readThen, runRead]
    cases h : rowOf k v with
    | none => rfl
    | some i => exact exec_rowOf h u
  | _ => rfl

/-- The three fields of a band header (42_scaletracker.md R160), with `M` as the value read. -/
def readHeader (s : State) : Read (BitVec 6) :=
  readThen (readBits 6 s) fun m s =>
    readThen (readBits 6 { s with mult := BitVec.ofNat 6 m }) fun _ s =>
      readThen (readBits 6 s) fun _ s => .got (BitVec.ofNat 6 m) s

/-- Running a band header is reading its fields, then BANDHDR of its M. -/
theorem runStream_header (s : State) : runStream .header s = runRead (readHeader s) bandHeader := by
  show runRead (fetchHeader s) execFetched = _
  unfold fetchHeader readHeader
  cases readBits 6 s with
  | got m u =>
    simp only [readThen]
    cases readBits 6 { u with mult := BitVec.ofNat 6 m } with
    | got p1 v =>
      simp only
      cases readBits 6 v with
      | got p2 w => rfl
      | _ => rfl
    | _ => rfl
  | _ => rfl

theorem ReadTwins.readHeader (T : ReadTwins R E) {R' E' : State → State → Prop} (T' : ReadTwins R' E')
    (he : ∀ s t, E s t → E' s t) (hm : ∀ s t m, R s t → R' { s with mult := m } { t with mult := m }) {s t : State}
    (h : R s t) : ReadFollows R' E' (readHeader s) (readHeader t) := by
  refine ((T.readBits 6 h).mono he).bind fun m s t h => (T'.readBits 6 (hm s t _ h)).bind fun p1 s t h => ?_
  exact (T'.readBits 6 h).bind fun p2 s t h => .got h

/-- A band header runs on both sides. -/
theorem ReadTwins.runHeader (T : ReadTwins R E) {R' E' E'' : State → State → Prop} (T' : ReadTwins R' E')
    (he : ∀ s t, E s t → E' s t) (he' : ∀ s t, E' s t → E'' s t)
    (hm : ∀ s t m, R s t → R' { s with mult := m } { t with mult := m })
    (hx : ∀ m s t, R' s t → Follows E'' (bandHeader m s) (bandHeader m t)) {s t : State} (h : R s t) :
    Follows E'' (runStream .header s) (runStream .header t) := by
  rw [runStream_header, runStream_header]
  exact (T.readHeader T' he hm h).run he' hx

/-- The code words of a slot run on both sides. -/
theorem ReadTwins.runCode (T : ReadTwins R E) {E' : State → State → Prop} {k : Nat} {s t : State}
    (h : R s t) (he : ∀ s t, E s t → E' s t) (hx : ∀ v s t, R s t → Follows E' (execUnlisted k v s) (execUnlisted k v t)) :
    Follows E' (runStream (.code k) s) (runStream (.code k) t) := by
  rw [runStream_code, runStream_code]
  exact (T.decodeLoop k 8 1 0 h).run he hx

end Sys2Proof.Machine
end

