-- ==== Sys2Proof/Laws/ReadKeeps.lean ====
section
/-! SUPPORT. What reading the stream keeps of one state, stated once for any property, and what running the item that was
read then leads to. -/

namespace Sys2Proof.Machine

/-- Every next state of `r` has property `Q`. -/
def Leads (Q : State → Prop) (r : Result) : Prop :=
  ∀ t, r = .next t → Q t

theorem Leads.next {Q : State → Prop} {t : State} (h : Q t) : Leads Q (.next t) := by
  intro t' ht
  cases ht
  exact h

theorem Ends.leads {Q : State → Prop} {r : Result} (h : Ends Q r) : Leads Q r := by
  obtain ⟨t, rfl, h⟩ := h
  exact .next h

/-- A read that keeps `P`, or ends the run in a state with property `E`, or stops. -/
inductive Reads {α : Type} (P E : State → Prop) : Read α → Prop
  | got (a : α) {s : State} : P s → Reads P E (.got a s)
  | raised {s : State} : E s → Reads P E (.raised s)
  | stuck (f : Fault) : Reads P E (.stuck f)
  | noMeaning (q : Refusal) : Reads P E (.noMeaning q)

/-- A property that the cursor's moves keep (40_bitreader.md R130, R131). -/
structure ReaderKeeps (P E : State → Prop) : Prop where
  refill : ∀ s b, P s → s.rem = 0 → s.ptr.toNat < s.srcLen.toNat → storeGet s.src s.ptr.toNat = some b →
    P { s with cur := b, ptr := s.ptr + 1, rem := 8 }
  take : ∀ s, P s → s.rem ≠ 0 → P { s with rem := s.rem - 1 }
  raised : ∀ s, P s → s.rem = 0 → s.srcLen.toNat ≤ s.ptr.toNat → E (raise .truncated s)

variable {P E : State → Prop}

theorem Reads.bind {α β : Type} {P' : State → Prop} {r : Read α} {k : α → State → Read β} (h : Reads P E r)
    (hk : ∀ a s, P s → Reads P' E (k a s)) : Reads P' E (readThen r k) := by
  cases h with
  | got a h => exact hk a _ h
  | raised h => exact .raised h
  | stuck f => exact .stuck f
  | noMeaning q => exact .noMeaning q

theorem Reads.mono {α : Type} {E' : State → Prop} {r : Read α} (h : Reads P E r) (he : ∀ s, E s → E' s) :
    Reads P E' r := by
  cases h with
  | got a h => exact .got a h
  | raised h => exact .raised (he _ h)
  | stuck f => exact .stuck f
  | noMeaning q => exact .noMeaning q

theorem Reads.run {α : Type} {Q : State → Prop} {r : Read α} {k : α → State → Result} (h : Reads P E r)
    (he : ∀ s, E s → Q s) (hk : ∀ a s, P s → Leads Q (k a s)) : Leads Q (runRead r k) := by
  cases h with
  | got a h => exact hk a _ h
  | raised h => exact .next (he _ h)
  | stuck f => intro t ht; cases ht
  | noMeaning q => intro t ht; cases ht

theorem ReaderKeeps.readBit (K : ReaderKeeps P E) {s : State} (h : P s) : Reads P E (readBit s) := by
  unfold Machine.readBit
  by_cases h0 : s.rem = 0
  · rw [if_pos h0]
    have hr : Reads (fun u => P u ∧ u.rem ≠ 0) E (Machine.refill s) := by
      unfold Machine.refill readSrc
      by_cases hlt : s.srcLen.toNat ≤ s.ptr.toNat
      · rw [if_pos hlt]
        exact .raised (K.raised s h h0 hlt)
      · rw [if_neg hlt]
        cases hb : storeGet s.src s.ptr.toNat with
        | none => exact .stuck _
        | some b => exact .got () ⟨K.refill s b h h0 (by omega) hb, show (8 : BitVec 4) ≠ 0 by decide⟩
    exact hr.bind fun _ u hu => .got _ (K.take u hu.1 hu.2)
  · rw [if_neg h0]
    exact .got _ (K.take s h h0)

theorem ReaderKeeps.readBitsLoop (K : ReaderKeeps P E) : ∀ (n v : Nat) {s : State}, P s →
    Reads P E (readBitsLoop n v s) := by
  intro n
  induction n with
  | zero => intro v s h; exact .got v h
  | succ n ih =>
    intro v s h
    exact (K.readBit h).bind fun b s h => ih _ h

theorem ReaderKeeps.readBits (K : ReaderKeeps P E) (n : Nat) {s : State} (h : P s) : Reads P E (readBits n s) := by
  unfold Machine.readBits
  split
  · exact K.readBitsLoop n 0 h
  · exact .noMeaning _

theorem ReaderKeeps.decodeLoop (K : ReaderKeeps P E) (k : Nat) : ∀ (n j p : Nat) {s : State}, P s →
    Reads P E (decodeLoop k n j p s) := by
  intro n
  induction n with
  | zero => intro j p s h; exact .noMeaning _
  | succ n ih =>
    intro j p s h
    refine (K.readBits 1 h).bind fun b s h => ?_
    dsimp only
    split
    · split
      · exact .noMeaning _
      · exact .stuck _
    · split
      · exact .got _ h
      · exact ih _ _ h

/-- What running a code word leads to. -/
theorem ReaderKeeps.runCode (K : ReaderKeeps P E) {Q : State → Prop} {k : Nat} {s : State} (h : P s)
    (he : ∀ s, E s → Q s) (hx : ∀ v s, P s → Leads Q (execUnlisted k v s)) : Leads Q (runStream (.code k) s) := by
  rw [runStream_code]
  exact (K.decodeLoop k 8 1 0 h).run he hx

/-- What running a band header leads to. -/
theorem ReaderKeeps.runHeader (K : ReaderKeeps P E) {Q : State → Prop}
    (hm : ∀ s m, P s → P { s with mult := m }) (he : ∀ s, E s → Q s)
    (hx : ∀ m s, P s → Leads Q (bandHeader m s)) {s : State} (h : P s) : Leads Q (runStream .header s) := by
  rw [runStream_header]
  refine Reads.run (P := P) (E := E) ?_ he hx
  exact (K.readBits 6 h).bind fun m s h => (K.readBits 6 (hm s _ h)).bind fun p1 s h =>
    (K.readBits 6 h).bind fun p2 s h => .got _ h

/-- A control or repeat-count value outside 0..8 has no next state (00_scope.md R8 (b)). -/
theorem execUnlisted_illegal {k : Nat} {v : Byte} (hk : k ≤ 9) (hv : 8 < v.toNat) (s : State) :
    execUnlisted k v s = .refused (.illegalSymbol k v) := by
  unfold execUnlisted
  have h0 : ¬ v = 0 := by
    rintro rfl
    exact absurd hv (by decide)
  have h8 : ¬ v = 8 := by
    rintro rfl
    exact absurd hv (by decide)
  by_cases h : k ≤ 8
  · rw [if_pos h, if_neg h0, if_neg (by omega), if_neg h8]
  · rw [if_neg h, if_pos (by omega), if_neg (by omega)]

theorem RunKeeps.leads {P0 P Q : State → Prop} (K : RunKeeps P0 P Q) {k : Nat} {v : Byte} {s : State}
    (hctrl : k ≤ 8 → P0 { s with tree := 0 } ∧ (∀ c : BitVec 4, 1 ≤ c.toNat → c.toNat ≤ 7 → Q (beginPred c s)) ∧
      Q (beginLit s))
    (hnreps : k = 9 → P0 s)
    (hstep : k = 10 → (s.keep = true → s.col.toNat + 1 < halfWidth s) ∧
      ∀ a, P (withRep (s.rep + 1) (stepAdded a s)))
    (hres : 10 < k → k ≤ 17 → ∀ r, Ends Q (resToken r s)) (hlit : 17 < k → Ends Q (litToken v s)) :
    Leads Q (Machine.execUnlisted k v s) := by
  by_cases hv : k ≤ 9 ∧ 8 < v.toNat
  · rw [execUnlisted_illegal hv.1 hv.2]
    intro t ht
    cases ht
  · exact (K.execUnlisted (fun h => by omega) hctrl hnreps hstep hres hlit).leads

end Sys2Proof.Machine
end

