-- ==== Sys2Proof/Laws/Sequence.lean ====
section
/-! SUPPORT. The sequence's own operations (46_sequencer.md R220 to R222), each as one update of the state. -/

namespace Sys2Proof.Machine

/-- What the geometry test lets through (46_sequencer.md R220). -/
theorem geometry_of_badGeometry {w h : BitVec 16} (hg : badGeometry w h = false) :
    4 ≤ w.toNat ∧ w.toNat % 4 = 0 ∧ 4 ≤ h.toNat ∧ h.toNat % 4 = 0 := by
  unfold badGeometry at hg
  simp only [Bool.or_eq_false_iff, beq_eq_false_iff_ne, bne_eq_false_iff_eq] at hg
  obtain ⟨⟨⟨h1, h2⟩, h3⟩, h4⟩ := hg
  have : w.toNat ≠ 0 := fun h => h1 (BitVec.eq_of_toNat_eq h)
  have : h.toNat ≠ 0 := fun h => h2 (BitVec.eq_of_toNat_eq h)
  omega

/-- `col <- W2` loses nothing. -/
theorem toNat_ofNat_halfWidth (s : State) : (BitVec.ofNat 16 (halfWidth s)).toNat = halfWidth s := by
  have := halfWidth_lt s
  rw [BitVec.toNat_ofNat]
  exact Nat.mod_eq_of_lt (by omega)

theorem initStores_eq (s : State) : initStores s =
    { s with huff := [], curve := [], rbuf := [], plane := [], prevM := s.cfg.prevMInit, ptr := 0, rem := 0 } := rfl

/-- The state before `groupEnd` at the entry of row-group `g`. -/
theorem rowGroupEntry_eq (g : BitVec 2) (s : State) : ∃ rb, rowGroupEntry g s = groupEnd
    { s with rg := g, keep := decide (g.toNat < 2), rbuf := rb, tree := 1, col := BitVec.ofNat 16 (halfWidth s) } ∧
      rb = if g.toNat < 2 then (seedSentinel s).rbuf else s.rbuf := by
  unfold rowGroupEntry
  by_cases hg : g.toNat < 2
  · refine ⟨_, ?_, (if_pos hg).symm⟩
    simp only [hg, decide_true, if_true]
    rw [seedSentinel_eq { s with rg := g, keep := true }]
    rfl
  · refine ⟨_, ?_, (if_neg hg).symm⟩
    simp only [hg, decide_false]
    rfl

theorem emit_eq (s : State) : emit s = { s with plane := (writePlane s (emitWrites s)).plane, pos := .carry } := by
  unfold emit
  rw [writePlane_eq]

theorem carry_eq_atPos (s : State) :
    carry s = atPos (if s.rg = 3 then .checker else .rowGroup (s.rg + 1)) { s with rbuf := (carryRow s).rbuf } := by
  have h : carry s = atPos (if s.rg = 3 then .checker else .rowGroup (s.rg + 1)) (carryRow s) := by
    unfold carry afterRowGroup atPos
    rw [carryRow_rg]
  rw [h, carryRow_eq]

theorem checker_eq (s : State) : checker s =
    if s.row.toNat + 4 < s.h.toNat then
      { s with plane := (checkerRows s).plane, row := s.row + 4, pos := .bandHdr }
    else { s with plane := (checkerRows s).plane, pos := .tone } := by
  unfold checker
  rw [checkerRows_eq]

/-- The positions CHECKER rewrites (45_demosaic.md R211). -/
theorem mem_checkerPositions {s : State} {y x : Nat} :
    (y, x) ∈ checkerPositions s ↔
      s.row.toNat ≤ y ∧ y < s.row.toNat + 4 ∧ x < s.w.toNat ∧ (x + y) % 2 = 1 := by
  unfold checkerPositions
  simp only [List.mem_flatMap, List.mem_range, List.mem_map, List.mem_filter, decide_eq_true_eq, Prod.mk.injEq]
  constructor
  · rintro ⟨dy, hdy, a, ⟨ha, hp⟩, rfl, rfl⟩
    omega
  · rintro ⟨h1, h2, h3, h4⟩
    exact ⟨y - s.row.toNat, by omega, x, ⟨h3, by rw [Nat.add_sub_cancel' h1]; exact h4⟩, by omega, rfl⟩

/-- The row and the column of a row-major address. -/
theorem divMod_rowMajor {w y x : Nat} (hx : x < w) : (y * w + x) / w = y ∧ (y * w + x) % w = x := by
  have hw : 0 < w := by omega
  constructor
  · rw [Nat.mul_comm, Nat.mul_add_div hw, Nat.div_eq_of_lt hx]
    omega
  · rw [Nat.mul_comm, Nat.mul_add_mod, Nat.mod_eq_of_lt hx]

/-! ## DEMOSAIC -/

@[simp] theorem length_t8Samples (s : State) : (t8Samples s).length = s.h.toNat * s.w.toNat := by
  simp [t8Samples]

/-- The default is the identity (45_demosaic.md R215). -/
@[simp] theorem demosaicOf_nil (a : DemosaicArgs) : demosaicOf [] a = a.t8 := rfl

/-- Any function is an implementation's DEMOSAIC on any finite set of arguments (45_demosaic.md R213,
93_implementation_defined.md U16). -/
theorem demosaicOf_table (f : DemosaicArgs → List Byte) {args : List DemosaicArgs} {a : DemosaicArgs} (h : a ∈ args) :
    demosaicOf (args.map fun b => (b, f b)) a = f a := by
  unfold demosaicOf
  induction args with
  | nil => cases h
  | cons b rest ih =>
    by_cases hb : b = a
    · simp [hb]
    · simpa [hb] using ih (List.mem_of_ne_of_mem (Ne.symm hb) h)

/-- An admitted DEMOSAIC gives W * H bytes (00_scope.md R8 (e), 45_demosaic.md R213). -/
theorem length_demosaicOf {g : List (DemosaicArgs × List Byte)} (hg : demosaicAdmitted g = true) {a : DemosaicArgs}
    (ha : a.t8.length = a.w * a.h) : (demosaicOf g a).length = a.w * a.h := by
  unfold demosaicOf
  split
  · rename_i p hp
    have hm := List.all_eq_true.1 hg p (List.mem_of_find?_eq_some hp)
    have he := List.find?_some hp
    rw [← beq_iff_eq.1 he]
    exact beq_iff_eq.1 hm
  · exact ha

end Sys2Proof.Machine
end

