-- ==== Sys2Proof/Laws/Tables.lean ====
section
/-! SUPPORT. The code tables: each entry's run, and what DECODE's loop does on a table whose runs are whole
(41_huffman.md R141, R145). -/

namespace Sys2Proof.Machine

theorem run_length {l : Nat} (h : l ≤ 8) : 256 >>> l = 2 ^ (8 - l) := by
  interval_cases l <;> rfl

/-- Two slots are in one run of length `2^(8-l)` when they agree on their top bits. -/
theorem same_run {st n S S' : Nat} (hst : st % n = 0) (h1 : st ≤ S) (h2 : S < st + n) (h : S' / n = S / n) :
    st ≤ S' ∧ S' < st + n := by
  have hn : 0 < n := by omega
  obtain ⟨q, rfl⟩ := Nat.dvd_of_mod_eq_zero hst
  have hq : S / n = q := by
    apply Nat.div_eq_of_lt_le
    · rwa [Nat.mul_comm]
    · rw [Nat.add_mul, Nat.mul_comm]; omega
  rw [hq] at h
  have h3 := Nat.div_mul_le_self S' n
  have h4 := Nat.lt_div_mul_add (a := S') hn
  rw [h, Nat.mul_comm] at h3 h4
  exact ⟨h3, h4⟩

/-- BUILD's array of a laid-out list: every slot holds an entry, the same throughout the entry's run
(41_huffman.md R141: "the set of indices whose top `L` bits equal the entry's code word"). -/
theorem entryAt_run : ∀ (spec : List (Nat × Int)) (s0 : Nat), specLaidOut spec s0 = true →
    ∀ S, s0 ≤ S → S < 4608 →
    ∃ e, entryAt spec (S - s0) = some e ∧ 1 ≤ e.len.toNat ∧ e.len.toNat ≤ 8 ∧
      ∀ S', S' / 2 ^ (8 - e.len.toNat) = S / 2 ^ (8 - e.len.toNat) → s0 ≤ S' ∧ entryAt spec (S' - s0) = some e := by
  intro spec
  induction spec with
  | nil =>
    intro s0 h S h1 h2
    simp only [specLaidOut, beq_iff_eq] at h
    omega
  | cons p rest ih =>
    obtain ⟨l, v⟩ := p
    intro s0 h S h1 h2
    simp only [specLaidOut, Bool.and_eq_true, decide_eq_true_eq, beq_iff_eq] at h
    obtain ⟨⟨⟨⟨⟨hl1, hl8⟩, _⟩, _⟩, hal⟩, hrest⟩ := h
    have hrun := run_length hl8
    have hlen : (BitVec.ofNat 4 l).toNat = l := by
      rw [BitVec.toNat_ofNat]
      omega
    by_cases hS : S < s0 + 2 ^ (8 - l)
    · refine ⟨⟨BitVec.ofNat 4 l, BitVec.ofInt 8 v⟩, ?_, by rw [hlen]; exact hl1, by rw [hlen]; exact hl8, ?_⟩
      · unfold entryAt
        rw [if_pos (by rw [hrun]; omega)]
      · intro S' hS'
        rw [hlen] at hS'
        rw [hrun] at hal
        obtain ⟨h3, h4⟩ := same_run hal h1 hS hS'
        refine ⟨h3, ?_⟩
        unfold entryAt
        rw [if_pos (by rw [hrun]; omega)]
    · obtain ⟨e, h3, h4, h5, h6⟩ := ih (s0 + 256 >>> l) hrest S (by rw [hrun]; omega) h2
      refine ⟨e, ?_, h4, h5, fun S' hS' => ?_⟩
      · unfold entryAt
        rw [if_neg (by rw [hrun]; omega), ← h3]
        congr 1
        omega
      · obtain ⟨h7, h8⟩ := h6 S' hS'
        rw [hrun] at h7 h8
        have hpos := Nat.two_pow_pos (8 - l)
        refine ⟨by omega, ?_⟩
        unfold entryAt
        rw [if_neg (by rw [hrun]; omega), ← h8]
        congr 1
        rw [hrun]
        omega

/-- A table whose 256 indices each hold an entry, the same throughout its run (41_huffman.md R140, R147 (b)). -/
def RunsWhole (f : Nat → Option HuffEntry) : Prop :=
  ∀ c, c < 256 → ∃ e, f c = some e ∧ 1 ≤ e.len.toNat ∧ e.len.toNat ≤ 8 ∧
    ∀ c', c' < 256 → c' / 2 ^ (8 - e.len.toNat) = c / 2 ^ (8 - e.len.toNat) → f c' = some e

theorem litEntry_run : ∀ c, c < 256 → litEntry c = litEntry (8 * (c / 8)) := by decide +kernel

/-- Every table of a laid-out HUFF_SPEC, and the literal table, is whole (00_scope.md R8 (a), 41_huffman.md R142). -/
theorem runsWhole_builtEntry {spec : List (Nat × Int)} (h : specLaidOut spec 0 = true) {t : Nat} (ht : t ≤ 18) :
    RunsWhole (builtEntry spec t) := by
  intro c hc
  unfold builtEntry
  by_cases h18 : t < 18
  · simp only [if_pos h18]
    obtain ⟨e, h1, h2, h3, h4⟩ := entryAt_run spec 0 h (256 * t + c) (Nat.zero_le _) (by omega)
    refine ⟨e, h1, h2, h3, fun c' _ hcc => (h4 (256 * t + c') ?_).2⟩
    have hd : 256 * t = 2 ^ (8 - e.len.toNat) * (2 ^ e.len.toNat * t) := by
      rw [← Nat.mul_assoc, ← Nat.pow_add, Nat.sub_add_cancel h3]
    rw [hd, Nat.mul_add_div (by positivity), Nat.mul_add_div (by positivity), hcc]
  · have : t = 18 := by omega
    subst this
    simp only [if_neg h18]
    have hl : (litEntry c).len.toNat = 5 := rfl
    refine ⟨litEntry c, rfl, by rw [hl]; decide, by rw [hl]; decide, fun c' hc' hcc => ?_⟩
    rw [hl] at hcc
    rw [litEntry_run c hc, litEntry_run c' hc', show c' / 8 = c / 8 from hcc]
    rfl

/-- DECODE's loop on a whole table (41_huffman.md R145): it stops at the length of the entry that all eight bits
index. `c` is the number of the eight bits, of which the first `k - 1` are read. -/
theorem takeCode_runsWhole {spec : List (Nat × Int)} {t c : Nat} (hc : c < 256) {e : HuffEntry}
    (hf : RunsWhole (builtEntry spec t)) (he : builtEntry spec t c = some e) :
    ∀ (n k : Nat) (bits : List Bool), n + k = 9 → 1 ≤ k → k ≤ e.len.toNat → n ≤ bits.length →
      bitsValue (bits.take n) = c % 2 ^ n →
      takeCode spec t n k (c / 2 ^ n) bits = .ok (e.val, bits.drop (e.len.toNat + 1 - k)) := by
  obtain ⟨e', he', h1, h8, hrun⟩ := hf c hc
  obtain rfl : e' = e := by rw [he] at he'; exact (Option.some.inj he').symm
  intro n
  induction n with
  | zero => intro k bits hnk _ hke; omega
  | succ n ih =>
    intro k bits hnk hk hke hlen hval
    obtain ⟨b, rest, rfl⟩ : ∃ b rest, bits = b :: rest := by
      cases bits with
      | nil => simp at hlen
      | cons b rest => exact ⟨b, rest, rfl⟩
    have hlen' : n ≤ rest.length := by simpa using hlen
    rw [List.take_succ_cons, bitsValue_cons, List.length_take_of_le hlen'] at hval
    have hlt := bitsValue_lt (rest.take n)
    rw [List.length_take_of_le hlen'] at hlt
    have hpow : 2 ^ (n + 1) = 2 * 2 ^ n := by rw [Nat.pow_succ]; omega
    have hpos : 0 < 2 ^ n := Nat.two_pow_pos n
    -- the next bit and the rest, in terms of `c`
    have hsplit : c % 2 ^ (n + 1) = 2 ^ n * (c / 2 ^ n % 2) + c % 2 ^ n := by
      rw [Nat.pow_succ, Nat.mod_mul]
      omega
    have hb : b.toNat = c / 2 ^ n % 2 := by
      have hm : c % 2 ^ n < 2 ^ n := Nat.mod_lt _ hpos
      rw [hsplit] at hval
      rcases Nat.mod_two_eq_zero_or_one (c / 2 ^ n) with h0 | h0 <;> rw [h0] at hval ⊢ <;> cases b <;>
        simp at hval ⊢ <;> omega
    have hrest : bitsValue (rest.take n) = c % 2 ^ n := by
      rw [hsplit, ← hb] at hval
      rw [Nat.mul_comm] at hval
      omega
    have hp : 2 * (c / 2 ^ (n + 1)) + b.toNat = c / 2 ^ n := by
      rw [hb, Nat.pow_succ, ← Nat.div_div_eq_div_mul]
      omega
    have hidx : (c / 2 ^ n) <<< (8 - k) = c / 2 ^ n * 2 ^ n := by
      rw [Nat.shiftLeft_eq]
      congr 2
      omega
    have hlt256 : c / 2 ^ n * 2 ^ n < 256 := lt_of_le_of_lt (Nat.div_mul_le_self c _) hc
    have hq : c / 2 ^ n * 2 ^ n / 2 ^ n = c / 2 ^ n := Nat.mul_div_cancel _ hpos
    have hstep : takeCode spec t (n + 1) k (c / 2 ^ (n + 1)) (b :: rest) =
        match builtEntry spec t (c / 2 ^ n * 2 ^ n) with
        | none => .error (if t ≤ 18 then .incompleteTable t else .noSuchTable t)
        | some e => if e.len.toNat = k then .ok (e.val, rest) else takeCode spec t n (k + 1) (c / 2 ^ n) rest := by
      conv_lhs => unfold takeCode
      simp only
      rw [hp, hidx]
      all_goals rfl
    rw [hstep]
    obtain ⟨e2, h2, h21, h28, h2run⟩ := hf _ hlt256
    rw [h2]
    simp only
    by_cases hk2 : e2.len.toNat = k
    · -- its run holds `c`, so it is the entry of `c`
      have hn : 8 - e2.len.toNat = n := by omega
      rw [hn] at h2run
      have := h2run c hc hq.symm
      rw [he] at this
      obtain rfl := Option.some.inj this
      rw [if_pos hk2, show e'.len.toNat + 1 - k = 1 by omega, List.drop_succ_cons, List.drop_zero]
    · rw [if_neg hk2]
      have hne : e'.len.toNat ≠ k := by
        intro heq
        have hn : 8 - e'.len.toNat = n := by omega
        rw [hn] at hrun
        have := hrun _ hlt256 hq
        rw [h2] at this
        obtain rfl := Option.some.inj this
        exact hk2 heq
      rw [ih (k + 1) rest (by omega) (by omega) (by omega) hlen' hrest,
        show e'.len.toNat + 1 - k = (e'.len.toNat + 1 - (k + 1)) + 1 by omega, List.drop_succ_cons]

/-- DECODE of eight bits or more by a whole table (41_huffman.md R145). -/
theorem decodeCode_runsWhole {spec : List (Nat × Int)} {t : Nat} (hf : RunsWhole (builtEntry spec t))
    {bits : List Bool} (hb : 8 ≤ bits.length) {e : HuffEntry}
    (he : builtEntry spec t (bitsValue (bits.take 8)) = some e) :
    decodeCode spec t bits = .ok (e.val, bits.drop e.len.toNat) := by
  have hc : bitsValue (bits.take 8) < 256 := by
    have := bitsValue_lt (bits.take 8)
    rwa [List.length_take_of_le hb] at this
  obtain ⟨e', he', h1, h8, -⟩ := hf _ hc
  obtain rfl : e' = e := by rw [he] at he'; exact (Option.some.inj he').symm
  have h := takeCode_runsWhole hc hf he 8 1 bits rfl (le_refl _) h1 hb (Nat.mod_eq_of_lt hc).symm
  have h0 : bitsValue (bits.take 8) / 2 ^ 8 = 0 := Nat.div_eq_of_lt hc
  rw [h0] at h
  exact h

/-! ## Fewer than eight bits, or some more -/

/-- What the decoder takes from a bit string it takes from any longer one. -/
theorem takeCode_append {spec : List (Nat × Int)} {t : Nat} (n : Nat) : ∀ {k p : Nat} {bits rest more : List Bool}
    {v : Byte}, takeCode spec t n k p bits = .ok (v, rest) →
    takeCode spec t n k p (bits ++ more) = .ok (v, rest ++ more) := by
  induction n with
  | zero => intro k p bits rest more v h; cases h
  | succ n ih =>
    intro k p bits rest more v h
    cases bits with
    | nil => cases h
    | cons b bits =>
      simp only [takeCode, List.cons_append] at h ⊢
      split at h
      · cases h
      · rename_i e he
        split at h
        · cases h
          rw [if_pos (by assumption)]
        · rw [if_neg (by assumption)]
          exact ih h

/-- The decoder takes at least one bit. -/
theorem takeCode_length {spec : List (Nat × Int)} {t : Nat} (n : Nat) : ∀ {k p : Nat} {bits rest : List Bool}
    {v : Byte}, takeCode spec t n k p bits = .ok (v, rest) → rest.length < bits.length := by
  induction n with
  | zero => intro k p bits rest v h; cases h
  | succ n ih =>
    intro k p bits rest v h
    cases bits with
    | nil => cases h
    | cons b bits =>
      simp only [takeCode] at h
      split at h
      · cases h
      · split at h
        · cases h
          simp
        · have := ih h
          rw [List.length_cons]
          omega

/-- Where a longer bit string holds a code word, a bit string holds it too, or ends inside it. -/
theorem takeCode_prefix {spec : List (Nat × Int)} {t : Nat} (n : Nat) : ∀ {k p : Nat} {bits more rest : List Bool}
    {v : Byte}, takeCode spec t n k p (bits ++ more) = .ok (v, rest) →
    (∃ r, takeCode spec t n k p bits = .ok (v, r) ∧ rest = r ++ more) ∨
      (takeCode spec t n k p bits = .error .endOfBits ∧ rest.length < more.length) := by
  induction n with
  | zero => intro k p bits more rest v h; cases h
  | succ n ih =>
    intro k p bits more rest v h
    cases bits with
    | nil => exact .inr ⟨rfl, takeCode_length _ h⟩
    | cons b bits =>
      simp only [takeCode, List.cons_append] at h ⊢
      split at h
      · cases h
      · split at h
        · rename_i hk
          cases h
          rw [if_pos hk]
          exact .inl ⟨_, rfl, rfl⟩
        · rename_i hk
          rw [if_neg hk]
          exact ih h

/-- With a laid-out HUFF_SPEC, DECODE of any bit string is a code word or the end of the bits, never an error of the
code (41_huffman.md R145, 60_exceptions.md R235). The value is the entry that the bits, followed by zeros, index. -/
theorem decodeCode_total {spec : List (Nat × Int)} (h : specLaidOut spec 0 = true) {t : Nat} (ht : t ≤ 18)
    (bits : List Bool) :
    (∃ c e, c < 256 ∧ builtEntry spec t c = some e ∧ ∃ rest, decodeCode spec t bits = .ok (e.val, rest)) ∨
      decodeCode spec t bits = .error .endOfBits := by
  have hf := runsWhole_builtEntry h ht
  have hlen : 8 ≤ (bits ++ List.replicate 8 false).length := by simp
  have hc : bitsValue ((bits ++ List.replicate 8 false).take 8) < 256 := by
    have := bitsValue_lt ((bits ++ List.replicate 8 false).take 8)
    rwa [List.length_take_of_le hlen] at this
  obtain ⟨e, he, -⟩ := hf _ hc
  rcases takeCode_prefix 8 (decodeCode_runsWhole hf hlen he) with ⟨r, hr, -⟩ | ⟨hr, -⟩
  · exact .inl ⟨_, e, hc, he, r, hr⟩
  · exact .inr hr

/-- A code word of a whole table, written out, decodes to its entry's value, whatever follows (41_huffman.md R147 (c),
30_encoding.md R101). -/
theorem decodeCode_codeWord {spec : List (Nat × Int)} {t : Nat} (hf : RunsWhole (builtEntry spec t))
    {word rest : List Bool} {v : Byte} (h1 : 1 ≤ word.length) (h8 : word.length ≤ 8)
    (he : builtEntry spec t (bitsValue word <<< (8 - word.length)) = some ⟨BitVec.ofNat 4 word.length, v⟩) :
    decodeCode spec t (word ++ rest) = .ok (v, rest) := by
  have hlen : (BitVec.ofNat 4 word.length).toNat = word.length := by
    rw [BitVec.toNat_ofNat]
    omega
  have hw := bitsValue_lt word
  have hpow : 2 ^ word.length * 2 ^ (8 - word.length) = 256 := by
    rw [← Nat.pow_add, show word.length + (8 - word.length) = 8 by omega]
  have hpos : 0 < 2 ^ (8 - word.length) := Nat.two_pow_pos _
  have hlong : 8 ≤ (word ++ rest ++ List.replicate 8 false).length := by
    simp only [List.length_append, List.length_replicate]
    omega
  -- the first eight bits of the padded string are the word and some more
  have htake : (word ++ rest ++ List.replicate 8 false).take 8 =
      word ++ (rest ++ List.replicate 8 false).take (8 - word.length) := by
    rw [List.append_assoc, List.take_append, List.take_of_length_le h8]
  have hmore : ((rest ++ List.replicate 8 false).take (8 - word.length)).length = 8 - word.length := by
    rw [List.length_take_of_le (by simp; omega)]
  have hm := bitsValue_lt ((rest ++ List.replicate 8 false).take (8 - word.length))
  rw [hmore] at hm
  have hval : bitsValue ((word ++ rest ++ List.replicate 8 false).take 8) =
      bitsValue word * 2 ^ (8 - word.length) +
        bitsValue ((rest ++ List.replicate 8 false).take (8 - word.length)) := by
    rw [htake, bitsValue_append, hmore]
  have hc : bitsValue word * 2 ^ (8 - word.length) < 256 := by
    rw [← hpow]
    exact Nat.mul_lt_mul_of_pos_right hw hpos
  have hc8 : bitsValue ((word ++ rest ++ List.replicate 8 false).take 8) < 256 := by
    have := bitsValue_lt ((word ++ rest ++ List.replicate 8 false).take 8)
    rwa [List.length_take_of_le hlong] at this
  rw [Nat.shiftLeft_eq] at he
  obtain ⟨e, he', -, -, hrun⟩ := hf _ hc
  obtain rfl : e = ⟨BitVec.ofNat 4 word.length, v⟩ := by rw [he] at he'; exact (Option.some.inj he').symm
  have hin := hrun _ hc8 (by
    simp only [hlen]
    rw [hval, Nat.mul_div_cancel _ hpos, Nat.mul_comm, Nat.mul_add_div hpos, Nat.div_eq_of_lt hm, Nat.add_zero])
  have hd := decodeCode_runsWhole hf hlong hin
  simp only [hlen] at hd
  rw [List.append_assoc, List.drop_left] at hd
  rw [← List.append_assoc] at hd
  rcases takeCode_prefix 8 hd with ⟨r, hr, hrr⟩ | ⟨-, hlt⟩
  · rw [List.append_cancel_right_eq] at hrr
    exact hrr ▸ hr
  · simp at hlt

/-- What the decoder takes is a word, whose entry in the table has its length and the value returned. -/
theorem takeCode_word {spec : List (Nat × Int)} {t : Nat} (n : Nat) : ∀ {k p : Nat} {bits rest : List Bool} {v : Byte},
    1 ≤ k → takeCode spec t n k p bits = .ok (v, rest) →
    ∃ word e, bits = word ++ rest ∧ word.length ≤ n ∧ e.len.toNat + 1 = k + word.length ∧ e.val = v ∧
      builtEntry spec t ((p * 2 ^ word.length + bitsValue word) <<< (8 - e.len.toNat)) = some e := by
  induction n with
  | zero => intro k p bits rest v _ h; cases h
  | succ n ih =>
    intro k p bits rest v hk h
    cases bits with
    | nil => cases h
    | cons b bits =>
      simp only [takeCode] at h
      split at h
      · cases h
      · rename_i e he
        split at h
        · rename_i hek
          cases h
          refine ⟨[b], e, rfl, by simp, by simp [hek], rfl, ?_⟩
          rw [← he, hek]
          simp [bitsValue, Nat.mul_comm]
        · obtain ⟨word, e', h1, h2, h3, h4, h5⟩ := ih (by omega) h
          refine ⟨b :: word, e', by rw [h1]; rfl, by simpa using h2, by rw [List.length_cons]; omega, h4, ?_⟩
          rw [← h5, bitsValue_cons, List.length_cons, Nat.pow_succ]
          congr 2
          ring

/-! ## Fields -/

/-- A field written out reads as its value. -/
theorem takeField_wordBits (n : Nat) : ∀ (v w : Nat) (rest : List Bool),
    takeField n v (wordBits n w ++ rest) = .ok (v * 2 ^ n + w % 2 ^ n, rest) := by
  induction n with
  | zero => intro v w rest; simp [takeField, wordBits, Nat.mod_one]
  | succ n ih =>
    intro v w rest
    rw [wordBits, List.cons_append, takeField, ih]
    have h := bitsValue_wordBits (n + 1) w
    rw [wordBits, bitsValue_cons, length_wordBits, bitsValue_wordBits] at h
    rw [← h]
    congr 2
    ring

/-- A field reads as the number its bits spell; it needs them all. -/
theorem takeField_eq (n : Nat) : ∀ (v : Nat) (bits : List Bool),
    takeField n v bits =
      if n ≤ bits.length then .ok (v * 2 ^ n + bitsValue (bits.take n), bits.drop n) else .error .endOfBits := by
  induction n with
  | zero => intro v bits; simp [takeField, bitsValue]
  | succ n ih =>
    intro v bits
    cases bits with
    | nil => simp [takeField]
    | cons b bits =>
      rw [takeField, ih]
      simp only [List.length_cons, Nat.add_le_add_iff_right, List.take_succ_cons, List.drop_succ_cons]
      split
      · rw [bitsValue_cons, List.length_take_of_le (by assumption)]
        congr 2
        ring
      · rfl

/-! ## The values of the control and repeat-count tables (00_scope.md R8 (b)) -/

theorem entryAt_symbols : ∀ (spec : List (Nat × Int)) (s0 : Nat), specSymbols spec s0 = true →
    ∀ S e, s0 ≤ S → S < 2560 → entryAt spec (S - s0) = some e → e.val.toNat ≤ 8 := by
  intro spec
  induction spec with
  | nil => intro s0 _ S e _ _ he; cases he
  | cons p rest ih =>
    obtain ⟨l, v⟩ := p
    intro s0 h S e h1 h2 he
    simp only [specSymbols, Bool.and_eq_true, Bool.or_eq_true, decide_eq_true_eq] at h
    unfold entryAt at he
    split at he
    · cases he
      rcases h.1 with h0 | ⟨h0, h8⟩
      · omega
      · simp only
        rw [BitVec.toNat_ofInt]
        omega
    · refine ih _ h.2 S e (by omega) h2 ?_
      rw [← he]
      congr 1
      omega

/-- Every value of tables 0 to 9 of an admitted HUFF_SPEC is in 0..8. -/
theorem builtEntry_symbols {spec : List (Nat × Int)} (h : specSymbols spec 0 = true) {t c : Nat} {e : HuffEntry}
    (ht : t ≤ 9) (hc : c < 256) (he : builtEntry spec t c = some e) : e.val.toNat ≤ 8 := by
  unfold builtEntry at he
  rw [if_pos (by omega)] at he
  exact entryAt_symbols spec 0 h (256 * t + c) e (Nat.zero_le _) (by omega) he

end Sys2Proof.Machine
end

