-- ==== Sys2Proof/Tests/Slice0.lean ====
section
/-! SUPPORT. Tests: ill-formed terms refused, the words of every row of the opcode table, the spec's own vectors
(95_test_vectors.md), and for every statement with hypotheses a state and operands that meet them. -/

namespace Sys2Proof.Tests

open Sys2Proof Sys2Proof.Machine

/-! ## Well-formedness refuses each ill-formed term -/

/-- 70_reset_and_hazards.md R273. -/
theorem test_wf_header : (Instr.bandhdr 0 1 2).wellFormed = false ∧ (Instr.bandhdr 1 0 63).wellFormed = true := by decide

/-- 00_scope.md R8 (a): a length outside 1..8, a value outside -128..127, an entry off its boundary, too few slots. -/
theorem test_wf_huffSpec :
    specLaidOut [(9, 0)] 0 = false ∧ specLaidOut [(0, 0)] 0 = false ∧ specLaidOut [(8, 128)] 4607 = false ∧
      specLaidOut [(8, -129)] 4607 = false ∧ specLaidOut [(7, 0)] 4607 = false ∧ specLaidOut [(8, 0)] 4606 = false ∧
      specLaidOut [(8, 127)] 4607 = true := by decide

/-- 00_scope.md R8 (b): a control value outside 0..8; the same value is good in table 10 and after. -/
theorem test_wf_symbols :
    specSymbols [(8, 9)] 0 = false ∧ specSymbols [(8, -1)] 2559 = false ∧ specSymbols [(8, 9)] 2560 = true := by decide

/-- 00_scope.md R6, R8 (c): not 256 entries; entry 1 or 63 undefined; the others undefined, and entries of any size. -/
theorem test_wf_scaleLut :
    let lut := fun a b => none :: a :: List.replicate 61 (some (2 ^ 24)) ++ b :: List.replicate 192 none
    lutAdmitted (List.replicate 255 (some 1)) = false ∧ lutAdmitted (List.replicate 257 (some 1)) = false ∧
      lutAdmitted (lut none (some 1)) = false ∧ lutAdmitted (lut (some 1) none) = false ∧
      lutAdmitted (lut (some 1) (some 1)) = true := by decide +kernel

/-- 00_scope.md R8 (e): a DEMOSAIC that gives three bytes for a 2 by 2 plane. -/
theorem test_wf_demosaic :
    demosaicAdmitted [(⟨[1, 2, 3, 4], 2, 2, 0⟩, [1, 2, 3])] = false ∧
      demosaicAdmitted [(⟨[1, 2, 3, 4], 2, 2, 0⟩, [4, 3, 2, 1])] = true := by decide

/-- 00_scope.md R8 (d): five pairs; x not increasing; wrong ends; y too large. -/
theorem test_wf_breakpoints :
    breakpointsAdmitted [(0, 0), (1, 0), (2, 0), (3, 0), (65535, 0)] = false ∧
      breakpointsAdmitted [(0, 0), (1, 0), (1, 0), (3, 0), (4, 0), (65535, 0)] = false ∧
      breakpointsAdmitted [(1, 0), (2, 0), (3, 0), (4, 0), (5, 0), (65535, 0)] = false ∧
      breakpointsAdmitted [(0, 0), (1, 0), (2, 0), (3, 0), (4, 0), (65534, 0)] = false ∧
      breakpointsAdmitted [(0, 0), (1, 65536), (2, 0), (3, 0), (4, 0), (65535, 0)] = false ∧
      breakpointsAdmitted toneBreakpointsRef = true := by decide

/-- 00_scope.md R7, R8: PREV_M_INIT 0 is in its range; each shift outside its range, each capacity below, off a multiple of 4, or too large. -/
theorem test_wf_scalars :
    scalarsAdmitted { Config.reference with prevMInit := 0 } = true ∧
      scalarsAdmitted { Config.reference with residShift := 8 } = false ∧
      scalarsAdmitted { Config.reference with carryShift := 2 } = false ∧
      scalarsAdmitted { Config.reference with sentinelShift := 10 } = false ∧
      capacityAdmitted { Config.reference with wMax := 316 } = false ∧
      capacityAdmitted { Config.reference with hMax := 236 } = false ∧
      capacityAdmitted { Config.reference with wMax := 322 } = false ∧
      capacityAdmitted { Config.reference with hMax := 65536 } = false := by decide

theorem reference_admitted : Config.reference.admitted = true := by decide +kernel

/-! ## The word of every row (30_encoding.md R92, R95, R102, as spec/opcode_table.json writes them): length, bits, row -/

theorem test_decode_bandhdr :
    decode huffSpecRef .header (wordBits 18 0b010000_000001_111111) = .ok (.bandhdr 16 1 63, []) := by decide

theorem test_decode_tokLit :
    decode huffSpecRef (.code 18) (wordBits 5 0b10000) = .ok (.tokLit 16, []) ∧
      decode huffSpecRef (.code 18) (wordBits 5 0b01010) = .ok (.tokLit 10, []) := by decide

def words0 : List (Nat × Nat × Instr) :=
  [
    (1, 0b0, .grpPred1C0), (4, 0b1110, .grpPred2C0), (2, 0b10, .grpPred3C0), (3, 0b110, .grpPred4C0), (6,
    0b111110, .grpPred5C0), (7, 0b1111110, .grpPred6C0), (5, 0b11110, .grpPred7C0), (7, 0b1111111, .grpLitC0)]

theorem test_decode_table0 : ∀ p ∈ words0, decode huffSpecRef (.code 0) (wordBits p.1 p.2.1) = .ok (p.2.2, []) := by
  decide

def words1 : List (Nat × Nat × Instr) :=
  [
    (1, 0b0, .grpRunC1), (2, 0b10, .grpPred1C1), (5, 0b11110, .grpPred2C1), (3, 0b110, .grpPred3C1), (4,
    0b1110, .grpPred4C1), (8, 0b11111110, .grpPred5C1), (7, 0b1111110, .grpPred6C1), (6, 0b111110,
    .grpPred7C1), (8, 0b11111111, .grpLitC1)]

theorem test_decode_table1 : ∀ p ∈ words1, decode huffSpecRef (.code 1) (wordBits p.1 p.2.1) = .ok (p.2.2, []) := by
  decide

def words2 : List (Nat × Nat × Instr) :=
  [
    (3, 0b100, .grpRunC2), (2, 0b00, .grpPred1C2), (3, 0b101, .grpPred2C2), (2, 0b01, .grpPred3C2), (3, 0b110,
    .grpPred4C2), (5, 0b11110, .grpPred5C2), (4, 0b1110, .grpPred6C2), (6, 0b111110, .grpPred7C2), (6,
    0b111111, .grpLitC2)]

theorem test_decode_table2 : ∀ p ∈ words2, decode huffSpecRef (.code 2) (wordBits p.1 p.2.1) = .ok (p.2.2, []) := by
  decide

def words3 : List (Nat × Nat × Instr) :=
  [
    (2, 0b00, .grpRunC3), (2, 0b01, .grpPred1C3), (3, 0b110, .grpPred2C3), (2, 0b10, .grpPred3C3), (4, 0b1110,
    .grpPred4C3), (7, 0b1111110, .grpPred5C3), (5, 0b11110, .grpPred6C3), (6, 0b111110, .grpPred7C3), (7,
    0b1111111, .grpLitC3)]

theorem test_decode_table3 : ∀ p ∈ words3, decode huffSpecRef (.code 3) (wordBits p.1 p.2.1) = .ok (p.2.2, []) := by
  decide

def words4 : List (Nat × Nat × Instr) :=
  [
    (3, 0b100, .grpRunC4), (2, 0b00, .grpPred1C4), (3, 0b101, .grpPred2C4), (3, 0b110, .grpPred3C4), (2, 0b01,
    .grpPred4C4), (5, 0b11110, .grpPred5C4), (6, 0b111110, .grpPred6C4), (4, 0b1110, .grpPred7C4), (6,
    0b111111, .grpLitC4)]

theorem test_decode_table4 : ∀ p ∈ words4, decode huffSpecRef (.code 4) (wordBits p.1 p.2.1) = .ok (p.2.2, []) := by
  decide

def words5 : List (Nat × Nat × Instr) :=
  [
    (5, 0b11110, .grpRunC5), (3, 0b010, .grpPred1C5), (3, 0b011, .grpPred2C5), (2, 0b00, .grpPred3C5), (3,
    0b100, .grpPred4C5), (3, 0b101, .grpPred5C5), (3, 0b110, .grpPred6C5), (4, 0b1110, .grpPred7C5), (5,
    0b11111, .grpLitC5)]

theorem test_decode_table5 : ∀ p ∈ words5, decode huffSpecRef (.code 5) (wordBits p.1 p.2.1) = .ok (p.2.2, []) := by
  decide

def words6 : List (Nat × Nat × Instr) :=
  [
    (3, 0b100, .grpRunC6), (3, 0b101, .grpPred1C6), (5, 0b11110, .grpPred2C6), (2, 0b00, .grpPred3C6), (4,
    0b1100, .grpPred4C6), (4, 0b1101, .grpPred5C6), (2, 0b01, .grpPred6C6), (4, 0b1110, .grpPred7C6), (5,
    0b11111, .grpLitC6)]

theorem test_decode_table6 : ∀ p ∈ words6, decode huffSpecRef (.code 6) (wordBits p.1 p.2.1) = .ok (p.2.2, []) := by
  decide

def words7 : List (Nat × Nat × Instr) :=
  [
    (5, 0b11110, .grpRunC7), (4, 0b1100, .grpPred1C7), (4, 0b1101, .grpPred2C7), (3, 0b100, .grpPred3C7), (2,
    0b00, .grpPred4C7), (4, 0b1110, .grpPred5C7), (3, 0b101, .grpPred6C7), (2, 0b01, .grpPred7C7), (5,
    0b11111, .grpLitC7)]

theorem test_decode_table7 : ∀ p ∈ words7, decode huffSpecRef (.code 7) (wordBits p.1 p.2.1) = .ok (p.2.2, []) := by
  decide

def words8 : List (Nat × Nat × Instr) :=
  [
    (4, 0b1110, .grpRunC8), (3, 0b010, .grpPred1C8), (5, 0b11110, .grpPred2C8), (3, 0b011, .grpPred3C8), (5,
    0b11111, .grpPred4C8), (3, 0b100, .grpPred5C8), (2, 0b00, .grpPred6C8), (3, 0b101, .grpPred7C8), (3,
    0b110, .grpLitC8)]

theorem test_decode_table8 : ∀ p ∈ words8, decode huffSpecRef (.code 8) (wordBits p.1 p.2.1) = .ok (p.2.2, []) := by
  decide

def words9 : List (Nat × Nat × Instr) :=
  [
    (2, 0b00, .tokNreps1), (2, 0b01, .tokNreps2), (3, 0b100, .tokNreps3), (3, 0b101, .tokNreps4), (4, 0b1100,
    .tokNreps5), (4, 0b1101, .tokNreps6), (5, 0b11100, .tokNreps7), (5, 0b11101, .tokNreps8), (4, 0b1111,
    .tokNreps9)]

theorem test_decode_table9 : ∀ p ∈ words9, decode huffSpecRef (.code 9) (wordBits p.1 p.2.1) = .ok (p.2.2, []) := by
  decide

def words10 : List (Nat × Nat × Instr) :=
  [
    (2, 0b11, .tokStepM2), (1, 0b0, .tokStep0), (2, 0b10, .tokStep2)]

theorem test_decode_table10 : ∀ p ∈ words10, decode huffSpecRef (.code 10) (wordBits p.1 p.2.1) = .ok (p.2.2, []) := by
  decide

def words11 : List (Nat × Nat × Instr) :=
  [
    (1, 0b0, .tokRes1_M3), (1, 0b1, .tokRes1_3)]

theorem test_decode_table11 : ∀ p ∈ words11, decode huffSpecRef (.code 11) (wordBits p.1 p.2.1) = .ok (p.2.2, []) := by
  decide

def words12 : List (Nat × Nat × Instr) :=
  [
    (2, 0b00, .tokRes2_M17), (2, 0b01, .tokRes2_M5), (2, 0b10, .tokRes2_5), (2, 0b11, .tokRes2_17)]

theorem test_decode_table12 : ∀ p ∈ words12, decode huffSpecRef (.code 12) (wordBits p.1 p.2.1) = .ok (p.2.2, []) := by
  decide

def words13 : List (Nat × Nat × Instr) :=
  [
    (2, 0b00, .tokRes3_M7), (2, 0b01, .tokRes3_2), (2, 0b10, .tokRes3_9), (2, 0b11, .tokRes3_18)]

theorem test_decode_table13 : ∀ p ∈ words13, decode huffSpecRef (.code 13) (wordBits p.1 p.2.1) = .ok (p.2.2, []) := by
  decide

def words14 : List (Nat × Nat × Instr) :=
  [
    (2, 0b00, .tokRes4_M18), (2, 0b01, .tokRes4_M9), (2, 0b10, .tokRes4_M2), (2, 0b11, .tokRes4_7)]

theorem test_decode_table14 : ∀ p ∈ words14, decode huffSpecRef (.code 14) (wordBits p.1 p.2.1) = .ok (p.2.2, []) := by
  decide

def words15 : List (Nat × Nat × Instr) :=
  [
    (5, 0b11110, .tokRes5_M79), (3, 0b100, .tokRes5_M49), (2, 0b00, .tokRes5_M28), (3, 0b101, .tokRes5_M9),
    (3, 0b110, .tokRes5_9), (2, 0b01, .tokRes5_28), (4, 0b1110, .tokRes5_49), (5, 0b11111, .tokRes5_79)]

theorem test_decode_table15 : ∀ p ∈ words15, decode huffSpecRef (.code 15) (wordBits p.1 p.2.1) = .ok (p.2.2, []) := by
  decide

def words16 : List (Nat × Nat × Instr) :=
  [
    (6, 0b111110, .tokRes6_M37), (4, 0b1110, .tokRes6_M16), (2, 0b00, .tokRes6_M1), (2, 0b01, .tokRes6_13),
    (2, 0b10, .tokRes6_26), (3, 0b110, .tokRes6_39), (5, 0b11110, .tokRes6_55), (6, 0b111111, .tokRes6_76)]

theorem test_decode_table16 : ∀ p ∈ words16, decode huffSpecRef (.code 16) (wordBits p.1 p.2.1) = .ok (p.2.2, []) := by
  decide

def words17 : List (Nat × Nat × Instr) :=
  [
    (6, 0b111110, .tokRes7_M76), (5, 0b11110, .tokRes7_M55), (3, 0b110, .tokRes7_M39), (2, 0b00,
    .tokRes7_M26), (2, 0b01, .tokRes7_M13), (2, 0b10, .tokRes7_1), (4, 0b1110, .tokRes7_16), (6, 0b111111,
    .tokRes7_37)]

theorem test_decode_table17 : ∀ p ∈ words17, decode huffSpecRef (.code 17) (wordBits p.1 p.2.1) = .ok (p.2.2, []) := by
  decide


/-- The table's numbering: the last bit of the word is bit 0 of the number (20_memory.md R61; notes/assumptions/21.md). -/
theorem test_decodeTableWord :
    decodeTableWord 24 0b010000_000001_111111 = some (.bandhdr 16 1 63) ∧
      decodeTableWord 8 0b11111111 = some .grpLitC1 ∧ decodeTableWord 8 0b1110 = some .grpPred2C0 := by decide +kernel

/-! ## Vectors -/

/-- What `f` sees of the next state. -/
def seen {α : Type} (r : Result) (f : State → α) : Option α :=
  match r with
  | .next s => some (f s)
  | _ => none

/-- The placed number is the instruction the next step runs. -/
theorem test_withFetchWord :
    seen (step (State.reset.withFetchWord 24 0b010000_000001_111111)) (fun t => (t.prevM, t.pos)) = some (16, .rowGroup 0) ∧
      seen (step (State.reset.withFetchWord 8 0b11111111)) (fun t => (t.tree, t.col, t.pos)) = some (8, 2, .lit) := by
  decide +kernel

/-- What a read of the stream returns, and the cursor after it. -/
def got {α : Type} : Read α → Option (α × Nat × Nat)
  | .got a s => some (a, s.ptr.toNat, s.rem.toNat)
  | _ => none

/-- Bytes in SRC from 0 on, the reader at `ptr` with byte `cur` and `rem` bits left. -/
def reader (bytes : List Byte) (ptr : BitVec 32) (cur : Byte) (rem : BitVec 4) : State :=
  { State.reset with
    src := (List.range bytes.length).zip bytes, srcLen := BitVec.ofNat 32 bytes.length, ptr := ptr, cur := cur, rem := rem }

/-- V-B2, V-B3, V-B4, V-B7, V-B9. -/
theorem test_bitreader :
    got (readBits 6 (reader [0xA5, 0xC3] 1 0xA5 8)) = some (41, 1, 2) ∧
      got (readBits 6 (reader [0xA5, 0xC3] 1 0xA5 2)) = some (28, 2, 4) ∧
      got (readBits 4 (reader [0xA5, 0xC3] 2 0xC3 4)) = some (3, 2, 0) ∧
      got (readBits 8 (reader [0xFF, 0x00] 1 0xFF 5)) = some (248, 2, 5) ∧
      got (resetReader (reader [0x12, 0x34, 0x56] 1 0x12 3)) = some ((), 2, 8) := by decide

/-- V-H4, V-H7: DECODE on the machine's stream. -/
theorem test_decodeToken :
    got (decodeToken 1 (reader [0xFE] 1 0xFE 8)) = some (5, 1, 0) ∧
      got (decodeToken 10 (reader [0xC0] 1 0xC0 8)) = some (0xFE, 1, 6) ∧
      got (decodeToken 18 (reader [0x80] 1 0x80 8)) = some (0x84, 1, 3) := by decide

/-- A run under way in a kept row-group: W = 8 (W2 = 4), H = 4, M = 16, `tree` 1, `col` 4, the stream at its end. -/
def mid : State :=
  { State.reset with
    status := statusBusy, w := 8, h := 4, width := 8, height := 4, mult := 16, prevM := 16, keep := true, tree := 1
    col := 4, pos := .ctrl, src := [(0, 0)], srcLen := 1, ptr := 1 }

/-- The start of V-G1 to V-G4: every cell 2047 but the sentinels, which are 16. -/
def group : State :=
  seedSentinel { mid with cfg := { Config.reference with bufInit := 2047 } }

/-- V-S2: M = 32 after prevM = 16. -/
theorem test_bandhdr :
    seen (exec (.bandhdr 32 5 63) (writeCells mid [((0, 0), -5), ((0, 1), 1), ((1, 2), 16384), ((2, 4), 16385)])) (fun t =>
      (cell t 1 1, cell t 0 0, cell t 0 1, cell t 1 2, cell t 2 4)) = some (4095, -11, 1, 32767, -32767) ∧
    seen (exec (.bandhdr 32 5 63) mid) (fun t => (t.val, t.prevM, t.mult, t.pos)) =
      some (8192, 32, 32, .rowGroup 0) := by decide

/-- V-G1: the control code and the first and last literal. -/
theorem test_literal_group :
    seen (exec .grpLitC1 group) (fun t => (t.tree, t.col, t.pos, t.tok)) = some (8, 2, .lit, 0) ∧
      seen (exec (.tokLit 16) { group with col := 2, pos := .lit }) (fun t => (cell t 1 3, t.tok, t.pos)) =
        some (2112, 1, .lit) ∧
      seen (exec (.tokLit 10) { group with col := 2, tok := 3, pos := .lit }) (fun t => (cell t 2 2, t.col, t.pos)) =
        some (1344, 2, .ctrl) := by decide

/-- V-G2: PRED1 3, -3, 3, 3: the control code, and tokens 0 and 1. -/
theorem test_predicted_group :
    seen (exec .grpPred1C1 group) (fun t => (t.tree, t.col, t.pos)) = some (1, 2, .res) ∧
      seen (exec .tokRes1_3 { group with col := 2, pos := .res }) (fun t => (cell t 1 3, t.tok)) = some (526, 1) ∧
      seen (exec .tokRes1_M3 (writeCells { group with col := 2, tok := 1, pos := .res } [((1, 3), 526)])) (fun t =>
        (cell t 1 2, cell t 1 3)) = some (1283, 526) := by decide

/-- V-G7: the cell wraps, no saturation. -/
theorem test_residual_wraps :
    seen (exec .tokRes5_M79 (writeCells { mid with col := 2, pos := .res }
      [((0, 3), -32760), ((0, 4), -32760), ((1, 4), -32760)])) (fun t => cell t 1 3) = some 32697 := by decide

/-- V-G3, its two repeats, and V-G4, its one. -/
theorem test_run_repeats :
    seen (exec .tokNreps2 { group with tree := 0, pos := .nreps }) (fun t =>
      ([cell t 1 3, cell t 1 2, cell t 2 3, cell t 2 2, cell t 1 1, cell t 1 0, cell t 2 1, cell t 2 0], t.col, t.pos)) =
      some ([523, 1285, 142, 523, 1666, 1856, 999, 1380], 0, .step) ∧
    seen (exec .tokNreps1 { group with tree := 0, pos := .nreps }) (fun t => (cell t 2 2, t.col, t.pos)) =
      some (523, 2, .ctrl) := by decide +kernel

/-- V-G3, its step: 2 << 4 added to the last four cells; the row-group ends. -/
theorem test_run_step :
    seen (exec .tokStep2 (writeCells { group with tree := 0, nreps := 2, rep := 1, col := 0, pos := .step }
      [((1, 1), 1666), ((1, 0), 1856), ((2, 1), 999), ((2, 0), 1380)])) (fun t =>
      (cell t 1 1, cell t 1 0, cell t 2 1, cell t 2 0, t.step, t.pos)) = some (1698, 1888, 1031, 1412, 32, .emit) := by
  decide

/-- V-G5: a run in context 8 at `col = 2` is its control code alone. -/
theorem test_run_alone :
    seen (exec .grpRunC8 { group with tree := 8, col := 2 }) (fun t => (t.col, t.tree, t.nreps, t.pos)) =
      some (0, 0, 1, .emit) := by decide

/-- Program P2's discarded `RUN 3, -2` at `col = 4`, cut short by the end of the row-group. -/
theorem test_run_discarded :
    seen (exec .tokNreps3 { mid with tree := 0, keep := false, rg := 2, pos := .nreps }) (fun t => (t.col, t.rep, t.pos)) =
      some (0, 1, .step) ∧
    seen (exec .tokStepM2 { mid with tree := 0, keep := false, rg := 2, nreps := 3, rep := 1, col := 0, pos := .step })
      (fun t => (t.col, t.pos, t.rbuf)) = some (0, .rowGroup 3, []) := by decide

/-- V-P1 to V-P6, V-P8: the predictor. -/
theorem test_predictor :
    ([(2047, 2047, 2047), (2047, 2047, 16), (2047, 16, 16), (1, 2, 2), (-3, -4, 5), (-1, 0, 0), (-32768, -32768, -32768)] :
      List (Int × Int × Int)).map (fun p =>
        predict (writeCells mid [((0, 0), p.1), ((0, 1), p.2.1), ((1, 1), p.2.2)]) 1 0) =
      [2047, 1031, 523, 1, 0, -1, -32768] := by decide

/-- V-M1 to V-M5. -/
theorem test_emitValue :
    emitValue 16 2112 = 2112 ∧ emitValue 32 4377 = 2188 ∧ emitValue 20 872 = 697 ∧ emitValue 7 0 = 0 ∧
      emitValue 7 (-9) = 0 ∧ (trunc16 (emitValue 1 32767)).toNat = 65520 := by decide

/-- A 4 by 4 run with the cells of V-M6. -/
def emitting : State :=
  writeCells { mid with w := 4, width := 4, rg := 1, col := 0, pos := .emit }
    [((1, 0), 320), ((1, 1), 192), ((1, 2), 16), ((2, 0), 576), ((2, 1), 448), ((2, 2), 16)]

/-- V-M6, V-M7. -/
theorem test_emit_carry :
    seen (engineStep emitting) (fun t => [readPlane t 2 0, readPlane t 2 1, readPlane t 2 2, readPlane t 3 1, readPlane t 3 3]) =
      some [320, 2048, 192, 576, 448] ∧
    seen (engineStep { emitting with pos := .carry }) (fun t => [cell t 0 0, cell t 0 1, cell t 0 2, cell t 1 0, cell t 2 0]) =
      some [576, 448, 16, 320, 576] := by decide

/-- A 4 by 4 run at CHECKER with rows 0 and 1 as V-C1 and V-C2 have them. -/
def checking : State :=
  writePlane { emitting with rg := 3, pos := .checker }
    [((0, 0), 64), ((0, 2), 2112), ((1, 1), 1344), ((1, 3), 4032)]

/-- V-C1, V-C2. -/
theorem test_checker :
    seen (engineStep checking) (fun t => [readPlane t 0 0, readPlane t 0 1, readPlane t 0 2, readPlane t 0 3]) =
      some [64, 1088, 2112, 2112] ∧
    seen (engineStep checking) (fun t => [readPlane t 1 0, readPlane t 1 1, readPlane t 1 2, readPlane t 1 3]) =
      some [1344, 1344, 2688, 4032] := by decide

/-- V-T1, V-T2, V-T3. -/
theorem test_curve :
    [0, 1, 640, 1280, 2048, 2320, 3328, 4095, 4096, 65535].map (fun v => (curveDefault Config.reference v).toNat) =
      [0, 1, 672, 1344, 3022, 3616, 8000, 16383, 16383, 16383] ∧
    [64, 1088, 1344, 1984, 2048, 2112, 2427, 4032, 2426].map (fun v => (toneSample State.reset v).toNat) =
      [4, 71, 92, 180, 188, 197, 255, 255, 254] := by decide

/-- 46_sequencer.md R220: the geometry is tested before the capacity. -/
theorem test_start_faults :
    seen (hostStart true { State.reset with width := 322, height := 0 }) (fun t => t.status) = some ⟨false, false, true, 3⟩ ∧
    seen (hostStart true { State.reset with width := 324, height := 240 }) (fun t => t.status) =
      some ⟨false, false, true, 1⟩ := by decide +kernel

/-- 45_demosaic.md R213, R215: a DEMOSAIC that swaps two samples of one plane and tile, and its default at another tile. -/
theorem test_demosaic :
    let s := fun tile : BitVec 8 => { mid with
      w := 2, h := 1, t8 := [(0, 1), (1, 2)], pos := .demosaic, cfaTile := tile
      cfg := { Config.reference with demosaic := [(⟨[1, 2], 2, 1, 0x49⟩, [2, 1])] } }
    seen (engineStep (s 0x49)) (·.out) = some [(0, 2), (1, 1)] ∧
      seen (engineStep (s 0x16)) (·.out) = some [(0, 1), (1, 2)] := by decide

/-- 00_scope.md R7, 10_state.md R32: entries 0, 63 and 1 of a LAST_SCALE_LUT; V-S2's under LAST_SCALE_LUT_REF. -/
theorem test_scaleEntry :
    let c := { Config.reference with lastScaleLut := some 7 :: some 5 :: List.replicate 254 (some 9) }
    scaleEntry c 0 = 7 ∧ scaleEntry c 1 = 5 ∧ scaleEntry c 63 = 9 ∧ scaleEntry Config.reference 16 = 256 := by decide

/-! ## A state and operands for every statement with hypotheses -/

/-- Two written bytes, the reader in the middle of the first. -/
def cur2 : State := reader [0xA5, 0xC3] 1 0xA5 2

/-- 41_huffman.md R147 (b). -/
theorem witness_EncodeOfDecode :
    decode huffSpecRef (.code 8) (wordBits 3 0b110 ++ [true]) = .ok (.grpLitC8, [true]) := by decide

/-- Tables 0 and 18, with 8 bits. -/
theorem witness_EveryTableDecodesEveryBitString :
    specLaidOut huffSpecRef 0 = true ∧ 0 ≤ 18 ∧ 18 ≤ 18 ∧ 8 ≤ (wordBits 8 0xA5).length := by decide +kernel

/-- n = 1 and n = 8. -/
theorem witness_ReadBitsReturnsStreamBits :
    (1 : Nat) ≤ 8 ∧ cur2.rem.toNat ≤ 8 ∧ srcWritten cur2 ∧ 8 ≤ (unreadBits cur2).length ∧ 1 ≤ (unreadBits cur2).length := by
  decide

theorem witness_ReadBitsPastTheEndIsTruncated :
    let s := reader [0xA5] 1 0xA5 1
    s.rem.toNat ≤ 8 ∧ s.ptr.toNat ≤ s.srcLen.toNat ∧ srcWritten s ∧ (unreadBits s).length < 2 := by decide

theorem witness_ReadBitsSplits : (1 : Nat) ≤ 1 ∧ 1 ≤ 7 ∧ 1 + 7 ≤ 8 := by decide

theorem witness_ReadBitsOutsideContractIsRefused : ((0 : Nat) = 0 ∨ 8 < 0) ∧ ((9 : Nat) = 0 ∨ 8 < 9) := by decide

/-- Both clauses, `ptr` one below SRC_LEN and at it. -/
theorem witness_ResetRefillsAtByteBoundary :
    (cur2.ptr.toNat < cur2.srcLen.toNat ∧ storeGet cur2.src cur2.ptr.toNat = some 0xC3) ∧
      (reader [0xA5] 1 0 0).srcLen.toNat ≤ (reader [0xA5] 1 0 0).ptr.toNat := by decide

/-- Both clauses: a whole code word of table 1, and one cut by the end of SRC. -/
theorem witness_DecodeReadsTheNextCodeWord :
    (cur2.huff = [] ∧ cur2.rem.toNat ≤ 8 ∧ cur2.ptr.toNat ≤ cur2.srcLen.toNat ∧ srcWritten cur2 ∧
      decodeCode cur2.cfg.huffSpec 1 (unreadBits cur2) = .ok (0, (unreadBits cur2).drop 1)) ∧
    (let s := reader [0xFF] 1 0xFF 1
     s.huff = [] ∧ s.rem.toNat ≤ 8 ∧ s.ptr.toNat ≤ s.srcLen.toNat ∧ srcWritten s ∧
      decodeCode s.cfg.huffSpec 1 (unreadBits s) = .error .endOfBits) := by decide

/-- A run at a band header, and one at a control code. -/
def atHeader : State := { cur2 with status := statusBusy, pos := .bandHdr, src := [(0, 0x40), (1, 0), (2, 0)], srcLen := 3, ptr := 1, cur := 0x40, rem := 8 }

def atCode : State := { cur2 with status := statusBusy, pos := .ctrl, tree := 1 }

theorem witness_StepRunsTheDecodedInstruction :
    (atHeader.hostMoves = [] ∧ atHeader.status.busy = true ∧ slotAt atHeader = some .header ∧ atHeader.huff = [] ∧
      atHeader.rem.toNat ≤ 8 ∧ atHeader.ptr.toNat ≤ atHeader.srcLen.toNat ∧ srcWritten atHeader ∧
      decode atHeader.cfg.huffSpec .header (unreadBits atHeader) = .ok (.bandhdr 16 0 0, (unreadBits atHeader).drop 18)) ∧
    (atCode.hostMoves = [] ∧ atCode.status.busy = true ∧ slotAt atCode = some (.code 1) ∧ atCode.huff = [] ∧
      atCode.rem.toNat ≤ 8 ∧ atCode.ptr.toNat ≤ atCode.srcLen.toNat ∧ srcWritten atCode ∧
      decode atCode.cfg.huffSpec (.code 1) (unreadBits atCode) = .ok (.grpRunC1, (unreadBits atCode).drop 1)) := by decide

/-- M = 1 and M = 63; the corners of the buffer; an address outside it; a product that fits. -/
theorem witness_BandHeaderDecaysTheBuffer :
    (1 : BitVec 6) ≠ 0 ∧ (63 : BitVec 6) ≠ 0 ∧ storeSorted mid.rbuf ∧ 2 < 3 ∧ 4 ≤ halfWidth mid ∧
      (∀ r ∈ List.range 3, ∀ i ∈ List.range 5, 5 ≠ cellAddr r i) ∧ scaleEntry mid.cfg mid.prevM * 63 < 2 ^ 24 := by decide

/-- The identity scale at M = 16 after prevM = 16 (V-S1). -/
theorem witness_IdentityScaleLowersEveryCellByOne :
    (scaleEntry mid.cfg mid.prevM * (16 : BitVec 6).toNat = 4096 ∧ mid.cfg.decayBias = -1 ∧ storeSorted mid.rbuf) ∧
      ∃ t, exec (.bandhdr 16 0 0) mid = .next t :=
  ⟨by decide, _, rfl⟩

theorem witness_LiteralGroupStarts : Instr.grpLitC0 ∈ litCodes ∧ Instr.grpLitC8 ∈ litCodes := by decide

theorem witness_PredictedGroupStarts : (1, Instr.grpPred1C0) ∈ predCodes ∧ (7, Instr.grpPred7C8) ∈ predCodes := by decide

/-- The three clauses, in a kept row-group. -/
theorem witness_RunGroupStarts :
    Instr.grpRunC1 ∈ runCodes ∧ Instr.grpRunC8 ∈ runCodes ∧ mid.keep = true ∧ halfWidth mid = 4 ∧
      (2 < mid.col.toNat ∧ mid.col.toNat % 2 = 0) ∧ ({ mid with col := 2 } : State).col = 2 ∧
      ({ mid with col := 0 } : State).col = 0 := by decide

/-- The four clauses. -/
theorem witness_GroupEndFollowsTheColumn :
    0 < ({ mid with col := 1 } : State).col.toNat ∧
      (({ mid with col := 0 } : State).col = 0 ∧ mid.keep = true) ∧
      (({ mid with col := 0, keep := false, rg := 2 } : State).keep = false ∧ (2 : BitVec 2) ≠ 3) ∧
      ({ mid with col := 0, keep := false, rg := 3 } : State).rg = 3 := by decide

/-- The greatest `col` of a group, tokens 0 and 3, and the last group of a row-group. -/
def lastCol : State := { mid with col := 2, pos := .lit, tree := 8 }

theorem witness_LiteralTokenWritesItsCell :
    lastCol.keep = true ∧ lastCol.col.toNat + 1 < halfWidth lastCol ∧ storeSorted lastCol.rbuf ∧ lastCol.tok ≠ 3 ∧
      ({ lastCol with tok := 3, col := 0 } : State).tok = 3 := by decide

theorem witness_ResidualTokenWritesItsCell :
    (-3, Instr.tokRes1_M3) ∈ residualTokens ∧ (37, Instr.tokRes7_37) ∈ residualTokens ∧ lastCol.keep = true ∧
      lastCol.col.toNat + 1 < halfWidth lastCol ∧ storeSorted lastCol.rbuf := by decide

theorem witness_DiscardedTokensWriteNothing :
    (∃ v, Instr.tokLit 5 = .tokLit v) ∧ (∃ r, (r, Instr.tokRes6_13) ∈ residualTokens) ∧
      ({ mid with keep := false } : State).keep = false ∧ mid.tok ≠ 3 ∧ ({ mid with tok := 3 } : State).tok = 3 :=
  ⟨⟨5, rfl⟩, ⟨13, by decide⟩, rfl, by decide, rfl⟩

/-- `col + 1` at W2. -/
theorem witness_TokenBeyondTheRowStops :
    (∃ v, Instr.tokLit 5 = .tokLit v) ∧ (2, Instr.tokStep2) ∈ stepTokens ∧ mid.keep = true ∧
      halfWidth { mid with col := 3 } ≤ ({ mid with col := 3 } : State).col.toNat + 1 :=
  ⟨⟨5, rfl⟩, by decide⟩

theorem witness_PredictorCopySeesEarlierCells :
    lastCol.col.toNat + 1 < halfWidth lastCol ∧ storeSorted lastCol.rbuf := by decide

theorem witness_StepIsAddedToTheFourCells :
    lastCol.col.toNat + 1 < halfWidth lastCol ∧ storeSorted lastCol.rbuf := by decide

/-- Counts 1 and 9, at `col = W2`. -/
theorem witness_RepeatCountTokenStartsTheChunk :
    (1, Instr.tokNreps1) ∈ nrepsTokens ∧ (9, Instr.tokNreps9) ∈ nrepsTokens ∧ (9 : BitVec 4) ≠ 1 ∧
      2 < mid.col.toNat ∧ mid.col.toNat % 2 = 0 ∧ mid.col.toNat ≤ halfWidth mid := by decide

/-- A step token at `rep`, `nreps` and `col` in a row of 16 columns (W2 = 8). -/
def stepping (rep nreps : BitVec 4) (col : BitVec 16) : State :=
  { mid with w := 16, width := 16, tree := 0, rep := rep, nreps := nreps, col := col, pos := .step }

/-- The premises at the nine clauses, in their order. -/
theorem witness_StepTokenGoesOnWithTheChunk :
    (∀ p ∈ ([(1, 2, 6), (3, 5, 0), (1, 9, 0), (7, 9, 6), (7, 9, 2), (1, 8, 2), (5, 9, 2), (5, 7, 6), (5, 9, 6)] :
        List (BitVec 4 × BitVec 4 × BitVec 16)),
      let s := stepping p.1 p.2.1 p.2.2
      s.col.toNat % 2 = 0 ∧ s.rep.toNat % 2 = 1 ∧ s.rep.toNat < 8 ∧ s.rep.toNat < s.nreps.toNat ∧ s.nreps.toNat ≤ 9 ∧
        s.col.toNat + 1 < halfWidth s) ∧
    (-2, Instr.tokStepM2) ∈ stepTokens ∧ ((2 : BitVec 4) = 1 + 1) ∧ ((7 : BitVec 4) = 5 + 2) := by
  refine ⟨fun p hp => ?_, by decide, by decide, by decide⟩
  simp only [List.mem_cons, List.not_mem_nil, or_false] at hp
  rcases hp with rfl | rfl | rfl | rfl | rfl | rfl | rfl | rfl | rfl <;> decide

theorem witness_DiscardPassLeavesTheImage :
    (Instr.tokLit 31).slot ≠ .header ∧ ∃ t, exec (.tokLit 31) { mid with keep := false } = .next t :=
  ⟨by decide, _, rfl⟩

theorem witness_DiscardPassConsumesTheSameBits :
    (mid.status.busy = true ∧ mid.pos ∈ [Pos.ctrl, .lit, .res, .nreps, .step]) ∧ ∃ t, engineStep mid = .next t :=
  ⟨by decide, _, rfl⟩

theorem witness_ControlDoesNotDependOnImageData : ∃ t, step emitting = .next t := ⟨_, rfl⟩

/-- The first kept and the first discarded row-group. -/
theorem witness_RowGroupStartsAndSeedsTheSentinel :
    let s := { mid with pos := .rowGroup 0 }
    s.status.busy = true ∧ s.pos = .rowGroup 0 ∧ ({ mid with pos := .rowGroup 2 } : State).pos = .rowGroup 2 ∧
      badGeometry s.w s.h = false ∧ storeSorted s.rbuf ∧ (1 : BitVec 2).toNat < 2 ∧ 2 ≤ (2 : BitVec 2).toNat := by decide

theorem witness_EmitWritesTheQuincunx :
    emitting.status.busy = true ∧ emitting.pos = .emit ∧ emitting.mult ≠ 0 ∧ storeSorted emitting.plane ∧
      1 < 2 ∧ 1 < halfWidth emitting := by decide

/-- CARRY_SHIFT 0 and 1. -/
theorem witness_CarryCopiesRowTwo :
    let s := { emitting with pos := .carry }
    s.status.busy = true ∧ s.pos = .carry ∧ s.cfg.carryShift ≤ 1 ∧ storeSorted s.rbuf ∧ 2 + s.cfg.carryShift ≤ halfWidth s ∧
      ({ s with cfg := { s.cfg with carryShift := 1 } } : State).cfg.carryShift ≤ 1 := by decide

/-- The two ends of a row, and both last clauses. -/
theorem witness_CheckerRewritesTheOddParityWords :
    checking.status.busy = true ∧ checking.pos = .checker ∧ badGeometry checking.w checking.h = false ∧
      storeSorted checking.plane ∧ (0 + 1) % 2 = 1 ∧ (3 + 0) % 2 = 1 ∧ 3 < checking.w.toNat ∧
      checking.h.toNat ≤ checking.row.toNat + 4 ∧
      ({ checking with h := 8 } : State).row.toNat + 4 < ({ checking with h := 8 } : State).h.toNat := by decide

/-- The first and the last column with two neighbours. -/
theorem witness_CheckerAveragesAtTheBaseline :
    readPlane checking 2 1 = 2048 ∧ 0 < 1 ∧ 2 + 1 < checking.w.toNat ∧ readPlane checking 3 2 = 2048 := by decide

theorem witness_ToneMapsThePlane :
    ({ mid with pos := .tone } : State).status.busy = true ∧ 3 < mid.h.toNat ∧ 7 < mid.w.toNat := by decide

/-- The reference's first and last segments. -/
theorem witness_CurveMeetsItsBreakpoints :
    breakpointsAdmitted toneBreakpointsRef = true ∧ toneBreakpointsRef[0]? = some (0, 0) ∧
      toneBreakpointsRef[0 + 1]? = some (1280, 1344) ∧ toneBreakpointsRef[4]? = some (4095, 16383) ∧
      toneBreakpointsRef[4 + 1]? = some (65535, 16383) := by decide

/-- The identity, which is an admitted configuration's too; the last sample, and the first byte beyond OUT. -/
theorem witness_DemosaicEndsTheRun :
    ({ mid with pos := .demosaic } : State).status.busy = true ∧ mid.cfg.demosaic = [] ∧ mid.cfg.admitted = true ∧
      3 < mid.h.toNat ∧ 7 < mid.w.toNat ∧ 31 < mid.w.toNat * mid.h.toNat ∧ mid.w.toNat * mid.h.toNat ≤ 32 :=
  ⟨by decide, rfl, reference_admitted, by decide, by decide, by decide, by decide⟩

/-- A host about to start a run of `w` by `h`. -/
def starting (w h : BitVec 16) : State := { State.reset with width := w, height := h, hostMoves := [.writeCtrl true] }

/-- The three clauses: a bad geometry, one column group too wide, the greatest that fits. -/
theorem witness_StartTestsGeometryThenCapacity :
    (starting 321 240).hostMoves = [.writeCtrl true] ∧ (starting 321 240).status.busy = false ∧
      (starting 321 240).width.toNat % 4 ≠ 0 ∧ (starting 324 240).cfg.wMax < (starting 324 240).width.toNat ∧
      (starting 320 240).width.toNat ≤ (starting 320 240).cfg.wMax ∧
      (starting 320 240).height.toNat ≤ (starting 320 240).cfg.hMax := by decide

theorem witness_StartTestsGeometryThenCapacity_admitted (w h : BitVec 16) : (starting w h).cfg.admitted = true :=
  reference_admitted

/-- Each clause: START while BUSY, a write of 0, and START in phase DONE. -/
theorem witness_StartWhileBusyIsIgnored :
    let d := { State.reset with
      width := 4, height := 4, status := ⟨false, true, false, 0⟩, hostMoves := [.writeCtrl true] }
    ({ mid with hostMoves := [.writeCtrl true] } : State).status.busy = true ∧
      ({ State.reset with hostMoves := [.writeCtrl false] } : State).hostMoves = [.writeCtrl false] ∧
      d.status.busy = false ∧ d.status.done = true ∧ d.cfg.admitted = true ∧ badGeometry d.width d.height = false ∧
      overCapacity d.cfg d.width d.height = false :=
  ⟨by decide, rfl, rfl, rfl, reference_admitted, by decide, by decide⟩

/-- SRC_LEN 1 with its byte, and SRC_LEN 0. -/
theorem witness_InitPrimesTheRun :
    let s := { mid with pos := .init }
    s.status.busy = true ∧ s.pos = .init ∧ 0 < s.srcLen.toNat ∧ storeGet s.src 0 = some 0 ∧
      ({ s with srcLen := 0 } : State).srcLen = 0 := by decide

theorem witness_HostWritesTakeEffectWhenNotBusy :
    State.reset.status.busy = false ∧ mid.status.busy = true ∧
      ({ mid with hostMoves := [.writeCfaTile 1] } : State).hostMoves = [.writeCfaTile 1] := by decide

theorem witness_QuiescentPhasesChangeNothing :
    State.reset.status.busy = false ∧ State.reset.hostMoves = [] ∧
      ({ State.reset with hostMoves := [.engineTurn] } : State).hostMoves = [.engineTurn] := by decide

theorem witness_HardwareResetBringsPhaseIdle :
    ({ mid with hostMoves := [.hardwareReset] } : State).hostMoves = [.hardwareReset] := rfl

/-- The run `mid` is legal. -/
theorem mid_legal : Inv mid where
  admitted := reference_admitted
  memory := by decide
  tables := by decide
  status := by decide
  rem := by decide
  quiet := by decide
  run := fun _ =>
    { geometry := by decide
      capacity := by decide
      latched := by decide
      cursor := fun _ => by decide
      band := fun _ => by decide
      position := by
        show rowGroupLegal mid ∧ 0 < mid.col.toNat
        decide }

/-- A legal run at its start. -/
theorem init_legal : Inv { mid with pos := .init } where
  admitted := reference_admitted
  memory := by decide
  tables := by decide
  status := by decide
  rem := by decide
  quiet := by decide
  run := fun _ =>
    { geometry := by decide
      capacity := by decide
      latched := by decide
      cursor := fun h => absurd rfl h
      band := fun h => absurd rfl h
      position := trivial }

/-- `mid`'s control code is cut by the end of SRC. -/
theorem witness_OnlyTruncatedInsideARowGroup :
    Inv mid ∧ mid.status.busy = true ∧
      ((∃ g, mid.pos = .rowGroup g) ∨ mid.pos ∈ [Pos.ctrl, .lit, .res, .nreps, .step, .emit, .carry]) ∧
      ∃ t, engineStep mid = .next t ∧ t.status.fault = true :=
  ⟨mid_legal, by decide, .inr (by decide), _, rfl, rfl⟩

/-- 17 bits left of a header. -/
theorem witness_HeaderCutShortIsTruncated :
    let s := { atHeader with rem := 1 }
    s.status.busy = true ∧ s.pos = .bandHdr ∧ s.rem.toNat ≤ 8 ∧ s.ptr.toNat ≤ s.srcLen.toNat ∧ srcWritten s ∧
      (unreadBits s).length = 17 := by decide

theorem witness_NoStepChangesTheTables : mid.huff = [] ∧ mid.curve = [] ∧ ∃ t, step mid = .next t :=
  ⟨rfl, rfl, _, rfl⟩

theorem witness_CursorNeverMovesBackward :
    Inv mid ∧ mid.status.busy = true ∧ mid.pos ≠ .init ∧ ∃ t, engineStep mid = .next t :=
  ⟨mid_legal, by decide, by decide, _, rfl⟩

theorem witness_EveryStepKeepsTheInvariant : Inv mid ∧ ∃ t, step mid = .next t := ⟨mid_legal, _, rfl⟩

theorem witness_EngineNeverStops : Inv mid ∧ srcWritten mid := ⟨mid_legal, by decide⟩

/-- At INIT and after it. -/
theorem witness_WritesStayInBounds :
    (Inv mid ∧ mid.status.busy = true ∧ inBounds mid ∧ ∃ t, engineStep mid = .next t) ∧
      Inv { mid with pos := .init } ∧ ∃ t, engineStep { mid with pos := .init } = .next t :=
  ⟨⟨mid_legal, by decide, by decide, _, rfl⟩, init_legal, _, rfl⟩

theorem witness_EveryRunEnds :
    Inv { mid with pos := .init } ∧ srcWritten { mid with pos := .init } ∧ mid.status.busy = true :=
  ⟨init_legal, by decide⟩

/-- Two runs that differ in what is dead at a control code. -/
theorem witness_StepsDependOnlyOnWhatIsLive :
    Inv mid ∧ Inv { mid with nreps := 5 } ∧ liveOnly mid = liveOnly { mid with nreps := 5 } ∧ mid ≠ { mid with nreps := 5 } ∧
      ∃ t, step mid = .next t :=
  ⟨mid_legal,
    ⟨reference_admitted, by decide, by decide, by decide, by decide, by decide, fun _ =>
      ⟨by decide, by decide, by decide, fun _ => by decide, fun _ => by decide, by
        show rowGroupLegal mid ∧ 0 < mid.col.toNat
        decide⟩⟩, rfl, by decide, _, rfl⟩

/-- The machine after reset, and one that differs in a register START writes. -/
theorem witness_StartForgetsEarlierRuns :
    Inv State.reset ∧ Inv { State.reset with row := 4 } ∧ State.reset.status.busy = false ∧
      State.reset ≠ { State.reset with row := 4 } :=
  ⟨⟨reference_admitted, by decide, by decide, by decide, by decide, by decide, fun h => by cases h⟩,
    ⟨reference_admitted, by decide, by decide, by decide, by decide, by decide, fun h => by cases h⟩, rfl, by decide⟩

end Sys2Proof.Tests
end

section
/-! PROOF. The fetch follows the decoder of bit strings at every slot, and the step runs what it fetched
(00_scope.md R2, 10_state.md R25, 42_scaletracker.md R160). -/

namespace Sys2Proof.Machine

/-! ## Where a decoder of bit strings succeeds -/

/-- The three fields a decoded band header stands for. -/
theorem decodeHeader_eq_ok {bits rest : List Bool} {i : Instr} (h : decodeHeader bits = .ok (i, rest)) :
    ∃ m p1 p2 bits1 bits2, takeField 6 0 bits = .ok (m, bits1) ∧ takeField 6 0 bits1 = .ok (p1, bits2) ∧
      takeField 6 0 bits2 = .ok (p2, rest) ∧
      i = .bandhdr (BitVec.ofNat 6 m) (BitVec.ofNat 6 p1) (BitVec.ofNat 6 p2) := by
  unfold decodeHeader at h
  split at h
  · cases h
  next m bits1 hm =>
  split at h
  · cases h
  next p1 bits2 hp1 =>
  split at h
  · cases h
  next p2 bits3 hp2 =>
  cases h
  exact ⟨m, p1, p2, bits1, bits2, hm, hp1, hp2, rfl⟩

/-- The code word and the row a decoded code stands for. -/
theorem decode_code_eq_ok {spec : List (Nat × Int)} {t : Nat} {bits rest : List Bool} {i : Instr}
    (h : decode spec (.code t) bits = .ok (i, rest)) :
    ∃ v, decodeCode spec t bits = .ok (v, rest) ∧ rowOf t v = some i := by
  simp only [decode] at h
  split at h
  · cases h
  next v bits' hv =>
  split at h
  next i' hi =>
    cases h
    exact ⟨v, hv, hi⟩
  · cases h

/-! ## Fetching what the bits decode to -/

/-- A register that is no part of the cursor may be written beside the cursor's move. -/
theorem CursorMoved.withMult {s t : State} (h : CursorMoved s t) (m : BitVec 6) :
    CursorMoved { s with mult := m } { t with mult := m } where
  eq := by rw [h.eq]
  ptr_le := h.ptr_le
  ptr_ge := h.ptr_ge
  cur := h.cur

/-- READBITS(n) (40_bitreader.md R130) returns the field the decoder of bit strings takes off the unread bits. -/
theorem readBits_of_takeField {s : State} {n v : Nat} {rest : List Bool} (h1 : 1 ≤ n) (h8 : n ≤ 8)
    (hr : s.rem.toNat ≤ 8) (hw : srcWritten s) (h : takeField n 0 (unreadBits s) = .ok (v, rest)) :
    ∃ t, readBits n s = .got v t ∧ unreadBits t = rest ∧ CursorMoved s t ∧ t.rem.toNat ≤ 7 := by
  rw [takeField_eq] at h
  split at h
  next hn =>
    simp only [Nat.zero_mul, Nat.zero_add, Except.ok.injEq, Prod.mk.injEq] at h
    obtain ⟨rfl, rfl⟩ := h
    obtain ⟨t, hgot, hunread, hmoved, hrem, -, -⟩ := readBits_got h1 h8 hr hw hn
    exact ⟨t, hgot, hunread, hmoved, hrem⟩
  · cases h

/-- Where the unread bits decode to a band header, the fetch yields it, with its M in the register
(42_scaletracker.md R160). -/
theorem fetchHeader_of_decodeHeader {s : State} {i : Instr} {rest : List Bool} (hr : s.rem.toNat ≤ 8)
    (hw : srcWritten s) (h : decodeHeader (unreadBits s) = .ok (i, rest)) :
    ∃ c m p1 p2, i = .bandhdr m p1 p2 ∧ fetchHeader s = .got (.row i) c ∧ unreadBits c = rest ∧
      CursorMoved { s with mult := m } c := by
  obtain ⟨m, p1, p2, bits1, bits2, hm, hp1, hp2, rfl⟩ := decodeHeader_eq_ok h
  obtain ⟨t, gm, rfl, ct, rt⟩ := readBits_of_takeField (by decide) (by decide) hr hw hm
  have wt : srcWritten { t with mult := BitVec.ofNat 6 m } := ct.srcWritten hw
  obtain ⟨u, gp1, rfl, cu, ru⟩ := readBits_of_takeField (s := { t with mult := BitVec.ofNat 6 m })
    (by decide) (by decide) (by show t.rem.toNat ≤ 8; omega) wt hp1
  obtain ⟨c, gp2, hrest, cc, -⟩ := readBits_of_takeField (by decide) (by decide) (by omega) (cu.srcWritten wt) hp2
  refine ⟨c, _, _, _, rfl, ?_, hrest, ((ct.withMult _).trans cu).trans cc⟩
  simp only [fetchHeader, gm, readThen, gp1, gp2]

/-- Where the unread bits decode to a row of table `t`, the fetch yields it and moves the cursor only. -/
theorem fetchCode_of_decode {s : State} {t : Nat} {i : Instr} {rest : List Bool} (hh : s.huff = [])
    (hr : s.rem.toNat ≤ 8) (hp : s.ptr.toNat ≤ s.srcLen.toNat) (hw : srcWritten s)
    (h : decode s.cfg.huffSpec (.code t) (unreadBits s) = .ok (i, rest)) :
    ∃ c, i.slot = .code t ∧ fetchCode t s = .got (.row i) c ∧ unreadBits c = rest ∧ CursorMoved s c := by
  obtain ⟨v, hv, hi⟩ := decode_code_eq_ok h
  have agrees := decodeToken_agrees t hh hr hp hw
  rw [hv] at agrees
  obtain ⟨c, hgot, hrest, hmoved, -⟩ := agrees
  refine ⟨c, (rowOf_eq_some hi).1, ?_, hrest, hmoved⟩
  simp only [fetchCode, hgot, readThen, hi]

/-- Where the unread bits decode to an instruction at slot `sl`, the fetch yields it: the cursor moves past its bits,
and `M` takes the header's value where it is a band header. -/
theorem fetch_of_decode {s : State} {sl : Slot} {i : Instr} {rest : List Bool} (hh : s.huff = [])
    (hr : s.rem.toNat ≤ 8) (hp : s.ptr.toNat ≤ s.srcLen.toNat) (hw : srcWritten s)
    (h : decode s.cfg.huffSpec sl (unreadBits s) = .ok (i, rest)) :
    ∃ c m, fetch sl s = .got (.row i) c ∧ unreadBits c = rest ∧ CursorMoved { s with mult := m } c ∧
      (∀ t, sl = .code t → m = s.mult) ∧ (∀ m' p1 p2, i = .bandhdr m' p1 p2 → m = m') := by
  cases sl with
  | header =>
    obtain ⟨c, m, p1, p2, rfl, hfetch, hrest, hmoved⟩ := fetchHeader_of_decodeHeader hr hw h
    exact ⟨c, m, hfetch, hrest, hmoved, nofun, fun _ _ _ e => (Instr.bandhdr.inj e).1⟩
  | code t =>
    obtain ⟨c, hslot, hfetch, hrest, hmoved⟩ := fetchCode_of_decode hh hr hp hw h
    exact ⟨c, s.mult, hfetch, hrest, hmoved, fun _ _ => rfl, fun _ _ _ e => by subst e; cases hslot⟩

/-! ## The step -/

/-- With no host move pending, BUSY and a stream position, the step runs the row it fetches. -/
theorem step_of_fetch_row {s c : State} {sl : Slot} {i : Instr} (hm : s.hostMoves = [])
    (hb : s.status.busy = true) (hs : slotAt s = some sl) (hf : fetch sl s = .got (.row i) c) :
    step s = exec i c := by
  simp only [step, turn, hm, engineStep, hb, if_true, hs, runStream, hf, runRead, execFetched]

/-- Settles O12: the fetch follows the decoder, and the step runs what was fetched. -/
theorem stepRunsTheDecodedInstruction : Obligations.StepRunsTheDecodedInstruction := by
  intro s sl i rest hmoves hbusy hslot hhuff hrem hptr hsrc hdecode
  obtain ⟨c, m, hfetch, hrest, hmoved, hcode, hheader⟩ := fetch_of_decode hhuff hrem hptr hsrc hdecode
  have hmult : c.mult = m := by rw [hmoved.eq]
  refine ⟨c, step_of_fetch_row hmoves hbusy hslot hfetch, hrest, ?_, hmult ▸ hcode, hmult ▸ hheader⟩
  rw [hmult]
  exact hmoved.eq

end Sys2Proof.Machine
end

section
/-! PROOF. The host's moves, one equation each (10_state.md R28, R36; 46_sequencer.md R220, R224;
70_reset_and_hazards.md R260), and what hardware reset leaves (10_state.md R40). -/

namespace Sys2Proof.Machine

/-! ## A turn of the host -/

/-- A step with a host move pending is that move. -/
theorem step_hostMove {s : State} {m : HostMove} {rest : List HostMove} (hm : s.hostMoves = m :: rest)
    (hne : m ≠ .engineTurn) : step s = hostMove m { s with hostMoves := rest } := by
  unfold step turn
  rw [hm]
  cases m with
  | engineTurn => exact absurd rfl hne
  | _ => rfl

theorem hostRegister_idle {s : State} (write : State → State) (hb : s.status.busy = false) :
    hostRegister s write = write s :=
  if_neg (by rw [hb]; decide)

theorem hostRegister_busy {s : State} (write : State → State) (hb : s.status.busy = true) : hostRegister s write = s :=
  if_pos hb

theorem hostWriteSrc_idle {s : State} (a : BitVec 32) (b : Byte) (hb : s.status.busy = false) :
    hostWriteSrc a b s = .next { s with src := storeSet s.src a.toNat b } :=
  if_neg (by rw [hb]; decide)

theorem hostWriteSrc_busy {s : State} (a : BitVec 32) (b : Byte) (hb : s.status.busy = true) :
    hostWriteSrc a b s = .refused (.hostWritesSrcWhileBusy a) :=
  if_pos hb

/-- What SRC reads after one byte of it is stored (10_state.md R36). -/
theorem readSrc_storeSet (s : State) (n a : BitVec 32) (b : Byte) :
    readSrc { s with src := storeSet s.src n.toNat b } a = if a = n then some b else readSrc s a := by
  unfold readSrc
  rw [storeGet_storeSet]
  simp only [BitVec.toNat_inj]

/-- START's first writes: STATUS and the latched W and H (46_sequencer.md R220). -/
def latched (s : State) : State :=
  { s with status := statusBusy, w := s.width, h := s.height }

theorem acceptStart_eq (s : State) : acceptStart s =
    if badGeometry s.width s.height then raise .invalidGeometry (latched s)
    else if overCapacity s.cfg s.width s.height then raise .outOfMemory (latched s)
    else atPos .init (latched s) := rfl

/-- Settles O44: each host write is one equation when not BUSY, and a register write is dropped while BUSY. -/
theorem hostWritesTakeEffectWhenNotBusy : Obligations.HostWritesTakeEffectWhenNotBusy := by
  refine ⟨fun s rest v n c hb => ?_, fun s rest v n c hb hm => ?_⟩
  · have taken := fun write => congrArg (Host.Outcome.next : State → Result) (hostRegister_idle
        (s := { s with hostMoves := rest }) write hb)
    have hread := readSrc_storeSet { s with hostMoves := rest } n
    exact ⟨fun hm => (step_hostMove hm nofun).trans (taken _), fun hm => (step_hostMove hm nofun).trans (taken _),
      fun hm => (step_hostMove hm nofun).trans (taken _), fun hm => (step_hostMove hm nofun).trans (taken _),
      fun hm => ⟨_, (step_hostMove hm nofun).trans (hostWriteSrc_idle n c hb), rfl, (hread n c).trans (if_pos rfl),
        fun a ha => (hread a c).trans (if_neg ha)⟩⟩
  · have dropped := fun write => congrArg (Host.Outcome.next : State → Result) (hostRegister_busy
        (s := { s with hostMoves := rest }) write hb)
    rcases hm with hm | hm | hm | hm
    all_goals exact (step_hostMove hm nofun).trans (dropped _)

/-! ## Hardware reset -/

/-- A read of CURVE where nothing is listed is the word as built (10_state.md R40). -/
theorem readCurve_of_nil {s : State} (h : s.curve = []) (v : Half) : readCurve s v = curveDefault s.cfg v.toNat := by
  unfold readCurve
  rw [h]
  rfl

/-- Settles O47: STATUS and the cursor are 0, and HUFF and CURVE list nothing, so they read as built. -/
theorem resetHasTheSpecsValues : Obligations.ResetHasTheSpecsValues :=
  ⟨rfl, rfl, rfl, fun k i _ => readHuff_of_nil rfl k i, fun v => readCurve_of_nil rfl v⟩

/-- Settles O52: reset is phase IDLE, so the invariant asks nothing of a run; its configuration is an admitted one. -/
theorem resetIsLegal : Obligations.ResetIsLegal where
  admitted := by
    show Config.reference.admitted = true
    decide +kernel
  memory := Memory.wf_reset
  tables := ⟨rfl, rfl⟩
  status := List.mem_cons_self
  rem := Nat.zero_le 8
  quiet := fun _ => rfl
  run := nofun

end Sys2Proof.Machine
end

section
/-! PROOF. Every step keeps the machine legal, and the cursor of a run moves forward only (10_state.md R21 to R27;
20_memory.md R66; 46_sequencer.md R220 to R222, R229). -/

namespace Sys2Proof.Machine

/-! ## The part of the invariant that no phase changes -/

/-- What `Inv` asks whatever the phase: the configuration, the stores and `rem`. -/
structure Sound (s : State) : Prop where
  admitted : s.cfg.admitted = true
  memory : Memory.wf s
  tables : s.huff = [] ∧ s.curve = []
  rem : s.rem.toNat ≤ 8

theorem Inv.sound {s : State} (h : Inv s) : Sound s := ⟨h.admitted, h.memory, h.tables, h.rem⟩

/-- A sound state with no run under way is legal. -/
theorem Sound.inv_of_idle {s : State} (h : Sound s) (hs : statusLegal s) (hb : s.status.busy = false)
    (hp : s.pos = .halted) : Inv s :=
  ⟨h.admitted, h.memory, h.tables, hs, h.rem, fun _ => hp, fun hb' => absurd hb' (by rw [hb]; decide)⟩

/-- A fault taken in a sound state leaves a legal one (60_exceptions.md R238). -/
theorem Sound.raise {s : State} (h : Sound s) (f : RunFault) : Inv (raise f s) := by
  have hs : Sound (Machine.raise f s) := by
    cases f <;> exact ⟨h.admitted, h.memory, h.tables, h.rem⟩
  have hst : (Machine.raise f s).status = statusFault f ∧ (Machine.raise f s).pos = .halted := by
    cases f <;> exact ⟨rfl, rfl⟩
  refine hs.inv_of_idle ?_ (by rw [hst.1]; rfl) hst.2
  rw [statusLegal, hst.1]
  cases f <;> decide

theorem storeWf_nil {α : Type} [DecidableEq α] (d : Nat → α) : storeWf d ([] : Store α) := ⟨.nil, List.forall_mem_nil _⟩

/-- With HUFF, CURVE, RBUF and PLANE empty the spaces are in canonical form as soon as the others are. -/
theorem Memory.wf_of_nil {s : State} (hsrc : storeSorted s.src) (hhuff : s.huff = []) (hcurve : s.curve = [])
    (hrbuf : s.rbuf = []) (hplane : s.plane = []) (ht8 : storeWf (fun _ => (0 : Byte)) s.t8)
    (hout : storeWf (fun _ => (0 : Byte)) s.out) : Memory.wf s := by
  unfold Memory.wf
  rw [hhuff, hcurve, hrbuf, hplane]
  exact ⟨hsrc, .nil, List.forall_mem_nil _, storeWf_nil _, storeWf_nil _, storeWf_nil _, ht8, hout⟩

/-- INIT's stores (46_sequencer.md R221). -/
theorem Sound.initStores {s : State} (h : Sound s) : Sound (initStores s) := by
  obtain ⟨hsrc, -, -, -, -, -, ht8, hout⟩ := h.memory
  rw [initStores_eq]
  exact ⟨h.admitted, Memory.wf_of_nil hsrc rfl rfl rfl rfl ht8 hout, ⟨rfl, rfl⟩, Nat.zero_le 8⟩

/-- Hardware reset keeps the configuration and SRC and empties every other store (70_reset_and_hazards.md R260). -/
theorem Sound.hardwareReset {s : State} (h : Sound s) : Inv (hardwareReset s) := by
  obtain ⟨hsrc, -⟩ := h.memory
  have hs : Sound (Machine.hardwareReset s) :=
    ⟨h.admitted, Memory.wf_of_nil hsrc rfl rfl rfl rfl (storeWf_nil _) (storeWf_nil _), ⟨rfl, rfl⟩, Nat.zero_le 8⟩
  exact hs.inv_of_idle List.mem_cons_self rfl rfl

/-! ## The host's moves -/

/-- The coming host moves are no part of the invariant. -/
theorem Inv.withMoves {s : State} (h : Inv s) (rest : List HostMove) : Inv { s with hostMoves := rest } where
  admitted := h.admitted
  memory := h.memory
  tables := h.tables
  status := h.status
  rem := h.rem
  quiet := h.quiet
  run hb :=
    have r := h.run hb
    ⟨r.geometry, r.capacity, r.latched, r.cursor, r.band, r.position⟩

/-- START accepted brings INIT, where nothing but the geometry is asked of the run, or one of its two faults
(46_sequencer.md R220). -/
theorem Sound.acceptStart {s : State} (h : Sound s) : Inv (acceptStart s) := by
  have hs : Sound (latched s) := ⟨h.admitted, h.memory, h.tables, h.rem⟩
  rw [acceptStart_eq]
  split
  · exact hs.raise _
  split
  · exact hs.raise _
  next hgeometry hcapacity =>
  have run : RunLegal (atPos .init (latched s)) :=
    { geometry := Bool.eq_false_of_not_eq_true hgeometry
      capacity := Bool.eq_false_of_not_eq_true hcapacity
      latched := ⟨rfl, rfl⟩
      cursor := fun hp => absurd rfl hp
      band := fun hp => absurd rfl hp
      position := trivial }
  exact ⟨h.admitted, h.memory, h.tables, .tail _ (.head _), h.rem, nofun, fun _ => run⟩

/-- A host register write, dropped or taken, keeps the invariant where the write touches nothing the invariant reads of
an idle machine. -/
theorem Inv.hostRegister {s : State} (h : Inv s) {write : State → State} (hs : Sound (write s))
    (hst : (write s).status = s.status) (hp : (write s).pos = s.pos) : Inv (hostRegister s write) := by
  cases hb : s.status.busy with
  | true => rwa [hostRegister_busy _ hb]
  | false =>
    rw [hostRegister_idle _ hb]
    exact hs.inv_of_idle (by rw [statusLegal, hst]; exact h.status) (by rw [hst, hb]) (hp.trans (h.quiet hb))

theorem Leads.fault {Q : State → Prop} (f : Fault) : Leads Q (.fault f) := by
  intro t ht
  cases ht

theorem Leads.refused {Q : State → Prop} (q : Refusal) : Leads Q (.refused q) := by
  intro t ht
  cases ht

/-- Every move of the host keeps the invariant. -/
theorem Inv.hostMove {s : State} (h : Inv s) (m : HostMove) : Leads Inv (hostMove m s) := by
  have hs := h.sound
  cases m with
  | engineTurn => exact .next h
  | writeWidth v => exact .next (h.hostRegister ⟨hs.admitted, hs.memory, hs.tables, hs.rem⟩ rfl rfl)
  | writeHeight v => exact .next (h.hostRegister ⟨hs.admitted, hs.memory, hs.tables, hs.rem⟩ rfl rfl)
  | writeSrcLen v => exact .next (h.hostRegister ⟨hs.admitted, hs.memory, hs.tables, hs.rem⟩ rfl rfl)
  | writeCfaTile v => exact .next (h.hostRegister ⟨hs.admitted, hs.memory, hs.tables, hs.rem⟩ rfl rfl)
  | hardwareReset => exact .next hs.hardwareReset
  | writeSrc a b =>
    show Leads Inv (hostWriteSrc a b s)
    cases hb : s.status.busy with
    | true => rw [hostWriteSrc_busy a b hb]; exact .refused _
    | false =>
      rw [hostWriteSrc_idle a b hb]
      obtain ⟨hsrc, hrest⟩ := hs.memory
      exact .next (Sound.inv_of_idle ⟨hs.admitted, ⟨storeSorted_storeSet _ _ hsrc, hrest⟩, hs.tables, hs.rem⟩
        h.status hb (h.quiet hb))
  | writeCtrl start =>
    show Leads Inv (hostStart start s)
    unfold hostStart
    split
    · exact .next h
    split
    · exact .next hs.acceptStart
    · exact .refused _

/-! ## A run under way -/

/-- The cursor of `u` is not behind that of `o`, nor past the end of the same SRC (46_sequencer.md R229). -/
structure CursorAhead (o u : State) : Prop where
  src : u.src = o.src
  srcLen : u.srcLen = o.srcLen
  ptr_le : u.ptr.toNat ≤ u.srcLen.toNat
  forward : bitpos o ≤ bitpos u

/-- What `Inv` asks of a run after INIT whatever its position, and that the cursor has only moved forward from `o`. -/
structure Running (o u : State) : Prop where
  sound : Sound u
  busy : u.status = statusBusy
  geometry : badGeometry u.w u.h = false
  capacity : overCapacity u.cfg u.w u.h = false
  latched : u.w = u.width ∧ u.h = u.height
  cursor : cursorLegal u
  band : (u.cfg.prevMInit ≠ 0 → u.prevM ≠ 0) ∧ u.row.toNat % 4 = 0 ∧ u.row.toNat + 4 ≤ u.h.toNat
  ahead : CursorAhead o u

/-- The state a turn leaves: legal, with the cursor moved forward only. -/
def Lands (o t : State) : Prop :=
  Inv t ∧ CursorAhead o t

variable {o s u : State}

theorem Inv.status_busy (h : Inv s) (hb : s.status.busy = true) : s.status = statusBusy := by
  have hs := h.status
  simp only [statusLegal, List.mem_cons, List.not_mem_nil, or_false] at hs
  rcases hs with hs | hs | hs | hs | hs | hs | hs <;> rw [hs] at hb ⊢ <;> cases hb

/-- A legal run after INIT. -/
theorem Inv.running (h : Inv s) (hb : s.status.busy = true) (hp : s.pos ≠ .init) : Running s s where
  sound := h.sound
  busy := h.status_busy hb
  geometry := (h.run hb).geometry
  capacity := (h.run hb).capacity
  latched := (h.run hb).latched
  cursor := (h.run hb).cursor hp
  band := (h.run hb).band hp
  ahead := ⟨rfl, rfl, ((h.run hb).cursor hp).2.1, le_refl _⟩

/-- A run at a legal position is legal. -/
theorem Running.lands (h : Running o u) (hp : posLegal u) : Lands o u :=
  ⟨⟨h.sound.admitted, h.sound.memory, h.sound.tables, by rw [statusLegal, h.busy]; decide, h.sound.rem,
    fun hb => absurd hb (by rw [h.busy]; decide),
    fun _ => ⟨h.geometry, h.capacity, h.latched, fun _ => h.cursor, fun _ => h.band, hp⟩⟩, h.ahead⟩

/-- A fault keeps the cursor. -/
theorem CursorAhead.raise (h : CursorAhead o u) (f : RunFault) : CursorAhead o (raise f u) := by
  cases f <;> exact ⟨h.src, h.srcLen, h.ptr_le, h.forward⟩

theorem Running.raise (h : Running o u) (f : RunFault) : Lands o (raise f u) :=
  ⟨h.sound.raise f, h.ahead.raise f⟩

/-- An update of the registers of a band and of RBUF, PLANE and T8 keeps the run, where it leaves `prevM` and `row` and
those stores in canonical form. -/
theorem Running.frame {v : State} (h : Running o u)
    (hv : v = { u with
      tree := v.tree, col := v.col, nreps := v.nreps, rep := v.rep, step := v.step, keep := v.keep, rg := v.rg
      mult := v.mult, val := v.val, pos := v.pos, tok := v.tok, rbuf := v.rbuf, plane := v.plane, t8 := v.t8 })
    (hrbuf : storeWf (fun _ => u.cfg.bufInit) v.rbuf) (hplane : storeWf (fun _ => u.cfg.planeInit) v.plane)
    (ht8 : storeWf (fun _ => (0 : Byte)) v.t8) : Running o v := by
  obtain ⟨-, -, -, -, -, -, -, hout⟩ := h.sound.memory
  have hmem : Memory.wf v := Memory.wf_congr h.sound.memory (by rw [hv]) (by rw [hv]) (by rw [hv]) (by rw [hv])
    hrbuf hplane ht8 (by rw [hv]; exact hout)
  generalize v.tree = tree, v.col = col, v.nreps = nreps, v.rep = rep, v.step = step, v.keep = keep, v.rg = rg,
    v.mult = mult, v.val = val, v.pos = pos, v.tok = tok, v.rbuf = rbuf, v.plane = plane, v.t8 = t8 at hv
  subst hv
  exact ⟨⟨h.sound.admitted, hmem, h.sound.tables, h.sound.rem⟩, h.busy, h.geometry, h.capacity, h.latched, h.cursor,
    h.band, ⟨h.ahead.src, h.ahead.srcLen, h.ahead.ptr_le, h.ahead.forward⟩⟩

theorem Running.rbufWf (h : Running o u) : rbufWf u := by
  obtain ⟨-, -, -, hrbuf, -⟩ := h.sound.memory
  exact hrbuf

theorem Running.planeWf (h : Running o u) : storeWf (fun _ => u.cfg.planeInit) u.plane := by
  obtain ⟨-, -, -, -, hplane, -⟩ := h.sound.memory
  exact hplane

theorem Running.t8Wf (h : Running o u) : storeWf (fun _ => (0 : Byte)) u.t8 := by
  obtain ⟨-, -, -, -, -, -, ht8, -⟩ := h.sound.memory
  exact ht8

/-- An update of the registers of a band keeps the run. -/
theorem Running.registers {v : State} (h : Running o u)
    (hv : v = { u with
      tree := v.tree, col := v.col, nreps := v.nreps, rep := v.rep, step := v.step, keep := v.keep, rg := v.rg
      mult := v.mult, val := v.val, pos := v.pos, tok := v.tok }) : Running o v := by
  refine h.frame ?_ ?_ ?_ ?_
  · rw [hv]
  · rw [hv]; exact h.rbufWf
  · rw [hv]; exact h.planeWf
  · rw [hv]; exact h.t8Wf

/-- An update of those registers and of RBUF keeps the run. -/
theorem Running.cells {v : State} (h : Running o u)
    (hv : v = { u with
      tree := v.tree, col := v.col, nreps := v.nreps, rep := v.rep, step := v.step, keep := v.keep, rg := v.rg
      mult := v.mult, val := v.val, pos := v.pos, tok := v.tok, rbuf := v.rbuf })
    (hw : Machine.rbufWf u → storeWf (fun _ => u.cfg.bufInit) v.rbuf) : Running o v := by
  refine h.frame ?_ (hw h.rbufWf) ?_ ?_
  · rw [hv]
  · rw [hv]; exact h.planeWf
  · rw [hv]; exact h.t8Wf

/-! ## Reading the stream -/

/-- REFILL (40_bitreader.md R131) leaves `bitpos` as it is: eight bits more are read, eight of them wait. -/
theorem bitpos_refill (h0 : u.rem = 0) (hlt : u.ptr.toNat < u.srcLen.toNat) (b : Byte) :
    bitpos { u with cur := b, ptr := u.ptr + 1, rem := 8 } = bitpos u := by
  have hp := toNat_ptr_succ hlt
  unfold bitpos
  simp only [hp, h0]
  show 8 * ((u.ptr.toNat + 1 : Nat) : Int) - (8 : Nat) = 8 * (u.ptr.toNat : Int) - (0 : Nat)
  omega

theorem toNat_rem_pred (h0 : u.rem ≠ 0) : (u.rem - 1).toNat + 1 = u.rem.toNat := by
  have : u.rem.toNat ≠ 0 := fun e => h0 (BitVec.eq_of_toNat_eq e)
  have := u.rem.isLt
  rw [BitVec.toNat_sub]
  show (2 ^ 4 - 1 + u.rem.toNat) % 2 ^ 4 + 1 = _
  omega

/-- Taking a bit moves `bitpos` on by one. -/
theorem bitpos_take (h0 : u.rem ≠ 0) : bitpos { u with rem := u.rem - 1 } = bitpos u + 1 := by
  have hr := toNat_rem_pred h0
  unfold bitpos
  simp only
  omega

theorem Running.refill (h : Running o u) {b : Byte} (h0 : u.rem = 0) (hlt : u.ptr.toNat < u.srcLen.toNat)
    (hb : storeGet u.src u.ptr.toNat = some b) : Running o { u with cur := b, ptr := u.ptr + 1, rem := 8 } := by
  have hp := toNat_ptr_succ hlt
  have hle : (u.ptr + 1).toNat ≤ u.srcLen.toNat := by omega
  have hcur : storeGet u.src ((u.ptr + 1).toNat - 1) = some b := by rwa [hp]
  exact ⟨⟨h.sound.admitted, h.sound.memory, h.sound.tables, le_refl 8⟩, h.busy, h.geometry, h.capacity, h.latched,
    ⟨hp ▸ Nat.le_add_left 1 _, hle, hcur⟩, h.band,
    ⟨h.ahead.src, h.ahead.srcLen, hle, bitpos_refill h0 hlt b ▸ h.ahead.forward⟩⟩

theorem Running.take (h : Running o u) (h0 : u.rem ≠ 0) : Running o { u with rem := u.rem - 1 } := by
  have hr := toNat_rem_pred h0
  have hle := h.sound.rem
  have hf := h.ahead.forward
  refine ⟨⟨h.sound.admitted, h.sound.memory, h.sound.tables, ?_⟩, h.busy, h.geometry, h.capacity, h.latched,
    h.cursor, h.band, ⟨h.ahead.src, h.ahead.srcLen, h.ahead.ptr_le, ?_⟩⟩
  · show (u.rem - 1).toNat ≤ 8
    omega
  · rw [bitpos_take h0]
    omega

/-- Reading the stream keeps the run, with any property that does not look at the cursor. -/
theorem readerKeeps_running (o : State) {F : State → Prop}
    (hF : ∀ s p c r, F s → F { s with ptr := p, cur := c, rem := r }) :
    ReaderKeeps (fun u => Running o u ∧ F u) (Lands o) where
  refill u _ h h0 hlt hb := ⟨h.1.refill h0 hlt hb, hF u _ _ _ h.2⟩
  take u h h0 := ⟨h.1.take h0, hF u _ _ _ h.2⟩
  raised _ h _ _ := h.1.raise _

/-! ## The row-group -/

theorem Running.even_halfWidth (h : Running o u) : halfWidth u % 2 = 0 := by
  have := (geometry_of_badGeometry h.geometry).2.1
  unfold halfWidth
  omega

/-- The end of a group, in a row-group under way (43_rowpredictor.md R170). -/
theorem Running.lands_groupEnd (h : Running o u) (hg : rowGroupLegal u) : Lands o (groupEnd u) := by
  rw [groupEnd_eq_atPos]
  refine (h.registers rfl).lands ?_
  unfold posAfterGroup
  by_cases hc : 0 < u.col.toNat
  · rw [if_pos hc]
    exact ⟨hg, hc⟩
  rw [if_neg hc]
  by_cases hk : u.keep = true
  · rw [if_pos hk]
    exact ⟨hg, hk, BitVec.eq_of_toNat_eq (Nat.eq_zero_of_not_pos hc)⟩
  rw [if_neg hk]
  by_cases hr : u.rg = 3
  · rw [if_pos hr]
    exact ⟨hg.1, hr⟩
  · rw [if_neg hr]
    exact hg.1

/-- The end of a token of a literal or predicted group (43_rowpredictor.md R177, R178). -/
theorem Running.lands_tokenDone (h : Running o u) (hg : rowGroupLegal u) (hp : posLegal u) :
    Lands o (tokenDone u) := by
  unfold tokenDone
  by_cases ht : u.tok = 3
  · rw [if_pos ht]
    exact h.lands_groupEnd hg
  · rw [if_neg ht]
    refine (h.registers rfl).lands ?_
    unfold posLegal at hp ⊢
    exact hp

theorem rowGroupLegal_oneRepeat {s : State} (hg : rowGroupLegal s) (hc : 0 < s.col.toNat) :
    rowGroupLegal (oneRepeat s) ∧ s.col.toNat = (oneRepeat s).col.toNat + 2 := by
  obtain ⟨hband, hkeep, htree, heven, hcol⟩ := hg
  have hsub := toNat_col_sub_two (c := s.col) (by omega)
  have hw : halfWidth (oneRepeat s) = halfWidth s := by
    unfold halfWidth
    rw [oneRepeat_w]
  unfold rowGroupLegal bandLegal
  rw [hw, oneRepeat_mult, oneRepeat_prevM, oneRepeat_keep, oneRepeat_rg, oneRepeat_tree, oneRepeat_col, hsub]
  exact ⟨⟨hband, hkeep, htree, by omega, by omega⟩, by omega⟩

theorem rowGroupLegal_stepAdded {s : State} (hg : rowGroupLegal s) (v : Int) : rowGroupLegal (stepAdded v s) := by
  have hw : halfWidth (stepAdded v s) = halfWidth s := by
    unfold halfWidth
    rw [stepAdded_w]
  unfold rowGroupLegal bandLegal
  rw [hw, stepAdded_mult, stepAdded_prevM, stepAdded_keep, stepAdded_rg, stepAdded_tree, stepAdded_col]
  exact hg

/-- The room a group's cells need, where the column cursor has been lowered (20_memory.md R66). -/
theorem room_of_rowGroupLegal {s : State} (hg : rowGroupLegal s) (hc : 0 < s.col.toNat) :
    (s.col - 2).toNat + 1 < halfWidth s := by
  obtain ⟨-, -, -, heven, hcol⟩ := hg
  have := toNat_col_sub_two (c := s.col) (by omega)
  omega

theorem Running.oneRepeat (h : Running o u) : Running o (oneRepeat u) :=
  h.cells (by rw [oneRepeat_eq]) fun hw => oneRepeat_cfg u ▸ rbufWf_oneRepeat hw

theorem Running.stepAdded (h : Running o u) (v : Int) : Running o (stepAdded v u) :=
  h.cells (by rw [stepAdded_eq]) fun hw => stepAdded_cfg v u ▸ rbufWf_stepAdded v hw

/-- A run group between two chunks (43_rowpredictor.md R179). -/
structure BetweenChunks (o u : State) : Prop where
  running : Running o u
  group : rowGroupLegal u
  tree : u.tree = 0

/-- A chunk of a run group under way: its count is in 0..9. -/
structure InChunk (o u : State) : Prop extends BetweenChunks o u where
  count : u.nreps.toNat ≤ 9

/-- What a run group does keeps the run legal. -/
theorem runKeeps_lands (o : State) : RunKeeps (BetweenChunks o) (InChunk o) (Lands o) where
  weaken _ h := h.toBetweenChunks
  room _ h hc _ := room_of_rowGroupLegal h.group hc
  startChunk _ _ _ h9 h := ⟨⟨h.running.registers rfl, h.group, h.tree⟩, h9⟩
  odd s h h8 hn hc hodd := by
    obtain ⟨hg, hcol⟩ := rowGroupLegal_oneRepeat h.group hc
    obtain ⟨-, -, -, -, hle⟩ := h.group
    have hw : halfWidth (oneRepeat s) = halfWidth s := by
      unfold halfWidth
      rw [oneRepeat_w]
    refine (h.running.oneRepeat.registers rfl).lands ⟨hg, ?_, ?_, ?_, ?_, ?_, ?_⟩
    · show (Machine.oneRepeat s).col.toNat + 2 ≤ halfWidth (Machine.oneRepeat s)
      omega
    · exact (oneRepeat_tree s).trans h.tree
    · exact (oneRepeat_rep s).symm ▸ hodd
    · exact (oneRepeat_rep s).symm ▸ h8
    · show (Machine.oneRepeat s).rep.toNat < (Machine.oneRepeat s).nreps.toNat
      rwa [oneRepeat_rep, oneRepeat_nreps]
    · exact (oneRepeat_nreps s).symm ▸ h.count
  even s h _ _ hc _ := ⟨⟨h.running.oneRepeat.registers rfl, (rowGroupLegal_oneRepeat h.group hc).1,
    (oneRepeat_tree s).trans h.tree⟩, (oneRepeat_nreps s).symm ▸ h.count⟩
  nrepsPos _ h hc := (h.running.registers rfl).lands ⟨h.group, hc, h.tree⟩
  groupEnd _ h := h.running.lands_groupEnd h.group

/-! ## The items of the stream -/

/-- The position and the registers that name table `k` (30_encoding.md R93, R96, R100). -/
theorem slotAt_eq_code {k : Nat} (h : slotAt s = some (.code k)) :
    (s.pos = .ctrl ∧ k = s.tree.toNat) ∨ (s.pos = .lit ∧ k = 18) ∨ (s.pos = .res ∧ k = s.tree.toNat + 10) ∨
      (s.pos = .nreps ∧ k = 9) ∨ (s.pos = .step ∧ k = 10) := by
  unfold slotAt at h
  split at h <;> cases h <;> simp [*]

/-- BANDHDR (42_scaletracker.md R160): `M = 0` ends the run, any other M is the band's multiplier. -/
theorem Running.bandHeader (h : Running o u) (m : BitVec 6) : Leads (Lands o) (bandHeader m u) := by
  unfold Machine.bandHeader
  by_cases hm : m = 0
  · rw [if_pos hm]
    exact .next ((h.registers (v := { u with mult := m }) rfl).raise _)
  · rw [if_neg hm]
    have hd : Running o (decay (scaleEntry u.cfg u.prevM * m.toNat) u) :=
      h.cells (by rw [decay_eq]) fun hw => storeWf_writeCells _ hw
    have hs := hd.sound
    have ha := hd.ahead
    have hr : Running o { decay (scaleEntry u.cfg u.prevM * m.toNat) u with
        mult := m, val := scaleRegister (scaleEntry u.cfg u.prevM * m.toNat), prevM := m, pos := .rowGroup 0 } :=
      ⟨⟨hs.admitted, hs.memory, hs.tables, hs.rem⟩, hd.busy, hd.geometry, hd.capacity, hd.latched, hd.cursor,
        ⟨fun _ => hm, hd.band.2⟩, ⟨ha.src, ha.srcLen, ha.ptr_le, ha.forward⟩⟩
    exact .next (hr.lands ⟨hm, rfl⟩)

/-- A token of a literal or predicted group in the row-group (43_rowpredictor.md R177, R178): the cell it writes keeps
the run, and the token is done. -/
theorem Running.lands_token (h : Running o u) (hg : rowGroupLegal u) (hp : posLegal u) (v : Int) :
    Lands o (tokenDone (if u.keep then writeGroupCell u u.tok v else u)) := by
  split
  · exact (h.cells (v := writeGroupCell u u.tok v) rfl fun hw => rbufWf_writeGroupCell u _ _ hw).lands_tokenDone hg hp
  · exact h.lands_tokenDone hg hp

/-- What a legal position says of the registers by the table its code word is read through. -/
structure TableLegal (k : Nat) (u : State) : Prop where
  group : rowGroupLegal u
  control : k ≤ 8 → 0 < u.col.toNat
  nreps : k = 9 → u.tree = 0
  step : k = 10 → u.tree = 0 ∧ u.rep.toNat < 8 ∧ u.nreps.toNat ≤ 9
  room : 10 ≤ k → u.col.toNat + 2 ≤ halfWidth u

theorem tableLegal_of_slotAt (hp : posLegal u) {k : Nat} (hk : slotAt u = some (.code k)) : TableLegal k u := by
  unfold posLegal at hp
  rcases slotAt_eq_code hk with ⟨e, rfl⟩ | ⟨e, rfl⟩ | ⟨e, rfl⟩ | ⟨e, rfl⟩ | ⟨e, rfl⟩ <;> rw [e] at hp
  · obtain ⟨hg, hcol⟩ := hp
    have ⟨_, _, (h8 : u.tree.toNat ≤ 8), _⟩ := hg
    exact ⟨hg, fun _ => hcol, by omega, by omega, by omega⟩
  · exact ⟨hp.1, by omega, by omega, by omega, fun _ => hp.2.1⟩
  · obtain ⟨hg, hcol, htree, -⟩ := hp
    exact ⟨hg, by omega, by omega, by omega, fun _ => hcol⟩
  · exact ⟨hp.1, by omega, fun _ => hp.2.2, by omega, by omega⟩
  · obtain ⟨hg, hcol, htree, -, h8, -, h9⟩ := hp
    exact ⟨hg, by omega, by omega, fun _ => ⟨htree, h8, h9⟩, fun _ => hcol⟩

theorem rowGroupLegal_withTree {s : State} (hg : rowGroupLegal s) {c : BitVec 4} (hc : c.toNat ≤ 8) :
    rowGroupLegal { s with tree := c } := by
  obtain ⟨hband, hkeep, -, hcol⟩ := hg
  exact ⟨hband, hkeep, hc, hcol⟩

/-- The start of a literal or predicted group lowers the column cursor within the row (43_rowpredictor.md R173). -/
theorem rowGroupLegal_lowered {s : State} (hg : rowGroupLegal s) (hc : 0 < s.col.toNat) {c : BitVec 4}
    (hcode : c.toNat ≤ 8) (p : Pos) :
    let v : State := { s with tree := c, col := s.col - 2, tok := 0, pos := p }
    rowGroupLegal v ∧ v.col.toNat + 2 ≤ halfWidth v := by
  obtain ⟨hband, hkeep, -, heven, hcol⟩ := hg
  have hsub := toNat_col_sub_two (c := s.col) (by omega)
  have hle : (s.col - 2).toNat + 2 ≤ halfWidth s := by omega
  exact ⟨⟨hband, hkeep, hcode, by show (s.col - 2).toNat % 2 = 0; omega, Nat.le_of_add_right_le hle⟩, hle⟩

/-- A code word at its position keeps the run legal, whatever its value (30_encoding.md R98, R100). -/
theorem Running.execUnlisted (h : Running o u) (hp : posLegal u) {k : Nat} (hk : slotAt u = some (.code k)) (v : Byte) :
    Leads (Lands o) (execUnlisted k v u) := by
  have ht := tableLegal_of_slotAt hp hk
  have hg := ht.group
  have room (h10 : 10 ≤ k) : u.keep = true → u.col.toNat + 1 < halfWidth u := by
    have := ht.room h10
    omega
  refine (runKeeps_lands o).leads (fun h8 => ?_) (fun h9 => ⟨h, hg, ht.nreps h9⟩) (fun h10 => ?_)
    (fun h10 _ r => .resToken (room (by omega)) (h.lands_token hg hp _))
    (fun h17 => .litToken (room (by omega)) (h.lands_token hg hp _))
  · have hcol := ht.control h8
    refine ⟨⟨h.registers rfl, rowGroupLegal_withTree hg (Nat.zero_le 8), rfl⟩, fun c h1 h7 => ?_, ?_⟩
    · obtain ⟨hl, hc⟩ := rowGroupLegal_lowered hg hcol (c := c) (by omega) .res
      exact (h.registers (v := beginPred c u) rfl).lands ⟨hl, hc, h1, h7⟩
    · obtain ⟨hl, hc⟩ := rowGroupLegal_lowered hg hcol (c := 8) (by decide) .lit
      exact (h.registers (v := beginLit u) rfl).lands ⟨hl, hc, rfl⟩
  · obtain ⟨htree, h8, h9⟩ := ht.step h10
    exact ⟨room (by omega), fun a => ⟨⟨(h.stepAdded a).registers rfl, rowGroupLegal_stepAdded hg a,
      (stepAdded_tree a u).trans htree⟩, (stepAdded_nreps a u).symm ▸ h9⟩⟩

/-! ## The sequence's own operations -/

/-- The entry of a row-group (46_sequencer.md R222). -/
theorem Running.rowGroupEntry (h : Running o u) (hb : bandLegal u) (g : BitVec 2) : Lands o (rowGroupEntry g u) := by
  obtain ⟨rb, heq, hrb⟩ := rowGroupEntry_eq g u
  have hw := toNat_ofNat_halfWidth u
  have heven := h.even_halfWidth
  have hrun : Running o { u with
      rg := g, keep := decide (g.toNat < 2), rbuf := rb, tree := 1, col := BitVec.ofNat 16 (halfWidth u) } := by
    refine h.cells rfl fun hwf => ?_
    rw [hrb]
    split
    · exact storeWf_writeCells _ hwf
    · exact hwf
  rw [heq]
  refine hrun.lands_groupEnd ⟨hb, rfl, (by decide : (1 : BitVec 4).toNat ≤ 8), ?_, ?_⟩
  · show (BitVec.ofNat 16 (halfWidth u)).toNat % 2 = 0
    rwa [hw]
  · exact le_of_eq hw

/-- EMIT (43_rowpredictor.md R182) writes PLANE and goes on to CARRY. -/
theorem Running.emit (h : Running o u) (hp : u.pos = .emit) (hl : posLegal u) : Lands o (emit u) := by
  unfold posLegal at hl
  rw [hp] at hl
  rw [emit_eq]
  have hrun : Running o { u with plane := (writePlane u (emitWrites u)).plane, pos := .carry } :=
    h.frame rfl h.rbufWf (storeWf_writePlane _ h.planeWf) h.t8Wf
  exact hrun.lands hl

/-- After a row-group the band's next one comes, or CHECKER (46_sequencer.md R222). -/
theorem Running.carry (h : Running o u) (hb : bandLegal u) : Lands o (carry u) := by
  have hrun : Running o { u with rbuf := (carryRow u).rbuf } := h.cells rfl fun hw => storeWf_writeCells _ hw
  rw [carry_eq_atPos]
  refine (hrun.registers rfl).lands ?_
  by_cases hr : u.rg = 3
  · rw [if_pos hr]
    exact ⟨hb, hr⟩
  · rw [if_neg hr]
    exact hb

/-- CHECKER (45_demosaic.md R211): the next band while rows are left, else TONE. -/
theorem Running.checker (h : Running o u) : Lands o (checker u) := by
  have hrun (p : Pos) : Running o { u with plane := (checkerRows u).plane, pos := p } :=
    h.frame rfl h.rbufWf (storeWf_writePlane _ h.planeWf) h.t8Wf
  obtain ⟨hprevM, hrow, hle⟩ := h.band
  obtain ⟨-, -, -, hh⟩ := geometry_of_badGeometry h.geometry
  rw [checker_eq]
  split
  next hlt =>
    have hadd : (u.row + 4).toNat = u.row.toNat + 4 := by
      have := u.h.isLt
      rw [BitVec.toNat_add]
      show (u.row.toNat + 4) % 2 ^ 16 = _
      omega
    have hs := (hrun .bandHdr).sound
    have ha := h.ahead
    have hnext : Running o { u with plane := (checkerRows u).plane, row := u.row + 4, pos := .bandHdr } :=
      ⟨⟨hs.admitted, hs.memory, hs.tables, hs.rem⟩, h.busy, h.geometry, h.capacity, h.latched, h.cursor,
        ⟨hprevM, by show (u.row + 4).toNat % 4 = 0; omega, by show (u.row + 4).toNat + 4 ≤ u.h.toNat; omega⟩,
        ⟨ha.src, ha.srcLen, ha.ptr_le, ha.forward⟩⟩
    exact hnext.lands trivial
  next hge => exact (hrun .tone).lands (by show u.row.toNat + 4 = u.h.toNat; omega)

/-- TONE (44_tonecurve.md R203) writes the whole of T8. -/
theorem Running.tone (h : Running o u) (hlast : u.row.toNat + 4 = u.h.toNat) : Lands o (tone u) :=
  (h.frame (v := Machine.tone u) rfl h.rbufWf h.planeWf (storeWf_storeFill _ _ _)).lands hlast

/-- DEMOSAIC (45_demosaic.md R216) writes the whole of OUT, and the run is DONE. -/
theorem Running.demosaic (h : Running o u) : Lands o (demosaic u) := by
  obtain ⟨hsrc, hhuff, hbuilt, hrbuf, hplane, hcurve, ht8, -⟩ := h.sound.memory
  have hs : Sound (Machine.demosaic u) := ⟨h.sound.admitted,
    ⟨hsrc, hhuff, hbuilt, hrbuf, hplane, hcurve, ht8, storeWf_storeFill _ _ _⟩, h.sound.tables, h.sound.rem⟩
  exact ⟨hs.inv_of_idle (.tail _ (.tail _ (.head _))) rfl rfl,
    ⟨h.ahead.src, h.ahead.srcLen, h.ahead.ptr_le, h.ahead.forward⟩⟩

/-! ## One turn -/

/-- An engine turn of a run after INIT: the item at the cursor, or the operation at the position. -/
theorem Running.engineStep (h : Running u u) (hl : posLegal u) (hi : u.pos ≠ .init) :
    Leads (Lands u) (engineStep u) := by
  unfold Machine.engineStep
  rw [if_pos (by rw [h.busy]; rfl)]
  cases hslot : slotAt u with
  | some sl =>
    cases sl with
    | header =>
      exact (readerKeeps_running u (F := fun _ => True) fun _ _ _ _ h => h).runHeader
        (fun _ _ hs => ⟨hs.1.registers rfl, trivial⟩) (fun _ hs => hs) (fun m _ hs => hs.1.bandHeader m) ⟨h, trivial⟩
    | code k =>
      exact (readerKeeps_running u (F := fun s => posLegal s ∧ slotAt s = some (.code k)) fun _ _ _ _ h => h).runCode
        ⟨h, hl, hslot⟩ (fun _ hs => hs) (fun v _ hs => hs.1.execUnlisted hs.2.1 hs.2.2 v)
  | none =>
    have hpos := hl
    unfold posLegal at hpos
    unfold slotAt at hslot
    unfold runPrimitive
    cases e : u.pos with
    | halted => rw [e] at hpos; exact hpos.elim
    | init => exact absurd e hi
    | rowGroup g => rw [e] at hpos; exact .next (h.rowGroupEntry hpos g)
    | emit => exact .next (h.emit e hl)
    | carry =>
      rw [e] at hpos
      obtain ⟨⟨hband, -⟩, -⟩ := hpos
      exact .next (h.carry hband)
    | checker => exact .next h.checker
    | tone => rw [e] at hpos; exact .next (h.tone hpos)
    | demosaic => exact .next h.demosaic
    | _ => rw [e] at hslot; cases hslot

/-- The state INIT leaves when `b` is SRC[0] (46_sequencer.md R221). -/
def primed (b : Byte) (s : State) : State :=
  { s with
    huff := [], curve := [], rbuf := [], plane := [], prevM := s.cfg.prevMInit
    ptr := 1, cur := b, rem := 8, row := 0, pos := .bandHdr }

/-- What INIT does, by SRC_LEN and SRC[0] (46_sequencer.md R221). -/
theorem runInit_eq (s : State) : runInit s =
    if s.srcLen.toNat = 0 then .next (raise .truncated (initStores s))
    else match readSrc s 0 with
      | none => .fault (.srcByteUnwritten 0)
      | some b => .next (primed b s) := by
  unfold runInit resetReader
  rw [initStores_eq]
  unfold refill readSrc
  dsimp only
  by_cases h0 : s.srcLen.toNat = 0
  · rw [if_pos h0, if_pos (show s.srcLen.toNat ≤ BitVec.toNat 0 from h0.le)]
    rfl
  · rw [if_neg h0, if_neg (show ¬ s.srcLen.toNat ≤ BitVec.toNat 0 from fun h => h0 (Nat.le_zero.1 h))]
    cases storeGet s.src (BitVec.toNat 0) <;> rfl

/-- The state INIT leaves is legal: the cursor stands behind SRC[0], at the first row. -/
theorem Inv.primed (h : Inv s) (hb : s.status.busy = true) (h0 : 0 < s.srcLen.toNat) {b : Byte}
    (hbyte : readSrc s 0 = some b) : Inv (primed b s) where
  admitted := h.admitted
  memory := by
    obtain ⟨hsrc, -, -, -, -, -, ht8, hout⟩ := h.memory
    exact Memory.wf_of_nil hsrc rfl rfl rfl rfl ht8 hout
  tables := ⟨rfl, rfl⟩
  status := h.status
  rem := le_refl 8
  quiet hidle := absurd (hb.symm.trans hidle) (by decide)
  run _ :=
    have hr := h.run hb
    { geometry := hr.geometry
      capacity := hr.capacity
      latched := hr.latched
      cursor := fun _ => ⟨le_refl 1, h0, hbyte⟩
      band := fun _ => ⟨fun hm => hm, rfl, (Nat.zero_add 4).symm ▸ (geometry_of_badGeometry hr.geometry).2.2.1⟩
      position := trivial }

/-- INIT brings the first band header or Truncated (46_sequencer.md R221). -/
theorem Inv.runInit (h : Inv s) (hb : s.status.busy = true) : Leads Inv (runInit s) := by
  rw [runInit_eq]
  by_cases h0 : s.srcLen.toNat = 0
  · rw [if_pos h0]
    exact .next (h.sound.initStores.raise _)
  rw [if_neg h0]
  cases hbyte : readSrc s 0 with
  | none => exact .fault _
  | some b => exact .next (h.primed hb (Nat.pos_of_ne_zero h0) hbyte)

/-- Every turn of the engine keeps the invariant. -/
theorem Inv.engineStep (h : Inv s) : Leads Inv (engineStep s) := by
  cases hb : s.status.busy with
  | false =>
    unfold Machine.engineStep
    rw [if_neg (by rw [hb]; decide)]
    exact .next h
  | true =>
    by_cases hi : s.pos = .init
    · unfold Machine.engineStep slotAt runPrimitive
      rw [if_pos hb, hi]
      exact h.runInit hb
    · exact fun t ht => ((h.running hb hi).engineStep (h.run hb).position hi t ht).1

/-- A step is a move of the host or a turn of the engine. -/
theorem Inv.step (h : Inv s) : Leads Inv (step s) := by
  unfold Machine.step turn
  split
  · exact h.engineStep
  next rest _ => exact (h.withMoves rest).engineStep
  next m rest _ _ => exact (h.withMoves rest).hostMove m

/-- Settles O53: each move of the host and each turn of the engine keeps the invariant. -/
theorem everyStepKeepsTheInvariant : Obligations.EveryStepKeepsTheInvariant :=
  fun _ t h ht => h.step t ht

/-- Settles O51: after INIT every state a turn of the engine leaves has its cursor ahead. -/
theorem cursorNeverMovesBackward : Obligations.CursorNeverMovesBackward := by
  intro s t h hb hi ht
  obtain ⟨-, hsrc, hlen, hle, hforward⟩ := (h.running hb hi).engineStep (h.run hb).position hi t ht
  refine ⟨hforward, ?_, hlen, hsrc⟩
  rw [hlen] at hle
  unfold bitpos
  omega

end Sys2Proof.Machine
end

section
/-! PROOF. What no rule reads before it is written again has no influence: noninterference of the dead registers and
stores, step by step (10_state.md R39, R41; 46_sequencer.md R227; 70_reset_and_hazards.md R260). Every operation reads
live registers only, so it gives the same live result from a state and from that state blanked; two states that are the
same when blanked thus stay so. -/

namespace Sys2Proof.Machine

theorem Follows.fault {E : State → State → Prop} (f : Fault) {r : Result} : Follows E (.fault f) r := by
  intro t ht
  cases ht

theorem Follows.refused {E : State → State → Prop} (q : Refusal) {r : Result} : Follows E (.refused q) r := by
  intro t ht
  cases ht

/-! ## What is live at a position -/

/-- What is live at the position `p`: `liveOnly` with the position as an argument. -/
def liveAt (p : Pos) (s : State) : State :=
  { liveOnly { s with pos := p } with pos := s.pos }

/-- What the host gives a run and the implementation: all that START can depend on (46_sequencer.md R220). -/
def hostInputs (s : State) : State :=
  { blankPlanes s with w := 0, h := 0, status := statusIdle, pos := .halted }

/-- What reads the part of a state that `b` keeps and nothing else is the same of two states with that part in
common. -/
theorem eq_of_kept {α : Type} {b : State → State} {s t : State} (h : b s = b t) (f : State → α)
    (hf : ∀ u, f u = f (b u)) : f s = f t := by
  rw [hf s, hf t, h]

theorem liveOnly_pos (s : State) : (liveOnly s).pos = s.pos := by
  unfold liveOnly
  split <;> rfl

theorem liveOnly_eq_liveAt {s : State} {p : Pos} (hp : s.pos = p) : liveOnly s = liveAt p s := by
  subst hp
  show liveOnly s = { liveOnly s with pos := s.pos }
  rw [← liveOnly_pos]

/-- Every position keeps live the position itself, STATUS, the host's moves and the host's inputs. -/
theorem liveAt_pos (p : Pos) (s : State) : (liveAt p s).pos = s.pos := rfl
theorem liveAt_status (p : Pos) (s : State) : (liveAt p s).status = s.status := by cases p <;> rfl
theorem liveAt_hostMoves (p : Pos) (s : State) : (liveAt p s).hostMoves = s.hostMoves := by cases p <;> rfl
theorem hostInputs_liveAt (p : Pos) (s : State) : hostInputs (liveAt p s) = hostInputs s := by
  cases p <;> dsimp only [hostInputs, liveAt, liveOnly, blankPlanes, blankRows, blankBand, blankGroup, blankIdle]

theorem liveAt_atPos (p q : Pos) (s : State) : liveAt p (atPos q s) = atPos q (liveAt p s) := by
  cases p <;> rfl

theorem liveAt_withMoves (p : Pos) (s : State) (rest : List HostMove) :
    liveAt p { s with hostMoves := rest } = { liveAt p s with hostMoves := rest } := by
  cases p <;> rfl

/-- Two states agree on what is live at `p`. -/
def Agree (p : Pos) (s t : State) : Prop :=
  liveAt p s = liveAt p t

/-- Two states agree on what is live at their own position. -/
def Alike (s t : State) : Prop :=
  liveOnly s = liveOnly t

variable {s t : State} {p : Pos}

/-- What reads live registers and stores only is the same of two states that agree. -/
theorem Agree.same {α : Type} (h : Agree p s t) (f : State → α)
    (hf : ∀ u, f u = f (liveAt p u) := by
      intro u
      dsimp only [liveAt, liveOnly, blankPlanes, blankRows, blankBand, blankGroup, blankIdle, halfWidth, cursorInfo,
        withRep, startChunk, beginPred, beginLit, primed, Machine.writeGroupCell, writeCell]) : f s = f t :=
  eq_of_kept h f hf

theorem Agree.alike (h : Agree p s t) (hs : s.pos = p) (ht : t.pos = p) : Alike s t := by
  unfold Alike
  rw [liveOnly_eq_liveAt hs, liveOnly_eq_liveAt ht]
  exact h

theorem Alike.pos (h : Alike s t) : s.pos = t.pos := by
  unfold Alike at h
  rw [liveOnly_eq_liveAt rfl, liveOnly_eq_liveAt rfl] at h
  rw [← liveAt_pos s.pos s, ← liveAt_pos t.pos t]
  exact congrArg State.pos h

theorem Alike.agree (h : Alike s t) : Agree s.pos s t := by
  have hpos := h.pos
  unfold Alike at h
  rwa [liveOnly_eq_liveAt rfl, liveOnly_eq_liveAt hpos.symm] at h

theorem Agree.atPos (h : Agree p s t) : Alike (atPos p s) (atPos p t) := by
  refine Agree.alike (p := p) ?_ rfl rfl
  unfold Agree
  rw [liveAt_atPos, liveAt_atPos]
  exact congrArg (Machine.atPos p) h

theorem Alike.withMoves (h : Alike s t) (rest : List HostMove) :
    Alike { s with hostMoves := rest } { t with hostMoves := rest } := by
  refine Agree.alike (p := s.pos) ?_ rfl h.pos.symm
  exact (liveAt_withMoves _ s rest).trans
    ((congrArg (fun u => { u with hostMoves := rest }) h.agree).trans (liveAt_withMoves _ t rest).symm)

theorem Alike.status (h : Alike s t) : s.status = t.status :=
  eq_of_kept h.agree State.status fun u => (liveAt_status _ u).symm

theorem Alike.hostMoves (h : Alike s t) : s.hostMoves = t.hostMoves :=
  eq_of_kept h.agree State.hostMoves fun u => (liveAt_hostMoves _ u).symm

theorem Alike.hostInputs (h : Alike s t) : hostInputs s = hostInputs t :=
  eq_of_kept h.agree Machine.hostInputs fun u => (hostInputs_liveAt _ u).symm

/-! ## Faults -/

/-- What FAULT_INFO reports of the fault (60_exceptions.md R231 to R234), where it is specified. -/
def faultReport (f : RunFault) (s : State) : BitVec 36 :=
  match f with
  | .truncated | .zeroMultiplier => cursorInfo s
  | .outOfMemory | .invalidGeometry => 0

/-- After a fault STATUS, the report and the host's inputs are live, and nothing else (60_exceptions.md R238). -/
theorem liveOnly_raise (f : RunFault) (s : State) :
    liveOnly (raise f s) = { hostInputs s with status := statusFault f, faultInfo := faultReport f s } := by
  cases f <;> rfl

theorem alike_raise {f : RunFault} (h : hostInputs s = hostInputs t) (hr : faultReport f s = faultReport f t) :
    Alike (raise f s) (raise f t) := by
  unfold Alike
  rw [liveOnly_raise, liveOnly_raise, h, hr]

/-! ## START and the host's moves -/

theorem hostInputs_latched (s : State) : hostInputs (latched s) = hostInputs s := rfl

theorem liveOnly_latched (s : State) : liveOnly (atPos .init (latched s)) = atPos .init (latched (hostInputs s)) := rfl

/-- START depends on the host's inputs only (46_sequencer.md R220). -/
theorem alike_acceptStart (h : hostInputs s = hostInputs t) : Alike (acceptStart s) (acceptStart t) := by
  have hw : s.width = t.width := eq_of_kept h State.width fun _ => rfl
  have hh : s.height = t.height := eq_of_kept h State.height fun _ => rfl
  have hc : s.cfg = t.cfg := eq_of_kept h State.cfg fun _ => rfl
  have hl : hostInputs (latched s) = hostInputs (latched t) := by rwa [hostInputs_latched, hostInputs_latched]
  rw [acceptStart_eq, acceptStart_eq, hw, hh, hc]
  split
  · exact alike_raise hl rfl
  split
  · exact alike_raise hl rfl
  · unfold Alike
    rw [liveOnly_latched, liveOnly_latched, h]

/-- Settles O58: not BUSY, what two machines with the same host inputs differ in is dead. -/
theorem startForgetsEarlierRuns : Obligations.StartForgetsEarlierRuns := by
  intro s t hs ht _ _ hcfg hsrc hlen hwidth hheight htile hmoves
  obtain ⟨hhuff, hcurve⟩ := hs.tables
  obtain ⟨hhuff', hcurve'⟩ := ht.tables
  refine alike_acceptStart ?_
  unfold hostInputs blankPlanes blankRows blankBand blankGroup blankIdle
  rw [hcfg, hsrc, hlen, hwidth, hheight, htile, hmoves, hhuff, hhuff', hcurve, hcurve']

theorem alike_hardwareReset (h : hostInputs s = hostInputs t) : Alike (hardwareReset s) (hardwareReset t) := by
  have key (u : State) : liveOnly (hardwareReset u) = { hardwareReset (hostInputs u) with freeCtr := 0 } := rfl
  unfold Alike
  rw [key, key, h]

/-- A host write to two alike machines that are not BUSY, where it touches what is live after a run as it touches the
whole state. -/
theorem Alike.idle_write (h : Alike s t) (hs : Inv s) (ht : Inv t) (hb : s.status.busy = false)
    {write : State → State} (hpos : ∀ u, (write u).pos = u.pos)
    (hlive : ∀ u, liveAt .halted (write u) = write (liveAt .halted u)) :
    Alike (write s) (write t) := by
  have hpos_s := hs.quiet hb
  have hpos_t := ht.quiet (h.status ▸ hb)
  have hagree : Agree .halted s t := hpos_s ▸ h.agree
  refine Agree.alike (p := .halted) ?_ ((hpos s).trans hpos_s) ((hpos t).trans hpos_t)
  unfold Agree
  rw [hlive, hlive, hagree]

theorem Alike.hostRegister (h : Alike s t) (hs : Inv s) (ht : Inv t) {write : State → State}
    (hpos : ∀ u, (write u).pos = u.pos) (hlive : ∀ u, liveAt .halted (write u) = write (liveAt .halted u)) :
    Alike (hostRegister s write) (hostRegister t write) := by
  have hstatus := h.status
  cases hb : s.status.busy with
  | true => rwa [hostRegister_busy _ hb, hostRegister_busy _ (hstatus ▸ hb)]
  | false =>
    rw [hostRegister_idle _ hb, hostRegister_idle _ (hstatus ▸ hb)]
    exact h.idle_write hs ht hb hpos hlive

/-- Every move of the host keeps legal states alike. -/
theorem Alike.hostMove (h : Alike s t) (hs : Inv s) (ht : Inv t) (m : HostMove) :
    Follows Alike (hostMove m s) (hostMove m t) := by
  have hstatus := h.status
  cases m with
  | engineTurn => exact .next h
  | writeWidth v => exact .next (h.hostRegister hs ht (fun _ => rfl) fun _ => rfl)
  | writeHeight v => exact .next (h.hostRegister hs ht (fun _ => rfl) fun _ => rfl)
  | writeSrcLen v => exact .next (h.hostRegister hs ht (fun _ => rfl) fun _ => rfl)
  | writeCfaTile v => exact .next (h.hostRegister hs ht (fun _ => rfl) fun _ => rfl)
  | hardwareReset => exact .next (alike_hardwareReset h.hostInputs)
  | writeSrc a b =>
    show Follows Alike (hostWriteSrc a b s) (hostWriteSrc a b t)
    cases hb : s.status.busy with
    | true =>
      rw [hostWriteSrc_busy a b hb]
      exact .refused _
    | false =>
      rw [hostWriteSrc_idle a b hb, hostWriteSrc_idle a b (hstatus ▸ hb)]
      exact .next (h.idle_write hs ht hb (write := fun u => { u with src := storeSet u.src a.toNat b })
        (fun _ => rfl) fun _ => rfl)
  | writeCtrl start =>
    show Follows Alike (hostStart start s) (hostStart start t)
    have hcfg : s.cfg = t.cfg := eq_of_kept h.hostInputs State.cfg fun _ => rfl
    unfold hostStart
    rw [hstatus, hcfg]
    split
    · exact .next h
    split
    · exact .next (alike_acceptStart h.hostInputs)
    · exact .refused _

/-! ## Reading the stream -/

/-- The positions at which an item of the stream is read. -/
def Pos.reads (p : Pos) : Prop :=
  p = .bandHdr ∨ p = .ctrl ∨ p = .lit ∨ p = .res ∨ p = .nreps ∨ p = .step

/-- What is live at a band header is live wherever the stream is read. -/
theorem Agree.bandHdr (h : Agree p s t) (hp : Pos.reads p) : Agree .bandHdr s t := by
  rcases hp with rfl | rfl | rfl | rfl | rfl | rfl <;> exact h.same (liveAt .bandHdr)

/-- The cursor is live wherever the stream is read, so it may be moved in both states alike. -/
theorem Agree.withCursor (h : Agree p s t) (hp : Pos.reads p) (q : BitVec 32) (c : Byte) (r : BitVec 4) :
    Agree p { s with ptr := q, cur := c, rem := r } { t with ptr := q, cur := c, rem := r } := by
  rcases hp with rfl | rfl | rfl | rfl | rfl | rfl <;>
    exact h.same (fun u => liveAt _ { u with ptr := q, cur := c, rem := r })

/-- Two states at the position `p` that agree on what is live there. -/
structure At (p : Pos) (s t : State) : Prop where
  agree : Agree p s t
  pos_left : s.pos = p
  pos_right : t.pos = p

theorem At.alike (h : At p s t) : Alike s t := h.agree.alike h.pos_left h.pos_right

/-- Reading the stream gives the same bits to two states that agree, and keeps them so. -/
theorem readTwins_at (hp : Pos.reads p) : ReadTwins (At p) Alike where
  same s t h := by
    have hb := h.agree.bandHdr hp
    exact ⟨(hb.same State.ptr).symm, (hb.same State.cur).symm, (hb.same State.rem).symm, (hb.same State.srcLen).symm,
      (hb.same State.src).symm, (hb.same State.huff).symm, (hb.same State.cfg).symm⟩
  cursor _ _ h q c r := ⟨h.agree.withCursor hp q c r, h.pos_left, h.pos_right⟩
  raised _ _ h := alike_raise h.alike.hostInputs ((h.agree.bandHdr hp).same cursorInfo)

/-! ## What the whole-store operations read -/

/-- RBUF is read through the store and the configuration alone (10_state.md R31). -/
theorem cell_congr (hr : s.rbuf = t.rbuf) (hc : s.cfg = t.cfg) : cell s = cell t := by
  funext r i
  unfold cell readCell
  rw [hr, hc]

/-- PLANE is read through the store, the configuration and the latched width (10_state.md R34). -/
theorem readPlane_congr (hp : s.plane = t.plane) (hc : s.cfg = t.cfg) (hw : s.w = t.w) : readPlane s = readPlane t := by
  funext y x
  unfold readPlane pixelAddr
  rw [hp, hc, hw]

theorem halfWidth_congr (hw : s.w = t.w) : halfWidth s = halfWidth t := by
  unfold halfWidth
  rw [hw]

theorem decay_rbuf_congr (hr : s.rbuf = t.rbuf) (hc : s.cfg = t.cfg) (hw : s.w = t.w) (v : Nat) :
    (decay v s).rbuf = (decay v t).rbuf := by
  simp only [decay, writeCells, allCells, decayed, cell_congr hr hc, halfWidth_congr hw, hr, hc]

theorem seedSentinel_rbuf_congr (hr : s.rbuf = t.rbuf) (hc : s.cfg = t.cfg) (hw : s.w = t.w) (hm : s.mult = t.mult) :
    (seedSentinel s).rbuf = (seedSentinel t).rbuf := by
  simp only [seedSentinel, writeCells, halfWidth_congr hw, hr, hc, hm]

theorem carryRow_rbuf_congr (hr : s.rbuf = t.rbuf) (hc : s.cfg = t.cfg) (hw : s.w = t.w) :
    (carryRow s).rbuf = (carryRow t).rbuf := by
  simp only [carryRow, writeCells, cell_congr hr hc, halfWidth_congr hw, hr, hc]

theorem emit_plane_congr (hp : s.plane = t.plane) (hr : s.rbuf = t.rbuf) (hc : s.cfg = t.cfg) (hw : s.w = t.w)
    (hm : s.mult = t.mult) (hrow : s.row = t.row) (hrg : s.rg = t.rg) :
    (writePlane s (emitWrites s)).plane = (writePlane t (emitWrites t)).plane := by
  simp only [writePlane, emitWrites, pixelAddr, cell_congr hr hc, halfWidth_congr hw, hp, hc, hw, hm, hrow, hrg]

theorem checkerRows_plane_congr (hp : s.plane = t.plane) (hc : s.cfg = t.cfg) (hw : s.w = t.w) (hrow : s.row = t.row) :
    (checkerRows s).plane = (checkerRows t).plane := by
  simp only [checkerRows, writePlane, checkerPositions, checkerValue, pixelAddr, readPlane_congr hp hc hw, hp, hc, hw,
    hrow]

theorem tone_t8_congr (hp : s.plane = t.plane) (hc : s.cfg = t.cfg) (hw : s.w = t.w) (hh : s.h = t.h)
    (hcurve : s.curve = t.curve) : (tone s).t8 = (tone t).t8 := by
  simp only [tone, toneSample, readCurve, readPlane_congr hp hc hw, hc, hw, hh, hcurve]

theorem demosaic_out_congr (ht : s.t8 = t.t8) (hc : s.cfg = t.cfg) (hw : s.w = t.w) (hh : s.h = t.h)
    (htile : s.cfaTile = t.cfaTile) : (demosaic s).out = (demosaic t).out := by
  simp only [demosaic, demosaicArgs, t8Samples, readT8, pixelAddr, ht, hc, hw, hh, htile]

/-! ## The cells of a group -/

/-- The positions in a row-group at which its column cursor, its `keep` and RBUF are live. -/
def Pos.inGroup (p : Pos) : Prop :=
  p = .ctrl ∨ p = .lit ∨ p = .res ∨ p = .step

theorem inGroup_ctrl : Pos.inGroup .ctrl := .inl rfl
theorem inGroup_lit : Pos.inGroup .lit := .inr (.inl rfl)
theorem inGroup_res : Pos.inGroup .res := .inr (.inr (.inl rfl))
theorem inGroup_step : Pos.inGroup .step := .inr (.inr (.inr rfl))

/-- A group's cell write reads no dead register. -/
theorem Agree.writeGroupCell (h : Agree p s t) (hp : Pos.inGroup p) (k : BitVec 2) {v v' : Int} (hv : v = v') :
    Agree p (writeGroupCell s k v) (writeGroupCell t k v') := by
  subst hv
  rcases hp with rfl | rfl | rfl | rfl <;> exact h.same (fun u => liveAt _ (Machine.writeGroupCell u k v))

theorem Agree.keep (h : Agree p s t) (hp : Pos.inGroup p) : s.keep = t.keep := by
  rcases hp with rfl | rfl | rfl | rfl <;> exact h.same State.keep

theorem Agree.col (h : Agree p s t) (hp : Pos.inGroup p) : s.col = t.col := by
  rcases hp with rfl | rfl | rfl | rfl <;> exact h.same State.col

theorem Agree.halfWidth (h : Agree p s t) (hp : Pos.inGroup p) : halfWidth s = halfWidth t := by
  rcases hp with rfl | rfl | rfl | rfl <;> exact h.same Machine.halfWidth

theorem Agree.cell (h : Agree p s t) (hp : Pos.inGroup p) : cell s = cell t := by
  rcases hp with rfl | rfl | rfl | rfl <;> exact cell_congr (h.same State.rbuf) (h.same State.cfg)

theorem Agree.predictAt (h : Agree p s t) (hp : Pos.inGroup p) (k : BitVec 2) : predictAt s k = predictAt t k := by
  unfold Machine.predictAt predict
  rw [h.cell hp, h.col hp]

/-- What a kept row-group does and a discarded one does not. -/
theorem Agree.ite_keep (hk : s.keep = t.keep) {a a' b b' : State} (ha : Agree p a a') (hb : Agree p b b') :
    Agree p (if s.keep then a else b) (if t.keep then a' else b') := by
  rw [hk]
  split
  · exact ha
  · exact hb

theorem Agree.predictCell (h : Agree .step s t) (k : BitVec 2) : Agree .step (predictCell k s) (predictCell k t) :=
  h.writeGroupCell inGroup_step k (h.predictAt inGroup_step k)

theorem Agree.oneRepeat (h : Agree .step s t) : Agree .step (oneRepeat s) (oneRepeat t) := by
  have hl : Agree .step { s with col := s.col - 2 } { t with col := t.col - 2 } :=
    h.same (fun u => liveAt .step { u with col := u.col - 2 })
  unfold Machine.oneRepeat predictCells
  dsimp only
  exact .ite_keep (h.keep inGroup_step) ((((hl.predictCell 0).predictCell 1).predictCell 2).predictCell 3) hl

/-- Agreement at a step token, and on the register `step` besides, as it is once the token wrote it. -/
structure AgreeStep (s t : State) : Prop where
  agree : Agree .step s t
  step : s.step = t.step

theorem Agree.withStep (h : Agree .step s t) (x : BitVec 12) : AgreeStep { s with step := x } { t with step := x } :=
  ⟨h, rfl⟩

theorem AgreeStep.addStepCell (h : AgreeStep s t) (k : BitVec 2) : AgreeStep (addStepCell k s) (addStepCell k t) := by
  exact ⟨h.agree.writeGroupCell inGroup_step k (by rw [h.agree.cell inGroup_step, h.agree.col inGroup_step, h.step]),
    (addStepCell_step k s).trans (h.step.trans (addStepCell_step k t).symm)⟩

/-- A step token writes `step` before it reads it (43_rowpredictor.md R179). -/
theorem Agree.stepAdded (h : Agree .step s t) (v : Int) : Agree .step (stepAdded v s) (stepAdded v t) := by
  have hl := h.withStep (BitVec.ofInt 12 (v * 16))
  unfold Machine.stepAdded addStepCells
  dsimp only
  exact .ite_keep (h.keep inGroup_step)
    ((((hl.addStepCell 0).addStepCell 1).addStepCell 2).addStepCell 3).agree hl.agree

/-! ## The end of a group -/

theorem Agree.emit (h : Agree .ctrl s t) : Agree .emit s t := h.same (liveAt .emit)
theorem Agree.checker (h : Agree .emit s t) : Agree .checker s t := h.same (liveAt .checker)
theorem Agree.rowGroup (h : Agree .emit s t) (g : BitVec 2) : Agree (.rowGroup g) s t :=
  h.same (liveAt (.rowGroup g))

/-- After the row-group, where `rg` names the next place (46_sequencer.md R222). -/
theorem Agree.afterRowGroup (h : Agree .emit s t) :
    Alike (Machine.atPos (if s.rg = 3 then .checker else .rowGroup (s.rg + 1)) s)
      (Machine.atPos (if t.rg = 3 then .checker else .rowGroup (t.rg + 1)) t) := by
  have hr : s.rg = t.rg := h.same State.rg
  rw [hr]
  split
  · exact h.checker.atPos
  · exact (h.rowGroup _).atPos

theorem Agree.groupEnd (h : Agree .ctrl s t) : Alike (groupEnd s) (groupEnd t) := by
  have hc := h.col inGroup_ctrl
  have hk := h.keep inGroup_ctrl
  rw [groupEnd_eq_atPos, groupEnd_eq_atPos]
  unfold posAfterGroup
  by_cases h0 : 0 < t.col.toNat
  · rw [hc, if_pos h0, if_pos h0]
    exact h.atPos
  rw [hc, if_neg h0, if_neg h0, hk]
  by_cases hkeep : t.keep = true
  · rw [if_pos hkeep, if_pos hkeep]
    exact h.emit.atPos
  · rw [if_neg hkeep, if_neg hkeep]
    exact h.emit.afterRowGroup

/-! ## The items of the stream -/

/-- A run group: what is live at a control code between its chunks, what is live at a step token inside one. -/
theorem twins_run : Twins (Agree .ctrl) (Agree .step) Alike where
  weaken _ _ h := h.same (liveAt .ctrl)
  col _ _ h := (h.col inGroup_ctrl).symm
  keep _ _ h hk := ⟨(h.keep inGroup_ctrl).trans hk, (h.halfWidth inGroup_ctrl).symm⟩
  counters _ _ h := ⟨(h.same State.nreps).symm, (h.same State.rep).symm⟩
  startChunk _ _ n h := h.same (fun u => liveAt .step (startChunk n u))
  oneRepeat _ _ h := h.oneRepeat
  withRep _ _ r h := h.same (fun u => liveAt .step (withRep r u))
  stepPos _ _ h := h.atPos
  nrepsPos _ _ h := Agree.atPos (p := .nreps) h
  groupEnd _ _ h := h.groupEnd

/-- The end of a token of a literal or predicted group. -/
theorem At.tokenDone (h : At p s t) (hp : p = .lit ∨ p = .res) : Alike (tokenDone s) (tokenDone t) := by
  have htok : s.tok = t.tok := by
    rcases hp with rfl | rfl <;> exact h.agree.same State.tok
  have hctrl : Agree .ctrl s t := by
    rcases hp with rfl | rfl <;> exact h.agree.same (liveAt .ctrl)
  unfold Machine.tokenDone
  rw [htok]
  by_cases h3 : t.tok = 3
  · rw [if_pos h3, if_pos h3]
    exact hctrl.groupEnd
  · rw [if_neg h3, if_neg h3]
    refine Agree.alike (p := p) ?_ h.pos_left h.pos_right
    rcases hp with rfl | rfl <;> exact h.agree.same (fun u => liveAt _ { u with tok := t.tok + 1 })

/-- The cell a token writes, and the end of the token. -/
theorem At.token (h : At p s t) (hp : p = .lit ∨ p = .res) {v v' : Int} (hv : v = v') :
    Alike (Machine.tokenDone (if s.keep then writeGroupCell s s.tok v else s))
      (Machine.tokenDone (if t.keep then writeGroupCell t t.tok v' else t)) := by
  have hg : Pos.inGroup p := .inr (hp.imp_right .inl)
  have htok : s.tok = t.tok := by
    rcases hp with rfl | rfl <;> exact h.agree.same State.tok
  have hk := h.agree.keep hg
  rw [htok]
  have hw := h.agree.writeGroupCell hg t.tok hv
  have pos (u : State) (k : BitVec 2) (x : Int) : (if u.keep then writeGroupCell u k x else u).pos = u.pos := by
    split
    · exact writeGroupCell_pos u k x
    · rfl
  exact At.tokenDone ⟨.ite_keep hk hw h.agree, (pos s _ _).trans h.pos_left, (pos t _ _).trans h.pos_right⟩ hp

/-- The tables read at each position of a row-group (30_encoding.md R93, R96, R100). -/
inductive TableAt : Pos → Nat → Prop
  | ctrl {k : Nat} : k ≤ 8 → TableAt .ctrl k
  | lit : TableAt .lit 18
  | res {k : Nat} : 11 ≤ k → k ≤ 17 → TableAt .res k
  | nreps : TableAt .nreps 9
  | step : TableAt .step 10

theorem TableAt.reads {k : Nat} (h : TableAt p k) : Pos.reads p := by
  cases h <;> simp [Pos.reads]

theorem tableAt_of_slotAt (hl : posLegal s) {k : Nat} (hk : slotAt s = some (.code k)) : TableAt s.pos k := by
  unfold posLegal at hl
  rcases slotAt_eq_code hk with ⟨e, rfl⟩ | ⟨e, rfl⟩ | ⟨e, rfl⟩ | ⟨e, rfl⟩ | ⟨e, rfl⟩ <;> rw [e] at hl ⊢
  · obtain ⟨⟨-, -, htree, -⟩, -⟩ := hl
    exact .ctrl htree
  · exact .lit
  · obtain ⟨-, -, h1, h7⟩ := hl
    exact .res (by omega) (by omega)
  · exact .nreps
  · exact .step

/-- A code word gives two states that agree the same next step, whatever its value (30_encoding.md R98, R100). -/
theorem At.execUnlisted (h : At p s t) {k : Nat} (hk : TableAt p k) (v : Byte) :
    Follows Alike (execUnlisted k v s) (execUnlisted k v t) := by
  have kept (hp : Pos.inGroup p) : t.col = s.col ∧ (t.keep = true → s.keep = true ∧ halfWidth t = halfWidth s) :=
    ⟨(h.agree.col hp).symm, fun hk => ⟨(h.agree.keep hp).trans hk, (h.agree.halfWidth hp).symm⟩⟩
  cases hk with
  | ctrl h8 =>
    have hg := h.agree
    exact twins_run.execUnlisted (fun _ => ⟨hg.same (fun u => liveAt .ctrl { u with tree := 0 }),
      fun c => Agree.alike (p := .res) (hg.same (fun u => liveAt .res (beginPred c u))) rfl rfl,
      Agree.alike (p := .lit) (hg.same (fun u => liveAt .lit (beginLit u))) rfl rfl⟩)
      (by omega) (by omega) (by omega) (by omega)
  | nreps => exact twins_run.execUnlisted (by omega) (fun _ => h.agree) (by omega) (by omega) (by omega)
  | step =>
    exact twins_run.execUnlisted (by omega) (by omega) (fun _ => ⟨h.agree, h.agree.stepAdded⟩) (by omega) (by omega)
  | lit =>
    have hm : s.mult = t.mult := h.agree.same State.mult
    rw [execUnlisted_lit, execUnlisted_lit]
    obtain ⟨hcol, hkeep⟩ := kept inGroup_lit
    exact litToken_follows v hcol hkeep (h.token (.inl rfl) (by rw [hm]))
  | res h11 h17 =>
    have hc : s.cfg = t.cfg := h.agree.same State.cfg
    have htok : s.tok = t.tok := h.agree.same State.tok
    have hpred := h.agree.predictAt inGroup_res t.tok
    obtain ⟨hcol, hkeep⟩ := kept inGroup_res
    rw [execUnlisted_res h11 h17, execUnlisted_res h11 h17]
    exact resToken_follows _ hcol hkeep (h.token (.inr rfl) (by rw [hc, htok, hpred]))

/-- BANDHDR gives two states that agree the same band (42_scaletracker.md R160). -/
theorem At.bandHeader (h : At .bandHdr s t) (m : BitVec 6) : Follows Alike (bandHeader m s) (bandHeader m t) := by
  have hv : scaleEntry s.cfg s.prevM = scaleEntry t.cfg t.prevM := by
    rw [h.agree.same State.cfg, h.agree.same State.prevM]
  unfold Machine.bandHeader
  rw [hv]
  generalize scaleEntry t.cfg t.prevM * m.toNat = v
  by_cases hm : m = 0
  · rw [if_pos hm, if_pos hm]
    exact .next (alike_raise (s := { s with mult := m }) (t := { t with mult := m }) h.alike.hostInputs
      (h.agree.same cursorInfo))
  · rw [if_neg hm, if_neg hm]
    have hr := decay_rbuf_congr (h.agree.same State.rbuf) (h.agree.same State.cfg) (h.agree.same State.w) v
    refine .next (Agree.alike (p := .rowGroup 0) ?_ rfl rfl)
    rw [decay_eq v s, decay_eq v t, hr]
    exact h.agree.same (fun u => liveAt (.rowGroup 0) { u with
      rbuf := (decay v t).rbuf, mult := m, val := scaleRegister v, prevM := m, pos := .rowGroup 0 })

/-! ## The sequence's own operations -/

theorem At.rowGroupEntry {g : BitVec 2} (h : At (.rowGroup g) s t) : Alike (rowGroupEntry g s) (rowGroupEntry g t) := by
  obtain ⟨rb, heq, hrb⟩ := rowGroupEntry_eq g s
  obtain ⟨rb', heq', hrb'⟩ := rowGroupEntry_eq g t
  have hr : rb = rb' := by
    rw [hrb, hrb', h.agree.same State.rbuf, seedSentinel_rbuf_congr (h.agree.same State.rbuf)
      (h.agree.same State.cfg) (h.agree.same State.w) (h.agree.same State.mult)]
  rw [heq, heq', hr]
  refine Agree.groupEnd ?_
  exact h.agree.same (fun u => liveAt .ctrl { u with
    rg := g, keep := decide (g.toNat < 2), rbuf := rb', tree := 1, col := BitVec.ofNat 16 (halfWidth u) })

theorem At.emit (h : At .emit s t) : Alike (emit s) (emit t) := by
  have hp := emit_plane_congr (h.agree.same State.plane) (h.agree.same State.rbuf) (h.agree.same State.cfg)
    (h.agree.same State.w) (h.agree.same State.mult) (h.agree.same State.row) (h.agree.same State.rg)
  rw [emit_eq, emit_eq, hp]
  generalize (writePlane t (emitWrites t)).plane = plane
  exact Agree.alike (p := .carry) (h.agree.same (fun u => liveAt .carry { u with plane := plane, pos := .carry }))
    rfl rfl

theorem At.carry (h : At .carry s t) : Alike (carry s) (carry t) := by
  rw [carry_eq_atPos, carry_eq_atPos, carryRow_rbuf_congr (h.agree.same State.rbuf) (h.agree.same State.cfg)
    (h.agree.same State.w)]
  generalize (carryRow t).rbuf = rb
  exact Agree.afterRowGroup (h.agree.same (fun u => liveAt .emit { u with rbuf := rb }))

theorem At.checker (h : At .checker s t) : Alike (checker s) (checker t) := by
  have hp := checkerRows_plane_congr (h.agree.same State.plane) (h.agree.same State.cfg)
    (h.agree.same State.w) (h.agree.same State.row)
  have hlast : (s.row.toNat + 4 < s.h.toNat) = (t.row.toNat + 4 < t.h.toNat) :=
    h.agree.same (fun u => u.row.toNat + 4 < u.h.toNat)
  rw [checker_eq, checker_eq, hp]
  generalize (checkerRows t).plane = plane
  by_cases hlt : t.row.toNat + 4 < t.h.toNat
  · rw [if_pos (hlast.mpr hlt), if_pos hlt]
    exact Agree.alike (p := .bandHdr) (h.agree.same (fun u => liveAt .bandHdr
      { u with plane := plane, row := u.row + 4, pos := .bandHdr })) rfl rfl
  · rw [if_neg (fun hs => hlt (hlast.mp hs)), if_neg hlt]
    exact Agree.alike (p := .tone) (h.agree.same (fun u => liveAt .tone { u with plane := plane, pos := .tone }))
      rfl rfl

theorem tone_eq (s : State) : tone s = { s with t8 := (tone s).t8, pos := .demosaic } := rfl

theorem At.tone (h : At .tone s t) : Alike (tone s) (tone t) := by
  rw [tone_eq s, tone_eq t, tone_t8_congr (h.agree.same State.plane) (h.agree.same State.cfg)
    (h.agree.same State.w) (h.agree.same State.h) (h.agree.same State.curve)]
  generalize (Machine.tone t).t8 = t8
  exact Agree.alike (p := .demosaic) (h.agree.same (fun u => liveAt .demosaic { u with t8 := t8, pos := .demosaic }))
    rfl rfl

theorem demosaic_eq (s : State) :
    demosaic s = { s with out := (demosaic s).out, status := statusDone, pos := .halted } := by
  unfold demosaic
  rfl

/-- At the end of a run OUT, its geometry and the host's inputs are live (46_sequencer.md R223). -/
theorem liveOnly_demosaic (s : State) : liveOnly (demosaic s) =
    { hostInputs s with status := statusDone, w := s.w, h := s.h, out := (demosaic s).out } := by
  rw [demosaic_eq]
  generalize (demosaic s).out = out
  rfl

theorem At.demosaic (h : At .demosaic s t) : Alike (demosaic s) (demosaic t) := by
  have hw : s.w = t.w := h.agree.same State.w
  have hh : s.h = t.h := h.agree.same State.h
  have hout := demosaic_out_congr (h.agree.same State.t8) (h.agree.same State.cfg) hw hh
    (h.agree.same State.cfaTile)
  unfold Alike
  rw [liveOnly_demosaic, liveOnly_demosaic, h.alike.hostInputs, hout, hw, hh]

theorem hostInputs_initStores (s : State) :
    hostInputs (initStores s) = { hostInputs s with huff := [], curve := [] } := by
  rw [initStores_eq]
  rfl

theorem At.runInit (h : At .init s t) : Follows Alike (runInit s) (runInit t) := by
  have hlen : s.srcLen = t.srcLen := h.agree.same State.srcLen
  have hread : readSrc s 0 = readSrc t 0 := h.agree.same (fun u => readSrc u 0) fun _ => rfl
  rw [runInit_eq, runInit_eq, hlen, hread]
  split
  · refine .next (alike_raise ?_ rfl)
    rw [hostInputs_initStores, hostInputs_initStores, h.alike.hostInputs]
  · cases readSrc t 0 with
    | none => exact .fault _
    | some b =>
      exact .next (Agree.alike (p := .bandHdr) (h.agree.same (fun u => liveAt .bandHdr (primed b u))) rfl rfl)

/-! ## One turn -/

/-- The table that is read next is live. -/
theorem Alike.slotAt (h : Alike s t) : slotAt s = slotAt t := by
  have hagree := h.agree
  unfold Machine.slotAt
  rw [← h.pos]
  cases e : s.pos with
  | ctrl =>
    rw [e] at hagree
    exact congrArg (fun k : BitVec 4 => some (Slot.code k.toNat)) (hagree.same State.tree)
  | res =>
    rw [e] at hagree
    exact congrArg (fun k : BitVec 4 => some (Slot.code (k.toNat + 10))) (hagree.same State.tree)
  | _ => rfl

theorem Alike.at (h : Alike s t) (hp : s.pos = p) : At p s t :=
  ⟨hp ▸ h.agree, hp, h.pos.symm.trans hp⟩

/-- An operation that reads no bits (46_sequencer.md R220 to R222). -/
theorem Alike.runPrimitive (h : Alike s t) : Follows Alike (runPrimitive s) (runPrimitive t) := by
  unfold Machine.runPrimitive
  rw [← h.pos]
  cases e : s.pos with
  | init => exact (h.at e).runInit
  | rowGroup g => exact .next (h.at e).rowGroupEntry
  | emit => exact .next (h.at e).emit
  | carry => exact .next (h.at e).carry
  | checker => exact .next (h.at e).checker
  | tone => exact .next (h.at e).tone
  | demosaic => exact .next (h.at e).demosaic
  | _ => exact .next h

/-- A band header is read at `bandHdr` only (30_encoding.md R90). -/
theorem pos_of_slotAt_header (h : slotAt s = some .header) : s.pos = .bandHdr := by
  unfold slotAt at h
  split at h
  · assumption
  all_goals cases h

/-- Every turn of the engine keeps legal states alike. -/
theorem Alike.engineStep (h : Alike s t) (hs : Inv s) : Follows Alike (engineStep s) (engineStep t) := by
  unfold Machine.engineStep
  rw [← h.status, ← h.slotAt]
  cases hb : s.status.busy with
  | false => exact .next h
  | true =>
    cases hslot : Machine.slotAt s with
    | none => exact h.runPrimitive
    | some sl =>
      cases sl with
      | header =>
        have hread : ReadTwins (At .bandHdr) Alike := readTwins_at (.inl rfl)
        exact hread.runHeader hread (fun _ _ he => he) (fun _ _ he => he)
          (fun _ _ _ hu => ⟨hu.agree, hu.pos_left, hu.pos_right⟩) (fun m _ _ hu => hu.bandHeader m)
          (h.at (pos_of_slotAt_header hslot))
      | code k =>
        have htable := tableAt_of_slotAt (hs.run hb).position hslot
        exact (readTwins_at htable.reads).runCode (h.at rfl) (fun _ _ he => he) fun v _ _ hu => hu.execUnlisted htable v

/-- A step of two legal states that are alike. -/
theorem Alike.step (h : Alike s t) (hs : Inv s) (ht : Inv t) : Follows Alike (step s) (step t) := by
  have hm := h.hostMoves
  unfold Machine.step turn
  rw [← hm]
  cases s.hostMoves with
  | nil => exact h.engineStep hs
  | cons m rest =>
    have hrest := h.withMoves rest
    cases m with
    | engineTurn => exact hrest.engineStep (hs.withMoves rest)
    | _ => exact hrest.hostMove (hs.withMoves rest) (ht.withMoves rest) _

/-- Settles O57: a move of the host and a turn of the engine read live registers and stores only. -/
theorem stepsDependOnlyOnWhatIsLive : Obligations.StepsDependOnlyOnWhatIsLive :=
  fun _ _ s' hs ht h hstep => Alike.step h hs ht s' hstep

end Sys2Proof.Machine
end

section
/-! PROOF. Every write of RBUF and PLANE stays inside the buffer and the plane (20_memory.md R66, 10_state.md R31, R34):
each operation lists no address but those it writes, and the row-group, the band and the geometry bound these. A token
whose cells would lie beyond the row stops. -/

namespace Sys2Proof.Machine

/-! ## A token beyond the row -/

/-- Where the cells lie beyond the row nothing after the group's write is reached (notes/assumptions/19.md). -/
theorem andThen_keptGroup_stops {s : State} {k : State → State} {rest : State → Result} (hk : s.keep = true)
    (hc : halfWidth s ≤ s.col.toNat + 1) : andThen (keptGroup s k) rest = .fault (.noSuchCell s.col) := by
  rw [keptGroup_stops hk hc]
  rfl

/-- Settles O24: the three kinds of token write the group's cells first, and that write stops. -/
theorem tokenBeyondTheRowStops : Obligations.TokenBeyondTheRowStops := by
  rintro i s (⟨v, rfl⟩ | ⟨r, hr⟩ | ⟨v, hv⟩) hk hc
  · rw [exec_tokLit]
    exact andThen_keptGroup_stops hk hc
  · rw [exec_residualTokens hr]
    exact andThen_keptGroup_stops hk hc
  · rw [exec_stepTokens hv]
    exact andThen_keptGroup_stops (s := { s with step := stepValue v }) hk hc

/-! ## One write -/

variable {s u : State}

/-- The address of a cell names its row and its index (10_state.md R31). -/
theorem cellAddr_divMod {r i : Nat} (hi : i < 65536) : cellAddr r i / 65536 = r ∧ cellAddr r i % 65536 = i := by
  unfold cellAddr
  omega

/-- Writes to cells of the buffer stay in bounds. -/
theorem inBounds_writeCells (h : inBounds s) {ws : List ((Nat × Nat) × Int)}
    (hws : ∀ q ∈ ws, q.1.1 < 3 ∧ q.1.2 ≤ halfWidth s) : inBounds (writeCells s ws) := by
  refine ⟨fun p hp => ?_, h.2⟩
  rcases mem_storeWriteAll _ hp with hp | ⟨a, ha, he⟩
  · exact h.1 p hp
  · obtain ⟨q, hq, rfl⟩ := List.mem_map.1 ha
    obtain ⟨hr, hi⟩ := hws q hq
    have := halfWidth_lt s
    obtain ⟨hdiv, hmod⟩ := cellAddr_divMod (r := q.1.1) (i := q.1.2) (by omega)
    rw [he, hdiv, hmod]
    exact ⟨hr, hi⟩

/-- Writes to words of the plane stay in bounds. -/
theorem inBounds_writePlane (h : inBounds s) {ws : List ((Nat × Nat) × Int)}
    (hws : ∀ q ∈ ws, q.1.1 < s.h.toNat ∧ q.1.2 < s.w.toNat) : inBounds (writePlane s ws) := by
  refine ⟨h.1, fun p hp => ?_⟩
  rcases mem_storeWriteAll _ hp with hp | ⟨a, ha, he⟩
  · exact h.2 p hp
  · obtain ⟨q, hq, rfl⟩ := List.mem_map.1 ha
    obtain ⟨hy, hx⟩ := hws q hq
    rw [he]
    exact pixelAddr_lt hy hx

/-- Stores in bounds, and the cells of the group at `col` inside the row (20_memory.md R66). -/
structure GroupInBounds (u : State) : Prop where
  bounds : inBounds u
  room : u.col.toNat + 1 < halfWidth u

theorem GroupInBounds.writeGroupCell (h : GroupInBounds u) (k : BitVec 2) (v : Int) :
    GroupInBounds (writeGroupCell u k v) := by
  obtain ⟨hb, hc⟩ := h
  obtain ⟨hrow, hindex⟩ := group_cell_range u.col k
  refine ⟨inBounds_writeCells hb (ws := [((cellRow k, cellIndex u.col k), v)]) ?_, hc⟩
  intro q hq
  rw [List.mem_singleton.1 hq]
  dsimp only
  omega

/-! ## The whole-store operations -/

/-- DECAY writes the cells of the three rows, the sentinel included (42_scaletracker.md R162). -/
theorem inBounds_decay (h : inBounds s) (v : Nat) : inBounds (decay v s) := by
  refine inBounds_writeCells h fun q hq => ?_
  obtain ⟨c, hc, rfl⟩ := List.mem_map.1 hq
  exact mem_allCells.1 hc

/-- SEED_SENTINEL writes index W2 of each row (43_rowpredictor.md R171). -/
theorem inBounds_seedSentinel (h : inBounds s) : inBounds (seedSentinel s) := by
  refine inBounds_writeCells h fun q hq => ?_
  obtain ⟨r, hr, rfl⟩ := List.mem_map.1 hq
  exact ⟨List.mem_range.1 hr, le_refl _⟩

/-- CARRY's copy ends at W2, whatever its shift (43_rowpredictor.md R183). -/
theorem inBounds_carryRow (h : inBounds s) : inBounds (carryRow s) := by
  refine inBounds_writeCells h fun q hq => ?_
  obtain ⟨i, hi, rfl⟩ := List.mem_map.1 hq
  have := List.mem_range.1 hi
  dsimp only
  omega

/-- EMIT writes two rows of the band in each of its two kept row-groups (43_rowpredictor.md R182). -/
theorem inBounds_emit (h : inBounds s) (hrow : s.row.toNat + 4 ≤ s.h.toNat) (hrg : s.rg.toNat < 2) :
    inBounds (emit s) := by
  refine inBounds_writePlane h fun q hq => ?_
  obtain ⟨y, hy, hq⟩ := List.mem_flatMap.1 hq
  obtain ⟨x, hx, rfl⟩ := List.mem_map.1 hq
  have hy := List.mem_range.1 hy
  have hx := List.mem_range.1 hx
  unfold halfWidth at hx
  dsimp only
  omega

/-- CHECKER writes the four rows of the band (45_demosaic.md R211). -/
theorem inBounds_checker (h : inBounds s) (hrow : s.row.toNat + 4 ≤ s.h.toNat) : inBounds (checker s) := by
  have hrows : inBounds (checkerRows s) := by
    refine inBounds_writePlane h fun q hq => ?_
    obtain ⟨⟨y, x⟩, hp, rfl⟩ := List.mem_map.1 hq
    obtain ⟨-, hy, hx, -⟩ := mem_checkerPositions.1 hp
    exact ⟨by dsimp only; omega, hx⟩
  unfold checker
  dsimp only
  split <;> exact hrows

theorem inBounds_groupEnd (h : inBounds s) : inBounds (groupEnd s) := by
  rw [groupEnd_eq_atPos]
  exact h

theorem inBounds_tokenDone (h : inBounds s) : inBounds (tokenDone s) := by
  unfold tokenDone
  split
  · exact inBounds_groupEnd h
  · exact h

theorem inBounds_rowGroupEntry (h : inBounds s) (g : BitVec 2) : inBounds (rowGroupEntry g s) := by
  obtain ⟨rb, heq, hrb⟩ := rowGroupEntry_eq g s
  rw [heq]
  refine inBounds_groupEnd ⟨?_, h.2⟩
  rw [hrb]
  split
  · exact (inBounds_seedSentinel h).1
  · exact h.1

theorem inBounds_carry (h : inBounds s) : inBounds (carry s) := by
  rw [carry_eq_atPos]
  exact inBounds_carryRow h

theorem inBounds_raise (h : inBounds s) (f : RunFault) : inBounds (raise f s) := by
  cases f <;> exact h

/-- With RBUF and PLANE empty nothing is out of bounds. -/
theorem inBounds_of_nil (hr : s.rbuf = []) (hp : s.plane = []) : inBounds s := by
  unfold inBounds
  rw [hr, hp]
  exact ⟨List.forall_mem_nil _, List.forall_mem_nil _⟩

/-- INIT empties both stores, whatever they listed (46_sequencer.md R221). -/
theorem inBounds_runInit (s : State) : Leads inBounds (runInit s) := by
  rw [runInit_eq]
  split
  · exact .next (inBounds_raise (inBounds_of_nil rfl rfl) _)
  · cases readSrc s 0 with
    | none => exact .fault _
    | some b => exact .next (inBounds_of_nil rfl rfl)

/-! ## The items of the stream -/

theorem inBounds_bandHeader (h : inBounds s) (m : BitVec 6) : Leads inBounds (bandHeader m s) := by
  unfold bandHeader
  split
  · exact .next (inBounds_raise (s := { s with mult := m }) h _)
  · exact .next (inBounds_decay h _)

/-- The cell a literal or residual token writes, and the end of the token. -/
theorem inBounds_token (h : inBounds s) (hc : s.keep = true → s.col.toNat + 1 < halfWidth s) (v : Int) :
    inBounds (tokenDone (if s.keep then writeGroupCell s s.tok v else s)) := by
  refine inBounds_tokenDone ?_
  split
  next hk => exact (GroupInBounds.writeGroupCell ⟨h, hc hk⟩ _ _).bounds
  · exact h

/-- A repeat of a run writes below the lowered column cursor (43_rowpredictor.md R179). -/
theorem inBounds_oneRepeat (h : inBounds s) (hc : (s.col - 2).toNat + 1 < halfWidth s) : inBounds (oneRepeat s) := by
  have hl : GroupInBounds { s with col := s.col - 2 } := ⟨h, hc⟩
  unfold oneRepeat
  dsimp only
  split
  · exact (predictCells_keeps (fun _ k v hu => hu.writeGroupCell k v) hl).bounds
  · exact h

theorem inBounds_stepAdded (h : inBounds s) (hc : s.keep = true → s.col.toNat + 1 < halfWidth s) (v : Int) :
    inBounds (stepAdded v s) := by
  unfold stepAdded
  dsimp only
  split
  next hk =>
    have hl : GroupInBounds { s with step := BitVec.ofInt 12 (v * 16) } := ⟨h, hc hk⟩
    exact (addStepCells_keeps (fun _ k v hu => hu.writeGroupCell k v) hl).bounds
  · exact h

/-- A row-group under way with its stores in bounds. -/
structure RowGroupInBounds (u : State) : Prop where
  group : rowGroupLegal u
  bounds : inBounds u

/-- What a run group does stays in bounds. -/
theorem runKeeps_inBounds : RunKeeps RowGroupInBounds RowGroupInBounds inBounds where
  weaken _ h := h
  room _ h hc _ := room_of_rowGroupLegal h.group hc
  startChunk _ _ _ _ h := ⟨h.group, h.bounds⟩
  odd _ h _ _ hc _ := inBounds_oneRepeat h.bounds (room_of_rowGroupLegal h.group hc)
  even _ h _ _ hc _ :=
    ⟨(rowGroupLegal_oneRepeat h.group hc).1, inBounds_oneRepeat h.bounds (room_of_rowGroupLegal h.group hc)⟩
  nrepsPos _ h _ := h.bounds
  groupEnd _ h := inBounds_groupEnd h.bounds

/-- A code word at its position stays in bounds, whatever its value (30_encoding.md R98, R100). -/
theorem inBounds_execUnlisted (h : inBounds u) {k : Nat} (ht : TableLegal k u) (v : Byte) :
    Leads inBounds (execUnlisted k v u) := by
  have hg := ht.group
  have room (h10 : 10 ≤ k) : u.keep = true → u.col.toNat + 1 < halfWidth u := by
    have := ht.room h10
    omega
  exact runKeeps_inBounds.leads
    (fun _ => ⟨⟨rowGroupLegal_withTree hg (Nat.zero_le 8), h⟩, fun _ _ _ => h, h⟩)
    (fun _ => ⟨hg, h⟩)
    (fun h10 => ⟨room h10.ge, fun a => ⟨rowGroupLegal_stepAdded hg a, inBounds_stepAdded h (room h10.ge) a⟩⟩)
    (fun h10 _ _ => .resToken (room h10.le) (inBounds_token h (room h10.le) _))
    (fun h17 => .litToken (room (by omega)) (inBounds_token h (room (by omega)) _))

/-- Reading the stream writes no store, with any property that does not look at the cursor. -/
theorem readerKeeps_inBounds {F : State → Prop} (hF : ∀ s p c r, F s → F { s with ptr := p, cur := c, rem := r }) :
    ReaderKeeps (fun u => inBounds u ∧ F u) inBounds where
  refill u _ h _ _ _ := ⟨h.1, hF u _ _ _ h.2⟩
  take u h _ := ⟨h.1, hF u _ _ _ h.2⟩
  raised _ h _ _ := inBounds_raise h.1 _

/-! ## One turn -/

/-- The operation at the position of a run after INIT. -/
theorem inBounds_runPrimitive (h : inBounds s) (hr : RunLegal s) (hi : s.pos ≠ .init) :
    Leads inBounds (runPrimitive s) := by
  obtain ⟨-, -, hrow⟩ := hr.band hi
  have hpos := hr.position
  unfold posLegal at hpos
  unfold runPrimitive
  cases e : s.pos with
  | init => exact absurd e hi
  | rowGroup g => exact .next (inBounds_rowGroupEntry h g)
  | emit =>
    rw [e] at hpos
    obtain ⟨⟨-, hkept, -⟩, hkeep, -⟩ := hpos
    exact .next (inBounds_emit h hrow (of_decide_eq_true (hkept.symm.trans hkeep)))
  | carry => exact .next (inBounds_carry h)
  | checker => exact .next (inBounds_checker h hrow)
  | _ => exact .next h

/-- A turn of the engine after INIT stays in bounds. -/
theorem inBounds_engineStep (h : inBounds s) (hr : RunLegal s) (hb : s.status.busy = true) (hi : s.pos ≠ .init) :
    Leads inBounds (engineStep s) := by
  unfold engineStep
  rw [if_pos hb]
  cases hslot : slotAt s with
  | none => exact inBounds_runPrimitive h hr hi
  | some sl =>
    cases sl with
    | header =>
      exact (readerKeeps_inBounds (F := fun _ => True) fun _ _ _ _ _ => trivial).runHeader (fun _ _ hs => hs)
        (fun _ hs => hs) (fun m _ hs => inBounds_bandHeader hs.1 m) ⟨h, trivial⟩
    | code k =>
      exact (readerKeeps_inBounds (F := TableLegal k) fun _ _ _ _ ht =>
          ⟨ht.group, ht.control, ht.nreps, ht.step, ht.room⟩).runCode
        ⟨h, tableLegal_of_slotAt hr.position hslot⟩ (fun _ hs => hs) fun v _ hs => inBounds_execUnlisted hs.1 hs.2 v

/-- Settles O55: INIT empties both stores, and every later turn of the engine writes in bounds. -/
theorem writesStayInBounds : Obligations.WritesStayInBounds := by
  intro s t hinv hb hin ht
  by_cases hi : s.pos = .init
  · have hstep : engineStep s = runInit s := by
      unfold engineStep slotAt runPrimitive
      rw [if_pos hb, hi]
    exact inBounds_runInit s t (hstep ▸ ht)
  · exact inBounds_engineStep (hin.resolve_left hi) (hinv.run hb) hb hi t ht

end Sys2Proof.Machine
end

section
/-! PROOF. The engine never stops from a legal state whose SRC is written: an admitted HUFF_SPEC leaves no illegal code
(30_encoding.md R104, 60_exceptions.md R235), a legal position leaves no cell outside the buffer (43_rowpredictor.md
R186), and the end of the stream is a fault that is taken (60_exceptions.md R238). -/

namespace Sys2Proof.Machine

/-- `r` has a next state. -/
abbrev GoesOn (r : Result) : Prop :=
  Ends (fun _ => True) r

theorem GoesOn.next (t : State) : GoesOn (.next t) :=
  Ends.next trivial

theorem GoesOn.exists_next {r : Result} (h : GoesOn r) : ∃ t, r = .next t := by
  obtain ⟨t, ht, -⟩ := h
  exact ⟨t, ht⟩

/-! ## What an admitted configuration says of HUFF_SPEC -/

/-- 00_scope.md R8 (a) and (b), of an admitted configuration. -/
theorem huffSpec_of_admitted {c : Config} (h : c.admitted = true) :
    specLaidOut c.huffSpec 0 = true ∧ specSymbols c.huffSpec 0 = true := by
  simp only [Config.admitted, Bool.and_eq_true] at h
  obtain ⟨⟨⟨⟨⟨⟨hlaid, hsymbols⟩, -⟩, -⟩, -⟩, -⟩, -⟩ := h
  exact ⟨hlaid, hsymbols⟩

/-! ## Reading the stream -/

/-- The reading yields a value with a state that `P` relates to it, or ends the run in a fault that is taken; it never
stops the model. -/
inductive Yields {α : Type} (P : α → State → Prop) : Read α → Prop
  | got {a : α} {s : State} : P a s → Yields P (.got a s)
  | raised (s : State) : Yields P (.raised s)

theorem Yields.bind {α β : Type} {P : α → State → Prop} {Q : β → State → Prop} {r : Read α}
    {k : α → State → Read β} (h : Yields P r) (hk : ∀ a s, P a s → Yields Q (k a s)) : Yields Q (readThen r k) := by
  cases h with
  | got h => exact hk _ _ h
  | raised s => exact .raised s

theorem Yields.goesOn {α : Type} {P : α → State → Prop} {r : Read α} {k : α → State → Result} (h : Yields P r)
    (hk : ∀ a s, P a s → GoesOn (k a s)) : GoesOn (runRead r k) := by
  cases h with
  | got h => exact hk _ _ h
  | raised s => exact .next s

/-- The BitReader's registers are sound and every byte it can fetch has a value (10_state.md R22, R40). -/
structure Readable (s : State) : Prop where
  rem : s.rem.toNat ≤ 8
  ptr : s.ptr.toNat ≤ s.srcLen.toNat
  src : srcWritten s

theorem Readable.moved {s t : State} (h : Readable s) (hm : CursorMoved s t) (hr : t.rem.toNat ≤ 7) : Readable t where
  rem := hr.trans (by decide)
  ptr := (congrArg (fun u => u.srcLen.toNat) hm.eq) ▸ hm.ptr_le h.ptr
  src := hm.srcWritten h.src

/-- READBITS(n) (40_bitreader.md R130) reads its bits or raises Truncated. -/
theorem Readable.readBits {s : State} (h : Readable s) {n : Nat} (h1 : 1 ≤ n) (h8 : n ≤ 8) :
    Yields (fun _ => Readable) (readBits n s) := by
  by_cases hn : n ≤ (unreadBits s).length
  · obtain ⟨t, hgot, -, hmoved, hrem, -, -⟩ := readBits_got h1 h8 h.rem h.src hn
    rw [hgot]
    exact .got (h.moved hmoved hrem)
  · obtain ⟨c, hraised⟩ := readBits_raised h1 h8 h.rem h.ptr h.src (Nat.lt_of_not_le hn)
    rw [hraised]
    exact .raised _

/-- The fields of a band header (42_scaletracker.md R160). -/
theorem Readable.readHeader {s : State} (h : Readable s) : Yields (fun _ => Readable) (readHeader s) := by
  have six {u : State} (hu : Readable u) := hu.readBits (n := 6) (by decide) (by decide)
  exact (six h).bind fun m u hu => (six (u := { u with mult := BitVec.ofNat 6 m }) ⟨hu.rem, hu.ptr, hu.src⟩).bind
    fun _ _ hu => (six hu).bind fun _ _ hu => .got hu

/-- DECODE (41_huffman.md R143) under an admitted HUFF_SPEC: every code is complete (30_encoding.md R104), so it moves
the cursor past a code word, whose value is one R8 (b) admits, or raises Truncated. -/
theorem Readable.decodeToken {s : State} (h : Readable s) (ha : s.cfg.admitted = true) (hh : s.huff = []) {k : Nat}
    (hk : k ≤ 18) : Yields (fun v t => CursorMoved s t ∧ (k ≤ 9 → v.toNat ≤ 8)) (decodeToken k s) := by
  obtain ⟨hlaid, hsymbols⟩ := huffSpec_of_admitted ha
  have agrees := decodeToken_agrees k hh h.rem h.ptr h.src
  rcases decodeCode_total hlaid hk (unreadBits s) with ⟨c, e, hc, he, rest, hok⟩ | hend
  · rw [hok] at agrees
    obtain ⟨t, hgot, -, hmoved, -⟩ := agrees
    rw [hgot]
    exact .got ⟨hmoved, fun h9 => builtEntry_symbols hsymbols h9 hc he⟩
  · rw [hend] at agrees
    obtain ⟨c, hraised⟩ := agrees
    rw [hraised]
    exact .raised _

/-! ## Running what was read -/

/-- Nothing a run group does stops in a row-group under way: its cells are inside the row (43_rowpredictor.md R186). -/
theorem runKeeps_rowGroupLegal : RunKeeps rowGroupLegal rowGroupLegal fun _ => True where
  weaken _ h := h
  room _ h hc _ := room_of_rowGroupLegal h hc
  startChunk _ _ _ _ h := h
  odd _ _ _ _ _ _ := trivial
  even _ h _ _ hc _ := (rowGroupLegal_oneRepeat h hc).1
  nrepsPos _ _ _ := trivial
  groupEnd _ _ := trivial

/-- A code word at its position has a next state, where its value is one its table can hold. -/
theorem TableLegal.execUnlisted_goesOn {k : Nat} {u : State} (h : TableLegal k u) {v : Byte}
    (hv : k ≤ 9 → v.toNat ≤ 8) : GoesOn (execUnlisted k v u) := by
  have room (h10 : 10 ≤ k) : u.keep = true → u.col.toNat + 1 < halfWidth u := by
    have := h.room h10
    omega
  exact runKeeps_rowGroupLegal.execUnlisted hv
    (fun _ => ⟨rowGroupLegal_withTree h.group (Nat.zero_le 8), fun _ _ _ => trivial, trivial⟩)
    (fun _ => h.group)
    (fun h10 => ⟨room h10.ge, rowGroupLegal_stepAdded h.group⟩)
    (fun h10 _ _ => .resToken (room h10.le) trivial)
    (fun h17 => .litToken (room (by omega)) trivial)

theorem TableLegal.moved {k : Nat} {s t : State} (h : TableLegal k s) (hm : CursorMoved s t) : TableLegal k t := by
  rw [hm.eq]
  exact ⟨h.group, h.control, h.nreps, h.step, h.room⟩

/-- BANDHDR (42_scaletracker.md R160, R164) goes on, or its fault is taken. -/
theorem bandHeader_goesOn (m : BitVec 6) (s : State) : GoesOn (bandHeader m s) := by
  unfold bandHeader
  split
  · exact .next _
  · exact .next _

/-! ## One turn -/

/-- A legal position reads no table beyond the nineteen (41_huffman.md R140). -/
theorem slotAt_code_le {s : State} (hp : posLegal s) {k : Nat} (hk : slotAt s = some (.code k)) : k ≤ 18 := by
  obtain ⟨-, -, htree, -⟩ := (tableLegal_of_slotAt hp hk).group
  rcases slotAt_eq_code hk with ⟨-, rfl⟩ | ⟨-, rfl⟩ | ⟨-, rfl⟩ | ⟨-, rfl⟩ | ⟨-, rfl⟩ <;> omega

/-- INIT (46_sequencer.md R221) fetches SRC[0], or SRC is empty and Truncated is taken. -/
theorem runInit_goesOn {s : State} (hw : srcWritten s) : GoesOn (runInit s) := by
  rw [runInit_eq]
  by_cases h0 : s.srcLen.toNat = 0
  · rw [if_pos h0]
    exact .next _
  · obtain ⟨b, hb⟩ := Option.isSome_iff_exists.1 (hw 0 (Nat.pos_of_ne_zero h0))
    have hread : readSrc s 0 = some b := hb
    rw [if_neg h0, hread]
    exact .next _

/-- The operations that read no bits go on whatever the state, but for INIT's fetch. -/
theorem runPrimitive_goesOn {s : State} (hw : srcWritten s) : GoesOn (runPrimitive s) := by
  unfold runPrimitive
  split
  · exact runInit_goesOn hw
  all_goals exact .next _

/-- A band header or a code word at its position is read and run, whatever the bits. -/
theorem Inv.runStream_goesOn {s : State} (h : Inv s) (hb : s.status.busy = true) (hw : srcWritten s) {sl : Slot}
    (hs : slotAt s = some sl) : GoesOn (runStream sl s) := by
  have hrun := h.run hb
  have hinit : s.pos ≠ .init := by
    intro e
    unfold slotAt at hs
    rw [e] at hs
    cases hs
  have hread : Readable s := ⟨h.rem, (hrun.cursor hinit).2.1, hw⟩
  cases sl with
  | header =>
    rw [runStream_header]
    exact hread.readHeader.goesOn fun m u _ => bandHeader_goesOn m u
  | code k =>
    have htable := tableLegal_of_slotAt hrun.position hs
    rw [runStream_code]
    exact (hread.decodeToken h.admitted h.tables.1 (slotAt_code_le hrun.position hs)).goesOn
      fun _ _ ⟨hmoved, hv⟩ => (htable.moved hmoved).execUnlisted_goesOn hv

theorem Inv.engineStep_goesOn {s : State} (h : Inv s) (hw : srcWritten s) : GoesOn (Machine.engineStep s) := by
  unfold Machine.engineStep
  split
  next hb =>
    split
    next sl hs => exact h.runStream_goesOn hb hw hs
    next => exact runPrimitive_goesOn hw
  next => exact .next s

/-- Settles O54: reading yields an item or a fault that is taken, and every item and operation goes on. -/
theorem engineNeverStops : Obligations.EngineNeverStops :=
  fun _ h hw => (h.engineStep_goesOn hw).exists_next

end Sys2Proof.Machine
end

section
/-! PROOF. The words of the stream read as their instructions: the literal table is the same under every HUFF_SPEC
(30_encoding.md R95, 41_huffman.md R142), and under HUFF_SPEC_REF an instruction is read from its bits
(30_encoding.md R92, R101, R102). -/

namespace Sys2Proof.Machine

/-! ## The literal table -/

theorem specLaidOut_huffSpecRef : specLaidOut huffSpecRef 0 = true :=
  (huffSpec_of_admitted resetIsLegal.admitted).1

/-- BUILD_LIT does not look at HUFF_SPEC (41_huffman.md R142). -/
theorem runsWhole_litTable (spec : List (Nat × Int)) : RunsWhole (builtEntry spec 18) :=
  runsWhole_builtEntry (t := 18) specLaidOut_huffSpecRef (le_refl 18)

/-- BUILD_LIT's entry at the code word of `v` (30_encoding.md R94, R95). -/
theorem litEntry_codeWord : ∀ v : BitVec 5, litEntry (v.toNat <<< 3) = ⟨5, BitVec.ofNat 8 (8 * v.toNat + 4)⟩ := by
  decide +kernel

/-- Settles O4: the five bits are the code word of an entry of the literal table, which is whole. -/
theorem literalTokenDecodesToCentredValue : Obligations.LiteralTokenDecodesToCentredValue := by
  intro spec v rest
  have hvalue : bitsValue (wordBits 5 v.toNat) = v.toNat := by
    rw [bitsValue_wordBits, Nat.mod_eq_of_lt v.isLt]
  refine decodeCode_codeWord (runsWhole_litTable spec) (by simp) (by simp) ?_
  rw [hvalue, length_wordBits]
  exact congrArg some (litEntry_codeWord v)

/-! ## The words of HUFF_SPEC_REF -/

/-- The three fields of a band header, written out, read as the header (30_encoding.md R92). -/
theorem decode_bandhdr (spec : List (Nat × Int)) (m p1 p2 : BitVec 6) (rest : List Bool) :
    decode spec .header (encode (.bandhdr m p1 p2) ++ rest) = .ok (.bandhdr m p1 p2, rest) := by
  have field (x : BitVec 6) : BitVec.ofNat 6 (x.toNat % 64) = x := by
    rw [Nat.mod_eq_of_lt x.isLt, BitVec.ofNat_toNat, BitVec.setWidth_eq]
  simp [decode, decodeHeader, encode, takeField_wordBits, field]

/-- A code word of HUFF_SPEC_REF, written out, reads as its row (30_encoding.md R101, R103). -/
theorem decode_codeWord {i : Instr} {t : Nat} (hs : i.slot = .code t) (ht : t ≤ 18) (hi : Laws.Coding.Statement i)
    (rest : List Bool) : decode huffSpecRef (.code t) (encode i ++ rest) = .ok (i, rest) := by
  unfold Laws.Coding.Statement at hi
  rw [hs] at hi
  obtain ⟨hrow, h1, h8, hentry⟩ := hi
  have hcode := decodeCode_codeWord (rest := rest) (runsWhole_builtEntry specLaidOut_huffSpecRef ht) h1 h8 hentry
  simp only [decode, hcode, hrow]

/-- Settles O5: each word is the encoding of its instruction. -/
theorem wordsOfTheCodeBooks : Obligations.WordsOfTheCodeBooks :=
  ⟨decode_bandhdr huffSpecRef 16 1 63 [],
    decode_codeWord rfl (by decide) Laws.Coding.grpLitC1 [],
    decode_codeWord rfl (by decide) Laws.Coding.grpLitC8 [],
    decode_codeWord rfl (by decide) Laws.Coding.grpRunC5 [],
    decode_codeWord rfl (by decide) Laws.Coding.grpPred5C0 [],
    decode_codeWord rfl (by decide) Laws.Coding.tokNreps9 [],
    decode_codeWord rfl (by decide) Laws.Coding.tokStepM2 [],
    decode_codeWord rfl (by decide) Laws.Coding.tokRes6_M37 [],
    decode_codeWord rfl (by decide) (Laws.Coding.tokLit 10) []⟩

end Sys2Proof.Machine
end

section
/-! PROOF. The BitReader's contract (40_bitreader.md R130 to R135): the value and the cursor READBITS leaves, its first
law, the counts it refuses, and RESET. -/

namespace Sys2Proof.Machine

/-! ## READBITS splits -/

theorem readThen_assoc {α β γ : Type} (r : Read α) (k : α → State → Read β) (l : β → State → Read γ) :
    readThen (readThen r k) l = readThen r fun x u => readThen (k x u) l := by
  cases r <;> rfl

theorem readBitsLoop_succ (n v : Nat) (s : State) :
    readBitsLoop (n + 1) v s = readThen (readBit s) fun b u => readBitsLoop n (2 * v + b.toNat) u := rfl

/-- The bits read before stand above those the loop reads. -/
theorem readBitsLoop_eq_readThen (n : Nat) : ∀ (v : Nat) (s : State),
    readBitsLoop n v s = readThen (readBitsLoop n 0 s) fun y u => .got (v * 2 ^ n + y) u := by
  induction n with
  | zero => intro v s; simp [readBitsLoop, readThen]
  | succ n ih =>
    intro v s
    rw [readBitsLoop_succ, readBitsLoop_succ, readThen_assoc]
    congr 1
    funext b u
    rw [ih (2 * v + b.toNat), ih (2 * 0 + b.toNat), readThen_assoc]
    congr 1
    funext y w
    simp only [readThen]
    congr 1
    ring

theorem readBitsLoop_add (a b : Nat) : ∀ (v : Nat) (s : State),
    readBitsLoop (a + b) v s = readThen (readBitsLoop a v s) fun x u => readBitsLoop b x u := by
  induction a with
  | zero => intro v s; rw [Nat.zero_add]; rfl
  | succ a ih =>
    intro v s
    rw [Nat.succ_add, readBitsLoop_succ, readBitsLoop_succ, readThen_assoc]
    congr 1
    funext c u
    exact ih _ u

theorem readBits_eq_loop {n : Nat} (h1 : 1 ≤ n) (h8 : n ≤ 8) : readBits n = readBitsLoop n 0 := by
  funext s
  exact if_pos ⟨h1, h8⟩

/-- Settles O8: the loop of `a + b` turns is that of `a` and then that of `b`, which goes on from the value read. -/
theorem readBitsSplits : Obligations.ReadBitsSplits := by
  intro s a b ha hb hab
  rw [readBits_eq_loop ha (by omega), readBits_eq_loop hb (by omega), readBits_eq_loop (by omega) hab, readBitsLoop_add]
  congr 1
  funext x u
  exact (readBitsLoop_eq_readThen b x u).symm

/-! ## The cursor after READBITS -/

/-- `bitpos` grows by the number of bits taken off the stream, wherever `ptr` stands: at or beyond SRC_LEN the bits come
from `cur`. -/
theorem bitpos_readBits {s t : State} {n : Nat} (hm : CursorMoved s t) (hn : n ≤ (unreadBits s).length)
    (hdrop : unreadBits t = (unreadBits s).drop n)
    (hcur : n ≤ s.rem.toNat → t.ptr = s.ptr ∧ t.cur = s.cur ∧ t.rem.toNat + n = s.rem.toNat) :
    bitpos t = bitpos s + n := by
  by_cases hp : s.ptr.toNat ≤ s.srcLen.toNat
  · have hl : t.srcLen = s.srcLen := by rw [hm.eq]
    rw [bitpos_eq_of_length hl (hl ▸ hm.ptr_le hp) hp, hdrop, List.length_drop]
    omega
  · have hlen := length_unreadBits s
    obtain ⟨hptr, -, hrem⟩ := hcur (by omega)
    unfold bitpos
    rw [hptr]
    omega

/-- Settles O6: the value and the unread bits are those of `readBits_got`, and `bitpos` follows the unread bits. -/
theorem readBitsReturnsStreamBits : Obligations.ReadBitsReturnsStreamBits := by
  intro s n h1 h8 hr hw hn
  obtain ⟨t, hgot, hdrop, hmoved, hrem, hcur, hptr⟩ := readBits_got h1 h8 hr hw hn
  refine ⟨t, hgot, hdrop, bitpos_readBits hmoved hn hdrop hcur, hrem, hptr, fun hle => ?_, hmoved.eq⟩
  obtain ⟨hp, hc, -⟩ := hcur hle
  exact ⟨hp, hc⟩

/-! ## Counts outside the contract -/

/-- Settles O9: the guard of READBITS. -/
theorem readBitsOutsideContractIsRefused : Obligations.ReadBitsOutsideContractIsRefused := by
  intro s n hn
  unfold readBits
  exact if_neg (by omega)

/-! ## RESET -/

theorem refill_got {s : State} {b : Byte} (hlt : s.ptr.toNat < s.srcLen.toNat)
    (hb : storeGet s.src s.ptr.toNat = some b) : refill s = .got () { s with cur := b, ptr := s.ptr + 1, rem := 8 } := by
  have hread : readSrc s s.ptr = some b := hb
  unfold refill
  rw [if_neg (Nat.not_le_of_lt hlt), hread]

theorem refill_raised {s : State} (hle : s.srcLen.toNat ≤ s.ptr.toNat) : refill s = .raised (raise .truncated s) :=
  if_pos hle

/-- After REFILL the cursor is at the byte boundary before the byte fetched, whatever was left of the last one. -/
theorem bitpos_refilled {s : State} (hlt : s.ptr.toNat < s.srcLen.toNat) (b : Byte) :
    bitpos { s with cur := b, ptr := s.ptr + 1, rem := 8 } = 8 * (s.ptr.toNat : Int) := by
  have h := bitpos_refill (u := { s with rem := 0 }) rfl hlt b
  exact h.trans (Int.sub_zero _)

/-- Settles O10: RESET is REFILL, by whether a byte is left at `ptr`. -/
theorem resetRefillsAtByteBoundary : Obligations.ResetRefillsAtByteBoundary := by
  refine ⟨fun s b hlt hb => ⟨_, refill_got hlt hb, rfl, bitpos_refilled hlt b⟩, fun s hle => ?_⟩
  exact refill_raised hle

end Sys2Proof.Machine
end

section
/-! PROOF. DECODE (41_huffman.md R143, R145): what a whole table answers for eight bits, and the machine's DECODE as
the decoder of the unread bits. -/

namespace Sys2Proof.Machine

/-! ## Every table -/

/-- Settles O3: every table of a laid-out HUFF_SPEC is whole, so the loop stops at the entry the eight bits index. -/
theorem everyTableDecodesEveryBitString : Obligations.EveryTableDecodesEveryBitString := by
  intro spec t bits hlaid ht hbits
  have hwhole := runsWhole_builtEntry hlaid ht
  have hindex : bitsValue (bits.take 8) < 256 := by
    have := bitsValue_lt (bits.take 8)
    rwa [List.length_take_of_le hbits] at this
  obtain ⟨e, he, h1, h8, -⟩ := hwhole _ hindex
  exact ⟨e, he, h1, h8, decodeCode_runsWhole hwhole hbits he⟩

/-! ## DECODE of the machine -/

/-- `bitpos` grows by what the cursor takes off the unread bits, while `ptr` is within SRC (10_state.md R25). -/
theorem bitpos_of_cursorMoved {s u : State} (hm : CursorMoved s u) (hp : s.ptr.toNat ≤ s.srcLen.toNat)
    (hle : (unreadBits u).length ≤ (unreadBits s).length) :
    bitpos u = bitpos s + ((unreadBits s).length - (unreadBits u).length : Nat) := by
  have hl : u.srcLen = s.srcLen := by rw [hm.eq]
  rw [bitpos_eq_of_length hl (hl ▸ hm.ptr_le hp) hp, Nat.cast_sub hle]

/-- Settles O11: each clause is what `DecodeAgrees` says of that answer of the bit-string decoder, and `bitpos` follows
the unread bits, of which the code word takes at least one. -/
theorem decodeReadsTheNextCodeWord : Obligations.DecodeReadsTheNextCodeWord := by
  intro s t hhuff hrem hptr hsrc
  have agrees := decodeToken_agrees t hhuff hrem hptr hsrc
  constructor
  · intro v rest hok
    rw [hok] at agrees
    obtain ⟨u, hgot, rfl, hmoved, hrem'⟩ := agrees
    exact ⟨u, hgot, rfl, bitpos_of_cursorMoved hmoved hptr (takeCode_length 8 hok).le, hrem', hmoved.eq⟩
  · intro hend
    rw [hend] at agrees
    exact agrees

end Sys2Proof.Machine
end

section
/-! PROOF. Decoding and encoding under HUFF_SPEC_REF are inverse (30_encoding.md R99, R101; 41_huffman.md R147 (b),
(c)): every instruction is a row of its table, and every entry of a table is the code word of its row. -/

namespace Sys2Proof.Machine

/-! ## Decoding what was encoded -/

/-- Every instruction but the band header is a row of the table at its slot (30_encoding.md R103). -/
theorem row_of_slot {i : Instr} {t : Nat} (hs : i.slot = .code t) :
    t < 18 ∧ (i.codeByte, i) ∈ codeBook t ∨ t = 18 ∧ ∃ v, i = .tokLit v := by
  cases i with
  | bandhdr => cases hs
  | tokLit v => cases hs; exact .inr ⟨rfl, v, rfl⟩
  | _ => cases hs; exact .inl (by decide)

/-- Every instruction that stands at a table is coded by that table's entry for it. -/
theorem coding_of_slot {i : Instr} {t : Nat} (hs : i.slot = .code t) : t ≤ 18 ∧ Laws.Coding.Statement i := by
  rcases row_of_slot hs with ⟨ht, hrow⟩ | ⟨rfl, v, rfl⟩
  · exact ⟨ht.le, Laws.Coding.of_check (Laws.Coding.check_codeBook t (List.mem_range.2 ht) _ hrow)⟩
  · exact ⟨le_refl 18, Laws.Coding.tokLit v⟩

/-- Only the band header is no code word (30_encoding.md R91, R92). -/
theorem eq_bandhdr_of_slot {i : Instr} (hs : i.slot = .header) : ∃ m p1 p2, i = .bandhdr m p1 p2 := by
  cases i with
  | bandhdr m p1 p2 => exact ⟨m, p1, p2, rfl⟩
  | _ => cases hs

/-- Settles O1: a band header is its three fields, any other instruction the code word of a row. -/
theorem decodeOfEncode : Obligations.DecodeOfEncode := by
  intro i rest
  cases hs : i.slot with
  | header =>
    obtain ⟨m, p1, p2, rfl⟩ := eq_bandhdr_of_slot hs
    exact decode_bandhdr huffSpecRef m p1 p2 rest
  | code t =>
    obtain ⟨ht, hcoding⟩ := coding_of_slot hs
    exact decode_codeWord hs ht hcoding rest

/-! ## Bits are the word of their value -/

/-- A bit string is the word of its value, with any bits above it. -/
theorem wordBits_bitsValue (bits : List Bool) :
    ∀ high : Nat, wordBits bits.length (high * 2 ^ bits.length + bitsValue bits) = bits := by
  induction bits with
  | nil => intro high; rfl
  | cons b bits ih =>
    intro high
    have hsplit : high * 2 ^ (bits.length + 1) + bitsValue (b :: bits) =
        (2 * high + b.toNat) * 2 ^ bits.length + bitsValue bits := by
      rw [bitsValue_cons]
      ring
    have hdiv : ((2 * high + b.toNat) * 2 ^ bits.length + bitsValue bits) / 2 ^ bits.length = 2 * high + b.toNat := by
      rw [Nat.mul_comm, Nat.mul_add_div (Nat.two_pow_pos _), Nat.div_eq_of_lt (bitsValue_lt bits), Nat.add_zero]
    rw [List.length_cons, hsplit, wordBits, ih, Nat.testBit_eq_decide_div_mod_eq, hdiv]
    cases b <;> simp [Nat.add_mod]

/-- What a field reads is its value written out, and the rest. -/
theorem eq_of_takeField {n v : Nat} {bits rest : List Bool} (h : takeField n 0 bits = .ok (v, rest)) :
    (BitVec.ofNat n v).toNat = v ∧ bits = wordBits n v ++ rest := by
  rw [takeField_eq] at h
  split at h
  next hn =>
    cases h
    have hlen := List.length_take_of_le hn
    have hlt := bitsValue_lt (bits.take n)
    have hword := wordBits_bitsValue (bits.take n) 0
    rw [hlen] at hlt hword
    rw [Nat.zero_mul, Nat.zero_add] at *
    exact ⟨by rw [BitVec.toNat_ofNat, Nat.mod_eq_of_lt hlt], by rw [hword, List.take_append_drop]⟩
  · cases h

/-- What decodes to a band header begins with its three fields. -/
theorem eq_of_decodeHeader {bits rest : List Bool} {i : Instr} (h : decodeHeader bits = .ok (i, rest)) :
    i.slot = .header ∧ bits = encode i ++ rest := by
  obtain ⟨m, p1, p2, bits1, bits2, hm, hp1, hp2, rfl⟩ := decodeHeader_eq_ok h
  obtain ⟨em, rfl⟩ := eq_of_takeField hm
  obtain ⟨ep1, rfl⟩ := eq_of_takeField hp1
  obtain ⟨ep2, rfl⟩ := eq_of_takeField hp2
  exact ⟨rfl, by simp only [encode, em, ep1, ep2, List.append_assoc]⟩

/-! ## The entries BUILD lays out -/

/-- The entries BUILD writes, each with the first slot of its run (41_huffman.md R141), from slot `s` on. -/
def entriesFrom : List (Nat × Int) → Nat → List (Nat × HuffEntry)
  | [], _ => []
  | (l, v) :: rest, s => (s, ⟨BitVec.ofNat 4 l, BitVec.ofInt 8 v⟩) :: entriesFrom rest (s + 256 >>> l)

/-- The entry at a slot is one BUILD wrote, and the slot agrees with the first of its run on the code word
(41_huffman.md R141). -/
theorem entryAt_mem_entriesFrom : ∀ (spec : List (Nat × Int)) (s0 : Nat), specLaidOut spec s0 = true →
    ∀ {S : Nat} {e : HuffEntry}, s0 ≤ S → entryAt spec (S - s0) = some e →
    ∃ st, (st, e) ∈ entriesFrom spec s0 ∧ e.len.toNat ≤ 8 ∧
      S / 2 ^ (8 - e.len.toNat) = st / 2 ^ (8 - e.len.toNat) := by
  intro spec
  induction spec with
  | nil => intro s0 _ S e _ he; cases he
  | cons p rest ih =>
    obtain ⟨l, v⟩ := p
    intro s0 hlaid S e hS he
    simp only [specLaidOut, Bool.and_eq_true, decide_eq_true_eq, beq_iff_eq] at hlaid
    obtain ⟨⟨⟨⟨⟨-, hl8⟩, -⟩, -⟩, haligned⟩, hrest⟩ := hlaid
    unfold entryAt at he
    split at he
    next hrun =>
      cases he
      have hlen : (BitVec.ofNat 4 l).toNat = l := by
        rw [BitVec.toNat_ofNat]
        omega
      refine ⟨s0, .head _, hlen.le.trans hl8, ?_⟩
      rw [hlen, ← run_length hl8]
      obtain ⟨q, rfl⟩ := Nat.dvd_of_mod_eq_zero haligned
      have hpos : 0 < 256 >>> l := by omega
      rw [Nat.mul_div_cancel_left q hpos, ← Nat.add_sub_cancel' hS, Nat.mul_add_div hpos, Nat.div_eq_of_lt hrun,
        Nat.add_zero]
    next hrun =>
      rw [Nat.sub_sub] at he
      obtain ⟨st, hmem, h8, hagree⟩ := ih _ hrest (by omega) he
      exact ⟨st, .tail _ hmem, h8, hagree⟩

/-! ## Encoding what was decoded -/

/-- Each entry of HUFF_SPEC_REF stands at the code word of its row (30_encoding.md R102): the low bits of its slot's
number, over the run length. -/
theorem encode_of_entriesFrom : ∀ p ∈ entriesFrom huffSpecRef 0, ∀ i ∈ rowOf (p.1 / 256) p.2.val,
    encode i = wordBits p.2.len.toNat (p.1 / 2 ^ (8 - p.2.len.toNat)) := by
  decide +kernel

/-- BUILD_LIT's entry at a word is the row of that word (30_encoding.md R94, R95). -/
theorem rowOf_litEntry : ∀ w : BitVec 5, rowOf 18 (litEntry (w.toNat <<< 3)).val = some (.tokLit w) := by
  decide +kernel

/-- In a table of HUFF_SPEC_REF, the entry at a word left-aligned in eight bits is that of the row the word encodes
(30_encoding.md R101): the run of the entry begins at its code word. -/
theorem encode_of_entryAt {t : Nat} {word : List Bool} {e : HuffEntry} {i : Instr} (hlen : word.length = e.len.toNat)
    (he : entryAt huffSpecRef (256 * t + bitsValue word <<< (8 - e.len.toNat)) = some e)
    (hi : rowOf t e.val = some i) : encode i = word := by
  obtain ⟨st, hmem, h8, hagree⟩ := entryAt_mem_entriesFrom huffSpecRef 0 specLaidOut_huffSpecRef
    (S := 256 * t + bitsValue word <<< (8 - e.len.toNat)) (Nat.zero_le _) he
  have hpow : 256 = 2 ^ (8 - e.len.toNat) * 2 ^ e.len.toNat := by
    rw [← Nat.pow_add, Nat.sub_add_cancel h8]
  have hslot : 256 * t + bitsValue word <<< (8 - e.len.toNat) =
      2 ^ (8 - e.len.toNat) * (t * 2 ^ e.len.toNat + bitsValue word) := by
    rw [Nat.shiftLeft_eq, hpow]
    ring
  have hcode : st / 2 ^ (8 - e.len.toNat) = t * 2 ^ word.length + bitsValue word := by
    rw [← hagree, hslot, Nat.mul_div_cancel_left _ (Nat.two_pow_pos _), hlen]
  have htable : st / 256 = t := by
    rw [hpow, ← Nat.div_div_eq_div_mul, hcode, ← hlen, Nat.mul_comm, Nat.mul_add_div (Nat.two_pow_pos _),
      Nat.div_eq_of_lt (bitsValue_lt word), Nat.add_zero]
  calc encode i = wordBits e.len.toNat (st / 2 ^ (8 - e.len.toNat)) :=
        encode_of_entriesFrom _ hmem i (htable.symm ▸ hi)
    _ = wordBits word.length (t * 2 ^ word.length + bitsValue word) := by rw [hcode, hlen]
    _ = word := wordBits_bitsValue word t

/-- In the literal table, the entry at five bits is that of the literal token they are (30_encoding.md R95). -/
theorem encode_of_litEntry {word : List Bool} {i : Instr} (h5 : word.length = 5)
    (hi : rowOf 18 (litEntry (bitsValue word <<< 3)).val = some i) : encode i = word := by
  have hlt := bitsValue_lt word
  have hword := wordBits_bitsValue word 0
  rw [h5] at hlt hword
  rw [Nat.zero_mul, Nat.zero_add] at hword
  have hfield : (BitVec.ofNat 5 (bitsValue word)).toNat = bitsValue word := by
    rw [BitVec.toNat_ofNat, Nat.mod_eq_of_lt hlt]
  have hrow := rowOf_litEntry (BitVec.ofNat 5 (bitsValue word))
  rw [hfield] at hrow
  cases hrow.symm.trans hi
  rw [encode, hfield, hword]

/-- The entry at a word left-aligned in eight bits, in any table, is that of the row the word encodes. -/
theorem encode_of_builtEntry {t : Nat} {word : List Bool} {e : HuffEntry} {i : Instr} (hlen : word.length = e.len.toNat)
    (he : builtEntry huffSpecRef t (bitsValue word <<< (8 - e.len.toNat)) = some e) (hi : rowOf t e.val = some i) :
    encode i = word := by
  unfold builtEntry at he
  split at he
  · exact encode_of_entryAt hlen he hi
  split at he
  next h18 =>
    subst h18
    have hentry := Option.some.inj he
    have h5 : e.len.toNat = 5 := by rw [← hentry]; rfl
    rw [h5] at hentry
    exact encode_of_litEntry (hlen.trans h5) (hentry ▸ hi)
  · cases he

/-- What decodes to a code word's row begins with that code word. -/
theorem eq_of_decodeCode {t : Nat} {v : Byte} {bits rest : List Bool} {i : Instr}
    (h : decodeCode huffSpecRef t bits = .ok (v, rest)) (hi : rowOf t v = some i) : bits = encode i ++ rest := by
  obtain ⟨word, e, rfl, -, hlen, rfl, he⟩ := takeCode_word 8 (le_refl 1) h
  rw [Nat.zero_mul, Nat.zero_add] at he
  rw [encode_of_builtEntry (by omega) he hi]

/-- Settles O2: by the slot, the fields of a header or the code word of a row. -/
theorem encodeOfDecode : Obligations.EncodeOfDecode := by
  intro sl bits i rest h
  cases sl with
  | header => exact eq_of_decodeHeader h
  | code t =>
    obtain ⟨v, hcode, hrow⟩ := decode_code_eq_ok h
    exact ⟨(rowOf_eq_some hrow).1, eq_of_decodeCode hcode hrow⟩

end Sys2Proof.Machine
end

section
/-! PROOF. BANDHDR (42_scaletracker.md R160 to R165): DECAY of the whole buffer by the scale of the band, the identity
scale's loss of one, and the zero multiplier. -/

namespace Sys2Proof.Machine

/-! ## The two outcomes of a band header -/

/-- A zero multiplier raises before DECAY, with `M` already read (R160, R164). -/
theorem bandHeader_zero (s : State) : bandHeader 0 s = .next (raise .zeroMultiplier { s with mult := 0 }) :=
  if_pos rfl

/-- Any other multiplier decays the buffer and opens the band's first row-group (R160, R161, R163). -/
theorem bandHeader_of_ne_zero {m : BitVec 6} (hm : m ≠ 0) (s : State) :
    bandHeader m s = .next { decay (scaleEntry s.cfg s.prevM * m.toNat) s with
      mult := m, val := scaleRegister (scaleEntry s.cfg s.prevM * m.toNat), prevM := m, pos := .rowGroup 0 } :=
  if_neg hm

/-! ## A cell at the identity scale -/

/-- DECAY at the identity scale 4096 with DECAY_BIAS -1, before wrap16: `floor(c - 1/4096)` is `c - 1` (R165). -/
theorem floor_identityScale (c : Int) : (c * 4096 + -1) / 4096 = c - 1 := by
  omega

/-- The 16 bits of a cell's signed value less one are the cell's bits less one, modulo 2^16. -/
theorem ofInt_cell_sub_one (s : State) (r i : Nat) : BitVec.ofInt 16 (cell s r i - 1) = readCell s r i - 1 := by
  rw [cell, Int.sub_eq_add_neg, BitVec.ofInt_add, BitVec.ofInt_toInt, BitVec.sub_eq_add_neg]
  rfl

/-! ## The obligations -/

/-- Settles O14: nothing of the zero case touches RBUF or `prevM`. -/
theorem zeroMultiplierFaults : Obligations.ZeroMultiplierFaults := by
  intro s p1 p2
  rw [exec_bandhdr, bandHeader_zero]
  rfl

/-- Settles O13: by the rules of DECAY for a cell of the buffer and for every other address. -/
theorem bandHeaderDecaysTheBuffer : Obligations.BandHeaderDecaysTheBuffer := by
  intro s m p1 p2 hm hsorted v
  refine ⟨_, (exec_bandhdr m p1 p2 s).trans (bandHeader_of_ne_zero hm s), ?cells, ?others, rfl, scaleRegister_toNat⟩
  case cells => exact fun r i hr hi => readCell_decay v hsorted hr hi
  case others => exact fun a ha => storeRead_decay_other v ha

/-- Settles O15: the product 4096 is of a multiplier that is not 0, so every cell is decayed, at the identity scale. -/
theorem identityScaleLowersEveryCellByOne : Obligations.IdentityScaleLowersEveryCellByOne := by
  intro s t m p1 p2 hscale hbias hsorted hexec r i hr hi
  have hm : m ≠ 0 := by
    rintro rfl
    simp at hscale
  obtain ⟨u, hu, hcells, -⟩ := bandHeaderDecaysTheBuffer s m p1 p2 hm hsorted
  obtain rfl : t = u := Host.Outcome.next.inj (hexec.symm.trans hu)
  calc readCell t r i = BitVec.ofInt 16 ((cell s r i * 4096 + -1) / 4096) := by
        rw [hcells r i hr hi, hscale, hbias]
        rfl
    _ = BitVec.ofInt 16 (cell s r i - 1) := by rw [floor_identityScale]
    _ = readCell s r i - 1 := ofInt_cell_sub_one s r i

end Sys2Proof.Machine
end

section
/-! PROOF. The control codes and the tokens of literal and predicted groups (43_rowpredictor.md R170 to R178, R181,
R184): where the sequence goes after them, and the one cell a token writes. -/

namespace Sys2Proof.Machine

/-! ## The control codes -/

/-- Settles O16: every code of the kind runs the one operation that starts a literal group. -/
theorem literalGroupStarts : Obligations.LiteralGroupStarts :=
  fun _ hi s => exec_litCodes hi s

/-- Settles O17: every code of symbol t runs the one operation that starts a predicted group of t. -/
theorem predictedGroupStarts : Obligations.PredictedGroupStarts :=
  fun _ hp s => exec_predCodes hp s

/-- The control code of a run group, by the column (43_rowpredictor.md R179, R180 (a), (c)). -/
theorem beginRun_token {s : State} (h : 2 < s.col.toNat) : beginRun s = .next (atPos .nreps { s with tree := 0 }) :=
  beginChunk_token (s := { s with tree := 0 }) h

theorem beginRun_sole {s : State} (h : s.col.toNat ≤ 2) : beginRun s = soleChunk { s with tree := 0 } :=
  beginChunk_sole (s := { s with tree := 0 }) h

/-- Settles O18: the first chunk has a repeat-count token, or is the sole chunk of a column of 2 or 0. -/
theorem runGroupStarts : Obligations.RunGroupStarts := by
  intro i hi s _ hk u
  rw [exec_runCodes hi]
  refine ⟨beginRun_token, fun h => ?_, fun h => ?_⟩
  · have h2 : s.col.toNat = 2 := by rw [h]; rfl
    rw [beginRun_sole h2.le]
    exact soleChunk_two (s := u) h fun hkeep => h2 ▸ hk hkeep
  · rw [beginRun_sole (by rw [h]; decide)]
    exact soleChunk_zero (s := u) h

/-! ## The end of a group -/

theorem groupEnd_more {s : State} (h : 0 < s.col.toNat) : groupEnd s = { s with pos := .ctrl } :=
  if_pos h

theorem groupEnd_kept {s : State} (hc : s.col = 0) (hk : s.keep = true) : groupEnd s = { s with pos := .emit } := by
  unfold groupEnd
  rw [if_neg (by rw [hc]; decide), if_pos hk]

theorem groupEnd_discarded {s : State} (hc : s.col = 0) (hk : s.keep = false) : groupEnd s = afterRowGroup s := by
  unfold groupEnd
  rw [if_neg (by rw [hc]; decide), if_neg (by rw [hk]; decide)]

theorem afterRowGroup_next {s : State} (h : s.rg ≠ 3) : afterRowGroup s = { s with pos := .rowGroup (s.rg + 1) } := by
  unfold afterRowGroup
  rw [if_neg h]

theorem afterRowGroup_last {s : State} (h : s.rg = 3) : afterRowGroup s = { s with pos := .checker } := by
  unfold afterRowGroup
  rw [if_pos h]

/-- A column that is not 0 is above 0. -/
theorem col_pos {c : BitVec 16} (h : c ≠ 0) : 0 < c.toNat :=
  Nat.pos_of_ne_zero fun h0 => h (BitVec.eq_of_toNat_eq h0)

/-- Settles O19: the tests of the row-group loop in order. -/
theorem groupEndFollowsTheColumn : Obligations.GroupEndFollowsTheColumn := by
  intro s
  refine ⟨groupEnd_more, groupEnd_kept, fun hc hk hr => ?_, fun hc hk hr => ?_⟩
  · rw [groupEnd_discarded hc hk, afterRowGroup_next hr]
  · rw [groupEnd_discarded hc hk, afterRowGroup_last hr]

/-- Settles O22: the row is that of the token's half, the index that of its parity. -/
theorem cellsOfAGroup : Obligations.CellsOfAGroup :=
  fun _ => ⟨rfl, rfl, rfl, rfl⟩

/-! ## The end of a token -/

theorem tokenDone_more {s : State} (h : s.tok ≠ 3) : tokenDone s = { s with tok := s.tok + 1 } :=
  if_neg h

theorem tokenDone_last {s : State} (h : s.tok = 3) : tokenDone s = groupEnd s :=
  if_pos h

/-- The fourth token of a kept row-group, by the column (R170). -/
theorem tokenDone_last_kept {s : State} (h : s.tok = 3) (hk : s.keep = true) :
    tokenDone s = { s with pos := if s.col = 0 then .emit else .ctrl } := by
  rw [tokenDone_last h]
  split
  next hc => exact groupEnd_kept hc hk
  next hc => exact groupEnd_more (col_pos hc)

/-- The fourth token of a discarded row-group, by the column and the row-group (R170, 46_sequencer.md R222). -/
theorem tokenDone_last_discarded {s : State} (h : s.tok = 3) (hk : s.keep = false) :
    tokenDone s =
      { s with pos := if s.col ≠ 0 then .ctrl else if s.rg = 3 then .checker else .rowGroup (s.rg + 1) } := by
  rw [tokenDone_last h]
  by_cases hc : s.col = 0
  · rw [groupEnd_discarded hc hk, if_neg (not_not_intro hc)]
    rfl
  · rw [groupEnd_more (col_pos hc), if_pos hc]

/-! ## The cell of a token -/

/-- A literal token of a kept row-group writes its cell (R177). -/
theorem litToken_kept {s : State} (hk : s.keep = true) (hc : s.col.toNat + 1 < halfWidth s) (b : Byte) :
    litToken b s = .next (tokenDone (writeGroupCell s s.tok (literalValue b * s.mult.toNat))) := by
  unfold litToken
  rw [keptGroup_kept hk hc]
  rfl

/-- A residual token of a kept row-group writes its cell (R178). -/
theorem resToken_kept {s : State} (hk : s.keep = true) (hc : s.col.toNat + 1 < halfWidth s) (r : Int) :
    resToken r s = .next (tokenDone (writeGroupCell s s.tok (r * 2 ^ s.cfg.residShift + predictAt s s.tok))) := by
  unfold resToken
  rw [keptGroup_kept hk hc]
  rfl

/-- What a token that writes `v` to its cell leaves in a kept row-group: the cell, every other address, and the token
index or the position (R172, R181). -/
theorem tokenDone_writeGroupCell {s : State} (hk : s.keep = true) (hsorted : storeSorted s.rbuf) (v : Int) :
    let t := tokenDone (writeGroupCell s s.tok v)
    readCell t (cellRow s.tok) (cellIndex s.col s.tok) = wrap16 v ∧
    (∀ a, a ≠ cellAddr (cellRow s.tok) (cellIndex s.col s.tok) →
      storeRead s.cfg.bufInit t.rbuf a = storeRead s.cfg.bufInit s.rbuf a) ∧
    (s.tok ≠ 3 → t = { s with rbuf := t.rbuf, tok := s.tok + 1 }) ∧
    (s.tok = 3 → t = { s with rbuf := t.rbuf, pos := if s.col = 0 then .emit else .ctrl }) := by
  have hread := storeRead_writeCell s (cellRow s.tok) (cellIndex s.col s.tok) v
  have hrbuf : (tokenDone (writeGroupCell s s.tok v)).rbuf =
      (writeCell s (cellRow s.tok) (cellIndex s.col s.tok) v).rbuf := tokenDone_rbuf _
  intro t
  refine ⟨?cell, ?others, fun h => ?more, fun h => ?last⟩
  case cell =>
    unfold readCell
    rw [hrbuf, tokenDone_cfg, writeGroupCell_cfg, hread _ hsorted, if_pos rfl]
  case others =>
    intro a ha
    rw [hrbuf, hread a hsorted, if_neg ha]
  case more =>
    rw [hrbuf]
    exact tokenDone_more (s := writeGroupCell s s.tok v) h
  case last =>
    rw [hrbuf]
    exact tokenDone_last_kept (s := writeGroupCell s s.tok v) h hk

/-- A literal's raw byte is `8 * v + 4` (30_encoding.md R95). -/
theorem literalValue_literalByte : ∀ v : BitVec 5, literalValue (literalByte v) = (8 * v.toNat + 4 : Nat) := by
  decide

/-- Settles O20: the token's write is that of its cell, of the literal times M. -/
theorem literalTokenWritesItsCell : Obligations.LiteralTokenWritesItsCell := by
  intro s v hk hc hsorted
  refine ⟨_, (exec_tokLit v s).trans (litToken_kept hk hc _), ?_⟩
  rw [literalValue_literalByte, ← Nat.cast_mul]
  exact tokenDone_writeGroupCell hk hsorted _

/-- The predictor, its shifts written as divisions (R174; 00_scope.md R11). -/
theorem predict_eq (s : State) (y x : Nat) :
    predict s y x = ((cell s (y - 1) x + cell s (y - 1) (x + 1)) / 2 + cell s y (x + 1)) / 2 := rfl

/-- Settles O21: the token's write is that of its cell, of the residual plus the predictor there. -/
theorem residualTokenWritesItsCell : Obligations.ResidualTokenWritesItsCell := by
  intro p hp s hk hc hsorted y x
  refine ⟨_, (exec_residualTokens hp s).trans (resToken_kept hk hc _), ?_⟩
  exact tokenDone_writeGroupCell hk hsorted _

/-- A cell is a signed 16-bit number (10_state.md R31). -/
theorem cell_range (s : State) (r i : Nat) : -32768 ≤ cell s r i ∧ cell s r i ≤ 32767 := by
  have hlow := BitVec.le_toInt (readCell s r i)
  have hhigh := BitVec.toInt_lt (x := readCell s r i)
  rw [cell_eq]
  omega

/-- Settles O25: floors of halves are the floor of the quarter, and stay between the numbers they are of. -/
theorem predictorIsTheFloorOfTheWeightedSum : Obligations.PredictorIsTheFloorOfTheWeightedSum := by
  intro s y x
  have hd1 := cell_range s (y - 1) x
  have hd2 := cell_range s (y - 1) (x + 1)
  have hc := cell_range s y (x + 1)
  rw [predict_eq]
  omega

/-! ## A discarded row-group -/

/-- In a discarded row-group a literal token is only counted (R177, R184). -/
theorem litToken_discarded {s : State} (h : s.keep = false) (b : Byte) : litToken b s = .next (tokenDone s) := by
  unfold litToken
  rw [keptGroup_discarded h]
  rfl

/-- In a discarded row-group a residual token is only counted (R178, R184). -/
theorem resToken_discarded {s : State} (h : s.keep = false) (r : Int) : resToken r s = .next (tokenDone s) := by
  unfold resToken
  rw [keptGroup_discarded h]
  rfl

/-- Settles O23: both kinds of token are only counted, and the fourth ends the group. -/
theorem discardedTokensWriteNothing : Obligations.DiscardedTokensWriteNothing := by
  intro i s hi hk
  have hdone : exec i s = .next (tokenDone s) := by
    rcases hi with ⟨v, rfl⟩ | ⟨r, hr⟩
    · rw [exec_tokLit, litToken_discarded hk]
    · rw [exec_residualTokens hr, resToken_discarded hk]
  rw [hdone]
  exact ⟨fun h => congrArg Host.Outcome.next (tokenDone_more h),
    fun h => congrArg Host.Outcome.next (tokenDone_last_discarded h hk)⟩

end Sys2Proof.Machine
end

section
/-! PROOF. The run groups (43_rowpredictor.md R176, R179, R180): the cells a repeat and a step write, and how a chunk
goes on after a token. -/

namespace Sys2Proof.Machine

/-! ## The four cells of a repeat -/

/-- The cells of a group in a row are cells of RBUF, and so is the next one (20_memory.md R66). -/
theorem col_lt_of_room {s : State} (h : s.col.toNat + 1 < halfWidth s) : s.col.toNat + 2 < 65536 := by
  have := halfWidth_lt s
  omega

theorem cell_writeCell_same {s : State} (h : storeSorted s.rbuf) (r i : Nat) (v : Int) :
    cell (writeCell s r i v) r i = (wrap16 v).toInt :=
  congrArg BitVec.toInt ((storeRead_writeCell s r i v (cellAddr r i) h).trans (if_pos rfl))

theorem cell_writeCell_other (s : State) {r i r' i' : Nat} (v : Int) (hi : i < 65536) (hi' : i' < 65536)
    (hne : r' = r → i' ≠ i) : cell (writeCell s r i v) r' i' = cell s r' i' := by
  refine congrArg BitVec.toInt (storeRead_writeCell_other rfl fun ha => ?_)
  obtain ⟨hr, hi⟩ := (cellAddr_inj hi' hi).1 ha
  exact hne hr hi

/-- Four writes to the cells of a group in the order of R175, each of `f` of the state and the cell, as the states
between them and the values written (R172). -/
theorem exists_writes_of_groupCells {g : BitVec 2 → State → State} {f : State → Nat → Nat → Int}
    (hg : ∀ k u, g k u = writeGroupCell u k (f u (cellRow k) (cellIndex u.col k))) {s : State}
    {c : Nat} (hc : s.col.toNat = c) :
    ∃ (s0 s1 s2 : State) (v0 v1 v2 v3 : Int),
      s0 = writeCell s 1 (c + 1) v0 ∧ s1 = writeCell s0 1 c v1 ∧ s2 = writeCell s1 2 (c + 1) v2 ∧
      g 3 (g 2 (g 1 (g 0 s))) = writeCell s2 2 c v3 ∧
      v0 = f s 1 (c + 1) ∧ v1 = f s0 1 c ∧ v2 = f s1 2 (c + 1) ∧ v3 = f s2 2 c := by
  subst hc
  have hcol (k : BitVec 2) (u : State) : (g k u).col = u.col := by rw [hg, writeGroupCell_col]
  have e1 := hg 1 (g 0 s)
  have e2 := hg 2 (g 1 (g 0 s))
  have e3 := hg 3 (g 2 (g 1 (g 0 s)))
  unfold writeGroupCell at e1 e2 e3
  simp only [hcol] at e1 e2 e3
  exact ⟨g 0 s, g 1 (g 0 s), g 2 (g 1 (g 0 s)), _, _, _, _, hg 0 s, e1, e2, e3, rfl, rfl, rfl, rfl⟩

/-- Settles O26: each write is read back as it was written, and every other read of a value is of a cell not yet
written. -/
theorem predictorCopySeesEarlierCells : Obligations.PredictorCopySeesEarlierCells := by
  intro s hroom hsorted c t
  have hc : c + 2 < 65536 := col_lt_of_room hroom
  obtain ⟨_, _, _, v0, v1, v2, v3, rfl, rfl, rfl, (ht : t = _), hv0, hv1, hv2, hv3⟩ :=
    exists_writes_of_groupCells (g := predictCell) (f := predict) (fun _ _ => rfl) (c := c) rfl
  have h0 := storeSorted_writeCell 1 (c + 1) v0 hsorted
  have h1 := storeSorted_writeCell 1 c v1 h0
  obtain ⟨r0, r1, r2, r3, hothers⟩ := readCell_four (v0 := v0) (v1 := v1) (v2 := v2) (v3 := v3)
    (by omega : c + 1 < 65536) hsorted
  simp (disch := omega) only [predict_eq, cell_writeCell_other, cell_writeCell_same hsorted, cell_writeCell_same h0,
    cell_writeCell_same h1] at hv1 hv2 hv3
  refine ⟨?_, ?_, ?_, ?_, ?_, predictCells_eq s⟩
  · rw [ht, r0, hv0]; rfl
  · rw [cell_eq t, ht, r1, r0, hv1]; rfl
  · rw [cell_eq t, ht, r2, r0, hv2]; rfl
  · rw [cell_eq t, cell_eq t, cell_eq t, ht, r3, r0, r1, r2, hv3]; rfl
  · rw [ht]
    exact hothers

/-- Settles O27: the four cells are different ones, so each is read as it stood. -/
theorem stepIsAddedToTheFourCells : Obligations.StepIsAddedToTheFourCells := by
  intro s hroom hsorted c t
  have hc : c + 2 < 65536 := col_lt_of_room hroom
  obtain ⟨_, _, _, v0, v1, v2, v3, rfl, rfl, rfl, (ht : t = _), hv0, hv1, hv2, hv3⟩ :=
    exists_writes_of_groupCells (g := addStepCell) (f := fun u r i => cell u r i + u.step.toInt) (fun _ _ => rfl)
      (c := c) rfl
  obtain ⟨r0, r1, r2, r3, hothers⟩ := readCell_four (v0 := v0) (v1 := v1) (v2 := v2) (v3 := v3)
    (by omega : c + 1 < 65536) hsorted
  simp (disch := omega) only [cell_writeCell_other, writeCell_step] at hv1 hv2 hv3
  refine ⟨?_, ?_, addStepCells_eq s⟩
  · rintro r i (rfl | rfl) (rfl | rfl)
    · rw [ht, r1, hv1]; rfl
    · rw [ht, r0, hv0]; rfl
    · rw [ht, r3, hv3]; rfl
    · rw [ht, r2, hv2]; rfl
  · rw [ht]
    exact hothers

/-! ## The repeats of a chunk -/

theorem oneRepeat_halfWidth (s : State) : halfWidth (oneRepeat s) = halfWidth s := by
  unfold halfWidth
  rw [oneRepeat_w]

theorem stepAdded_halfWidth (v : Int) (s : State) : halfWidth (stepAdded v s) = halfWidth s := by
  unfold halfWidth
  rw [stepAdded_w]

/-- A run group under way at an even column whose repeats, where kept, are inside the row (10_state.md R23,
20_memory.md R66). -/
structure ColumnInRow (s : State) : Prop where
  even : s.col.toNat % 2 = 0
  fits : s.keep = true → s.col.toNat ≤ halfWidth s

theorem ColumnInRow.room {s : State} (h : ColumnInRow s) (hc : 0 < s.col.toNat) :
    s.keep = true → (s.col - 2).toNat + 1 < halfWidth s := by
  intro hk
  have := h.even
  have := h.fits hk
  rw [toNat_col_sub_two (by omega)]
  omega

/-- A repeat lowers the column by 2. -/
theorem ColumnInRow.toNat_oneRepeat {s : State} (h : ColumnInRow s) (hc : 0 < s.col.toNat) :
    (oneRepeat s).col.toNat = s.col.toNat - 2 := by
  have := h.even
  rw [oneRepeat_col, toNat_col_sub_two (by omega)]

theorem ColumnInRow.oneRepeat {s : State} (h : ColumnInRow s) (hc : 0 < s.col.toNat) : ColumnInRow (oneRepeat s) := by
  have heven := h.even
  have hcol := h.toNat_oneRepeat hc
  refine ⟨by omega, fun hk => ?_⟩
  have := h.fits (oneRepeat_keep s ▸ hk)
  rw [oneRepeat_halfWidth]
  omega

theorem ColumnInRow.withRep {s : State} (h : ColumnInRow s) (r : BitVec 4) : ColumnInRow (withRep r s) :=
  ⟨h.even, h.fits⟩

theorem ColumnInRow.startChunk {s : State} (h : ColumnInRow s) (n : BitVec 4) : ColumnInRow (startChunk n s) :=
  ⟨h.even, h.fits⟩

theorem ColumnInRow.stepAdded {s : State} (h : ColumnInRow s) (v : Int) : ColumnInRow (stepAdded v s) :=
  ⟨stepAdded_col v s ▸ h.even, stepAdded_col v s ▸ stepAdded_keep v s ▸ stepAdded_halfWidth v s ▸ h.fits⟩

/-- The chunk is over: its count or the eight repeats are made, or the row is (R179). -/
theorem continueChunk_over {s : State} (h : ¬ (s.rep.toNat < 8 ∧ s.rep.toNat < s.nreps.toNat ∧ 0 < s.col.toNat)) :
    continueChunk s = chunkEnd s :=
  repeatLoop_stop 8 h

/-- An even repeat is made, and then the chunk is over. -/
theorem continueChunk_even_over {s : State} (h : ColumnInRow s) (h8 : s.rep.toNat < 8)
    (hn : s.rep.toNat < s.nreps.toNat) (hc : 0 < s.col.toNat) (heven : s.rep.toNat % 2 = 0)
    (hover : ¬ (s.rep.toNat + 1 < s.nreps.toNat ∧ 2 < s.col.toNat)) :
    continueChunk s = chunkEnd (withRep (s.rep + 1) (oneRepeat s)) := by
  refine (repeatLoop_even 7 h8 hn hc heven (h.room hc)).trans (repeatLoop_stop 7 ?_)
  have hcol := h.toNat_oneRepeat hc
  have hrep := toNat_rep_succ h8
  rintro ⟨-, hn', hc'⟩
  rw [withRep_rep, withRep_nreps, oneRepeat_nreps] at hn'
  rw [withRep_col] at hc'
  omega

/-- An even repeat and the odd one after it are made, and a step token follows. -/
theorem continueChunk_even_odd {s : State} (h : ColumnInRow s) (h8 : s.rep.toNat < 8)
    (hn : s.rep.toNat + 1 < s.nreps.toNat) (hc : 2 < s.col.toNat) (heven : s.rep.toNat % 2 = 0) :
    continueChunk s = .next (atPos .step (oneRepeat (withRep (s.rep + 1) (oneRepeat s)))) := by
  have hpos : 0 < s.col.toNat := by omega
  have hcol := h.toNat_oneRepeat hpos
  have hrep := toNat_rep_succ h8
  have hodd : (s.rep + 1).toNat % 2 = 1 := by omega
  have hroom := ((h.oneRepeat hpos).withRep (s.rep + 1)).room (by rw [withRep_col]; omega)
  refine (repeatLoop_even 7 h8 (by omega) hpos heven (h.room hpos)).trans
    (repeatLoop_odd 6 ?_ ?_ ?_ hodd hroom)
  · rw [withRep_rep]; omega
  · rw [withRep_rep, withRep_nreps, oneRepeat_nreps]; omega
  · rw [withRep_col]; omega

/-! ## The tokens of a run group -/

/-- Settles O28: the chunk starts at its even repeat 0. -/
theorem repeatCountTokenStartsTheChunk : Obligations.RepeatCountTokenStartsTheChunk := by
  rintro ⟨n, i⟩ hp s hc heven hk u
  obtain ⟨hexec, h1, h9⟩ := exec_nrepsTokens hp s
  have hs : ColumnInRow (startChunk n s) := ColumnInRow.startChunk ⟨heven, hk⟩ n
  have hpos : 0 < s.col.toNat := by omega
  rw [hexec, nrepsToken_eq]
  refine ⟨fun hn => ?_, fun hn => ?_⟩
  · obtain rfl : n = 1 := hn
    rw [continueChunk_even_over hs (by simp) (by simp) hpos (by simp) (by simp)]
    rw [chunkEnd_last (by simp), groupEnd_more]
    · rfl
    · rw [withRep_col, hs.toNat_oneRepeat hpos, startChunk_col]
      omega
  · have hn1 : n.toNat ≠ 1 := fun h => hn (BitVec.eq_of_toNat_eq h)
    exact continueChunk_even_odd hs (by simp) (show 1 < n.toNat by omega) hc (by simp)

/-- What starts after a chunk of nine at an even column (R179, R180 (a), (c)). -/
theorem chunkEnd_nine_zero {s : State} (h9 : s.nreps = 9) (hc : s.col = 0) :
    chunkEnd s = .next (groupEnd (startChunk 1 s)) := by
  rw [chunkEnd_chained h9, beginChunk_sole (by rw [hc]; decide), soleChunk_zero hc]

theorem chunkEnd_nine_two {s : State} (h9 : s.nreps = 9) (hc : s.col = 2) (hk : s.keep = true → 2 ≤ halfWidth s) :
    chunkEnd s = .next (groupEnd (withRep 1 (oneRepeat (startChunk 1 s)))) := by
  rw [chunkEnd_chained h9, beginChunk_sole (by rw [hc]; decide), soleChunk_two hc hk]

theorem chunkEnd_nine_token {s : State} (h9 : s.nreps = 9) (hc : 2 < s.col.toNat) :
    chunkEnd s = .next (atPos .nreps s) := by
  rw [chunkEnd_chained h9, beginChunk_token hc]

/-- A step token of an odd repeat under way (10_state.md R23, 43_rowpredictor.md R179). -/
structure AtStepToken (s : State) : Prop where
  even_col : s.col.toNat % 2 = 0
  odd_rep : s.rep.toNat % 2 = 1
  rep_lt : s.rep.toNat < 8
  rep_lt_nreps : s.rep.toNat < s.nreps.toNat
  room : s.keep = true → s.col.toNat + 1 < halfWidth s

/-- The state from which the chunk goes on after a step token of value `v`. -/
def stepped (v : Int) (s : State) : State :=
  withRep (s.rep + 1) (stepAdded v s)

theorem stepped_col (v : Int) (s : State) : (stepped v s).col = s.col :=
  stepAdded_col v s

theorem stepped_nreps (v : Int) (s : State) : (stepped v s).nreps = s.nreps :=
  stepAdded_nreps v s

section

variable {s : State} (v : Int)

theorem AtStepToken.toNat_rep (h : AtStepToken s) : (stepped v s).rep.toNat = s.rep.toNat + 1 :=
  toNat_rep_succ h.rep_lt

theorem AtStepToken.columnInRow (h : AtStepToken s) : ColumnInRow (stepped v s) :=
  (ColumnInRow.stepAdded ⟨h.even_col, fun hk => (Nat.le_succ _).trans (h.room hk).le⟩ v).withRep _

theorem AtStepToken.stepToken_eq (h : AtStepToken s) : stepToken v s = continueChunk (stepped v s) :=
  Machine.stepToken_eq h.room

/-- The step is the last thing of its chunk. -/
theorem AtStepToken.over (h : AtStepToken s)
    (hend : ¬ (s.rep.toNat + 1 < 8 ∧ s.rep.toNat + 1 < s.nreps.toNat ∧ 0 < s.col.toNat)) :
    stepToken v s = chunkEnd (stepped v s) := by
  rw [h.stepToken_eq]
  exact continueChunk_over (s := stepped v s) (by rwa [h.toNat_rep, stepped_nreps, stepped_col])

/-- The even repeat after the step is the last of its chunk. -/
theorem AtStepToken.even_over (h : AtStepToken s) (h8 : s.rep.toNat + 1 < 8) (hn : s.rep.toNat + 1 < s.nreps.toNat)
    (hc : 0 < s.col.toNat) (hend : ¬ (s.rep.toNat + 2 < s.nreps.toNat ∧ 2 < s.col.toNat)) :
    stepToken v s = chunkEnd (withRep (s.rep + 2) (oneRepeat (stepped v s))) := by
  have hrep := h.toNat_rep v
  have hnreps := stepped_nreps v s
  have hcol := stepped_col v s
  have hodd := h.odd_rep
  have hnext : (stepped v s).rep + 1 = s.rep + 2 := BitVec.add_assoc s.rep 1 1
  rw [h.stepToken_eq, ← hnext]
  exact continueChunk_even_over (h.columnInRow v) (by omega) (by rwa [hrep, hnreps]) (by rwa [hcol]) (by omega)
    (by rwa [hrep, hnreps, hcol])

/-- Two repeats after the step lead to the next step token. -/
theorem AtStepToken.even_odd (h : AtStepToken s) (h8 : s.rep.toNat + 1 < 8) (hn : s.rep.toNat + 2 < s.nreps.toNat)
    (hc : 2 < s.col.toNat) :
    stepToken v s = .next (atPos .step (oneRepeat (withRep (s.rep + 2) (oneRepeat (stepped v s))))) := by
  have hrep := h.toNat_rep v
  have hnreps := stepped_nreps v s
  have hcol := stepped_col v s
  have hodd := h.odd_rep
  have hnext : (stepped v s).rep + 1 = s.rep + 2 := BitVec.add_assoc s.rep 1 1
  rw [h.stepToken_eq, ← hnext]
  exact continueChunk_even_odd (h.columnInRow v) (by omega) (by rwa [hrep, hnreps]) (by rwa [hcol]) (by omega)

/-- The even repeat after the step, at column 2, is the last of its row. -/
theorem col_oneRepeat_stepped (hc : s.col = 2) (r : BitVec 4) :
    (withRep r (oneRepeat (stepped v s))).col = 0 := by
  rw [withRep_col, oneRepeat_col, stepped_col, hc]
  rfl

theorem nreps_oneRepeat_stepped (r : BitVec 4) : (withRep r (oneRepeat (stepped v s))).nreps = s.nreps := by
  rw [withRep_nreps, oneRepeat_nreps, stepped_nreps]

end

/-- Settles O29: with the step added the repeat index is even, and the chunk is over, or its even repeat is made and it
is over, or the odd repeat after that is made too. -/
theorem stepTokenGoesOnWithTheChunk : Obligations.StepTokenGoesOnWithTheChunk := by
  intro p hp s heven hodd h8 hn _ hk u evenDone lastChunk
  have h : AtStepToken s := ⟨heven, hodd, h8, hn, hk⟩
  have hlast (h7 : s.rep ≠ 7) : s.rep.toNat + 1 < 8 := by
    have : s.rep.toNat ≠ 7 := fun e => h7 (BitVec.eq_of_toNat_eq e)
    omega
  have hnine (e : s.nreps = 9) : s.nreps.toNat = 9 := congrArg BitVec.toNat e
  have htwo (e : s.col = 2) : s.col.toNat = 2 := congrArg BitVec.toNat e
  rw [exec_stepTokens hp]
  refine ⟨fun hend h9 => ?_, fun hc h9 => ?_, fun hc h9 => ?_, fun h7 h9 hc => ?_, fun h7 h9 hc => ?_,
    fun h7 hn hc h9 => ?_, fun h7 hc h9 => ?_, fun h7 hn hc => ?_, fun h7 hn hc => ?_⟩
  · rw [h.over _ (by rw [hend, toNat_rep_succ h8]; omega), chunkEnd_last (stepped_nreps _ s ▸ h9)]
    rfl
  · rw [h.over _ (by simp [hc]), chunkEnd_last (stepped_nreps _ s ▸ h9)]
    rfl
  · rw [h.over _ (by simp [hc]), chunkEnd_nine_zero ((stepped_nreps _ s).trans h9) ((stepped_col _ s).trans hc)]
    rfl
  · rw [h.over _ (by simp [h7]), chunkEnd_nine_token ((stepped_nreps _ s).trans h9) ((stepped_col _ s).symm ▸ hc)]
    rfl
  · rw [h.over _ (by simp [h7]), chunkEnd_nine_two ((stepped_nreps _ s).trans h9) ((stepped_col _ s).trans hc)]
    · rfl
    · exact fun hkeep => htwo hc ▸ (stepped_col _ s ▸ (h.columnInRow p.1).fits hkeep)
  · rw [h.even_over _ (hlast h7) hn (by simp [hc]) (by simp [hc]), chunkEnd_last]
    · rfl
    · rwa [nreps_oneRepeat_stepped]
  · have := hlast h7
    rw [h.even_over _ (hlast h7) (by rw [hnine h9]; omega) (by simp [hc]) (by simp [hc]), chunkEnd_nine_zero]
    · rfl
    · rwa [nreps_oneRepeat_stepped]
    · exact col_oneRepeat_stepped _ hc _
  · have hnreps : s.nreps.toNat = s.rep.toNat + 2 := by
      rw [hn, BitVec.toNat_add]
      show (s.rep.toNat + 2) % 2 ^ 4 = _
      omega
    rw [h.even_over _ (hlast h7) (by omega) (by omega) (by omega), chunkEnd_last]
    · rfl
    · rw [nreps_oneRepeat_stepped]
      intro h9
      have := hlast h7
      have := hnine h9
      omega
  · exact h.even_odd _ (hlast h7) hn hc

end Sys2Proof.Machine
end

section
/-! PROOF. The discard pass (43_rowpredictor.md R184, R187): a discarded row-group reads the stream and moves its
registers as a kept one does, and writes no cell. -/

namespace Sys2Proof.Machine

/-! ## No cell is written -/

/-- In a discarded row-group a repeat only lowers `col` (R184). -/
theorem oneRepeat_discarded {s : State} (h : s.keep = false) : oneRepeat s = { s with col := s.col - 2 } :=
  if_neg (by rw [h]; decide)

/-- In a discarded row-group a step token only writes `step` (R184). -/
theorem stepAdded_discarded {s : State} (h : s.keep = false) (v : Int) :
    stepAdded v s = { s with step := BitVec.ofInt 12 (v * 16) } :=
  if_neg (by rw [h]; decide)

/-- A discarded row-group with the image of `o`. -/
structure ImageOf (o u : State) : Prop where
  rbuf : u.rbuf = o.rbuf
  plane : u.plane = o.plane
  keep : u.keep = false

theorem ImageOf.groupEnd {o u : State} (h : ImageOf o u) : ImageOf o (groupEnd u) := by
  rw [groupEnd_eq_atPos]
  exact ⟨h.rbuf, h.plane, h.keep⟩

theorem ImageOf.tokenDone {o u : State} (h : ImageOf o u) : ImageOf o (tokenDone u) := by
  unfold Machine.tokenDone
  split
  · exact h.groupEnd
  · exact ⟨h.rbuf, h.plane, h.keep⟩

theorem ImageOf.oneRepeat {o u : State} (h : ImageOf o u) : ImageOf o (oneRepeat u) := by
  rw [oneRepeat_discarded h.keep]
  exact ⟨h.rbuf, h.plane, h.keep⟩

theorem ImageOf.stepAdded {o u : State} (h : ImageOf o u) (v : Int) : ImageOf o (stepAdded v u) := by
  rw [stepAdded_discarded h.keep]
  exact ⟨h.rbuf, h.plane, h.keep⟩

/-- A run group of a discarded row-group leaves the image. -/
theorem runKeeps_imageOf (o : State) : RunKeeps (ImageOf o) (ImageOf o) (ImageOf o) where
  weaken _ h := h
  room _ h _ hk := absurd (h.keep.symm.trans hk) (by decide)
  startChunk _ _ _ _ h := ⟨h.rbuf, h.plane, h.keep⟩
  odd _ h _ _ _ _ := ⟨h.oneRepeat.rbuf, h.oneRepeat.plane, h.oneRepeat.keep⟩
  even _ h _ _ _ _ := ⟨h.oneRepeat.rbuf, h.oneRepeat.plane, h.oneRepeat.keep⟩
  nrepsPos _ h _ := ⟨h.rbuf, h.plane, h.keep⟩
  groupEnd _ h := h.groupEnd

/-- A code word of a discarded row-group leaves the image, whatever its table and value. -/
theorem ImageOf.execUnlisted {o u : State} (h : ImageOf o u) (k : Nat) (v : Byte) :
    Leads (ImageOf o) (execUnlisted k v u) := by
  have hk : u.keep = true → u.col.toNat + 1 < halfWidth u := fun hk => absurd (h.keep.symm.trans hk) (by decide)
  refine (runKeeps_imageOf o).leads (fun _ => ?control) (fun _ => h) (fun _ => ⟨hk, fun a => ?step⟩)
    (fun _ _ r => ?res) (fun _ => ?lit)
  case control =>
    exact ⟨⟨h.rbuf, h.plane, h.keep⟩, fun _ _ _ => ⟨h.rbuf, h.plane, h.keep⟩, ⟨h.rbuf, h.plane, h.keep⟩⟩
  case step => exact ⟨(h.stepAdded a).rbuf, (h.stepAdded a).plane, (h.stepAdded a).keep⟩
  case res => exact resToken_discarded h.keep r ▸ .next h.tokenDone
  case lit => exact litToken_discarded h.keep v ▸ .next h.tokenDone

/-- Settles O30: every instruction but a band header is a code word. -/
theorem discardPassLeavesTheImage : Obligations.DiscardPassLeavesTheImage := by
  intro i s t hslot hk ht
  cases hs : i.slot with
  | header => exact absurd hs hslot
  | code k =>
    rw [exec_eq_execUnlisted hs] at ht
    have himage : ImageOf s s := ⟨rfl, rfl, hk⟩
    obtain ⟨hrbuf, hplane, hkeep⟩ := himage.execUnlisted k i.codeByte t ht
    exact ⟨hrbuf, hplane, hkeep⟩

/-! ## The same bits are consumed -/

/-- `u` is `s` in a discarded row-group, but for what RBUF holds. -/
def Discards (s u : State) : Prop :=
  ∃ rb, u = { s with keep := false, rbuf := rb }

/-- As `Discards`, but for the position after a kept row-group: EMIT, which a discarded one does not have. -/
def DiscardsToEmit (s u : State) : Prop :=
  ∃ rb p, u = { s with keep := false, rbuf := rb, pos := p } ∧ (s.pos ≠ .emit → p = s.pos)

theorem Discards.toEmit {s u : State} (h : Discards s u) : DiscardsToEmit s u := by
  obtain ⟨rb, rfl⟩ := h
  exact ⟨rb, s.pos, rfl, fun _ => rfl⟩

theorem Discards.atPos {s u : State} (h : Discards s u) (p : Pos) : Discards (atPos p s) (atPos p u) := by
  obtain ⟨rb, rfl⟩ := h
  exact ⟨rb, rfl⟩

/-- Only the end of a kept row-group is decided by `keep` (46_sequencer.md R222). -/
theorem posAfterGroup_discards {s : State} (h : posAfterGroup s ≠ .emit) (rb : Store Half) :
    posAfterGroup { s with keep := false, rbuf := rb } = posAfterGroup s := by
  unfold posAfterGroup at h ⊢
  by_cases hc : 0 < s.col.toNat
  · rw [if_pos hc, if_pos hc]
  · rw [if_neg hc] at h
    rw [if_neg hc, if_neg hc, if_neg Bool.false_ne_true, if_neg fun hk => h (if_pos hk)]

theorem Discards.groupEnd {s u : State} (h : Discards s u) : DiscardsToEmit (groupEnd s) (groupEnd u) := by
  obtain ⟨rb, rfl⟩ := h
  rw [groupEnd_eq_atPos, groupEnd_eq_atPos]
  exact ⟨rb, _, rfl, fun he => posAfterGroup_discards he rb⟩

theorem Discards.tokenDone {s u : State} (h : Discards s u) : DiscardsToEmit (tokenDone s) (tokenDone u) := by
  have htok : u.tok = s.tok := by
    obtain ⟨rb, rfl⟩ := h
    rfl
  unfold Machine.tokenDone
  rw [htok]
  split
  · exact h.groupEnd
  · obtain ⟨rb, rfl⟩ := h
    exact Discards.toEmit ⟨rb, rfl⟩

theorem Discards.oneRepeat {s u : State} (h : Discards s u) : Discards (oneRepeat s) (oneRepeat u) := by
  obtain ⟨rb, rfl⟩ := h
  refine ⟨rb, ?_⟩
  rw [oneRepeat_discarded rfl, oneRepeat_eq s, oneRepeat_col]

theorem Discards.stepAdded {s u : State} (h : Discards s u) (v : Int) : Discards (stepAdded v s) (stepAdded v u) := by
  obtain ⟨rb, rfl⟩ := h
  refine ⟨rb, ?_⟩
  rw [stepAdded_discarded rfl, stepAdded_eq v s, stepAdded_step]

/-- The cell a token of a kept row-group writes, and the end of the token in both. -/
theorem Discards.token {s u : State} (h : Discards s u) (v v' : Int) :
    DiscardsToEmit (Machine.tokenDone (if s.keep then writeGroupCell s s.tok v else s))
      (Machine.tokenDone (if u.keep then writeGroupCell u u.tok v' else u)) := by
  refine Discards.tokenDone ?_
  obtain ⟨rb, rfl⟩ := h
  rw [if_neg Bool.false_ne_true]
  split
  · exact ⟨rb, rfl⟩
  · exact ⟨rb, rfl⟩

/-- What a kept row-group asks of its cells, a discarded one does not. -/
theorem Discards.kept {s u : State} (h : Discards s u) :
    u.col = s.col ∧ (u.keep = true → s.keep = true ∧ halfWidth u = halfWidth s) := by
  obtain ⟨rb, rfl⟩ := h
  exact ⟨rfl, fun hk => absurd hk Bool.false_ne_true⟩

/-- A run group in both: the same repeats, without the cells. -/
theorem twins_discards : Twins Discards Discards DiscardsToEmit where
  weaken _ _ h := h
  col _ _ h := h.kept.1
  keep _ _ h := h.kept.2
  counters := by
    rintro s _ ⟨rb, rfl⟩
    exact ⟨rfl, rfl⟩
  startChunk := by
    rintro s _ n ⟨rb, rfl⟩
    exact ⟨rb, rfl⟩
  oneRepeat _ _ h := h.oneRepeat
  withRep := by
    rintro s _ r ⟨rb, rfl⟩
    exact ⟨rb, rfl⟩
  stepPos _ _ h := (h.atPos .step).toEmit
  nrepsPos _ _ h := (h.atPos .nreps).toEmit
  groupEnd _ _ h := h.groupEnd

/-- The stream is read alike in both. -/
theorem readTwins_discards : ReadTwins Discards DiscardsToEmit where
  same := by
    rintro s _ ⟨rb, rfl⟩
    exact ⟨rfl, rfl, rfl, rfl, rfl, rfl, rfl⟩
  cursor := by
    rintro s _ ⟨rb, rfl⟩ p c r
    exact ⟨rb, rfl⟩
  raised := by
    rintro s _ ⟨rb, rfl⟩
    exact Discards.toEmit ⟨rb, rfl⟩

/-- A code word does the same in both, whatever its table and value. -/
theorem Discards.execUnlisted {s u : State} (h : Discards s u) (k : Nat) (v : Byte) :
    Follows DiscardsToEmit (execUnlisted k v s) (execUnlisted k v u) := by
  obtain ⟨hcol, hkeep⟩ := h.kept
  refine twins_discards.execUnlisted (fun _ => ?control) (fun _ => h) (fun _ => ⟨h, h.stepAdded⟩)
    (fun _ _ r => resToken_follows r hcol hkeep (h.token _ _)) (fun _ => litToken_follows v hcol hkeep (h.token _ _))
  case control =>
    obtain ⟨rb, rfl⟩ := h
    exact ⟨⟨rb, rfl⟩, fun c => Discards.toEmit ⟨rb, rfl⟩, Discards.toEmit ⟨rb, rfl⟩⟩

/-- At a control code or token the next item is a code word of some table. -/
theorem exists_slotAt_code {s : State} (hp : s.pos ∈ [Pos.ctrl, .lit, .res, .nreps, .step]) :
    ∃ k, slotAt s = some (.code k) := by
  unfold slotAt
  simp only [List.mem_cons, List.not_mem_nil, or_false] at hp
  rcases hp with hp | hp | hp | hp | hp <;> rw [hp] <;> exact ⟨_, rfl⟩

/-- The engine's turn at a code word is to read it and run it. -/
theorem engineStep_code {s : State} (hb : s.status.busy = true) {k : Nat} (hk : slotAt s = some (.code k)) :
    engineStep s = runStream (.code k) s := by
  unfold engineStep
  rw [if_pos hb, hk]

/-- Settles O31: both machines read the same code word and run it alike. -/
theorem discardPassConsumesTheSameBits : Obligations.DiscardPassConsumesTheSameBits := by
  intro s t hb hp ht
  obtain ⟨k, hk⟩ := exists_slotAt_code hp
  have hd : Discards s { s with keep := false } := ⟨s.rbuf, rfl⟩
  rw [engineStep_code hb hk] at ht
  obtain ⟨u, hu, rb, p, rfl, hpos⟩ := readTwins_discards.runCode hd (fun _ _ he => he)
    (fun v _ _ h => h.execUnlisted k v) t ht
  rw [engineStep_code (s := { s with keep := false }) hb hk]
  exact ⟨_, hu, rfl, rfl, rfl, rfl, rfl, rfl, rfl, rfl, rfl, rfl, hpos⟩

end Sys2Proof.Machine
end

section
/-! PROOF. The operations of a row-group that read no bits (43_rowpredictor.md R170, R171, R182, R183; 46_sequencer.md
R222): the sentinel, EMIT's quincunx and CARRY's copy. -/

namespace Sys2Proof.Machine

/-! ## The engine's turn -/

theorem engineStep_rowGroup {s : State} {g : BitVec 2} (hb : s.status.busy = true) (hp : s.pos = .rowGroup g) :
    engineStep s = .next (rowGroupEntry g s) := by
  unfold engineStep slotAt runPrimitive
  rw [if_pos hb, hp]

theorem engineStep_emit {s : State} (hb : s.status.busy = true) (hp : s.pos = .emit) :
    engineStep s = .next (emit s) := by
  unfold engineStep slotAt runPrimitive
  rw [if_pos hb, hp]

theorem engineStep_carry {s : State} (hb : s.status.busy = true) (hp : s.pos = .carry) :
    engineStep s = .next (carry s) := by
  unfold engineStep slotAt runPrimitive
  rw [if_pos hb, hp]

/-! ## The entry of a row-group -/

/-- SEED_SENTINEL writes index W2 of each of the three rows (R171). -/
theorem readCell_seedSentinel {s : State} (h : storeSorted s.rbuf) {r : Nat} (hr : r < 3) :
    readCell (seedSentinel s) r (halfWidth s) = wrap16 ((s.mult.toNat : Int) * 2 ^ s.cfg.sentinelShift) := by
  refine readCell_writeCells_mem h ?_ ?_ (List.mem_map.2 ⟨r, List.mem_range.2 hr, rfl⟩)
  · rw [List.map_map]
    exact List.nodup_range.map fun _ _ he => congrArg Prod.fst he
  · intro p hp
    obtain ⟨_, _, rfl⟩ := List.mem_map.1 hp
    have := halfWidth_lt s
    dsimp only
    omega

/-- SEED_SENTINEL changes no other address. -/
theorem storeRead_seedSentinel_other {s : State} {a : Nat} (h : ∀ r, r < 3 → a ≠ cellAddr r (halfWidth s)) :
    storeRead s.cfg.bufInit (seedSentinel s).rbuf a = storeRead s.cfg.bufInit s.rbuf a := by
  refine storeRead_writeCells_other fun p hp => ?_
  obtain ⟨r, hr, rfl⟩ := List.mem_map.1 hp
  exact h r (List.mem_range.1 hr)

/-- With a column left the entry of a row-group leads to its first control code (R170). -/
theorem rowGroupEntry_ctrl (g : BitVec 2) {s : State} (hw : 0 < halfWidth s) : rowGroupEntry g s =
    { s with
      rg := g, keep := decide (g.toNat < 2), tree := 1, col := BitVec.ofNat 16 (halfWidth s), pos := .ctrl
      rbuf := if g.toNat < 2 then (seedSentinel s).rbuf else s.rbuf } := by
  obtain ⟨rb, heq, rfl⟩ := rowGroupEntry_eq g s
  rw [heq]
  exact groupEnd_more (by rwa [toNat_ofNat_halfWidth s])

/-- Settles O33: the entry's own writes are the sentinels of a kept row-group, and a legal row has a column. -/
theorem rowGroupStartsAndSeedsTheSentinel : Obligations.RowGroupStartsAndSeedsTheSentinel := by
  intro s g hb hp hgeometry hsorted
  obtain ⟨hw, -⟩ := geometry_of_badGeometry hgeometry
  have hpos : 0 < halfWidth s := by
    unfold halfWidth
    omega
  refine ⟨_, (engineStep_rowGroup hb hp).trans (congrArg _ (rowGroupEntry_ctrl g hpos)), rfl,
    toNat_ofNat_halfWidth s, fun hg r hr => ?kept, fun a ha => ?others, fun hg => ?discarded⟩
  case kept =>
    unfold readCell
    dsimp only
    rw [if_pos hg]
    exact readCell_seedSentinel hsorted hr
  case others =>
    dsimp only
    split
    · exact storeRead_seedSentinel_other ha
    · rfl
  case discarded => exact if_neg (by omega)

/-! ## EMIT -/

/-- EMIT's value where the band has a multiplier (R182). -/
theorem emitValue_of_ne_zero {m : BitVec 6} (hm : m ≠ 0) (c : Int) :
    emitValue m c = if c ≤ 0 then 0 else c * 16 / (m.toNat : Int) := by
  unfold emitValue
  rw [if_neg hm]

theorem mem_emitWrites {s : State} {p : (Nat × Nat) × Int} : p ∈ emitWrites s ↔ ∃ y x, y < 2 ∧ x < halfWidth s ∧
    p = ((s.row.toNat + 2 * s.rg.toNat + y, 2 * x + y), emitValue s.mult (cell s (y + 1) x)) := by
  unfold emitWrites
  simp only [List.mem_flatMap, List.mem_range, List.mem_map]
  constructor
  · rintro ⟨y, hy, x, hx, rfl⟩
    exact ⟨y, x, hy, hx, rfl⟩
  · rintro ⟨y, x, hy, hx, rfl⟩
    exact ⟨y, hy, x, hx, rfl⟩

/-- The quincunx positions are different ones (R182). -/
theorem nodup_emitWrites (s : State) : ((emitWrites s).map (·.1)).Nodup := by
  unfold emitWrites
  rw [List.map_flatMap]
  simp only [List.map_map]
  refine nodup_grid (fun y x => (s.row.toNat + 2 * s.rg.toNat + y, 2 * x + y)) 2 _ fun y x y' x' h => ?_
  obtain ⟨hy, hx⟩ := Prod.mk.inj h
  omega

/-- A quincunx position is in its row: the sentinel is not emitted (R182). -/
theorem emit_column_lt {s : State} {y x : Nat} (hy : y < 2) (hx : x < halfWidth s) : 2 * x + y < s.w.toNat := by
  unfold halfWidth at hx
  omega

/-- Settles O34: EMIT's writes are to different positions of their rows. -/
theorem emitWritesTheQuincunx : Obligations.EmitWritesTheQuincunx := by
  intro s hb hp hm hsorted
  refine ⟨_, (engineStep_emit hb hp).trans (congrArg _ (emit_eq s)), fun y x hy hx => ?written, fun a ha => ?others, rfl⟩
  case written =>
    have hbound : ∀ p ∈ emitWrites s, p.1.2 < s.w.toNat := fun p hp => by
      obtain ⟨y, x, hy, hx, rfl⟩ := mem_emitWrites.1 hp
      exact emit_column_lt hy hx
    rw [← emitValue_of_ne_zero hm]
    exact readPlane_writePlane_mem hsorted (nodup_emitWrites s) hbound (mem_emitWrites.2 ⟨y, x, hy, hx, rfl⟩)
  case others =>
    refine storeRead_writePlane_other fun p hp => ?_
    obtain ⟨y, x, hy, hx, rfl⟩ := mem_emitWrites.1 hp
    exact ha y x hy hx

/-! ## CARRY -/

/-- CARRY copies each cell of row 2 that its shift leaves in the row (R183). -/
theorem readCell_carryRow {s : State} (h : storeSorted s.rbuf) {i : Nat} (hi : i + s.cfg.carryShift ≤ halfWidth s) :
    readCell (carryRow s) 0 (i + s.cfg.carryShift) = readCell s 2 i := by
  refine (readCell_writeCells_mem h ?_ ?_ (List.mem_map.2 ⟨i, List.mem_range.2 (by omega), rfl⟩)).trans ?_
  · rw [List.map_map]
    exact List.nodup_range.map fun _ _ he => Nat.add_right_cancel (congrArg Prod.snd he)
  · intro p hp
    obtain ⟨j, hj, rfl⟩ := List.mem_map.1 hp
    have := List.mem_range.1 hj
    have := halfWidth_lt s
    dsimp only
    omega
  · exact BitVec.ofInt_toInt

/-- CARRY changes no other address. -/
theorem storeRead_carryRow_other {s : State} {a : Nat}
    (h : ∀ i, i + s.cfg.carryShift ≤ halfWidth s → a ≠ cellAddr 0 (i + s.cfg.carryShift)) :
    storeRead s.cfg.bufInit (carryRow s).rbuf a = storeRead s.cfg.bufInit s.rbuf a := by
  refine storeRead_writeCells_other fun p hp => ?_
  obtain ⟨i, hi, rfl⟩ := List.mem_map.1 hp
  have := List.mem_range.1 hi
  exact h i (by omega)

/-- Settles O35: CARRY is its copy, and then the next position. -/
theorem carryCopiesRowTwo : Obligations.CarryCopiesRowTwo := by
  intro s hb hp _ hsorted
  exact ⟨_, (engineStep_carry hb hp).trans (congrArg _ (carry_eq_atPos s)), fun i hi => readCell_carryRow hsorted hi,
    fun a ha => storeRead_carryRow_other ha, rfl⟩

end Sys2Proof.Machine
end

section
/-! PROOF. Inside a row-group the only fault is Truncated (43_rowpredictor.md R186, 60_exceptions.md R231): nothing but
the reading of the stream raises, and it raises at the end of SRC. -/

namespace Sys2Proof.Machine

/-- A run without fault, or Truncated at the end of the SRC of `o` (60_exceptions.md R231, R238). -/
def AtMostTruncated (o t : State) : Prop :=
  t.status = statusBusy ∨ t.status = statusFault .truncated ∧ t.faultInfo = o.srcLen ++ (0 : BitVec 4)

/-- REFILL raises with the cursor at the end of SRC, where `ptr` has not passed it (R231). -/
theorem cursorInfo_at_end {u : State} (hrem : u.rem = 0) (hend : u.srcLen.toNat ≤ u.ptr.toNat)
    (hle : u.ptr.toNat ≤ u.srcLen.toNat) : cursorInfo u = u.srcLen ++ (0 : BitVec 4) := by
  have hptr : u.ptr = u.srcLen := BitVec.eq_of_toNat_eq (Nat.le_antisymm hle hend)
  unfold cursorInfo
  rw [hptr, hrem]

/-- Reading in a run raises Truncated at the end of SRC, with any property that does not look at the cursor. -/
theorem readerKeeps_atMostTruncated (o : State) {F : State → Prop}
    (hF : ∀ s p c r, F s → F { s with ptr := p, cur := c, rem := r }) :
    ReaderKeeps (fun u => Running o u ∧ F u) (AtMostTruncated o) where
  refill := (readerKeeps_running o hF).refill
  take := (readerKeeps_running o hF).take
  raised u h hrem hend := by
    obtain ⟨-, hlen, hle, -⟩ := h.1.ahead
    refine .inr ⟨rfl, ?_⟩
    rw [← hlen]
    exact cursorInfo_at_end hrem hend hle

/-- A row-group of a run without fault. -/
structure Unfaulted (u : State) : Prop where
  group : rowGroupLegal u
  status : u.status = statusBusy

theorem Unfaulted.oneRepeat {u : State} (h : Unfaulted u) (hc : 0 < u.col.toNat) : Unfaulted (oneRepeat u) :=
  ⟨(rowGroupLegal_oneRepeat h.group hc).1, (oneRepeat_status u).trans h.status⟩

/-- A run group takes no fault. -/
theorem runKeeps_unfaulted (o : State) : RunKeeps Unfaulted Unfaulted (AtMostTruncated o) where
  weaken _ h := h
  room _ h hc _ := room_of_rowGroupLegal h.group hc
  startChunk _ _ _ _ h := ⟨h.group, h.status⟩
  odd _ h _ _ hc _ := .inl (h.oneRepeat hc).status
  even _ h _ _ hc _ := ⟨(h.oneRepeat hc).group, (h.oneRepeat hc).status⟩
  nrepsPos _ h _ := .inl h.status
  groupEnd s h := .inl ((groupEnd_status s).trans h.status)

/-- A code word at its position takes no fault, whatever its value (30_encoding.md R104). -/
theorem Unfaulted.execUnlisted {u : State} (h : Unfaulted u) (o : State) {k : Nat} (ht : TableLegal k u) (v : Byte) :
    Leads (AtMostTruncated o) (execUnlisted k v u) := by
  have room (h10 : 10 ≤ k) : u.keep = true → u.col.toNat + 1 < halfWidth u := by
    have := ht.room h10
    omega
  have token (x : Int) : AtMostTruncated o (tokenDone (if u.keep then writeGroupCell u u.tok x else u)) := by
    refine .inl ((tokenDone_status _).trans ?_)
    split
    · exact h.status
    · exact h.status
  exact (runKeeps_unfaulted o).leads
    (fun _ => ⟨⟨rowGroupLegal_withTree h.group (Nat.zero_le 8), h.status⟩, fun _ _ _ => .inl h.status, .inl h.status⟩)
    (fun _ => h)
    (fun h10 => ⟨room h10.ge, fun a => ⟨rowGroupLegal_stepAdded h.group a, (stepAdded_status a u).trans h.status⟩⟩)
    (fun h10 _ _ => .resToken (room h10.le) (token _))
    (fun h17 => .litToken (room (by omega)) (token _))

/-- An operation of a row-group that reads no bits takes no fault. -/
theorem rowGroupEntry_status (g : BitVec 2) (s : State) : (rowGroupEntry g s).status = s.status := by
  obtain ⟨rb, heq, -⟩ := rowGroupEntry_eq g s
  rw [heq, groupEnd_status]

/-- The places of a row-group (46_sequencer.md R222). -/
def Pos.inRowGroup (p : Pos) : Prop :=
  (∃ g, p = .rowGroup g) ∨ p ∈ [Pos.ctrl, .lit, .res, .nreps, .step, .emit, .carry]

/-- At a place of a row-group the engine reads a code word or runs an operation without bits. -/
theorem engineStep_inRowGroup {s : State} (hb : s.status.busy = true) (hp : Pos.inRowGroup s.pos) :
    (∃ k, slotAt s = some (.code k) ∧ engineStep s = runStream (.code k) s) ∨
      ∃ t, engineStep s = .next t ∧ t.status = s.status := by
  rcases hp with ⟨g, hp⟩ | hp
  · exact .inr ⟨_, engineStep_rowGroup hb hp, rowGroupEntry_status g s⟩
  by_cases hread : s.pos ∈ [Pos.ctrl, .lit, .res, .nreps, .step]
  · obtain ⟨k, hk⟩ := exists_slotAt_code hread
    exact .inl ⟨k, hk, engineStep_code hb hk⟩
  · have hp : s.pos = .emit ∨ s.pos = .carry := by
      simp only [List.mem_cons, List.not_mem_nil, or_false, not_or] at hp hread
      tauto
    rcases hp with hp | hp
    · exact .inr ⟨_, engineStep_emit hb hp, by rw [emit_eq]⟩
    · exact .inr ⟨_, engineStep_carry hb hp, by rw [carry_eq_atPos]; rfl⟩

/-- A turn of the engine at a place of a row-group takes no fault but Truncated. -/
theorem Inv.atMostTruncated {s : State} (h : Inv s) (hb : s.status.busy = true) (hp : Pos.inRowGroup s.pos) :
    Leads (AtMostTruncated s) (Machine.engineStep s) := by
  have hbusy := h.status_busy hb
  rcases engineStep_inRowGroup hb hp with ⟨k, hk, hstep⟩ | ⟨t, hstep, hstatus⟩
  · have hinit : s.pos ≠ .init := by
      intro e
      rcases slotAt_eq_code hk with ⟨e', -⟩ | ⟨e', -⟩ | ⟨e', -⟩ | ⟨e', -⟩ | ⟨e', -⟩ <;> cases e.symm.trans e'
    have htable := tableLegal_of_slotAt (h.run hb).position hk
    rw [hstep]
    exact (readerKeeps_atMostTruncated s (F := TableLegal k) fun _ _ _ _ ht =>
        ⟨ht.group, ht.control, ht.nreps, ht.step, ht.room⟩).runCode ⟨h.running hb hinit, htable⟩ (fun _ ht => ht)
      fun v _ ⟨hrun, ht⟩ => Unfaulted.execUnlisted ⟨ht.group, hrun.busy⟩ s ht v
  · rw [hstep]
    exact .next (.inl (hstatus.trans hbusy))

/-- Settles O48: a run without fault has FAULT clear, so the fault is Truncated. -/
theorem onlyTruncatedInsideARowGroup : Obligations.OnlyTruncatedInsideARowGroup := by
  intro s t h hb hp ht hfault
  rcases h.atMostTruncated hb hp t ht with hbusy | ⟨hstatus, hinfo⟩
  · rw [hbusy] at hfault
    cases hfault
  · exact ⟨hstatus, hinfo⟩

end Sys2Proof.Machine
end

section
/-! PROOF. The tone curve (44_tonecurve.md R201 to R203): CURVE_BUILD's segments agree where they meet, so the curve
between two breakpoints is their segment; TONE maps the whole plane through it. -/

namespace Sys2Proof.Machine

/-! ## One segment (R201), as an integer before it is cut to a word -/

/-- The interpolation of `segmentValue` at `c`, before `trunc16`. -/
def segmentHeight (p q : Nat × Nat) (c : Nat) : Int :=
  p.2 + (2 * ((c : Int) - p.1) * ((q.2 : Int) - p.2) + ((q.1 : Int) - p.1)) / (2 * ((q.1 : Int) - p.1))

theorem segmentValue_eq (p q : Nat × Nat) (c : Nat) : segmentValue p q c = trunc16 (segmentHeight p q c) := rfl

/-- The rounding term alone is half the divisor, which the floor drops. -/
theorem segment_rounding_eq_zero {p q : Nat × Nat} (h : p.1 < q.1) :
    ((q.1 : Int) - p.1) / (2 * ((q.1 : Int) - p.1)) = 0 :=
  Int.ediv_eq_zero_of_lt (by omega) (by omega)

/-- At its first breakpoint the quotient is that of half the divisor, 0 (R202). -/
theorem segmentHeight_left {p q : Nat × Nat} (h : p.1 < q.1) : segmentHeight p q p.1 = p.2 := by
  simp [segmentHeight, segment_rounding_eq_zero h]

/-- At its second breakpoint the quotient is `y1 - y0` (R202). -/
theorem segmentHeight_right {p q : Nat × Nat} (h : p.1 < q.1) : segmentHeight p q q.1 = q.2 := by
  unfold segmentHeight
  rw [Int.add_comm (2 * _ * _), Int.add_mul_ediv_left _ _ (by omega), segment_rounding_eq_zero h]
  omega

/-- A segment with `y` non-decreasing does not decrease: its numerator does not (R202). -/
theorem segmentHeight_mono {p q : Nat × Nat} (hx : p.1 < q.1) (hy : p.2 ≤ q.2) : Monotone (segmentHeight p q) := by
  intro a b hab
  have hstep : 2 * ((a : Int) - p.1) * ((q.2 : Int) - p.2) ≤ 2 * ((b : Int) - p.1) * ((q.2 : Int) - p.2) :=
    Int.mul_le_mul_of_nonneg_right (by omega) (by omega)
  exact Int.add_le_add_left (Int.ediv_le_ediv (by omega) (Int.add_le_add_right hstep _)) _

/-- Non-decreasing, a segment stays between the `y` of its breakpoints. -/
theorem segmentHeight_mem {p q : Nat × Nat} {c : Nat} (hx : p.1 < q.1) (hy : p.2 ≤ q.2) (hpc : p.1 ≤ c)
    (hcq : c ≤ q.1) :
    (p.2 : Int) ≤ segmentHeight p q c ∧ segmentHeight p q c ≤ q.2 :=
  ⟨segmentHeight_left hx ▸ segmentHeight_mono hx hy hpc, segmentHeight_right hx ▸ segmentHeight_mono hx hy hcq⟩

/-- A value of 16 bits is not changed by `trunc16`. -/
theorem toNat_trunc16 {v : Int} (h0 : 0 ≤ v) (h : v < 65536) : ((trunc16 v).toNat : Int) = v := by
  unfold trunc16
  rw [BitVec.toNat_ofInt, Int.toNat_of_nonneg (Int.emod_nonneg _ (by decide))]
  exact Int.emod_eq_of_lt h0 h

/-! ## The segments together (R201) -/

theorem xIncreasing_cons_cons {p q : Nat × Nat} {rest : List (Nat × Nat)} :
    xIncreasing (p :: q :: rest) = true ↔ p.1 < q.1 ∧ xIncreasing (q :: rest) = true := by
  simp [xIncreasing]

/-- What a later segment writes stays. -/
theorem builtCurve_cons_of_some (p : Nat × Nat) {q : Nat × Nat} {rest : List (Nat × Nat)} {c : Nat} {v : Half}
    (h : builtCurve (q :: rest) c = some v) : builtCurve (p :: q :: rest) c = some v := by
  simp [builtCurve, h]

/-- Where no later segment writes, the first one does between its breakpoints. -/
theorem builtCurve_cons_of_none (p : Nat × Nat) {q : Nat × Nat} {rest : List (Nat × Nat)} {c : Nat}
    (h : builtCurve (q :: rest) c = none) :
    builtCurve (p :: q :: rest) c = if p.1 ≤ c ∧ c ≤ q.1 then some (segmentValue p q c) else none := by
  simp [builtCurve, h]

/-- No segment writes below the first breakpoint. -/
theorem builtCurve_eq_none_of_lt {p : Nat × Nat} {rest : List (Nat × Nat)} {c : Nat}
    (hx : xIncreasing (p :: rest) = true) (h : c < p.1) : builtCurve (p :: rest) c = none := by
  induction rest generalizing p with
  | nil => rfl
  | cons q rest ih =>
    obtain ⟨hpq, hrest⟩ := xIncreasing_cons_cons.1 hx
    rw [builtCurve_cons_of_none p (ih hrest (by omega)), if_neg (by omega)]

/-- The first breakpoint is written by the first segment alone. -/
theorem builtCurve_head {p q : Nat × Nat} {rest : List (Nat × Nat)} (hx : xIncreasing (p :: q :: rest) = true) :
    builtCurve (p :: q :: rest) p.1 = some (trunc16 p.2) := by
  obtain ⟨hpq, hrest⟩ := xIncreasing_cons_cons.1 hx
  rw [builtCurve_cons_of_none p (builtCurve_eq_none_of_lt hrest hpq), if_pos ⟨Nat.le_refl _, Nat.le_of_lt hpq⟩,
    segmentValue_eq, segmentHeight_left hpq]

/-- The curve between the first two breakpoints, both included, is the first segment: where the second one is written
again it gets the same value. -/
theorem builtCurve_first_segment {p q : Nat × Nat} {rest : List (Nat × Nat)} {c : Nat}
    (hx : xIncreasing (p :: q :: rest) = true) (hpc : p.1 ≤ c) (hcq : c ≤ q.1) :
    builtCurve (p :: q :: rest) c = some (segmentValue p q c) := by
  obtain ⟨hpq, hrest⟩ := xIncreasing_cons_cons.1 hx
  rcases Nat.lt_or_eq_of_le hcq with hlt | rfl
  · rw [builtCurve_cons_of_none p (builtCurve_eq_none_of_lt hrest hlt), if_pos ⟨hpc, hcq⟩]
  cases rest with
  | nil => rw [builtCurve_cons_of_none p rfl, if_pos ⟨hpc, hcq⟩]
  | cons r rest => rw [builtCurve_cons_of_some p (builtCurve_head hrest), segmentValue_eq, segmentHeight_right hpq]

/-- Two consecutive breakpoints are in the order of `x`. -/
theorem lt_of_xIncreasing {bp : List (Nat × Nat)} {k : Nat} {p q : Nat × Nat} (hx : xIncreasing bp = true)
    (hp : bp[k]? = some p) (hq : bp[k + 1]? = some q) : p.1 < q.1 := by
  induction k generalizing bp with
  | zero =>
    match bp, hp, hq with
    | _ :: _ :: rest, rfl, rfl => exact (xIncreasing_cons_cons.1 hx).1
  | succ k ih =>
    match bp, hp, hq with
    | _ :: _ :: rest, hp, hq => exact ih (xIncreasing_cons_cons.1 hx).2 hp hq

/-- The curve between two consecutive breakpoints, both included, is their segment. -/
theorem builtCurve_segment {bp : List (Nat × Nat)} {k : Nat} {p q : Nat × Nat} {c : Nat} (hx : xIncreasing bp = true)
    (hp : bp[k]? = some p) (hq : bp[k + 1]? = some q) (hpc : p.1 ≤ c) (hcq : c ≤ q.1) :
    builtCurve bp c = some (segmentValue p q c) := by
  induction k generalizing bp with
  | zero =>
    match bp, hp, hq with
    | _ :: _ :: rest, rfl, rfl => exact builtCurve_first_segment hx hpc hcq
  | succ k ih =>
    match bp, hp, hq with
    | p' :: _ :: rest, hp, hq => exact builtCurve_cons_of_some p' (ih (xIncreasing_cons_cons.1 hx).2 hp hq)

/-- Six breakpoints in the order of `x`, with `y` of 16 bits (00_scope.md R8 (d)). -/
theorem breakpoints_of_admitted {bp : List (Nat × Nat)} (h : breakpointsAdmitted bp = true) :
    bp.length = 6 ∧ xIncreasing bp = true ∧ ∀ p ∈ bp, p.2 < 65536 := by
  simp only [breakpointsAdmitted, Bool.and_eq_true, beq_iff_eq, List.all_eq_true, decide_eq_true_eq] at h
  obtain ⟨⟨⟨⟨hlength, hx⟩, -⟩, -⟩, hy⟩ := h
  exact ⟨hlength, hx, hy⟩

theorem curveDefault_segment {c : Config} {k : Nat} {p q : Nat × Nat} {v : Nat}
    (hx : xIncreasing c.toneBreakpoints = true) (hp : c.toneBreakpoints[k]? = some p)
    (hq : c.toneBreakpoints[k + 1]? = some q) (hpv : p.1 ≤ v) (hvq : v ≤ q.1) :
    curveDefault c v = trunc16 (segmentHeight p q v) := by
  unfold curveDefault
  rw [builtCurve_segment hx hp hq hpv hvq]
  rfl

/-- Each breakpoint is the first of its segment, or the second of the last one. -/
theorem curveDefault_breakpoint {c : Config} {k : Nat} {p : Nat × Nat} (hx : xIncreasing c.toneBreakpoints = true)
    (hlength : 2 ≤ c.toneBreakpoints.length) (hp : c.toneBreakpoints[k]? = some p) :
    curveDefault c p.1 = trunc16 p.2 := by
  obtain ⟨hk, -⟩ := List.getElem?_eq_some_iff.1 hp
  by_cases hnext : k + 1 < c.toneBreakpoints.length
  · have hq := List.getElem?_eq_getElem hnext
    have hlt := lt_of_xIncreasing hx hp hq
    rw [curveDefault_segment hx hp hq (Nat.le_refl _) (Nat.le_of_lt hlt), segmentHeight_left hlt]
  · obtain ⟨j, rfl⟩ : ∃ j, k = j + 1 := ⟨k - 1, by omega⟩
    have hprev := List.getElem?_eq_getElem (Nat.lt_of_succ_lt hk)
    have hlt := lt_of_xIncreasing hx hprev hp
    rw [curveDefault_segment hx hprev hp (Nat.le_of_lt hlt) (Nat.le_refl _), segmentHeight_right hlt]

/-- Settles O39: between two breakpoints the curve is their segment, which `trunc16` does not change as it stays between
their `y`. -/
theorem curveMeetsItsBreakpoints : Obligations.CurveMeetsItsBreakpoints := by
  intro c hadmitted
  obtain ⟨hlength, hx, hy⟩ := breakpoints_of_admitted hadmitted
  refine ⟨fun p hp => ?anchor, fun k _ p q hp hq hpq a b hpa hab hbq => ?monotone⟩
  case anchor =>
    obtain ⟨k, hk⟩ := List.mem_iff_getElem?.1 hp
    have hword := hy p hp
    rw [curveDefault_breakpoint hx (by omega) hk]
    exact Int.ofNat_inj.1 (toNat_trunc16 (by omega) (by omega))
  case monotone =>
    have hlt := lt_of_xIncreasing hx hp hq
    have hword : ∀ v, p.1 ≤ v → v ≤ q.1 → ((curveDefault c v).toNat : Int) = segmentHeight p q v := by
      intro v hpv hvq
      obtain ⟨hlow, hhigh⟩ := segmentHeight_mem hlt hpq hpv hvq
      have := hy q (List.mem_of_getElem? hq)
      rw [curveDefault_segment hx hp hq hpv hvq]
      exact toNat_trunc16 (by omega) (by omega)
    have hmono := segmentHeight_mono hlt hpq hab
    rw [← hword a hpa (hab.trans hbq), ← hword b (hpa.trans hab) hbq] at hmono
    exact Int.ofNat_le.1 hmono

/-! ## TONE (R203) -/

theorem engineStep_tone {s : State} (hb : s.status.busy = true) (hp : s.pos = .tone) :
    engineStep s = .next (tone s) := by
  unfold engineStep slotAt runPrimitive
  rw [if_pos hb, hp]

/-- The row of a pixel's address. -/
theorem pixelAddr_div {s : State} {y x : Nat} (hx : x < s.w.toNat) : pixelAddr s y x / s.w.toNat = y := by
  unfold pixelAddr
  rw [Nat.mul_comm, Nat.mul_add_div (by omega), Nat.div_eq_of_lt hx, Nat.add_zero]

/-- The column of a pixel's address. -/
theorem pixelAddr_mod {s : State} {y x : Nat} (hx : x < s.w.toNat) : pixelAddr s y x % s.w.toNat = x := by
  unfold pixelAddr
  rw [Nat.mul_add_mod_self_right, Nat.mod_eq_of_lt hx]

/-- A sample is clamped to its byte. -/
theorem toNat_toneSample (s : State) (v : Half) : (toneSample s v).toNat = min ((readCurve s v).toNat / 16) 255 := by
  unfold toneSample
  rw [BitVec.toNat_ofNat, Nat.shiftRight_eq_div_pow]
  omega

/-- TONE fills every position of the image with the sample of its plane word. -/
theorem readT8_tone {s : State} {y x : Nat} (hy : y < s.h.toNat) (hx : x < s.w.toNat) :
    readT8 (tone s) y x = toneSample s (readPlane s y x) := by
  refine (storeRead_storeFill _ _ _ (pixelAddr s y x)).trans ?_
  rw [if_pos (pixelAddr_lt hy hx), pixelAddr_div hx, pixelAddr_mod hx]

/-- Settles O38: TONE fills T8 alone. -/
theorem toneMapsThePlane : Obligations.ToneMapsThePlane := by
  intro s hb hp
  refine ⟨tone s, engineStep_tone hb hp, fun y x hy hx => ?_, tone_eq s⟩
  rw [readT8_tone hy hx, toNat_toneSample]

end Sys2Proof.Machine
end

section
/-! PROOF. The end of a band and of a run (45_demosaic.md R211 to R216; 46_sequencer.md R222, R223): CHECKER's correction
of the odd-parity words, and DEMOSAIC's bytes as the host reads them. -/

namespace Sys2Proof.Machine

/-! ## CHECKER (R211) -/

theorem engineStep_checker {s : State} (hb : s.status.busy = true) (hp : s.pos = .checker) :
    engineStep s = .next (checker s) := by
  unfold engineStep slotAt runPrimitive
  rw [if_pos hb, hp]

/-- CHECKER changes PLANE, `row` and the position alone (R211, 46_sequencer.md R222). -/
theorem checker_frame (s : State) : checker s =
    { s with plane := (checkerRows s).plane, row := (checker s).row, pos := (checker s).pos } := by
  rw [checker_eq]
  split <;> rfl

/-- The plane after CHECKER is that of its writes. -/
theorem readPlane_checker (s : State) : readPlane (checker s) = readPlane (checkerRows s) := by
  rw [checker_frame]
  rfl

/-- The positions are a part of the grid of the band's four rows (R211). -/
theorem nodup_checkerPositions (s : State) : (checkerPositions s).Nodup := by
  have hgrid := nodup_grid (fun dy x => (s.row.toNat + dy, x)) 4 s.w.toNat fun dy x dy' x' h => by
    obtain ⟨hy, hx⟩ := Prod.mk.inj h
    exact ⟨Nat.add_left_cancel hy, hx⟩
  exact hgrid.sublist (List.Sublist.flatMap_right _ fun _ _ => List.filter_sublist.map _)

/-- A rewritten position is in its row (R211). -/
theorem checkerPositions_column_lt {s : State} {p : Nat × Nat} (hp : p ∈ checkerPositions s) : p.2 < s.w.toNat := by
  obtain ⟨-, -, hx, -⟩ := mem_checkerPositions.1 hp
  exact hx

/-- CHECKER writes its value, computed before the step, to each of its positions (R211). -/
theorem readPlane_checkerRows {s : State} (h : storeSorted s.plane) {y x : Nat} (hp : (y, x) ∈ checkerPositions s) :
    readPlane (checkerRows s) y x = trunc16 (checkerValue s y x) := by
  refine readPlane_writePlane_mem h ?nodup ?columns (List.mem_map.2 ⟨(y, x), hp, rfl⟩)
  case nodup =>
    rw [List.map_map]
    exact (List.map_id _).symm ▸ nodup_checkerPositions s
  case columns =>
    intro w hw
    obtain ⟨p, hp, rfl⟩ := List.mem_map.1 hw
    exact checkerPositions_column_lt hp

/-- CHECKER changes no other address (R211). -/
theorem storeRead_checkerRows_other {s : State} {a : Nat} (h : ∀ p ∈ checkerPositions s, a ≠ pixelAddr s p.1 p.2) :
    storeRead s.cfg.planeInit (checkerRows s).plane a = storeRead s.cfg.planeInit s.plane a := by
  refine storeRead_writePlane_other fun w hw => ?_
  obtain ⟨p, hp, rfl⟩ := List.mem_map.1 hw
  exact h p hp

/-- R211's formula by the two edges: column 0 takes its right neighbour twice, the last one its left neighbour. -/
theorem checkerValue_mirrored {s : State} {y x : Nat} (hx : x < s.w.toNat) : checkerValue s y x =
    let l := if x = 0 then 1 else x - 1
    let r := if x + 1 = s.w.toNat then x - 1 else x + 1
    let v : Int := ((readPlane s y x).toNat - 2048) * 2 + ((readPlane s y l).toNat + (readPlane s y r).toNat) / 2
    if v < 0 then 0 else v := by
  have hleft : (if 0 < x then x - 1 else x + 1) = if x = 0 then 1 else x - 1 := by
    split <;> split <;> omega
  have hright : (if x + 1 < s.w.toNat then x + 1 else x - 1) = if x + 1 = s.w.toNat then x - 1 else x + 1 := by
    split <;> split <;> omega
  unfold checkerValue
  rw [hleft, hright]

/-- Settles O36: CHECKER's writes are to different positions of their rows, with the values of the plane before them. -/
theorem checkerRewritesTheOddParityWords : Obligations.CheckerRewritesTheOddParityWords := by
  intro s hb hp _ hsorted
  have hplane : (checker s).plane = (checkerRows s).plane := by rw [checker_frame]
  refine ⟨checker s, engineStep_checker hb hp, fun y x hrow hband hx hodd => ?written, fun a ha => ?others,
    fun hmore => ?nextBand, fun hlast => ?lastBand⟩
  case written =>
    rw [readPlane_checker, readPlane_checkerRows hsorted (mem_checkerPositions.2 ⟨hrow, hband, hx, hodd⟩),
      checkerValue_mirrored hx]
    rfl
  case others =>
    rw [hplane]
    refine storeRead_checkerRows_other fun p hp => ?_
    obtain ⟨hrow, hband, hx, hodd⟩ := mem_checkerPositions.1 hp
    exact ha p.1 p.2 hrow hband hx hodd
  case nextBand => rw [hplane, checker_eq, if_pos hmore]
  case lastBand => rw [hplane, checker_eq, if_neg (by omega)]

/-- At the baseline the first term of the formula is 0, and the average is not clamped (R211, second formula). -/
theorem checkerValue_baseline {s : State} {y x : Nat} (h : readPlane s y x = 2048) (h0 : 0 < x)
    (hx : x + 1 < s.w.toNat) : checkerValue s y x =
      (((readPlane s y (x - 1)).toNat + (readPlane s y (x + 1)).toNat) / 2 : Nat) := by
  have hword : (readPlane s y x).toNat = 2048 := congrArg BitVec.toNat h
  unfold checkerValue
  rw [if_pos h0, if_pos hx, hword]
  dsimp only
  split <;> omega

/-- Settles O37: the average of two words is a word, which `trunc16` keeps. -/
theorem checkerAveragesAtTheBaseline : Obligations.CheckerAveragesAtTheBaseline := by
  intro s y x hbase h0 hx
  have haverage := checkerValue_baseline hbase h0 hx
  have hl := (readPlane s y (x - 1)).isLt
  have hr := (readPlane s y (x + 1)).isLt
  refine ⟨haverage, ?_⟩
  rw [haverage]
  exact Int.ofNat_inj.1 (toNat_trunc16 (by omega) (by omega))

/-! ## DEMOSAIC (R213 to R216) -/

theorem engineStep_demosaic {s : State} (hb : s.status.busy = true) (hp : s.pos = .demosaic) :
    engineStep s = .next (demosaic s) := by
  unfold engineStep slotAt runPrimitive
  rw [if_pos hb, hp]

/-- DEMOSAIC fills OUT with the bytes of the configuration's function (R213, R216). -/
theorem readOut_demosaic {s : State} {a : Nat} (ha : a < s.w.toNat * s.h.toNat) :
    readOut (demosaic s) a = (demosaicOf s.cfg.demosaic (demosaicArgs s))[a]?.getD 0 :=
  (storeRead_storeFill _ _ _ a).trans (if_pos (by rwa [Nat.mul_comm]))

/-- After DEMOSAIC, with DONE set, the host reads the W * H bytes and no more (R216, 20_memory.md R72). -/
theorem hostReadOut_demosaic (s : State) (a : Nat) : hostReadOut (demosaic s) a =
    if a < s.w.toNat * s.h.toNat then some ((demosaicOf s.cfg.demosaic (demosaicArgs s))[a]?.getD 0) else none := by
  split
  next ha =>
    rw [← readOut_demosaic ha]
    exact if_pos (decide_eq_true ha)
  next ha => exact if_neg fun hread => ha (of_decide_eq_true hread)

/-- A sample of T8 stands at its pixel's row-major place. -/
theorem getElem?_t8Samples {s : State} {y x : Nat} (hy : y < s.h.toNat) (hx : x < s.w.toNat) :
    (t8Samples s)[pixelAddr s y x]? = some (readT8 s y x) := by
  unfold t8Samples
  rw [List.getElem?_map, List.getElem?_range (pixelAddr_lt hy hx), Option.map_some, pixelAddr_div hx, pixelAddr_mod hx]

/-- 00_scope.md R8 (e), of an admitted configuration. -/
theorem demosaicAdmitted_of_admitted {c : Config} (h : c.admitted = true) : demosaicAdmitted c.demosaic = true :=
  (Bool.and_eq_true_iff.1 h).2

/-- An admitted configuration's DEMOSAIC gives a run W * H bytes (R213). -/
theorem length_demosaicOf_run {s : State} (h : s.cfg.admitted = true) :
    (demosaicOf s.cfg.demosaic (demosaicArgs s)).length = s.w.toNat * s.h.toNat :=
  length_demosaicOf (a := demosaicArgs s) (demosaicAdmitted_of_admitted h)
    ((length_t8Samples s).trans (Nat.mul_comm _ _))

/-- Settles O40: OUT is filled with the function's bytes, of which there is one for each address the host may read. -/
theorem demosaicEndsTheRun : Obligations.DemosaicEndsTheRun := by
  intro s hb hp
  refine ⟨demosaic s, engineStep_demosaic hb hp, demosaic_eq s, fun hidentity y x hy hx => ?identity,
    fun hadmitted => ⟨length_demosaicOf_run hadmitted, fun a ha => ?bytes⟩, fun a ha => ?beyond⟩
  case identity =>
    have hlt : pixelAddr s y x < s.w.toNat * s.h.toNat := Nat.mul_comm _ _ ▸ pixelAddr_lt hy hx
    have hsample : (demosaicArgs s).t8[pixelAddr s y x]? = some (readT8 s y x) := getElem?_t8Samples hy hx
    refine (hostReadOut_demosaic s (pixelAddr s y x)).trans ?_
    rw [if_pos hlt, hidentity, demosaicOf_nil, hsample, Option.getD_some]
  case bytes =>
    have hlt : a < (demosaicOf s.cfg.demosaic (demosaicArgs s)).length := length_demosaicOf_run hadmitted ▸ ha
    rw [hostReadOut_demosaic, if_pos ha, List.getElem?_eq_getElem hlt, Option.getD_some]
    exact (List.getElem?_eq_getElem hlt).symm
  case beyond => rw [hostReadOut_demosaic, if_neg (by omega)]

end Sys2Proof.Machine
end

section
/-! PROOF. START and INIT (46_sequencer.md R220, R221, R224; 60_exceptions.md R232, R233, R237): what a write of
CTRL.START does by STATUS and the geometry, and what INIT gives the run. -/

namespace Sys2Proof.Machine

/-! ## START -/

/-- The geometry test of START (R220). -/
theorem badGeometry_eq_true_iff {w h : BitVec 16} :
    badGeometry w h = true ↔ w = 0 ∨ h = 0 ∨ w.toNat % 4 ≠ 0 ∨ h.toNat % 4 ≠ 0 := by
  simp [badGeometry, or_assoc]

/-- The capacity test of START (R220). -/
theorem overCapacity_eq_true_iff {c : Config} {w h : BitVec 16} :
    overCapacity c w h = true ↔ c.wMax < w.toNat ∨ c.hMax < h.toNat := by
  simp [overCapacity]

/-- A write of 0, and any write while BUSY, has no effect (R224). -/
theorem hostStart_ignored {b : Bool} {s : State} (h : b = false ∨ s.status.busy = true) : hostStart b s = .next s :=
  if_pos h

/-- A write of 1 when not BUSY is START accepted, where the configuration is admitted (R220). -/
theorem hostStart_accepted {s : State} (hb : s.status.busy = false) (ha : s.cfg.admitted = true) :
    hostStart true s = .next (acceptStart s) := by
  unfold hostStart
  rw [if_neg (by simp [hb]), if_pos ha]

/-- A step with a write of CTRL.START pending is that write. -/
theorem step_writeCtrl {s : State} {b : Bool} {rest : List HostMove} (hm : s.hostMoves = .writeCtrl b :: rest) :
    step s = hostStart b { s with hostMoves := rest } :=
  step_hostMove hm nofun

/-- START with both tests passed (R220). -/
theorem acceptStart_passed {s : State} (hg : badGeometry s.width s.height = false)
    (hc : overCapacity s.cfg s.width s.height = false) : acceptStart s = atPos .init (latched s) := by
  rw [acceptStart_eq, if_neg (by simp [hg]), if_neg (by simp [hc])]

/-- Settles O41: START by the outcomes of its two tests in order. -/
theorem startTestsGeometryThenCapacity : Obligations.StartTestsGeometryThenCapacity := by
  intro s rest hm hb ha bad big
  have hbad : badGeometry s.width s.height = true ↔ bad := badGeometry_eq_true_iff
  have hbig : overCapacity s.cfg s.width s.height = true ↔ big := overCapacity_eq_true_iff
  refine ⟨_, (step_writeCtrl hm).trans (hostStart_accepted hb ha), fun h => ?badGeometry, fun h h' => ?overCapacity,
    fun h h' => ?passed⟩
  all_goals rw [acceptStart_eq]; dsimp only
  case badGeometry =>
    rw [if_pos (hbad.2 h)]
    rfl
  case overCapacity =>
    rw [if_neg (mt hbad.1 h), if_pos (hbig.2 h')]
    rfl
  case passed =>
    rw [if_neg (mt hbad.1 h), if_neg (mt hbig.1 h')]
    rfl

/-- Settles O42: a dropped write leaves the state, and START accepted writes STATUS and the position. -/
theorem startWhileBusyIsIgnored : Obligations.StartWhileBusyIsIgnored := by
  intro s b rest hm
  rw [step_writeCtrl hm]
  refine ⟨fun h => hostStart_ignored h, fun hb hidle _ ha hg hc => ?_⟩
  subst hb
  refine ⟨_, hostStart_accepted hidle ha, ?_⟩
  rw [acceptStart_passed (s := { s with hostMoves := rest }) hg hc]
  exact ⟨rfl, rfl⟩

/-! ## INIT -/

theorem engineStep_init {s : State} (hb : s.status.busy = true) (hp : s.pos = .init) : engineStep s = runInit s := by
  unfold engineStep slotAt runPrimitive
  rw [if_pos hb, hp]

/-- INIT sets the cursor to the start of SRC before its RESET (R221). -/
theorem cursorInfo_initStores (s : State) : cursorInfo (initStores s) = 0 :=
  (by decide : (0 : BitVec 32) ++ (0 : BitVec 4) = 0)

/-- Settles O43: with SRC[0] fetched the run is primed, and every store INIT fills lists nothing. -/
theorem initPrimesTheRun : Obligations.InitPrimesTheRun := by
  intro s hb hp
  rw [engineStep_init hb hp, runInit_eq]
  refine ⟨fun b hlen hbyte => ?primed, fun hlen => ?truncated⟩
  case primed =>
    have hread : readSrc s 0 = some b := hbyte
    rw [if_neg hlen.ne', hread]
    exact ⟨primed b s, rfl, rfl, fun k i _ => readHuff_of_nil rfl k i, fun v => readCurve_of_nil rfl v,
      fun _ _ => rfl, fun _ _ => rfl⟩
  case truncated =>
    rw [if_pos (by rw [hlen]; rfl)]
    have hinfo : (raise .truncated (initStores s)).faultInfo = 0 := cursorInfo_initStores s
    refine ⟨raise .truncated (initStores s), rfl, rfl, hinfo, rfl, ?_, ?_, ?_⟩
    · rw [raise_src, initStores_eq]
    · rw [raise_t8, initStores_eq]
    · rw [raise_out, initStores_eq]

end Sys2Proof.Machine
end

section
/-! PROOF. No step's control depends on the image data (43_rowpredictor.md R184, 46_sequencer.md R229): two states that
differ in the contents of RBUF, PLANE, T8 and OUT only take the same step, and differ in these only after it. -/

namespace Sys2Proof.Machine

/-- The state without the contents of RBUF, PLANE, T8 and OUT. -/
def imageless (s : State) : State :=
  { s with rbuf := [], plane := [], t8 := [], out := [] }

/-- Two states that differ in the contents of RBUF, PLANE, T8 and OUT only. -/
def SameControl (s t : State) : Prop :=
  imageless s = imageless t

variable {s t : State}

/-- What does not read the image stores is the same of both. -/
theorem SameControl.same {α : Type} (h : SameControl s t) (f : State → α)
    (hf : ∀ u, f u = f (imageless u) := by intro u; rfl) : f s = f t :=
  eq_of_kept h f hf

/-- The one state is the other with its own image stores. -/
theorem SameControl.eq (h : SameControl s t) :
    t = { s with rbuf := t.rbuf, plane := t.plane, t8 := t.t8, out := t.out } :=
  congrArg (fun u : State => { u with rbuf := t.rbuf, plane := t.plane, t8 := t.t8, out := t.out }) h.symm

/-! ## The cells of a group -/

theorem imageless_oneRepeat (s : State) : imageless (oneRepeat s) = { imageless s with col := s.col - 2 } := by
  rw [oneRepeat_eq, oneRepeat_col]
  rfl

theorem imageless_stepAdded (v : Int) (s : State) :
    imageless (stepAdded v s) = { imageless s with step := BitVec.ofInt 12 (v * 16) } := by
  rw [stepAdded_eq, stepAdded_step]
  rfl

theorem imageless_groupEnd (s : State) : imageless (groupEnd s) = atPos (posAfterGroup s) (imageless s) := by
  rw [groupEnd_eq_atPos]
  rfl

theorem SameControl.oneRepeat (h : SameControl s t) : SameControl (oneRepeat s) (oneRepeat t) := by
  unfold SameControl
  rw [imageless_oneRepeat, imageless_oneRepeat, h, h.same State.col]

theorem SameControl.stepAdded (h : SameControl s t) (v : Int) : SameControl (stepAdded v s) (stepAdded v t) := by
  unfold SameControl
  rw [imageless_stepAdded, imageless_stepAdded, h]

theorem SameControl.groupEnd (h : SameControl s t) : SameControl (groupEnd s) (groupEnd t) := by
  unfold SameControl
  rw [imageless_groupEnd, imageless_groupEnd, h, h.same posAfterGroup]

theorem SameControl.tokenDone (h : SameControl s t) : SameControl (tokenDone s) (tokenDone t) := by
  unfold Machine.tokenDone
  rw [h.same State.tok]
  split
  · exact h.groupEnd
  · exact h.same (fun u => imageless { u with tok := t.tok + 1 })

/-- The cell a token writes, whatever its value, and the end of the token. -/
theorem SameControl.token (h : SameControl s t) (v v' : Int) :
    SameControl (Machine.tokenDone (if s.keep then writeGroupCell s s.tok v else s))
      (Machine.tokenDone (if t.keep then writeGroupCell t t.tok v' else t)) := by
  have written (u : State) (x : Int) : imageless (if u.keep then writeGroupCell u u.tok x else u) = imageless u := by
    split <;> rfl
  exact SameControl.tokenDone ((written s v).trans (h.trans (written t v').symm))

/-- A group is kept, and has its cells in the row, in both. -/
theorem SameControl.kept (h : SameControl s t) :
    t.col = s.col ∧ (t.keep = true → s.keep = true ∧ halfWidth t = halfWidth s) :=
  ⟨(h.same State.col).symm, fun hk => ⟨(h.same State.keep).trans hk, (h.same halfWidth).symm⟩⟩

/-! ## The items of the stream -/

/-- A run group makes the same repeats in both. -/
theorem twins_sameControl : Twins SameControl SameControl SameControl where
  weaken _ _ h := h
  col _ _ h := h.kept.1
  keep _ _ h := h.kept.2
  counters _ _ h := ⟨(h.same State.nreps).symm, (h.same State.rep).symm⟩
  startChunk _ _ n h := h.same (fun u => imageless (startChunk n u))
  oneRepeat _ _ h := h.oneRepeat
  withRep _ _ r h := h.same (fun u => imageless (withRep r u))
  stepPos _ _ h := h.same (fun u => imageless (atPos .step u))
  nrepsPos _ _ h := h.same (fun u => imageless (atPos .nreps u))
  groupEnd _ _ h := h.groupEnd

/-- The same bits are read in both. -/
theorem readTwins_sameControl : ReadTwins SameControl SameControl where
  same _ _ h := ⟨(h.same State.ptr).symm, (h.same State.cur).symm, (h.same State.rem).symm, (h.same State.srcLen).symm,
    (h.same State.src).symm, (h.same State.huff).symm, (h.same State.cfg).symm⟩
  cursor _ _ h p c r := h.same (fun u => imageless { u with ptr := p, cur := c, rem := r })
  raised _ _ h := h.same (fun u => imageless (raise .truncated u))

/-- A code word does the same in both, whatever its table and value. -/
theorem SameControl.execUnlisted (h : SameControl s t) (k : Nat) (v : Byte) :
    Follows SameControl (execUnlisted k v s) (execUnlisted k v t) := by
  obtain ⟨hcol, hkeep⟩ := h.kept
  refine twins_sameControl.execUnlisted (fun _ => ⟨?tree, fun c => ?pred, ?lit⟩) (fun _ => h)
    (fun _ => ⟨h, h.stepAdded⟩) (fun _ _ r => resToken_follows r hcol hkeep (h.token _ _))
    (fun _ => litToken_follows v hcol hkeep (h.token _ _))
  case tree => exact h.same (fun u => imageless { u with tree := 0 })
  case pred => exact h.same (fun u => imageless (beginPred c u))
  case lit => exact h.same (fun u => imageless (beginLit u))

/-- BANDHDR (42_scaletracker.md R160) decays the cells, and takes its test and its registers from elsewhere. -/
theorem SameControl.bandHeader (h : SameControl s t) (m : BitVec 6) :
    Follows SameControl (bandHeader m s) (bandHeader m t) := by
  unfold Machine.bandHeader
  split
  · exact .next (h.same (fun u => imageless (raise .zeroMultiplier { u with mult := m })))
  · rw [h.same (fun u => scaleEntry u.cfg u.prevM)]
    generalize scaleEntry t.cfg t.prevM * m.toNat = v
    refine .next ?_
    rw [decay_eq v s, decay_eq v t]
    exact h.same (fun u => imageless { u with mult := m, val := scaleRegister v, prevM := m, pos := .rowGroup 0 })

/-! ## The sequence's own operations -/

theorem SameControl.rowGroupEntry (h : SameControl s t) (g : BitVec 2) :
    SameControl (rowGroupEntry g s) (rowGroupEntry g t) := by
  obtain ⟨rb, hs, -⟩ := rowGroupEntry_eq g s
  obtain ⟨rb', ht, -⟩ := rowGroupEntry_eq g t
  rw [hs, ht]
  refine SameControl.groupEnd ?_
  exact h.same (fun u => imageless { u with
    rg := g, keep := decide (g.toNat < 2), tree := 1, col := BitVec.ofNat 16 (halfWidth u) })

theorem SameControl.carry (h : SameControl s t) : SameControl (carry s) (carry t) := by
  rw [carry_eq_atPos, carry_eq_atPos]
  exact h.same (fun u => imageless (atPos (if u.rg = 3 then .checker else .rowGroup (u.rg + 1)) u))

theorem SameControl.checker (h : SameControl s t) : SameControl (checker s) (checker t) := by
  have hrows : s.row.toNat + 4 < s.h.toNat ↔ t.row.toNat + 4 < t.h.toNat :=
    iff_of_eq (h.same fun u => u.row.toNat + 4 < u.h.toNat)
  rw [checker_eq, checker_eq]
  split
  next hmore =>
    rw [if_pos (hrows.1 hmore)]
    exact h.same (fun u => imageless { u with row := u.row + 4, pos := .bandHdr })
  next hlast =>
    rw [if_neg (mt hrows.2 hlast)]
    exact h.same (fun u => imageless (atPos .tone u))

theorem SameControl.runInit (h : SameControl s t) : Follows SameControl (runInit s) (runInit t) := by
  rw [runInit_eq, runInit_eq, h.same State.srcLen, h.same (fun u => readSrc u 0)]
  split
  · exact .next (h.same (fun u => imageless (raise .truncated (initStores u))))
  · split
    · exact .fault _
    · exact .next (h.same (fun u => imageless (primed _ u)))

/-- An operation that reads no bits writes image stores from image stores, and moves on by the registers. -/
theorem SameControl.runPrimitive (h : SameControl s t) : Follows SameControl (runPrimitive s) (runPrimitive t) := by
  unfold Machine.runPrimitive
  rw [h.same State.pos]
  cases t.pos with
  | init => exact h.runInit
  | rowGroup g => exact .next (h.rowGroupEntry g)
  | emit =>
    rw [emit_eq, emit_eq]
    exact .next (h.same (fun u => imageless (atPos .carry u)))
  | carry => exact .next h.carry
  | checker => exact .next h.checker
  | tone => exact .next (h.same (fun u => imageless (atPos .demosaic u)))
  | demosaic =>
    rw [demosaic_eq, demosaic_eq]
    exact .next (h.same (fun u => imageless { u with status := statusDone, pos := .halted }))
  | _ => exact .next h

/-! ## One turn -/

theorem SameControl.engineStep (h : SameControl s t) : Follows SameControl (engineStep s) (engineStep t) := by
  unfold Machine.engineStep
  rw [h.same State.status, h.same slotAt]
  split
  · split
    next sl _ =>
      cases sl with
      | header =>
        exact readTwins_sameControl.runHeader readTwins_sameControl (fun _ _ he => he) (fun _ _ he => he)
          (fun _ _ m hu => hu.same (fun u => imageless { u with mult := m })) (fun m _ _ hu => hu.bandHeader m) h
      | code k => exact readTwins_sameControl.runCode h (fun _ _ he => he) fun v _ _ hu => hu.execUnlisted k v
    next => exact h.runPrimitive
  · exact .next h

/-- A host register write, dropped or taken, in both. -/
theorem SameControl.hostRegister (h : SameControl s t) {write : State → State}
    (hw : ∀ u, imageless (write u) = imageless (write (imageless u))) :
    SameControl (hostRegister s write) (hostRegister t write) := by
  unfold Machine.hostRegister
  rw [h.same State.status]
  split
  · exact h
  · exact h.same (fun u => imageless (write u)) hw

theorem SameControl.acceptStart (h : SameControl s t) : SameControl (acceptStart s) (acceptStart t) := by
  rw [acceptStart_eq, acceptStart_eq, h.same State.width, h.same State.height, h.same State.cfg]
  split
  · exact h.same (fun u => imageless (raise .invalidGeometry (latched u)))
  split
  · exact h.same (fun u => imageless (raise .outOfMemory (latched u)))
  · exact h.same (fun u => imageless (atPos .init (latched u)))

/-- A host move does the same in both. -/
theorem SameControl.hostMove (h : SameControl s t) (m : HostMove) :
    Follows SameControl (hostMove m s) (hostMove m t) := by
  cases m with
  | engineTurn => exact .next h
  | writeWidth v => exact .next (h.hostRegister fun _ => rfl)
  | writeHeight v => exact .next (h.hostRegister fun _ => rfl)
  | writeSrcLen v => exact .next (h.hostRegister fun _ => rfl)
  | writeCfaTile v => exact .next (h.hostRegister fun _ => rfl)
  | hardwareReset => exact .next (h.same (fun u => imageless (hardwareReset u)))
  | writeSrc a b =>
    show Follows SameControl (hostWriteSrc a b s) (hostWriteSrc a b t)
    cases hb : s.status.busy with
    | true =>
      rw [hostWriteSrc_busy a b hb]
      exact .refused _
    | false =>
      rw [hostWriteSrc_idle a b hb, hostWriteSrc_idle a b (h.same State.status ▸ hb)]
      exact .next (h.same (fun u => imageless { u with src := storeSet u.src a.toNat b }))
  | writeCtrl start =>
    show Follows SameControl (hostStart start s) (hostStart start t)
    unfold hostStart
    rw [h.same State.status, h.same State.cfg]
    split
    · exact .next h
    split
    · exact .next h.acceptStart
    · exact .refused _

theorem SameControl.step (h : SameControl s t) : Follows SameControl (step s) (step t) := by
  have withMoves (rest : List HostMove) : SameControl { s with hostMoves := rest } { t with hostMoves := rest } :=
    h.same (fun u => imageless { u with hostMoves := rest })
  unfold Machine.step turn
  rw [h.same State.hostMoves]
  split
  · exact h.engineStep
  next rest _ => exact (withMoves rest).engineStep
  next m rest _ _ => exact (withMoves rest).hostMove m

/-- Settles O32: a step of the state with other image stores is the same step but for what these stores hold. -/
theorem controlDoesNotDependOnImageData : Obligations.ControlDoesNotDependOnImageData := by
  intro s t rb pl t8 out hstep
  have h : SameControl s { s with rbuf := rb, plane := pl, t8 := t8, out := out } := rfl
  obtain ⟨u, hu, htu⟩ := h.step t hstep
  exact ⟨u, hu, htu.eq⟩

end Sys2Proof.Machine
end

section
/-! PROOF. Every run ends (46_sequencer.md R225, 43_rowpredictor.md R185): a bound of the turns that come before the last
one, which the geometry and the position give, falls with every turn that does not end the run. -/

namespace Sys2Proof.Machine

/-! ## The bound -/

/-- The turns of a row-group at most: its entry, five for each two columns (a control code and four tokens), EMIT and
CARRY. -/
def rowGroupTurns (s : State) : Nat :=
  3 + 5 * (halfWidth s / 2)

/-- The turns of a band at most. -/
def bandTurns (s : State) : Nat :=
  14 + 10 * halfWidth s

/-- The turns between the band and the last turn of the run at most: those of the bands after it, and TONE. -/
def turnsAfterBand (s : State) : Nat :=
  1 + (s.h.toNat - (s.row.toNat + 4)) / 4 * bandTurns s

/-- The turns between row-group `g` and the last turn at most: those of the band's other row-groups and CHECKER, and
those after the band. -/
def turnsAfterRowGroup (g : BitVec 2) (s : State) : Nat :=
  (3 - g.toNat) * rowGroupTurns s + 1 + turnsAfterBand s

/-- The turns between the column cursor and the last turn at most, EMIT and CARRY of the row-group left out. -/
def turnsInRow (s : State) : Nat :=
  5 * (s.col.toNat / 2) + turnsAfterRowGroup s.rg s

/-- The turns at position `p` that come before the last turn of the run (DEMOSAIC, or the turn that faults) at most. -/
def turnsBeforeLast (p : Pos) (s : State) : Nat :=
  match p with
  | .halted | .demosaic => 0
  | .init => 2 + s.h.toNat / 4 * bandTurns s
  | .bandHdr => bandTurns s + turnsAfterBand s
  | .rowGroup g => rowGroupTurns s + turnsAfterRowGroup g s
  | .ctrl | .emit => turnsInRow s + 2
  | .lit | .res => turnsInRow s + 2 + (4 - s.tok.toNat)
  | .nreps | .carry => turnsInRow s + 1
  | .step => turnsInRow s + 4
  | .checker => 1 + turnsAfterBand s
  | .tone => 1

/-- A run that ended, in DONE or in FAULT. -/
def Ended (t : State) : Prop :=
  t.status = statusDone ∨ ∃ f, t.status = statusFault f

/-- The state a turn leaves: nearer to the end than `n` turns before the last one, or ended. -/
def Nearer (n : Nat) (t : State) : Prop :=
  t.status = statusBusy ∧ turnsBeforeLast t.pos t < n ∨ Ended t

variable {n : Nat} {o s u : State}

theorem Ended.nearer (h : Ended u) : Nearer n u := .inr h

theorem ended_raise (f : RunFault) (s : State) : Ended (raise f s) := by
  refine .inr ⟨f, ?_⟩
  cases f <;> rfl

/-! ## How the bound falls -/

theorem turnsAfterRowGroup_next {g : BitVec 2} (hg : g ≠ 3) (s : State) :
    turnsAfterRowGroup g s = rowGroupTurns s + turnsAfterRowGroup (g + 1) s := by
  have hnext : ∀ g : BitVec 2, g ≠ 3 → 3 - g.toNat = 3 - (g + 1).toNat + 1 := by decide
  unfold turnsAfterRowGroup
  rw [hnext g hg, Nat.add_mul]
  omega

/-- Where the row-group is over, what is left are the turns after it (46_sequencer.md R222). -/
theorem turnsBeforeLast_afterRowGroup (s : State) :
    turnsBeforeLast (if s.rg = 3 then .checker else .rowGroup (s.rg + 1)) s ≤ turnsAfterRowGroup s.rg s := by
  split
  next hr =>
    rw [hr]
    show 1 + turnsAfterBand s ≤ (3 - 3) * rowGroupTurns s + 1 + turnsAfterBand s
    rw [Nat.sub_self, Nat.zero_mul, Nat.zero_add]
  next hr => exact (turnsAfterRowGroup_next hr s).ge

/-- The end of a group leaves the columns not yet reached, EMIT and CARRY (43_rowpredictor.md R170). -/
theorem turnsBeforeLast_groupEnd (s : State) : turnsBeforeLast (groupEnd s).pos (groupEnd s) ≤ turnsInRow s + 2 := by
  rw [groupEnd_eq_atPos]
  show turnsBeforeLast (posAfterGroup s) s ≤ turnsInRow s + 2
  unfold posAfterGroup
  split
  · exact le_refl _
  split
  · exact le_refl _
  · have hle := turnsBeforeLast_afterRowGroup s
    unfold turnsInRow
    omega

/-- Two columns less are five turns less. -/
theorem turnsInRow_lowered {s u : State} (hc : 2 ≤ s.col.toNat) (hcol : u.col = s.col - 2)
    (hafter : turnsAfterRowGroup u.rg u = turnsAfterRowGroup s.rg s) : turnsInRow u + 5 = turnsInRow s := by
  have hsub := toNat_col_sub_two hc
  unfold turnsInRow
  rw [hcol, hafter]
  omega

theorem turnsInRow_oneRepeat {s : State} (hc : 2 ≤ s.col.toNat) : turnsInRow (oneRepeat s) + 5 = turnsInRow s := by
  refine turnsInRow_lowered hc (oneRepeat_col s) ?_
  rw [oneRepeat_eq]
  rfl

theorem turnsInRow_stepAdded (v : Int) (s : State) : turnsInRow (stepAdded v s) = turnsInRow s := by
  rw [stepAdded_eq]
  rfl

/-- The column cursor of a row-group with columns left is at least 2 (10_state.md R23). -/
theorem two_le_col (hg : rowGroupLegal u) (hc : 0 < u.col.toNat) : 2 ≤ u.col.toNat := by
  obtain ⟨-, -, -, heven, -⟩ := hg
  omega

/-! ## The run groups -/

/-- A run group with a repeat made: nearer to the end by the columns it has taken. -/
structure RepeatMade (n : Nat) (u : State) : Prop where
  group : rowGroupLegal u
  busy : u.status = statusBusy
  turns : turnsInRow u + 2 < n

/-- Once a repeat is made, whatever a run group does next is nearer to the end. -/
theorem runKeeps_repeatMade (n : Nat) : RunKeeps (RepeatMade n) (RepeatMade n) (Nearer n) where
  weaken _ h := h
  room _ h hc _ := room_of_rowGroupLegal h.group hc
  startChunk _ _ _ _ h := ⟨h.group, h.busy, h.turns⟩
  odd s h _ _ hc _ := by
    have hfall := turnsInRow_oneRepeat (two_le_col h.group hc)
    have hturns := h.turns
    refine .inl ⟨(oneRepeat_status s).trans h.busy, ?_⟩
    show turnsInRow (oneRepeat s) + 4 < n
    omega
  even s h _ _ hc _ := by
    have hfall := turnsInRow_oneRepeat (two_le_col h.group hc)
    have hturns := h.turns
    refine ⟨(rowGroupLegal_oneRepeat h.group hc).1, (oneRepeat_status s).trans h.busy, ?_⟩
    show turnsInRow (oneRepeat s) + 2 < n
    omega
  nrepsPos s h _ := by
    have hturns := h.turns
    refine .inl ⟨h.busy, ?_⟩
    show turnsInRow s + 1 < n
    omega
  groupEnd s h := .inl ⟨(groupEnd_status s).trans h.busy, (turnsBeforeLast_groupEnd s).trans_lt h.turns⟩

/-- The first repeat of a chunk is made, and the chunk goes on. -/
theorem firstRepeat_nearer {done : State → Result} (hdone : ∀ t, RepeatMade n t → Ends (Nearer n) (done t))
    (hg : rowGroupLegal u) (hb : u.status = statusBusy) (hrep : u.rep = 0) (hnreps : 1 ≤ u.nreps.toNat)
    (hc : 0 < u.col.toNat) (hn : turnsInRow u ≤ n) : Ends (Nearer n) (repeatLoop done 8 u) := by
  have hrep0 : u.rep.toNat = 0 := by rw [hrep]; rfl
  have hfall := turnsInRow_oneRepeat (two_le_col hg hc)
  rw [repeatLoop_even 7 (by omega) (by omega) hc (by omega) fun _ => room_of_rowGroupLegal hg hc]
  refine (runKeeps_repeatMade n).repeatLoop hdone 7 _
    ⟨(rowGroupLegal_oneRepeat hg hc).1, (oneRepeat_status u).trans hb, ?_⟩
  show turnsInRow (oneRepeat u) + 2 < n
  omega

/-- The control code of a run group brings a repeat-count token, or makes the sole repeat of column 2
(43_rowpredictor.md R179, R180 (a)). -/
theorem beginRun_nearer (hg : rowGroupLegal u) (hb : u.status = statusBusy) (hc : 0 < u.col.toNat) :
    Ends (Nearer (turnsInRow u + 2)) (beginRun u) := by
  by_cases h2 : 2 < u.col.toNat
  · rw [beginRun_token h2]
    exact .next (.inl ⟨hb, Nat.lt_succ_self _⟩)
  · rw [beginRun_sole (by omega)]
    have hlast (t : State) (ht : RepeatMade (turnsInRow u + 2) t) := (runKeeps_repeatMade _).groupEnd t ht
    exact firstRepeat_nearer (u := startChunk 1 { u with tree := 0 }) (fun t ht => .next (hlast t ht))
      (rowGroupLegal_withTree hg (Nat.zero_le 8)) hb rfl (le_refl 1) hc (Nat.le_add_right _ 2)

/-- A repeat-count token makes repeat 0 at least (43_rowpredictor.md R179). -/
theorem nrepsToken_nearer (hg : rowGroupLegal u) (hb : u.status = statusBusy) (hc : 0 < u.col.toNat) {c : BitVec 4}
    (h1 : 1 ≤ c.toNat) : Ends (Nearer (turnsInRow u + 1)) (nrepsToken c u) :=
  firstRepeat_nearer (u := startChunk c u) (fun _ ht => (runKeeps_repeatMade _).chunkEnd ht) hg hb rfl h1 hc
    (Nat.le_succ _)

/-- A step token leaves more turns than the rest of its group (43_rowpredictor.md R179). -/
theorem stepToken_nearer (hg : rowGroupLegal u) (hb : u.status = statusBusy) (hroom : u.col.toNat + 1 < halfWidth u)
    (v : Int) : Ends (Nearer (turnsInRow u + 4)) (stepToken v u) := by
  refine (runKeeps_repeatMade _).stepToken (fun _ => hroom)
    ⟨rowGroupLegal_stepAdded hg v, (stepAdded_status v u).trans hb, ?_⟩
  show turnsInRow (stepAdded v u) + 2 < turnsInRow u + 4
  rw [turnsInRow_stepAdded]
  omega

/-! ## The tokens of literal and predicted groups -/

theorem turnsBeforeLast_token {p : Pos} (hp : p = .lit ∨ p = .res) (s : State) :
    turnsBeforeLast p s = turnsInRow s + 2 + (4 - s.tok.toNat) := by
  rcases hp with rfl | rfl <;> rfl

/-- A token of a literal or predicted group brings the next one, or the end of the group after the fourth
(43_rowpredictor.md R177, R178). -/
theorem tokenDone_nearer (hb : u.status = statusBusy) (hp : u.pos = .lit ∨ u.pos = .res) :
    Nearer (turnsInRow u + 2 + (4 - u.tok.toNat)) (tokenDone u) := by
  refine .inl ⟨(tokenDone_status u).trans hb, ?_⟩
  by_cases h3 : u.tok = 3
  · have hend := turnsBeforeLast_groupEnd u
    rw [tokenDone_last h3, h3]
    show _ < turnsInRow u + 2 + 1
    omega
  · have hnext : ∀ k : BitVec 2, k ≠ 3 → 4 - (k + 1).toNat < 4 - k.toNat := by decide
    have hfall : turnsInRow u + 2 + (4 - (u.tok + 1).toNat) < turnsInRow u + 2 + (4 - u.tok.toNat) :=
      Nat.add_lt_add_left (hnext u.tok h3) _
    rw [tokenDone_more h3]
    exact (turnsBeforeLast_token hp _).trans_lt hfall

theorem token_nearer (hb : u.status = statusBusy) (hp : u.pos = .lit ∨ u.pos = .res) (v : Int) :
    Nearer (turnsInRow u + 2 + (4 - u.tok.toNat)) (tokenDone (if u.keep then writeGroupCell u u.tok v else u)) := by
  split
  · exact tokenDone_nearer (u := writeGroupCell u u.tok v) hb hp
  · exact tokenDone_nearer hb hp

/-! ## The items of the stream -/

/-- Every control code takes two columns or brings a repeat-count token (43_rowpredictor.md R173). -/
theorem execUnlisted_control_nearer (hg : rowGroupLegal u) (hb : u.status = statusBusy) (hc : 0 < u.col.toNat) {k : Nat}
    (hk : k ≤ 8) (v : Byte) : Leads (Nearer (turnsInRow u + 2)) (execUnlisted k v u) := by
  have h2 := two_le_col hg hc
  unfold execUnlisted
  rw [if_pos hk]
  split
  · exact (beginRun_nearer hg hb hc).leads
  split
  · have hfall : turnsInRow (beginPred (v.setWidth 4) u) + 5 = turnsInRow u := turnsInRow_lowered h2 rfl rfl
    refine .next (.inl ⟨hb, ?_⟩)
    show turnsInRow (beginPred (v.setWidth 4) u) + 2 + 4 < turnsInRow u + 2
    omega
  split
  · have hfall : turnsInRow (beginLit u) + 5 = turnsInRow u := turnsInRow_lowered h2 rfl rfl
    refine .next (.inl ⟨hb, ?_⟩)
    show turnsInRow (beginLit u) + 2 + 4 < turnsInRow u + 2
    omega
  · exact .refused _

theorem execUnlisted_nreps_nearer (hg : rowGroupLegal u) (hb : u.status = statusBusy) (hc : 0 < u.col.toNat)
    (v : Byte) : Leads (Nearer (turnsInRow u + 1)) (execUnlisted 9 v u) := by
  by_cases hv : v.toNat ≤ 8
  · have hcount : ∀ v : Byte, v.toNat ≤ 8 → 1 ≤ (repeatCount v).toNat := by decide +kernel
    rw [execUnlisted_nreps hv]
    exact (nrepsToken_nearer hg hb hc (hcount v hv)).leads
  · rw [execUnlisted_illegal (le_refl 9) (Nat.lt_of_not_le hv)]
    exact .refused _

/-- A code word at its position brings the run nearer to its end, whatever its value. -/
theorem execUnlisted_nearer (hb : u.status = statusBusy) (hp : posLegal u) {k : Nat} (hk : slotAt u = some (.code k))
    (v : Byte) : Leads (Nearer (turnsBeforeLast u.pos u)) (execUnlisted k v u) := by
  have ht := tableLegal_of_slotAt hp hk
  have hg := ht.group
  have room (h10 : 10 ≤ k) : u.keep = true → u.col.toNat + 1 < halfWidth u := by
    have := ht.room h10
    omega
  unfold posLegal at hp
  rcases slotAt_eq_code hk with ⟨e, rfl⟩ | ⟨e, rfl⟩ | ⟨e, rfl⟩ | ⟨e, rfl⟩ | ⟨e, rfl⟩ <;> rw [e] at hp ⊢
  · obtain ⟨⟨-, -, h8, -⟩, hc⟩ := hp
    exact execUnlisted_control_nearer hg hb hc h8 v
  · rw [execUnlisted_lit]
    exact (Ends.litToken (room (by decide)) (token_nearer hb (.inl e) _)).leads
  · obtain ⟨-, -, h1, h7⟩ := hp
    rw [execUnlisted_res (by omega) (by omega)]
    exact (Ends.resToken (room (by omega)) (token_nearer hb (.inr e) _)).leads
  · obtain ⟨-, hc, -⟩ := hp
    exact execUnlisted_nreps_nearer hg hb (by omega) v
  · obtain ⟨-, hc, -⟩ := hp
    rw [execUnlisted_step]
    exact (stepToken_nearer hg hb (by omega) _).leads

/-- BANDHDR (42_scaletracker.md R160, R164) brings the first row-group, or its fault. -/
theorem bandHeader_nearer (hb : u.status = statusBusy) (m : BitVec 6) :
    Leads (Nearer (bandTurns u + turnsAfterBand u)) (bandHeader m u) := by
  unfold bandHeader
  split
  · exact .next (ended_raise _ _).nearer
  · dsimp only
    rw [decay_eq]
    refine .next (.inl ⟨hb, ?_⟩)
    show rowGroupTurns u + (3 * rowGroupTurns u + 1 + turnsAfterBand u) < bandTurns u + turnsAfterBand u
    unfold rowGroupTurns bandTurns
    omega

/-! ## The sequence's own operations -/

theorem rowGroupEntry_nearer (hb : u.status = statusBusy) (g : BitVec 2) :
    Nearer (rowGroupTurns u + turnsAfterRowGroup g u) (rowGroupEntry g u) := by
  refine .inl ⟨(rowGroupEntry_status g u).trans hb, ?_⟩
  obtain ⟨rb, heq, -⟩ := rowGroupEntry_eq g u
  rw [heq]
  refine (turnsBeforeLast_groupEnd _).trans_lt ?_
  show 5 * ((BitVec.ofNat 16 (halfWidth u)).toNat / 2) + turnsAfterRowGroup g u + 2 < _
  rw [toNat_ofNat_halfWidth]
  unfold rowGroupTurns
  omega

theorem carry_nearer (hb : u.status = statusBusy) : Nearer (turnsInRow u + 1) (carry u) := by
  rw [carry_eq_atPos]
  refine .inl ⟨hb, (turnsBeforeLast_afterRowGroup u).trans_lt ?_⟩
  unfold turnsInRow
  omega

/-- The rows of the next band are rows of the image, so `row` does not wrap. -/
theorem toNat_nextRow (h : s.row.toNat + 4 < s.h.toNat) : (s.row + 4).toNat = s.row.toNat + 4 := by
  have := s.h.isLt
  rw [BitVec.toNat_add]
  show (s.row.toNat + 4) % 2 ^ 16 = _
  omega

/-- CHECKER ends the band, and the bands left are those after it (46_sequencer.md R222). -/
theorem Running.checker_nearer (h : Running o u) : Nearer (1 + turnsAfterBand u) (Machine.checker u) := by
  obtain ⟨-, hrow, hle⟩ := h.band
  obtain ⟨-, -, -, hh⟩ := geometry_of_badGeometry h.geometry
  rw [checker_eq]
  split
  next hlt =>
    have hbands : (u.h.toNat - (u.row.toNat + 4)) / 4 = (u.h.toNat - (u.row.toNat + 4 + 4)) / 4 + 1 := by omega
    refine .inl ⟨h.busy, ?_⟩
    show bandTurns u + (1 + (u.h.toNat - ((u.row + 4).toNat + 4)) / 4 * bandTurns u) <
      1 + (1 + (u.h.toNat - (u.row.toNat + 4)) / 4 * bandTurns u)
    rw [toNat_nextRow hlt, hbands, Nat.succ_mul]
    omega
  next =>
    refine .inl ⟨h.busy, ?_⟩
    show 1 < 1 + turnsAfterBand u
    unfold turnsAfterBand
    omega

/-! ## One turn -/

/-- Reading in a run ends it or keeps it, with any property that does not look at the cursor. -/
theorem readerKeeps_ended (o : State) (n : Nat) {F : State → Prop}
    (hF : ∀ s p c r, F s → F { s with ptr := p, cur := c, rem := r }) :
    ReaderKeeps (fun u => Running o u ∧ F u) (Nearer n) where
  refill := (readerKeeps_running o hF).refill
  take := (readerKeeps_running o hF).take
  raised u _ _ _ := (ended_raise .truncated u).nearer

/-- An engine turn of a run after INIT brings it nearer to its end. -/
theorem Running.engineStep_nearer (h : Running u u) (hl : posLegal u) (hi : u.pos ≠ .init) :
    Leads (Nearer (turnsBeforeLast u.pos u)) (Machine.engineStep u) := by
  have hb : u.status.busy = true := by rw [h.busy]; rfl
  unfold Machine.engineStep
  rw [if_pos hb]
  cases hslot : slotAt u with
  | some sl =>
    cases sl with
    | header =>
      rw [pos_of_slotAt_header hslot]
      refine (readerKeeps_ended u _ (F := fun s => bandTurns s + turnsAfterBand s = bandTurns u + turnsAfterBand u)
        fun _ _ _ _ h => h).runHeader (fun _ _ hs => ⟨hs.1.registers rfl, hs.2⟩) (fun _ hs => hs)
        (fun m t ⟨ht, heq⟩ => ?_) ⟨h, rfl⟩
      show Leads (Nearer (bandTurns u + turnsAfterBand u)) (Machine.bandHeader m t)
      rw [← heq]
      exact bandHeader_nearer ht.busy m
    | code k =>
      refine (readerKeeps_ended u _ (F := fun s => posLegal s ∧ slotAt s = some (.code k) ∧
        turnsBeforeLast s.pos s = turnsBeforeLast u.pos u) fun _ _ _ _ h => h).runCode ⟨h, hl, hslot, rfl⟩
        (fun _ hs => hs) fun v t ⟨ht, hp, hk, heq⟩ => ?_
      rw [← heq]
      exact execUnlisted_nearer ht.busy hp hk v
  | none =>
    unfold posLegal at hl
    unfold slotAt at hslot
    unfold runPrimitive
    cases e : u.pos with
    | halted => rw [e] at hl; exact hl.elim
    | init => exact absurd e hi
    | rowGroup g => exact .next (rowGroupEntry_nearer h.busy g)
    | emit =>
      rw [emit_eq]
      exact .next (.inl ⟨h.busy, Nat.lt_succ_self _⟩)
    | carry => exact .next (carry_nearer h.busy)
    | checker => exact .next h.checker_nearer
    | tone => exact .next (.inl ⟨h.busy, Nat.zero_lt_one⟩)
    | demosaic => exact .next (.inr (.inl rfl))
    | _ => rw [e] at hslot; cases hslot

/-- INIT brings the first band header or Truncated (46_sequencer.md R221). -/
theorem RunLegal.runInit_nearer (h : RunLegal s) (hb : s.status = statusBusy) :
    Leads (Nearer (turnsBeforeLast .init s)) (runInit s) := by
  obtain ⟨-, -, h4, hh⟩ := geometry_of_badGeometry h.geometry
  rw [runInit_eq]
  split
  · exact .next (ended_raise _ _).nearer
  split
  · exact .fault _
  · refine .next (.inl ⟨hb, ?_⟩)
    show bandTurns s + (1 + (s.h.toNat - 4) / 4 * bandTurns s) < 2 + s.h.toNat / 4 * bandTurns s
    rw [show s.h.toNat / 4 = (s.h.toNat - 4) / 4 + 1 by omega, Nat.succ_mul]
    omega

/-- Every turn of a legal run brings it nearer to its end, with the SRC it had. -/
theorem Inv.engineStep_nearer (h : Inv s) (hb : s.status.busy = true) :
    Leads (fun t => Nearer (turnsBeforeLast s.pos s) t ∧ t.src = s.src ∧ t.srcLen = s.srcLen) (Machine.engineStep s) := by
  intro t ht
  by_cases hi : s.pos = .init
  · rw [engineStep_init hb hi] at ht
    rw [hi]
    refine ⟨(h.run hb).runInit_nearer (h.status_busy hb) t ht, ?_⟩
    rw [runInit_eq] at ht
    split at ht
    · cases ht
      rw [raise_src, raise_srcLen, initStores_eq]
      exact ⟨rfl, rfl⟩
    split at ht
    · cases ht
    · cases ht
      exact ⟨rfl, rfl⟩
  · have hrun := h.running hb hi
    obtain ⟨-, hahead⟩ := hrun.engineStep (h.run hb).position hi t ht
    exact ⟨hrun.engineStep_nearer (h.run hb).position hi t ht, hahead.src, hahead.srcLen⟩

/-! ## The whole run -/

theorem Ended.idle (h : Ended u) : u.status.busy = false ∧ (u.status.done = true ∨ u.status.fault = true) := by
  rcases h with h | ⟨f, h⟩
  · rw [h]
    exact ⟨rfl, .inl rfl⟩
  · rw [h]
    exact ⟨rfl, .inr rfl⟩

theorem engineSteps_succ {t : State} (h : engineStep s = .next t) (n : Nat) :
    engineSteps (n + 1) s = engineSteps n t := by
  show andThen (engineStep s) (engineSteps n) = _
  rw [h]
  rfl

/-- A legal run with fewer than `n` turns before its last one ends within `n` turns. -/
theorem Inv.ends_within : ∀ (n : Nat) {s : State}, Inv s → srcWritten s → s.status.busy = true →
    turnsBeforeLast s.pos s < n → ∃ m t, m ≤ n ∧ engineSteps m s = .next t ∧ Ended t := by
  intro n
  induction n with
  | zero => exact fun _ _ _ hn => absurd hn (Nat.not_lt_zero _)
  | succ n ih =>
    intro s h hw hb hn
    obtain ⟨t, ht⟩ := (h.engineStep_goesOn hw).exists_next
    obtain ⟨hnear, hsrc, hlen⟩ := h.engineStep_nearer hb t ht
    rcases hnear with ⟨hbusy, hlt⟩ | hended
    · have hw' : srcWritten t := by
        unfold srcWritten
        rwa [hsrc, hlen]
      obtain ⟨m, u, hm, hu, hend⟩ := ih (h.engineStep t ht) hw' (by rw [hbusy]; rfl) (by omega)
      exact ⟨m + 1, u, Nat.succ_le_succ hm, (engineSteps_succ ht m).trans hu, hend⟩
    · exact ⟨1, t, Nat.succ_le_succ (Nat.zero_le n), engineSteps_succ ht 0, hended⟩

/-- A band of the run and the bands after it are among the `H / 4` bands (10_state.md R23). -/
theorem band_le (h : s.row.toNat + 4 ≤ s.h.toNat) :
    bandTurns s + turnsAfterBand s ≤ 1 + s.h.toNat / 4 * bandTurns s := by
  have hbands : (s.h.toNat - (s.row.toNat + 4)) / 4 + 1 ≤ s.h.toNat / 4 := by omega
  have hle := Nat.mul_le_mul_right (bandTurns s) hbands
  rw [Nat.succ_mul] at hle
  unfold turnsAfterBand
  omega

/-- The row-groups of a band are shorter than the band. -/
theorem rowGroups_lt_band (g : BitVec 2) (s : State) :
    rowGroupTurns s + turnsAfterRowGroup g s < bandTurns s + turnsAfterBand s := by
  have hle := Nat.mul_le_mul_right (rowGroupTurns s) (Nat.sub_le 3 g.toNat)
  unfold turnsAfterRowGroup
  unfold rowGroupTurns bandTurns at *
  omega

/-- The turns from the column cursor on are among those of the row-group. -/
theorem turnsInRow_le (hc : s.col.toNat ≤ halfWidth s) :
    turnsInRow s + 3 ≤ rowGroupTurns s + turnsAfterRowGroup s.rg s := by
  have := Nat.div_le_div_right (c := 2) hc
  unfold turnsInRow rowGroupTurns
  omega

theorem turnsInRow_le_of_room (hc : s.col.toNat + 2 ≤ halfWidth s) :
    turnsInRow s + 8 ≤ rowGroupTurns s + turnsAfterRowGroup s.rg s := by
  have := Nat.div_le_div_right (c := 2) hc
  unfold turnsInRow rowGroupTurns
  omega

/-- The geometry bounds the turns of a run (46_sequencer.md R225). -/
theorem RunLegal.turnsBeforeLast_lt (h : RunLegal s) :
    turnsBeforeLast s.pos s < 3 + s.h.toNat / 4 * (14 + 10 * halfWidth s) := by
  show _ < 3 + s.h.toNat / 4 * bandTurns s
  by_cases hi : s.pos = .init
  · rw [hi]
    show 2 + s.h.toNat / 4 * bandTurns s < _
    omega
  obtain ⟨-, -, hrow⟩ := h.band hi
  have hband := band_le hrow
  have hgroups (g : BitVec 2) := rowGroups_lt_band g s
  have inRow (hg : rowGroupLegal s) : turnsInRow s + 2 < 3 + s.h.toNat / 4 * bandTurns s := by
    obtain ⟨-, -, -, -, hc⟩ := hg
    have := turnsInRow_le hc
    have := hgroups s.rg
    omega
  have inGroup (hc : s.col.toNat + 2 ≤ halfWidth s) : turnsInRow s + 6 < 3 + s.h.toNat / 4 * bandTurns s := by
    have := turnsInRow_le_of_room hc
    have := hgroups s.rg
    omega
  have hl := h.position
  unfold posLegal at hl
  cases e : s.pos with
  | halted => rw [e] at hl; exact hl.elim
  | init => exact absurd e hi
  | bandHdr => exact hband.trans_lt (Nat.add_lt_add_right (by decide) _)
  | rowGroup g => exact (hgroups g).trans (hband.trans_lt (Nat.add_lt_add_right (by decide) _))
  | ctrl | emit => rw [e] at hl; exact inRow hl.1
  | nreps | carry => rw [e] at hl; exact (Nat.lt_succ_self _).trans (inRow hl.1)
  | lit | res =>
    rw [e] at hl
    exact (Nat.add_le_add_left (Nat.sub_le 4 s.tok.toNat) _).trans_lt (inGroup hl.2.1)
  | step =>
    rw [e] at hl
    exact (Nat.add_lt_add_left (by decide) _).trans (inGroup hl.2.1)
  | checker =>
    show 1 + turnsAfterBand s < _
    unfold bandTurns at hband ⊢
    omega
  | tone =>
    show 1 < _
    omega
  | demosaic =>
    show 0 < _
    omega

/-- Settles O56: a run is within the bound of its end, and every turn brings it nearer. -/
theorem everyRunEnds : Obligations.EveryRunEnds := by
  intro s h hw hb
  obtain ⟨n, t, hn, ht, hended⟩ := h.ends_within _ hw hb (h.run hb).turnsBeforeLast_lt
  exact ⟨n, t, hn, ht, hended.idle⟩

end Sys2Proof.Machine
end

section
/-! PROOF. The end of SRC inside READBITS and inside a band header (40_bitreader.md R130; 60_exceptions.md R231, R237,
R238): the fault is Truncated at the end of SRC, and BANDHDR has not begun. -/

namespace Sys2Proof.Machine

/-! ## READBITS past the end -/

/-- Settles O7: `readBits_raised` with fault entry written out; FAULT_INFO is the cursor at the end of SRC. -/
theorem readBitsPastTheEndIsTruncated : Obligations.ReadBitsPastTheEndIsTruncated :=
  fun _ _ h1 h8 hrem hptr hsrc hshort => readBits_raised h1 h8 hrem hptr hsrc hshort

/-! ## A band header cut short -/

/-- In the reading of the header of `s`, fewer than `n` bits before the end of SRC; RBUF and `prevM` are untouched. -/
structure HeaderBitsLeft (s : State) (n : Nat) (u : State) : Prop extends Readable u where
  short : (unreadBits u).length < n
  srcLen : u.srcLen = s.srcLen
  rbuf : u.rbuf = s.rbuf
  prevM : u.prevM = s.prevM

/-- The state after Truncated in the header of `s` (R231, R237, R238). -/
structure HeaderTruncated (s u : State) : Prop where
  status : u.status = statusFault .truncated
  pos : u.pos = .halted
  info : u.faultInfo = s.srcLen ++ (0 : BitVec 4)
  rbuf : u.rbuf = s.rbuf
  prevM : u.prevM = s.prevM

/-- The reading ends in a fault that is taken, in a state with property `E`. -/
def EndsRaised {α : Type} (E : State → Prop) (r : Read α) : Prop :=
  ∃ u, r = .raised u ∧ E u

variable {s u : State} {n : Nat}

/-- The field `M` is written to its register as soon as it is read (42_scaletracker.md R160). -/
theorem HeaderBitsLeft.withMult (h : HeaderBitsLeft s n u) (m : BitVec 6) :
    HeaderBitsLeft s n { u with mult := m } where
  rem := h.rem
  ptr := h.ptr
  src := h.src
  short := h.short
  srcLen := h.srcLen
  rbuf := h.rbuf
  prevM := h.prevM

/-- A field of 6 bits that is read leaves 6 fewer to the end of SRC. -/
theorem HeaderBitsLeft.moved {t : State} (h : HeaderBitsLeft s (n + 6) u) (hm : CursorMoved u t)
    (hr : t.rem.toNat ≤ 7) (hdrop : unreadBits t = (unreadBits u).drop 6) (h6 : 6 ≤ (unreadBits u).length) :
    HeaderBitsLeft s n t where
  toReadable := h.toReadable.moved hm hr
  short := by
    have hshort := h.short
    rw [hdrop, List.length_drop]
    omega
  srcLen := (congrArg State.srcLen hm.eq).trans h.srcLen
  rbuf := (congrArg State.rbuf hm.eq).trans h.rbuf
  prevM := (congrArg State.prevM hm.eq).trans h.prevM

/-- Reading a field of 6 bits ends in Truncated, or goes on to the next with 6 bits fewer. -/
theorem HeaderBitsLeft.readField {β : Type} {k : Nat → State → Read β} (h : HeaderBitsLeft s (n + 6) u)
    (hk : ∀ v t, HeaderBitsLeft s n t → EndsRaised (HeaderTruncated s) (k v t)) :
    EndsRaised (HeaderTruncated s) (readThen (readBits 6 u) k) := by
  by_cases h6 : 6 ≤ (unreadBits u).length
  · obtain ⟨t, hgot, hdrop, hmoved, hrem, -, -⟩ := readBits_got (by decide) (by decide) h.rem h.src h6
    rw [hgot]
    exact hk _ t (h.moved hmoved hrem hdrop h6)
  · obtain ⟨c, hraised⟩ := readBits_raised (by decide) (by decide) h.rem h.ptr h.src (Nat.lt_of_not_le h6)
    rw [hraised]
    exact ⟨_, rfl, rfl, rfl, congrArg (· ++ (0 : BitVec 4)) h.srcLen, h.rbuf, h.prevM⟩

/-- A header has three fields, so with fewer than 18 bits one of them is cut (42_scaletracker.md R160). -/
theorem HeaderBitsLeft.readHeader (h : HeaderBitsLeft s 18 u) : EndsRaised (HeaderTruncated s) (readHeader u) := by
  refine h.readField (n := 12) fun m t ht => ?_
  refine (ht.withMult (BitVec.ofNat 6 m)).readField (n := 6) fun _ t ht => ?_
  exact ht.readField (n := 0) fun _ t ht => absurd ht.short (Nat.not_lt_zero _)

theorem engineStep_bandHdr (hb : s.status.busy = true) (hp : s.pos = .bandHdr) :
    engineStep s = runRead (readHeader s) bandHeader := by
  rw [← runStream_header]
  unfold engineStep slotAt
  rw [if_pos hb, hp]

/-- Settles O49: the reading of the header raises, so BANDHDR is not run. -/
theorem headerCutShortIsTruncated : Obligations.HeaderCutShortIsTruncated := by
  intro s hb hp hrem hptr hsrc hshort
  have hleft : HeaderBitsLeft s 18 s := ⟨⟨hrem, hptr, hsrc⟩, hshort, rfl, rfl, rfl⟩
  obtain ⟨t, hraised, ht⟩ := hleft.readHeader
  refine ⟨t, ?_, ht.status, ht.pos, ht.info, ht.rbuf, ht.prevM⟩
  rw [engineStep_bandHdr hb hp, hraised]
  rfl

end Sys2Proof.Machine
end

section
/-! PROOF. The quiescent phases and hardware reset (60_exceptions.md R250; 70_reset_and_hazards.md R260; 10_state.md
R40). -/

namespace Sys2Proof.Machine

variable {s : State}

/-- Phases IDLE, DONE and FAULT: the engine does nothing (R250). -/
theorem engineStep_quiescent (hb : s.status.busy = false) : engineStep s = .next s :=
  if_neg (by rw [hb]; decide)

theorem step_noMove (hm : s.hostMoves = []) : step s = engineStep s := by
  unfold step turn
  rw [hm]

theorem step_engineTurn {rest : List HostMove} (hm : s.hostMoves = .engineTurn :: rest) :
    step s = engineStep { s with hostMoves := rest } := by
  unfold step turn
  rw [hm]

/-- Settles O45: in both forms the turn is the engine's. -/
theorem quiescentPhasesChangeNothing : Obligations.QuiescentPhasesChangeNothing := by
  intro s hb
  refine ⟨fun hm => ?_, fun rest hm => ?_⟩
  · rw [step_noMove hm, engineStep_quiescent hb]
  · rw [step_engineTurn hm]
    exact engineStep_quiescent hb

/-- Settles O46: the step is the reset, after which HUFF and CURVE list nothing, so they read as built. -/
theorem hardwareResetBringsPhaseIdle : Obligations.HardwareResetBringsPhaseIdle := by
  intro s rest hm
  refine ⟨hardwareReset { s with hostMoves := rest }, step_hostMove hm nofun, rfl, rfl, rfl, rfl, ?huff, ?curve,
    rfl, rfl, rfl⟩
  case huff => exact fun k i _ => readHuff_of_nil rfl k i
  case curve => exact fun v => readCurve_of_nil rfl v

end Sys2Proof.Machine
end

section
/-! PROOF. No step changes the parameters or the tables (60_exceptions.md R239; 41_huffman.md R146; 20_memory.md R68):
no operation but INIT and hardware reset writes HUFF or CURVE, and these two leave them as built. -/

namespace Sys2Proof.Machine

/-! ## The parameters and the tables -/

/-- The parameters, and what HUFF and CURVE list. -/
def tables (s : State) : Config × Store HuffEntry × Store Half :=
  (s.cfg, s.huff, s.curve)

/-- The parameters are `c`, and HUFF and CURVE are as built (10_state.md R40). -/
def AsBuilt (c : Config) (s : State) : Prop :=
  tables s = (c, [], [])

variable {c : Config} {s t : State}

theorem asBuilt_iff : AsBuilt c s ↔ s.cfg = c ∧ s.huff = [] ∧ s.curve = [] := by
  simp [AsBuilt, tables]

theorem AsBuilt.frame (h : AsBuilt c s) (ht : tables t = tables s) : AsBuilt c t :=
  ht.trans h

/-! ## What the operations write -/

theorem tables_oneRepeat (s : State) : tables (oneRepeat s) = tables s := by
  rw [oneRepeat_eq]
  rfl

theorem tables_stepAdded (v : Int) (s : State) : tables (stepAdded v s) = tables s := by
  rw [stepAdded_eq]
  rfl

theorem tables_groupEnd (s : State) : tables (groupEnd s) = tables s := by
  rw [groupEnd_eq_atPos]
  rfl

theorem tables_raise (f : RunFault) (s : State) : tables (raise f s) = tables s := by
  rw [raise_eq]
  rfl

/-- A literal or residual token writes one cell at most. -/
theorem tables_token (v : Int) (s : State) :
    tables (tokenDone (if s.keep then writeGroupCell s s.tok v else s)) = tables s := by
  rw [tokenDone_eq]
  split <;> rfl

theorem tables_rowGroupEntry (g : BitVec 2) (s : State) : tables (rowGroupEntry g s) = tables s := by
  obtain ⟨rb, heq, -⟩ := rowGroupEntry_eq g s
  rw [heq, tables_groupEnd]
  rfl

theorem tables_checker (s : State) : tables (checker s) = tables s := by
  rw [checker_eq]
  split <;> rfl

/-! ## The items of the stream -/

/-- The same state on both sides, with property `P`: what two runs have in common, read as what one run keeps. -/
def Diagonal (P : State → Prop) (s t : State) : Prop :=
  t = s ∧ P s

theorem Diagonal.map {P : State → Prop} (h : Diagonal P s t) (f : State → State) (hf : P s → P (f s)) :
    Diagonal P (f s) (f t) :=
  ⟨congrArg f h.1, hf h.2⟩

theorem Follows.leads_of_diagonal {P : State → Prop} {r : Result} (h : Follows (Diagonal P) r r) : Leads P r := by
  intro t ht
  obtain ⟨_, -, -, hp⟩ := h t ht
  exact hp

/-- A run group writes no table, wherever its cells lie. -/
theorem twins_asBuilt (c : Config) : Twins (Diagonal (AsBuilt c)) (Diagonal (AsBuilt c)) (Diagonal (AsBuilt c)) where
  weaken _ _ h := h
  col _ _ h := congrArg State.col h.1
  keep _ _ h hk := ⟨congrArg State.keep h.1 ▸ hk, congrArg halfWidth h.1⟩
  counters _ _ h := ⟨congrArg State.nreps h.1, congrArg State.rep h.1⟩
  startChunk _ _ n h := h.map (startChunk n) fun hs => hs
  oneRepeat s _ h := h.map oneRepeat fun hs => hs.frame (tables_oneRepeat s)
  withRep _ _ r h := h.map (withRep r) fun hs => hs
  stepPos _ _ h := h.map (atPos .step) fun hs => hs
  nrepsPos _ _ h := h.map (atPos .nreps) fun hs => hs
  groupEnd s _ h := h.map groupEnd fun hs => hs.frame (tables_groupEnd s)

/-- A code word writes no table, whatever its table and value. -/
theorem AsBuilt.execUnlisted (h : AsBuilt c s) (k : Nat) (v : Byte) : Leads (AsBuilt c) (execUnlisted k v s) := by
  have hd : Diagonal (AsBuilt c) s s := ⟨rfl, h⟩
  have token (x : Int) := hd.map (fun u => tokenDone (if u.keep then writeGroupCell u u.tok x else u))
    fun hs => hs.frame (tables_token x s)
  exact ((twins_asBuilt c).execUnlisted (fun _ => ⟨⟨rfl, h⟩, fun _ => ⟨rfl, h⟩, ⟨rfl, h⟩⟩) (fun _ => hd)
    (fun _ => ⟨hd, fun a => hd.map (stepAdded a) fun hs => hs.frame (tables_stepAdded a s)⟩)
    (fun _ _ r => resToken_follows r rfl (fun hk => ⟨hk, rfl⟩) (token _))
    (fun _ => litToken_follows v rfl (fun hk => ⟨hk, rfl⟩) (token _))).leads_of_diagonal

/-- BANDHDR (42_scaletracker.md R160) writes no table, with its fault or without. -/
theorem AsBuilt.bandHeader (h : AsBuilt c s) (m : BitVec 6) : Leads (AsBuilt c) (bandHeader m s) := by
  unfold Machine.bandHeader
  split
  · exact .next (AsBuilt.frame (s := { s with mult := m }) h (tables_raise _ _))
  · exact .next h

/-- Reading the stream writes no table, with its fault or without. -/
theorem readerKeeps_asBuilt (c : Config) : ReaderKeeps (AsBuilt c) (AsBuilt c) where
  refill _ _ h _ _ _ := h
  take _ h _ := h
  raised s h _ _ := h.frame (tables_raise .truncated s)

/-! ## The sequence's own operations -/

/-- INIT builds the tables anew (46_sequencer.md R221). -/
theorem AsBuilt.runInit (h : AsBuilt c s) : Leads (AsBuilt c) (runInit s) := by
  have hcfg := (asBuilt_iff.1 h).1
  have hstores : AsBuilt c (initStores s) := asBuilt_iff.2 ⟨hcfg, rfl, rfl⟩
  rw [runInit_eq]
  split
  · exact .next (hstores.frame (tables_raise .truncated _))
  · split
    · exact .fault _
    · exact .next (asBuilt_iff.2 ⟨hcfg, rfl, rfl⟩)

theorem AsBuilt.runPrimitive (h : AsBuilt c s) : Leads (AsBuilt c) (runPrimitive s) := by
  unfold Machine.runPrimitive
  cases s.pos with
  | init => exact h.runInit
  | rowGroup g => exact .next (h.frame (tables_rowGroupEntry g s))
  | carry => exact .next (by rw [carry_eq_atPos]; exact h)
  | checker => exact .next (h.frame (tables_checker s))
  | _ => exact .next h

/-! ## One step -/

theorem AsBuilt.engineStep (h : AsBuilt c s) : Leads (AsBuilt c) (engineStep s) := by
  unfold Machine.engineStep
  split
  · split
    next sl _ =>
      cases sl with
      | header =>
        exact (readerKeeps_asBuilt c).runHeader (fun _ _ hs => hs) (fun _ hs => hs) (fun m _ hs => hs.bandHeader m) h
      | code k => exact (readerKeeps_asBuilt c).runCode h (fun _ hs => hs) fun v _ hs => hs.execUnlisted k v
    next => exact h.runPrimitive
  · exact .next h

/-- START writes no table, with its faults or without (46_sequencer.md R220). -/
theorem AsBuilt.acceptStart (h : AsBuilt c s) : AsBuilt c (acceptStart s) := by
  have hlatched : AsBuilt c (latched s) := h
  rw [acceptStart_eq]
  split
  · exact hlatched.frame (tables_raise .invalidGeometry _)
  split
  · exact hlatched.frame (tables_raise .outOfMemory _)
  · exact hlatched

theorem AsBuilt.hostRegister (h : AsBuilt c s) {write : State → State} (hw : AsBuilt c (write s)) :
    AsBuilt c (hostRegister s write) := by
  unfold Machine.hostRegister
  split
  · exact h
  · exact hw

/-- A host move writes no table but by hardware reset, which leaves them as built (70_reset_and_hazards.md R260). -/
theorem AsBuilt.hostMove (h : AsBuilt c s) (m : HostMove) : Leads (AsBuilt c) (hostMove m s) := by
  cases m with
  | engineTurn => exact .next h
  | writeWidth v => exact .next (h.hostRegister h)
  | writeHeight v => exact .next (h.hostRegister h)
  | writeSrcLen v => exact .next (h.hostRegister h)
  | writeCfaTile v => exact .next (h.hostRegister h)
  | hardwareReset => exact .next (asBuilt_iff.2 ⟨(asBuilt_iff.1 h).1, rfl, rfl⟩)
  | writeSrc a b =>
    show Leads (AsBuilt c) (hostWriteSrc a b s)
    unfold hostWriteSrc
    split
    · exact .refused _
    · exact .next h
  | writeCtrl start =>
    show Leads (AsBuilt c) (hostStart start s)
    unfold hostStart
    split
    · exact .next h
    split
    · exact .next h.acceptStart
    · exact .refused _

theorem AsBuilt.step (h : AsBuilt c s) : Leads (AsBuilt c) (step s) := by
  have withMoves (rest : List HostMove) : AsBuilt c { s with hostMoves := rest } := h
  unfold Machine.step turn
  split
  · exact h.engineStep
  next rest _ => exact (withMoves rest).engineStep
  next m rest _ _ => exact (withMoves rest).hostMove m

/-- Settles O50: every table is read from the parameters and from what HUFF and CURVE list, and a step keeps these. -/
theorem noStepChangesTheTables : Obligations.NoStepChangesTheTables := by
  intro s t hhuff hcurve ht
  have hs : AsBuilt s.cfg s := asBuilt_iff.2 ⟨rfl, hhuff, hcurve⟩
  obtain ⟨hcfg, hhuff', hcurve'⟩ := asBuilt_iff.1 (hs.step t ht)
  refine ⟨hcfg, fun k i => ?_, fun v => ?_, fun m => by rw [hcfg]⟩
  · rw [readHuff_of_nil hhuff', readHuff_of_nil hhuff, hcfg]
  · rw [readCurve_of_nil hcurve', readCurve_of_nil hcurve, hcfg]

end Sys2Proof.Machine
end
